-- ==== Sys2Proof/Word.lean ====
section
/-! DEFINITION. The machine's words. A register is 32 bits, a pair 64, memory is bytes (R5, R68). -/

namespace Sys2Proof

/-- A register of 32 bits. -/
abbrev Word := BitVec 32

/-- A byte of memory. -/
abbrev Byte := BitVec 8

/-- A pair of registers, an address or a device time. -/
abbrev DWord := BitVec 64

end Sys2Proof
end

