-- ==== Sys2Proof/Syntax.lean ====
section
/-! DEFINITION. The syntax: the fields of an instruction word and of its extension words (R32 to R38),
and one constructor for every row of the opcode table. An instruction row carries its raw fields, so
that an illegal field value can be met at issue (R62); an event row carries what the event names. -/

namespace Sys2Proof

/-- The fields of an instruction word below `OP` (R32): guard, destination, first and second source. -/
structure W1 where
  g : BitVec 4
  d : BitVec 7
  a : BitVec 7
  b : BitVec 7
  deriving DecidableEq, Repr, Inhabited

/-- EXT-A (R35). -/
structure ExtA where
  c : BitVec 7
  rnd : BitVec 3
  ovf : BitVec 2
  bsel : BitVec 2
  na : Bool
  nc : Bool
  cnd : BitVec 4
  slot : BitVec 3
  sen : Bool
  fn : BitVec 8
  deriving DecidableEq, Repr, Inhabited

/-- EXT-M (R36). -/
structure ExtM where
  off : BitVec 18
  size : BitVec 3
  sem : BitVec 2
  scope : BitVec 3
  slot : BitVec 3
  cache : BitVec 3
  deriving DecidableEq, Repr, Inhabited

/-- EXT-T (R37). -/
structure ExtT where
  c : BitVec 7
  aop : BitVec 4
  type : BitVec 4
  scope : BitVec 3
  sem : BitVec 2
  slot : BitVec 3
  off : BitVec 9
  deriving DecidableEq, Repr, Inhabited

/-- EXT-E (R38). -/
structure ExtE where
  c : BitVec 7
  fn : BitVec 9
  slot : BitVec 3
  imm : BitVec 13
  deriving DecidableEq, Repr, Inhabited

/-- What a peer asks of the home of a location of this module (R231, R270). -/
inductive PeerReq where
  /-- a load of `size` bytes -/
  | load (pa size : Nat)
  /-- a store of bytes -/
  | store (pa : Nat) (bytes : List Byte)
  /-- a fabric-scope ATOM or RED: operation and type codes, operand bytes -/
  | atomic (pa aop type : Nat) (operand : List Byte)
  /-- a fabric-scope CAS: type code, new bytes, compare bytes -/
  | cas (pa type : Nat) (new compare : List Byte)
  deriving DecidableEq, Repr, Inhabited

/-- One constructor per row of the opcode table: the instructions, and the part's own events. -/
inductive Instr where
  /-- CHOOSE_RUN (R142). A scheduler picks an eligible candidate, forms its issue group and issues the whole run, one word per clk. -/
  | chooseRun (sched : Nat)
  /-- NOP (R110). Does nothing. -/
  | nop (w : W1)
  /-- IADD (R103). 32-bit add modulo 2^32. -/
  | iadd (w : W1)
  /-- ISUB (R103). 32-bit subtract modulo 2^32. -/
  | isub (w : W1)
  /-- IMUL (R103). Low 32 bits of the product. -/
  | imul (w : W1)
  /-- IMULH (R103). High 32 bits of the signed 64-bit product. -/
  | imulh (w : W1)
  /-- IMULHU (R103). High 32 bits of the unsigned 64-bit product. -/
  | imulhu (w : W1)
  /-- IMAD (R105). 32-bit multiply-add with optional negation of A and C. -/
  | imad (w : W1) (x : ExtA)
  /-- IMIN (R103). Signed minimum. -/
  | imin (w : W1)
  /-- IMAX (R103). Signed maximum. -/
  | imax (w : W1)
  /-- IMINU (R103). Unsigned minimum. -/
  | iminu (w : W1)
  /-- IMAXU (R103). Unsigned maximum. -/
  | imaxu (w : W1)
  /-- AND (R103). Bitwise AND. -/
  | and (w : W1)
  /-- OR (R103). Bitwise OR. -/
  | or (w : W1)
  /-- XOR (R103). Bitwise XOR. -/
  | xor (w : W1)
  /-- SHL (R103). Shift left; counts of 32 or more give 0. -/
  | shl (w : W1)
  /-- SHR (R103). Logical shift right; counts of 32 or more give 0. -/
  | shr (w : W1)
  /-- SAR (R103). Arithmetic shift right with sign fill. -/
  | sar (w : W1)
  /-- IADD64 (R104). 64-bit add of pairs. -/
  | iadd64 (w : W1)
  /-- ISUB64 (R104). 64-bit subtract of pairs. -/
  | isub64 (w : W1)
  /-- IMADW (R106). Widening signed or unsigned 32×32 multiply plus a 64-bit addend. -/
  | imadw (w : W1) (x : ExtA)
  /-- SEL (R109). Selects A or B by a predicate, on 32 bits or pairs. -/
  | sel (w : W1) (x : ExtA)
  /-- MOVI (R107). Writes a 32-bit immediate. -/
  | movi (w : W1) (imm : Word)
  /-- IADDI (R107). Adds a 32-bit immediate. -/
  | iaddi (w : W1) (imm : Word)
  /-- ICMP (R114). Integer compare writing a predicate pair. -/
  | icmp (w : W1) (x : ExtA)
  /-- BOOL3 (R111). Any bitwise function of three inputs, by truth table. -/
  | bool3 (w : W1) (x : ExtA)
  /-- DSH (R112). Funnel shift or rotate of a 64-bit concatenation. -/
  | dsh (w : W1) (x : ExtA)
  /-- BITF (R113). Bit-field function: population count, leading or trailing zeros, bit or byte reversal. -/
  | bitf (w : W1)
  /-- PBOOL (R115). Predicate logic by truth table, writing a predicate pair. -/
  | pbool (w : W1) (x : ExtA)
  /-- V2P (R116). Sets masked predicates from register bits. -/
  | v2p (w : W1)
  /-- P2V (R116). Writes p0–p11 into a register. -/
  | p2v (w : W1)
  /-- MOV (R108). Copies 32 bits and their poison. -/
  | mov (w : W1)
  /-- RDSP (R117). Reads a special value such as team, grid, core or predicate state. -/
  | rdsp (w : W1)
  /-- FADD_F32 (R121). F32 add, rounded to nearest even. -/
  | faddF32 (w : W1)
  /-- FSUB_F32 (R121). F32 subtract, rounded to nearest even. -/
  | fsubF32 (w : W1)
  /-- FMUL_F32 (R121). F32 multiply, rounded to nearest even. -/
  | fmulF32 (w : W1)
  /-- FFMA_F32 (R123). F32 fused multiply-add in a chosen rounding mode. -/
  | ffmaF32 (w : W1) (x : ExtA)
  /-- FMIN_F32 (R122). F32 minimum with NaN and signed-zero rules. -/
  | fminF32 (w : W1)
  /-- FMAX_F32 (R122). F32 maximum with NaN and signed-zero rules. -/
  | fmaxF32 (w : W1)
  /-- FCMP_F32 (R124). F32 compare writing a predicate pair. -/
  | fcmpF32 (w : W1) (x : ExtA)
  /-- FUNA_F32 (R125). F32 unary function: negate, absolute value, rounding, class, saturate. -/
  | funaF32 (w : W1)
  /-- FADD_F64 (R121). F64 add, rounded to nearest even. -/
  | faddF64 (w : W1)
  /-- FSUB_F64 (R121). F64 subtract, rounded to nearest even. -/
  | fsubF64 (w : W1)
  /-- FMUL_F64 (R121). F64 multiply, rounded to nearest even. -/
  | fmulF64 (w : W1)
  /-- FFMA_F64 (R123). F64 fused multiply-add in a chosen rounding mode. -/
  | ffmaF64 (w : W1) (x : ExtA)
  /-- FMIN_F64 (R122). F64 minimum. -/
  | fminF64 (w : W1)
  /-- FMAX_F64 (R122). F64 maximum. -/
  | fmaxF64 (w : W1)
  /-- FCMP_F64 (R124). F64 compare writing a predicate pair. -/
  | fcmpF64 (w : W1) (x : ExtA)
  /-- FUNA_F64 (R125). F64 unary function. -/
  | funaF64 (w : W1)
  /-- PKADD (R126). Packed F16 or BF16 add per half. -/
  | pkadd (w : W1) (x : ExtA)
  /-- PKMUL (R126). Packed-half multiply. -/
  | pkmul (w : W1) (x : ExtA)
  /-- PKFMA (R126). Packed-half fused multiply-add. -/
  | pkfma (w : W1) (x : ExtA)
  /-- PKMIN (R126). Packed-half minimum. -/
  | pkmin (w : W1) (x : ExtA)
  /-- PKMAX (R126). Packed-half maximum. -/
  | pkmax (w : W1) (x : ExtA)
  /-- PKCMP (R127). Packed-half compare combined into a predicate pair. -/
  | pkcmp (w : W1) (x : ExtA)
  /-- SFU (R128). Issues a long-latency special function: reciprocal, root, exponential, logarithm, trig, tanh, sigmoid. -/
  | sfu (w : W1) (x : ExtA)
  /-- FDIV (R129). Issues a correctly rounded long-latency division. -/
  | fdiv (w : W1) (x : ExtA)
  /-- FSQRT (R129). Issues a correctly rounded long-latency square root. -/
  | fsqrt (w : W1) (x : ExtA)
  /-- SFU_COMPLETE (R120). An SFU, FDIV or FSQRT result arrives, clears its pending bits and decrements its slot. -/
  | sfuComplete (op : Nat)
  /-- CVT (R132). Converts one value between formats, with optional scale and C4 codebook source. -/
  | cvt (w : W1) (x : ExtA)
  /-- CVTN (R133). Packs two or four narrowed conversions into one register. -/
  | cvtn (w : W1) (x : ExtA)
  /-- CVTW (R134). Unpacks and widens packed elements into a pair or quad. -/
  | cvtw (w : W1) (x : ExtA)
  /-- CBLOAD (R135). Issues one 32-byte load into a team codebook slot for the issue group. -/
  | cbload (w : W1) (x : ExtE)
  /-- CBLOAD_COMPLETE (R135). The codebook load completes: all 16 entries written at once, or the slot poisoned with the fault record; the slot decrements. -/
  | cbloadComplete (op : Nat)
  /-- CBLU (R137). Decodes C4 codes through a codebook slot to BF16. -/
  | cblu (w : W1) (x : ExtA)
  /-- DOT2 (R138). Two-term dot product plus addend with one rounding. -/
  | dot2 (w : W1) (x : ExtA)
  /-- SHFL (R169). Shuffles values between lanes of the issue group. -/
  | shfl (w : W1) (x : ExtA)
  /-- XGATH (R170). Gathers a word from another lane's register window. -/
  | xgath (w : W1) (x : ExtA)
  /-- VOTE (R171). ANY, ALL or BALLOT of a predicate over participants. -/
  | vote (w : W1) (x : ExtA)
  /-- MATCH (R172). Mask of participants holding an equal value. -/
  | matchLanes (w : W1) (x : ExtA)
  /-- COMPACT (R173). Rank and total of participants with a true predicate. -/
  | compact (w : W1) (x : ExtA)
  /-- REDX (R176). Segmented cross-lane reduction. -/
  | redx (w : W1) (x : ExtA)
  /-- SCANX (R176). Segmented inclusive or exclusive cross-lane scan. -/
  | scanx (w : W1) (x : ExtA)
  /-- LD (R217). Issues a load of 1–16 bytes from a generic address; a fault poisons the destination. -/
  | ld (w : W1) (x : ExtM)
  /-- HOME_READ (R225). A demand read or renewal reaches the line's home and is served with a new lease. -/
  | homeRead (op : Nat)
  /-- LOAD_COMPLETE (R216). Load data or poison is written, pending bits clear and the slot decrements. -/
  | loadComplete (op : Nat)
  /-- ST (R219). Issues a store of 1–16 bytes to a generic address; faults are precise. -/
  | st (w : W1) (x : ExtM)
  /-- STORE_PERFORM (R226). A store is performed at its home, which computes its GWCT and revokes long leases. -/
  | storePerform (op : Nat)
  /-- REVOCATION_RECEIVE (R226). An L1 or RDC copy receives a revocation, invalidates itself and acknowledges. -/
  | revocationReceive (rev holder : Nat)
  /-- REVOCATION_ACK (R226). The last revocation acknowledgement reaches the home and the final GWCT is returned. -/
  | revocationAck (rev : Nat)
  /-- RELEASE_COMPLETE (R240). A release completes once earlier accesses, the release clock, CFLUSHes and fabric window allow. -/
  | releaseComplete (op : Nat)
  /-- LDS (R217). Issues a scratchpad load. -/
  | lds (w : W1) (x : ExtM)
  /-- STS (R219). Issues a scratchpad store. -/
  | sts (w : W1) (x : ExtM)
  /-- LDLN (R218). Issues a 256-byte line load, eight bytes per lane. -/
  | ldln (w : W1) (x : ExtM)
  /-- ATOM (R266). Issues an atomic read-modify-write returning the old value. -/
  | atom (w : W1) (x : ExtT)
  /-- CAS (R266). Issues a compare-and-swap returning the old value. -/
  | cas (w : W1) (x : ExtT)
  /-- RED (R266). Issues an atomic reduction with no return. -/
  | red (w : W1) (x : ExtT)
  /-- ATOMIC_PERFORM (R269). A merged atomic request is performed at its place as the serial execution of its lanes. -/
  | atomicPerform (op : Nat)
  /-- ATOMIC_COMPLETE (R272). An atomic completes for a thread, raising its release clock. -/
  | atomicComplete (op : Nat)
  /-- ATOMICOP_COMPLETION (R264). The host completes a PCIe AtomicOp; any non-success status poisons D or posts a record. -/
  | atomicopCompletion (op : Nat) (ok : Bool)
  /-- FENCE (R250). Issues a release, acquire or sequentially consistent fence at a scope. -/
  | fence (w : W1) (x : ExtM)
  /-- FENCE_COMPLETE (R250). The fence completes and takes its place in the sc order. -/
  | fenceComplete (op : Nat)
  /-- PREF (R220). Prefetches a line without faulting. -/
  | pref (w : W1) (x : ExtM)
  /-- CFLUSH (R221). Starts writing a host-noncoherent range back to the host and invalidating it. -/
  | cflush (w : W1) (x : ExtM)
  /-- CFLUSH_COMPLETE (R221). The host acknowledges every flushed write and the CFLUSH completes. -/
  | cflushComplete (op : Nat)
  /-- SLEEPT (R222). Sets a wake time; the thread waits from run end. -/
  | sleept (w : W1)
  /-- SLEEP_WAKE (R222). Device time reaches a sleeping thread's wake time and it becomes eligible. -/
  | sleepWake (th : Nat)
  /-- FERRY_COPY (R278). Issues a Ferry copy command. -/
  | ferryCopy (w : W1) (x : ExtE)
  /-- FERRY_MCAST (R284). Issues a Ferry multicast to gang members' scratchpads. -/
  | ferryMcast (w : W1) (x : ExtE)
  /-- FERRY_GATHER (R282). Issues a bounds-checked Ferry gather. -/
  | ferryGather (w : W1) (x : ExtE)
  /-- FERRY_SCATTER (R282). Issues a bounds-checked Ferry scatter. -/
  | ferryScatter (w : W1) (x : ExtE)
  /-- FERRY_EXP24 (R282). Issues a 2:4 sparse expansion. -/
  | ferryExp24 (w : W1) (x : ExtE)
  /-- FERRY_CMP24 (R282). Issues a 2:4 sparse compression. -/
  | ferryCmp24 (w : W1) (x : ExtE)
  /-- FERRY_TIER (R285). Installs the team's tier schedule. -/
  | ferryTier (w : W1) (x : ExtE)
  /-- FERRY_ACCEPT (R280). Once a queue entry and lock entries are free, the block is copied, checked and the command accepted with a promise. -/
  | ferryAccept (op : Nat)
  /-- FERRY_CHUNK_COMPLETE (R282). A chunk's writes are performed and its chunk bit is set as a team-scope release. -/
  | ferryChunkComplete (cmd chunk : Nat)
  /-- FERRY_CHUNK_FAULT (R283). A chunk access faults; the command stops, writes STATE 3 and posts its record. -/
  | ferryChunkFault (cmd chunk : Nat)
  /-- FWAIT_TEST (R287). Tests a chunk-map word against a mask into a predicate pair. -/
  | fwaitTest (w : W1) (x : ExtE)
  /-- FWAIT_WAIT (R287). Parks the thread at run end until the chunk-map condition holds. -/
  | fwaitWait (w : W1) (x : ExtE)
  /-- FWAIT_WAITP (R287). As WAIT, but with a promise time. -/
  | fwaitWaitp (w : W1) (x : ExtE)
  /-- FWAIT_PROMISE_MISSED (R287). Device time reaches the promise before the condition holds; the thread traps 0x0B. -/
  | fwaitPromiseMissed (th : Nat)
  /-- LMARK (R286). Announces a layer and issues tier entries up to the lookahead. -/
  | lmark (w : W1) (x : ExtE)
  /-- MXOP (R300). Arrives at a crew matrix-operation collective. -/
  | mxop (w : W1) (x : ExtE)
  /-- MXDRAIN_REGS (R305). Arrives at a drain of tile word rows into crew registers. -/
  | mxdrainRegs (w : W1) (x : ExtE)
  /-- MXDRAIN_SCRATCH (R305). Arrives at a drain of tile rows into scratchpad chunks. -/
  | mxdrainScratch (w : W1) (x : ExtE)
  /-- MXDRAIN_PEER (R306). Arrives at a drain that adds into a peer tile in arrival order. -/
  | mxdrainPeer (w : W1) (x : ExtE)
  /-- MXDRAIN_PEERORD (R307). Arrives at a drain that adds into a peer tile in rank order. -/
  | mxdrainPeerord (w : W1) (x : ExtE)
  /-- MXPOD (R320). Arrives at a crew collective that runs pod-format rows. -/
  | mxpod (w : W1) (x : ExtE)
  /-- MXREL_ONE (R308). Arrives at a collective releasing one accumulator tile. -/
  | mxrelOne (w : W1) (x : ExtE)
  /-- MXREL_ALL (R308). Arrives at a collective releasing all the crew's tiles. -/
  | mxrelAll (w : W1) (x : ExtE)
  /-- ENGINE_GRANT (R309). The engine grants the next reservation entry by class, age and core number. -/
  | engineGrant (cluster : Nat)
  /-- ENGINE_PASS_COMPLETE (R302). An MXOP pass updates the tile and writes STATE 2; fragment registers clear. -/
  | enginePassComplete (pass : Nat)
  /-- DRAIN_PASS_COMPLETE (R305). A drain pass writes registers, scratchpad chunks or sends peer rows, applies CLRA and writes STATE. -/
  | drainPassComplete (pass : Nat)
  /-- POD_PASS_COMPLETE (R323). A pod pass runs its rows into the tile, or fails with the tile unchanged. -/
  | podPassComplete (pass : Nat)
  /-- POD_TRAP_DELIVER (R324). The elected thread takes trap 0x12 at its next boundary or park. -/
  | podTrapDeliver (th : Nat)
  /-- PEER_ADD_ARRIVE (R306). Peer rows reach the target engine and post an add pass, or the drain fails. -/
  | peerAddArrive (pass : Nat)
  /-- PEERORD_APPLY (R307). A waiting ordered drain whose rank equals NEXT is applied and NEXT advances. -/
  | peerordApply (pass : Nat)
  /-- MXREL_RELEASE (R308). After earlier passes end, the tiles return to the engine and MXREL completes. -/
  | mxrelRelease (team crew coll : Nat)
  /-- BRA (R156). Relative branch to a run header. -/
  | bra (w : W1) (imm : Word)
  /-- BRX (R156). Branch to the address in a pair. -/
  | brx (w : W1)
  /-- CALL (R156). Relative call writing the fall-through address. -/
  | call (w : W1) (imm : Word)
  /-- CALLX (R156). Call through a pair writing the fall-through address. -/
  | callx (w : W1)
  /-- RET (R156). Returns to the address in a pair. -/
  | ret (w : W1)
  /-- EXIT (R158). Ends the thread at run end. -/
  | exit (w : W1)
  /-- BAR_SYNC (R160). Arrives at a barrier and waits for the phase. -/
  | barSync (w : W1) (x : ExtE)
  /-- BAR_ARRIVE (R160). Arrives at a barrier without waiting. -/
  | barArrive (w : W1) (x : ExtE)
  /-- BAR_WAIT (R160). Waits for the phase after an earlier arrival. -/
  | barWait (w : W1) (x : ExtE)
  /-- LAUNCH (R163). Claims a launch-queue entry and starts copying a packet. -/
  | launch (w : W1) (x : ExtE)
  /-- LAUNCH_COMPLETE (R163). The packet copy ends with STATE 1, or the claim is cancelled with STATE 0x80 and D poisoned. -/
  | launchComplete (op : Nat)
  /-- SVC (R164). Posts a service request to the mailbox. -/
  | svc (w : W1) (x : ExtE)
  /-- TRAP (R165). Takes user trap 0x17. -/
  | trap (w : W1) (x : ExtE)
  /-- MAILBOX_POST (R342). A trap, service or event record takes a mailbox entry, after waiting for room if needed. -/
  | mailboxPost (post : Nat)
  /-- TOWREC (R336). Claims or re-arms a recording. -/
  | towrec (w : W1) (x : ExtE)
  /-- TOWITER (R336). Resets the release count and marks an iteration boundary. -/
  | towiter (w : W1) (x : ExtE)
  /-- TOWPLAY (R336). Moves a RECORDED recording to PLAYING. -/
  | towplay (w : W1) (x : ExtE)
  /-- TOWSTOP (R336). Stops recording or playing. -/
  | towstop (w : W1) (x : ExtE)
  /-- TOWSTAT (R337). Returns a snapshot of a recording. -/
  | towstat (w : W1) (x : ExtE)
  /-- TOWDROP (R336). Frees a recording. -/
  | towdrop (w : W1) (x : ExtE)
  /-- PUSH_INSTALL (R332). A pushed sector arrives and is installed with a lease and read count, or absorbed as used. -/
  | pushInstall (push : Nat)
  /-- MAPSYNC (R192). Reads leaves and installs exceptions so translation matches the map. -/
  | mapsync (w : W1) (x : ExtE)
  /-- MAPSYNC_COMPLETE (R193). No access of the old generation is in flight; MAPSYNC writes its status. -/
  | mapsyncComplete (op : Nat)
  /-- REFIT (R197). Requests a refit pass over a range. -/
  | refit (w : W1) (x : ExtE)
  /-- REFIT_PASS_PUBLISH (R196). The refitter publishes new segments and adjusts exceptions in one step. -/
  | refitPassPublish (refit : Nat)
  /-- XLQ (R200). Queries one translation. -/
  | xlq (w : W1) (x : ExtE)
  /-- MBXRD (R347). Reads the oldest unread mailbox record. -/
  | mbxrd (w : W1) (x : ExtE)
  /-- MBXRD_COMPLETE (R347). An unread entry exists; the record is copied and D written. -/
  | mbxrdComplete (op : Nat)
  /-- MBXWR (R348). Replies RESUME, SKIP, RETRY, TERMINATE or RETURN to an entry. -/
  | mbxwr (w : W1) (x : ExtE)
  /-- LOCKWAIT_RETRY (R348). A LOCKWAIT retry resumes when no lock covers the access. -/
  | lockwaitRetry (th : Nat)
  /-- CTX_SAVE (R351). Writes a stopped team's context and frees its resources. -/
  | ctxSave (w : W1) (x : ExtE)
  /-- CTX_LOAD (R351). Places a saved context on a core. -/
  | ctxLoad (w : W1) (x : ExtE)
  /-- CTX_PREEMPT (R351). Starts stopping a team. -/
  | ctxPreempt (w : W1) (x : ExtE)
  /-- CTX_RESUME (R351). Restarts a stopped gang. -/
  | ctxResume (w : W1) (x : ExtE)
  /-- CTX_ABORT (R354). Aborts a gang. -/
  | ctxAbort (w : W1) (x : ExtE)
  /-- TEAM_STOPPED (R352). Every thread stops and work drains; the team is STOPPED and PREEMPT completes. -/
  | teamStopped (team : Nat)
  /-- SRMOV_READ (R355). Reads a system register. -/
  | srmovRead (w : W1) (x : ExtE)
  /-- SRMOV_WRITE (R355). Writes a system register after a device-scope release. -/
  | srmovWrite (w : W1) (x : ExtE)
  /-- LQCLAIM (R147). A host read claims a launch-queue entry and advances the tail. -/
  | lqclaim (q : Nat)
  /-- PACKET_TAKE (R149). The V9 takes the head packet once STATE reads 1, writes STATE 2 and checks it. -/
  | packetTake (q : Nat)
  /-- DEPENDENCE_READ (R153). The dependence word is read; it proceeds once the word reaches DEPV. -/
  | dependenceRead (grid : Nat)
  /-- TEAM_PLACE (R154). A team is placed on a core that can hold it. -/
  | teamPlace (grid : Nat)
  /-- TEAM_START (R20). After reclaim, all the team's groups start their first run. -/
  | teamStart (team : Nat)
  /-- GRID_COMPLETE (R153). The completion-word increment ends and STATE becomes 5 or 6. -/
  | gridComplete (grid : Nat)
  /-- LEASE_EXPIRE (R225). A copy's lease expires; an unread pushed copy counts in UNUSED. -/
  | leaseExpire (lvl key : Nat)
  /-- SCRUB_VISIT (R235). The scrubber invalidates expired lines. -/
  | scrubVisit (lvl key : Nat)
  /-- CACHE_WAKE (R236). A cache waking from long sleep invalidates every leased line. -/
  | cacheWake (lvl place slept : Nat)
  /-- TIME_FAULT_START (R233). A die's time stalls or drifts; its caches drop leases and event 0x21 is posted. -/
  | timeFaultStart (die : Nat)
  /-- TIME_FAULT_END (R233). The die's counter agrees within 8 ns; event 0x22 is posted. -/
  | timeFaultEnd (die : Nat)
  /-- DESYNCHRONISE (R234). The 1588 offset exceeds the guard band; fabric-scope operations trap 0x1A. -/
  | desynchronise (offset : Int)
  /-- RESYNCHRONISE (R234). The offset returns within the band; waiting fabric releases proceed. -/
  | resynchronise (offset : Int)
  /-- HOST_MEM_READ (R357). A host CXL.mem read is performed at the home slice. -/
  | hostMemRead (pa size : Nat)
  /-- HOST_MEM_WRITE (R357). A host CXL.mem write is performed, revoking leases before acknowledgement. -/
  | hostMemWrite (pa : Nat) (bytes : List Byte)
  /-- HOST_ATOMICOP_REQUEST (R357). A host AtomicOp to the V9 completes as Unsupported Request. -/
  | hostAtomicopRequest (pa : Nat)
  /-- HOST_SNOOP (R229). A host snoop makes the proxy RDC revoke L1 copies and answer. -/
  | hostSnoop (hpa : Nat) (bytes : List Byte)
  /-- FEATURE_NEGOTIATION (R360). A write of FACK 1 makes the V9 accept or refuse the enabled features. -/
  | featureNegotiation
  /-- CXLIO_REGISTER_WRITE (R360). A host write to a CXL.io register without behaviour of its own. -/
  | cxlioRegisterWrite (off : Nat) (v : BitVec 64)
  /-- CXL_PORT_DOWN (R365). A port goes down; its host lines are poisoned or invalidated and event 0x19 is posted. -/
  | cxlPortDown (port : Nat)
  /-- CXL_PORT_UP (R365). A port returns; poisoned lines go to the host as CXL poison. -/
  | cxlPortUp (port : Nat)
  /-- LINK_PARTNER_DETECT (R363). A link in DETECT sees a partner and enters EQUALIZE. -/
  | linkPartnerDetect (link lanes : Nat)
  /-- LINK_EQUALIZED (R363). Lanes pass training and the link enters IDENT. -/
  | linkEqualized (link rtt : Nat)
  /-- LINK_IDENT (R363). Peer identity arrives; agreement enters TIMESYNC, otherwise DOWN. -/
  | linkIdent (link peer fwin : Nat) (feat : BitVec 64) (roleOk : Bool)
  /-- LINK_TIMESYNC (R363). Offset within 64 ns makes the link ACTIVE or DEGRADED. -/
  | linkTimesync (link : Nat) (offset : Int)
  /-- LINK_LANE_FAIL (R363). A lane fails and the link becomes DEGRADED. -/
  | linkLaneFail (link lanes : Nat)
  /-- LINK_RETRAINED (R363). All 8 lanes are retrained and the link becomes ACTIVE. -/
  | linkRetrained (link : Nat)
  /-- LINK_TIMEOUT (R363). No lane up for 1,000 ns takes the link DOWN. -/
  | linkTimeout (link : Nat)
  /-- FLIT_RECEIVE (R362). A flit is received on a virtual lane. -/
  | flitReceive (link vl : Nat)
  /-- PAUSE_FLIT (R362). A received pause flit stops sending on that lane. -/
  | pauseFlit (link vl : Nat)
  /-- RESUME_FLIT (R362). A received resume flit restarts sending. -/
  | resumeFlit (link vl : Nat)
  /-- PEER_REQUEST (R231). A peer's load, store or fabric-scope atomic is performed at the home. -/
  | peerRequest (link : Nat) (req : PeerReq)
  /-- RESET (R366). Reset starts the verified start-up sequence. -/
  | reset (fw cfg : Bool) (badChannels : List Nat)
  /-- SUPERVISOR_LOAD (R366). The driver loads the supervisor image, which is verified and started on every core. -/
  | supervisorLoad (entry : BitVec 64) (ok : Bool)
  /-- CORE_FAULT (R354). An uncorrectable core error fences the core and aborts its gangs. -/
  | coreFault (core : Nat)
  /-- SOFT_ERROR_CORRECTED (R368). A corrected soft error counts in RASCE. -/
  | softErrorCorrected
  /-- POWER_LIMIT_REACHED (R368). Power or temperature at the limit lowers the clock. -/
  | powerLimitReached
  /-- UNCORRECTABLE_SOFT_ERROR (R368). An uncorrectable soft error in a cache or GDDR7 device marks the affected sector poisoned in memory and counts in RASUE. -/
  | uncorrectableSoftError (space sector : Nat)
  /-- XLQ_COMPLETE (R200). The translation query completes, writes its quad clean, clears the pending bits and decrements its slot. -/
  | xlqComplete (op : Nat)
  /-- TOWLINE_REQUEST_SERVED (R335). The module's Towline control serves a queued Towline request in arrival order, applies its effect, writes D and decrements its slot. -/
  | towlineRequestServed (op : Nat)
  /-- CONTEXT_SAVE_COMPLETE (R351). The context of a stopped team has been written to the save area at memory rate; slots, scratchpad and tiles are given back and CTX SAVE writes its status. -/
  | contextSaveComplete (op : Nat)
  /-- CONTEXT_LOAD_COMPLETE (R351). A saved context has been read and checked and is placed as STOPPED, or rejected with status 3, 4 or 5, and CTX LOAD writes its status. -/
  | contextLoadComplete (op : Nat)
  /-- PREF_COMPLETE (R220). A prefetch completes when its line is filled, with any read count, or when the request is dropped, and its slot decrements. -/
  | prefComplete (op : Nat)
  /-- PEER_ADD_PASS_COMPLETE (R306). An unordered peer add pass at the target engine adds the sent rows into the target tile, and the issuing drain learns that the add has been applied so it can write STATE 2. -/
  | peerAddPassComplete (pass : Nat)
  /-- RESUME_FLIT_SEND (R362). A receiver whose virtual-lane free space has risen to twice one round trip's bytes sends a resume flit. -/
  | resumeFlitSend (link vl : Nat)
  /-- SIGNED_FIRMWARE_UPDATE (R366). In recovery mode the device accepts a signed firmware update. -/
  | signedFirmwareUpdate (ok : Bool)
  deriving DecidableEq, Repr, Inhabited

end Sys2Proof
end

