-- ==== Sys2Proof/Machine/Encoding.lean ====
section
/-! DEFINITION. What the encoding says of an instruction: its opcode, its words, which fields are legal
(R62 item 4), how many registers each operand field names, which feature gates it (R63), and what the
opcode alone decides: extension layout, class, flow-ending (R33, R46 to R50). -/

namespace Sys2Proof

/-- The extension word of an instruction, by layout (R33). -/
inductive Ext where
  | none
  | i (imm : Word)
  | a (x : ExtA)
  | m (x : ExtM)
  | t (x : ExtT)
  | e (x : ExtE)
  deriving DecidableEq, Repr, Inhabited

/-- Everything the encoding fixes about one instruction. `nd na nb nc` are the numbers of registers
that the operand fields name: 0 where the field names none, 1 a register, 2 a pair, 4 a quad. -/
structure Info where
  op : Nat
  w : W1
  ext : Ext
  enc : Bool
  nd : Nat
  na : Nat
  nb : Nat
  nc : Nat
  feat : Option Nat
  deriving DecidableEq, Repr, Inhabited

/-! ### Legal register codes (R40, R41, R94) -/

/-- Field unused: must hold 120 (R42). -/
def un (c : BitVec 7) : Bool := c.toNat == 120
/-- A register that may be written: codes 121 to 127 may not (R40). -/
def wrOk (c : BitVec 7) : Bool := c.toNat ≤ 120
/-- A pair code (R41). -/
def pairOk (c : BitVec 7) : Bool := c.toNat == 120 || (c.toNat < 120 && c.toNat % 2 == 0)
/-- A quad code (R41). -/
def quadOk (c : BitVec 7) : Bool := c.toNat == 120 || (c.toNat < 120 && c.toNat % 4 == 0)
/-- No k register: a long-latency destination (R94). -/
def noK (c : BitVec 7) : Bool := c.toNat < 112 || 120 ≤ c.toNat
/-- A long-latency destination of n registers (R94). -/
def longOk (n : Nat) (c : BitVec 7) : Bool :=
  noK c && (if n == 1 then wrOk c else if n == 2 then pairOk c else quadOk c)
/-- A readable operand of n registers. -/
def rdOk (n : Nat) (c : BitVec 7) : Bool :=
  if n == 2 then pairOk c else if n == 4 then quadOk c else true
/-- A writable operand of n registers that completes within its issue. -/
def wdOk (n : Nat) (c : BitVec 7) : Bool :=
  if n == 2 then pairOk c else if n == 4 then quadOk c else wrOk c
/-- A predicate pair index (R43). -/
def ppOk (c : BitVec 7) : Bool := c.toNat ≤ 5
/-- A predicate operand code (R43). -/
def predOk (c : BitVec 4) : Bool := c.toNat ≤ 12
/-- An integer compare condition (R45). -/
def icndOk (c : BitVec 4) : Bool := c.toNat ≤ 9
/-- A float compare condition (R45). -/
def fcndOk (c : BitVec 4) : Bool := c.toNat ≤ 5 || c.toNat == 10 || c.toNat == 11
/-- A rounding mode (R35). -/
def rndOk (r : BitVec 3) : Bool := r.toNat ≤ 4

/-- EXT-A with `SLOT` and `SEN` zero (R102) and the fields named false by the caller at zero. -/
def xaOk (x : ExtA) (rnd ovf bsel na nc cnd : Bool) : Bool :=
  (rnd || x.rnd == 0) && (ovf || x.ovf == 0) && (bsel || x.bsel == 0) && (na || !x.na) && (nc || !x.nc)
    && (cnd || x.cnd == 0)
/-- Completes within its issue: `SLOT` and `SEN` zero (R39). -/
def noSlot (x : ExtA) : Bool := x.slot == 0 && !x.sen
/-- EXT-A of the opcodes that use none of its middle fields but `C` and `FN`. -/
def xaPlain (x : ExtA) : Bool := noSlot x && xaOk x false false false false false false

/-! ### Formats (R44, R56, R57) -/

/-- Bits of a format code (R44, R67, R69); C4 codes are 4 bits. -/
def fmtBits (f : Nat) : Nat :=
  match f with
  | 0 | 1 | 4 => 32
  | 2 | 3 | 5 => 64
  | 6 | 7 | 13 | 14 => 16
  | 10 => 4
  | _ => 8
/-- Registers that a value of a format takes (R119, R132). -/
def fmtRegs (f : Nat) : Nat := if fmtBits f == 64 then 2 else 1
/-- Registers of an atomic or scan type (R56, R265). -/
def typeRegs (t : Nat) : Nat := if t == 2 || t == 3 || t == 5 then 2 else if t == 8 then 4 else 1
/-- Registers that a memory access size takes (R214). -/
def sizeRegs (z : Nat) : Nat := if z == 3 then 2 else if z == 4 then 4 else 1
/-- The pairings of `AOP` and `TYPE` (R57). -/
def aopOk (aop ty : Nat) : Bool :=
  match aop with
  | 0 | 1 | 2 | 6 => ty ≤ 7
  | 3 | 4 | 5 => ty ≤ 3
  | 7 | 8 => ty == 1 || ty == 3
  | _ => false
/-- Operation and type of REDX and SCANX (R55, R174). -/
def redOk (fn : BitVec 8) (excl : Bool) : Bool :=
  let op := fn.toNat % 8
  let ty := fn.toNat / 16
  op ≤ 5 && ty ≤ 5 && (op < 3 || ty ≤ 3) && (excl || (fn.toNat / 8) % 2 == 0)
def redType (fn : BitVec 8) : Nat := fn.toNat / 16

/-- The listed system registers (R355, R361). -/
def srOk (n : Nat) : Bool :=
  n ≤ 2 || (0x100 ≤ n && n ≤ 0x105) || (0x110 ≤ n && n ≤ 0x113) || (0x200 ≤ n && n ≤ 0x308) || n == 0x30A
    || (0x310 ≤ n && n ≤ 0x321) || n == 0x330 || n == 0x331 || n == 0x340 || n == 0x341

/-! ### Memory and engine fields (R36, R37, R58, R212) -/

def scopeOk (s : BitVec 3) : Bool := s.toNat ≤ 4
/-- A scope of fabric needs the fabric feature (R63). -/
def scopeFeat (s : BitVec 3) : Option Nat := if s.toNat == 3 then some 2 else none
/-- `B` names the read count when `CACHE` is rc and is unused otherwise (R212). -/
def rcOk (w : W1) (x : ExtM) : Bool := x.cache.toNat == 1 || un w.b
def rcRegs (x : ExtM) : Nat := if x.cache.toNat == 1 then 1 else 0
/-- Format bits of MXOP by shape (R59). -/
def mxopFnOk (fn : BitVec 9) : Bool :=
  let f := fn.toNat
  let shape := f % 16
  shape ≤ 4 && f / 64 == 0 &&
    (shape == 0 || (shape == 2 && f / 32 == 0) || (f / 16 == 0))
def mxopFeat (fn : BitVec 9) : Option Nat :=
  if fn.toNat % 16 == 3 then some 7 else if fn.toNat % 16 == 4 then some 5 else none
/-- Conversion sources and destinations of CVT (R132). -/
def cvtDst (fn : BitVec 8) : Nat := fn.toNat / 16
def cvtSrc (fn : BitVec 8) : Nat := fn.toNat % 16
def isF32or64 (f : Nat) : Bool := f == 4 || f == 5
def is16 (f : Nat) : Bool := f == 6 || f == 7 || f == 13 || f == 14
def is8 (f : Nat) : Bool := f == 8 || f == 9 || f == 11 || f == 12
/-- No scale register: `BSEL` must be 0 (R130). -/
def scaleOk (x : ExtA) : Bool := !un x.c || x.bsel == 0
/-- The number of registers that a scale operand names. -/
def scaleRegs (x : ExtA) : Nat := if un x.c then 0 else 1

/-! ### Info of each instruction -/

/-- A one-word instruction. -/
def Info.n (op : Nat) (w : W1) (enc : Bool) (nd na nb : Nat) : Info := ⟨op, w, .none, enc, nd, na, nb, 0, none⟩
/-- An EXT-I instruction. -/
def Info.i (op : Nat) (w : W1) (imm : Word) (enc : Bool) (nd na : Nat) : Info := ⟨op, w, .i imm, enc, nd, na, 0, 0, none⟩
/-- An EXT-A instruction. -/
def Info.a (op : Nat) (w : W1) (x : ExtA) (enc : Bool) (nd na nb nc : Nat) (feat : Option Nat := none) : Info :=
  ⟨op, w, .a x, enc, nd, na, nb, nc, feat⟩
/-- An EXT-M instruction. -/
def Info.m (op : Nat) (w : W1) (x : ExtM) (enc : Bool) (nd na nb : Nat) : Info :=
  ⟨op, w, .m x, enc && scopeOk x.scope, nd, na, nb, 0, scopeFeat x.scope⟩
/-- An EXT-T instruction. -/
def Info.t (op : Nat) (w : W1) (x : ExtT) (enc : Bool) (nd nb nc : Nat) : Info :=
  ⟨op, w, .t x, enc && scopeOk x.scope && pairOk w.a, nd, 2, nb, nc, scopeFeat x.scope⟩
/-- An EXT-E instruction. -/
def Info.e (op : Nat) (w : W1) (x : ExtE) (enc : Bool) (nd na nb nc : Nat) (feat : Option Nat := none) : Info :=
  ⟨op, w, .e x, enc, nd, na, nb, nc, feat⟩

/-- The two-operand shape of R103. -/
def Info.alu (op : Nat) (w : W1) : Info := .n op w (wrOk w.d) 1 1 1
/-- The pair shape of R104 and of the F64 two-operand instructions. -/
def Info.alu64 (op : Nat) (w : W1) : Info := .n op w (pairOk w.d && pairOk w.a && pairOk w.b) 2 2 2
/-- FERRY in one of its functions (R280). -/
def Info.ferry (w : W1) (x : ExtE) (fn : Nat) : Info :=
  .e 0x58 w x (x.fn.toNat == fn && longOk 2 w.d && un w.b && un x.c && x.imm.toNat < 2) 2 1 0 0
/-- BAR in one of its forms (R159). -/
def Info.bar (w : W1) (x : ExtE) (form : Nat) : Info :=
  .e 0x66 w x (x.fn.toNat % 4 == form && x.fn.toNat < 16 && x.imm.toNat < 16 && x.slot == 0
    && un w.d && un w.a && un w.b && un x.c) 0 0 0 0
/-- MXDRAIN to a target other than REGS (R303). -/
def Info.drain (w : W1) (x : ExtE) (fn : Nat) (feat : Option Nat) : Info :=
  .e 0x5C w x (x.fn.toNat == fn && un w.d && un w.b && un x.c && x.imm.toNat < 16) 0 1 0 0 feat
/-- A Towline instruction that writes one status word (R336). -/
def Info.tow (op : Nat) (w : W1) (x : ExtE) : Info :=
  .e op w x (x.fn == 0 && x.imm.toNat < 16 && un x.c && longOk 1 w.d && un w.a && un w.b) 1 0 0 0 (some 0)
/-- CTX in one of its functions (R346, R351). -/
def Info.ctx (w : W1) (x : ExtE) (fn : Nat) : Info :=
  .e 0x7B w x (x.fn.toNat == fn && x.imm == 0 && un x.c && longOk 1 w.d && pairOk w.a) 1 2 1 0

/-- What the encoding fixes about an instruction; `none` for the part's own events. -/
def Instr.info (i : Instr) : Option Info :=
  match i with
  | .nop w => some (.n 0x00 w (un w.d && un w.a && un w.b) 0 0 0)
  | .iadd w => some (.alu 0x01 w)
  | .isub w => some (.alu 0x02 w)
  | .imul w => some (.alu 0x03 w)
  | .imulh w => some (.alu 0x04 w)
  | .imulhu w => some (.alu 0x05 w)
  | .imad w x => some (.a 0x06 w x (wrOk w.d && x.fn == 0 && noSlot x && xaOk x false false false true true false) 1 1 1 1)
  | .imin w => some (.alu 0x07 w)
  | .imax w => some (.alu 0x08 w)
  | .iminu w => some (.alu 0x09 w)
  | .imaxu w => some (.alu 0x0A w)
  | .and w => some (.alu 0x0B w)
  | .or w => some (.alu 0x0C w)
  | .xor w => some (.alu 0x0D w)
  | .shl w => some (.alu 0x0E w)
  | .shr w => some (.alu 0x0F w)
  | .sar w => some (.alu 0x10 w)
  | .iadd64 w => some (.alu64 0x11 w)
  | .isub64 w => some (.alu64 0x12 w)
  | .imadw w x => some (.a 0x13 w x (pairOk w.d && pairOk x.c && x.fn.toNat ≤ 1 && noSlot x
      && xaOk x false false false true true false) 2 1 1 2)
  | .sel w x =>
    let n := if x.fn == 1 then 2 else 1
    some (.a 0x14 w x (wdOk n w.d && rdOk n w.a && rdOk n w.b && un x.c && x.fn.toNat ≤ 1 && predOk x.cnd && noSlot x
      && xaOk x false false false false false true) n n n 0)
  | .movi w imm => some (.i 0x15 w imm (wrOk w.d && un w.a && un w.b) 1 0)
  | .iaddi w imm => some (.i 0x16 w imm (wrOk w.d && un w.b) 1 1)
  | .icmp w x =>
    let n := if x.fn == 1 then 2 else 1
    some (.a 0x17 w x (ppOk w.d && rdOk n w.a && rdOk n w.b && un x.c && x.fn.toNat ≤ 1 && icndOk x.cnd && noSlot x
      && xaOk x false false false false false true) 0 n n 0)
  | .bool3 w x => some (.a 0x18 w x (wrOk w.d && xaPlain x) 1 1 1 1)
  | .dsh w x => some (.a 0x19 w x (wrOk w.d && x.fn.toNat ≤ 3 && xaPlain x) 1 1 1 1)
  | .bitf w =>
    let f := w.b.toNat
    some (.n 0x1A w (f ≤ 8 && (if f == 8 then pairOk w.d else wrOk w.d) && (if 5 ≤ f then pairOk w.a else true))
      (if f == 8 then 2 else 1) (if 5 ≤ f then 2 else 1) 0)
  | .pbool w x => some (.a 0x1B w x (ppOk w.d && w.a.toNat ≤ 12 && w.b.toNat ≤ 12 && x.c.toNat ≤ 12 && xaPlain x) 0 0 0 0)
  | .v2p w => some (.n 0x1C w (un w.d) 0 1 1)
  | .p2v w => some (.n 0x1D w (wrOk w.d && un w.a && un w.b) 1 0 0)
  | .mov w => some (.n 0x1E w (wrOk w.d && un w.b) 1 1 0)
  | .rdsp w =>
    let f := w.b.toNat
    let n := if f == 3 || f == 16 || f == 17 then 2 else 1
    some (.n 0x1F w (un w.a && f ≤ 18 && wdOk n w.d) n 0 0)
  | .faddF32 w => some (.alu 0x20 w)
  | .fsubF32 w => some (.alu 0x21 w)
  | .fmulF32 w => some (.alu 0x22 w)
  | .ffmaF32 w x => some (.a 0x23 w x (wrOk w.d && x.fn == 0 && rndOk x.rnd && noSlot x
      && xaOk x true false false true true false) 1 1 1 1)
  | .fminF32 w => some (.alu 0x24 w)
  | .fmaxF32 w => some (.alu 0x25 w)
  | .fcmpF32 w x => some (.a 0x26 w x (ppOk w.d && un x.c && x.fn == 0 && fcndOk x.cnd && noSlot x
      && xaOk x false false false false false true) 0 1 1 0)
  | .funaF32 w => some (.n 0x27 w (wrOk w.d && w.b.toNat ≤ 7) 1 1 0)
  | .faddF64 w => some (.alu64 0x28 w)
  | .fsubF64 w => some (.alu64 0x29 w)
  | .fmulF64 w => some (.alu64 0x2A w)
  | .ffmaF64 w x => some (.a 0x2B w x (pairOk w.d && pairOk w.a && pairOk w.b && pairOk x.c && x.fn == 0 && rndOk x.rnd
      && noSlot x && xaOk x true false false true true false) 2 2 2 2)
  | .fminF64 w => some (.alu64 0x2C w)
  | .fmaxF64 w => some (.alu64 0x2D w)
  | .fcmpF64 w x => some (.a 0x2E w x (ppOk w.d && pairOk w.a && pairOk w.b && un x.c && x.fn == 0 && fcndOk x.cnd
      && noSlot x && xaOk x false false false false false true) 0 2 2 0)
  | .funaF64 w =>
    let n := if w.b.toNat == 6 then 1 else 2
    some (.n 0x2F w (wdOk n w.d && pairOk w.a && w.b.toNat ≤ 7) n 2 0)
  | .pkadd w x => some (.a 0x30 w x (wrOk w.d && un x.c && x.fn.toNat ≤ 1 && rndOk x.rnd && noSlot x
      && xaOk x true true false true false false) 1 1 1 0)
  | .pkmul w x => some (.a 0x31 w x (wrOk w.d && un x.c && x.fn.toNat ≤ 1 && rndOk x.rnd && noSlot x
      && xaOk x true true false true false false) 1 1 1 0)
  | .pkfma w x => some (.a 0x32 w x (wrOk w.d && x.fn.toNat ≤ 1 && rndOk x.rnd && noSlot x
      && xaOk x true true false true true false) 1 1 1 1)
  | .pkmin w x => some (.a 0x33 w x (wrOk w.d && un x.c && x.fn.toNat ≤ 1 && xaPlain x) 1 1 1 0)
  | .pkmax w x => some (.a 0x34 w x (wrOk w.d && un x.c && x.fn.toNat ≤ 1 && xaPlain x) 1 1 1 0)
  | .pkcmp w x => some (.a 0x35 w x (ppOk w.d && un x.c && x.fn.toNat ≤ 7 && fcndOk x.cnd && noSlot x
      && xaOk x false false false false false true) 0 1 1 0)
  | .sfu w x =>
    let n := if 8 ≤ x.fn.toNat then 2 else 1
    some (.a 0x36 w x (longOk n w.d && rdOk n w.a && un w.b && un x.c && x.fn.toNat ≤ 9 && x.sen
      && xaOk x false false false false false false) n n 0 0)
  | .fdiv w x =>
    let n := if x.fn == 1 then 2 else 1
    some (.a 0x37 w x (longOk n w.d && rdOk n w.a && rdOk n w.b && un x.c && x.fn.toNat ≤ 1 && rndOk x.rnd && x.sen
      && xaOk x true false false false false false) n n n 0)
  | .fsqrt w x =>
    let n := if x.fn == 1 then 2 else 1
    some (.a 0x38 w x (longOk n w.d && rdOk n w.a && un w.b && un x.c && x.fn.toNat ≤ 1 && rndOk x.rnd && x.sen
      && xaOk x true false false false false false) n n 0 0)
  | .cvt w x =>
    let dst := cvtDst x.fn
    let src := cvtSrc x.fn
    some (.a 0x39 w x (dst != 10 && dst != 15 && src != 15 && un w.b && wdOk (fmtRegs dst) w.d && rdOk (fmtRegs src) w.a
      && scaleOk x && rndOk x.rnd && (!isF32or64 dst || x.ovf == 0) && (if src == 10 then x.cnd.toNat < 8 else x.cnd == 0)
      && noSlot x && xaOk x true true true false false true) (fmtRegs dst) (fmtRegs src) 0 (scaleRegs x)
      (if src == 10 && dst != 10 then some 7 else none))
  | .cvtn w x =>
    let dst := cvtDst x.fn
    let src := cvtSrc x.fn
    let n := if is8 dst then 2 else 1
    some (.a 0x3A w x ((is16 dst || is8 dst) && (src == 4 || src == 0) && wrOk w.d && rdOk n w.a && rdOk n w.b
      && scaleOk x && rndOk x.rnd && noSlot x && xaOk x true true true false false false) 1 n n (scaleRegs x))
  | .cvtw w x =>
    let dst := cvtDst x.fn
    let src := cvtSrc x.fn
    let n := if is8 src then 4 else 2
    some (.a 0x3B w x ((is16 src || is8 src) && (dst == 4 || (dst == 0 && 11 ≤ src)) && un w.b && wdOk n w.d
      && scaleOk x && rndOk x.rnd && (dst != 4 || x.ovf == 0) && noSlot x && xaOk x true true true false false false)
      n 1 0 (scaleRegs x))
  | .cbload w x => some (.e 0x3C w x (un w.d && un w.b && un x.c && x.fn == 0 && x.imm.toNat < 8 && pairOk w.a) 0 2 0 0 (some 7))
  | .cblu w x =>
    let n := if x.fn == 4 then 4 else 1
    some (.a 0x3D w x (wdOk n w.d && un w.b && un x.c && x.fn.toNat ≤ 4 && x.cnd.toNat < 8 && noSlot x
      && xaOk x false false false false false true) n 1 0 0 (some 7))
  | .dot2 w x => some (.a 0x3E w x (wrOk w.d && x.fn.toNat ≤ 3 && rndOk x.rnd && (2 ≤ x.fn.toNat || x.ovf == 0) && noSlot x
      && xaOk x true true false true true false) 1 1 1 1)
  | .shfl w x =>
    let n := if 4 ≤ x.fn.toNat then 2 else 1
    some (.a 0x40 w x (wdOk n w.d && rdOk n w.a && un x.c && x.fn.toNat ≤ 7 && xaPlain x) n n 1 0)
  | .xgath w x => some (.a 0x41 w x (wrOk w.d && un x.c && 1 ≤ x.fn.toNat && x.fn.toNat ≤ 64 && w.a.toNat < 112
      && w.a.toNat + x.fn.toNat ≤ 112 && xaPlain x) 1 x.fn.toNat 1 0)
  | .vote w x => some (.a 0x42 w x (un w.a && un w.b && un x.c && x.fn.toNat ≤ 2 && (if x.fn.toNat ≤ 1 then ppOk w.d else wrOk w.d)
      && predOk x.cnd && noSlot x && xaOk x false false false false false true) (if x.fn.toNat ≤ 1 then 0 else 1) 0 0 0)
  | .matchLanes w x =>
    let n := if x.fn == 1 then 2 else 1
    some (.a 0x43 w x (wrOk w.d && rdOk n w.a && un w.b && un x.c && x.fn.toNat ≤ 1 && xaPlain x) 1 n 0 0)
  | .compact w x => some (.a 0x44 w x (pairOk w.d && un w.a && un w.b && un x.c && x.fn == 0 && predOk x.cnd && noSlot x
      && xaOk x false false false false false true) 2 0 0 0)
  | .redx w x =>
    let n := typeRegs (redType x.fn)
    some (.a 0x45 w x (wdOk n w.d && rdOk n w.a && un w.b && un x.c && redOk x.fn false && predOk x.cnd && noSlot x
      && xaOk x false false false false false true) n n 0 0)
  | .scanx w x =>
    let n := typeRegs (redType x.fn)
    some (.a 0x46 w x (wdOk n w.d && rdOk n w.a && un w.b && un x.c && redOk x.fn true && predOk x.cnd && noSlot x
      && xaOk x false false false false false true) n n 0 0)
  | .ld w x =>
    let n := sizeRegs x.size.toNat
    some (.m 0x48 w x (longOk n w.d && pairOk w.a && rcOk w x && x.size.toNat ≤ 4 && x.sem.toNat ≤ 1 && x.cache.toNat ≤ 4)
      n 2 (rcRegs x))
  | .st w x =>
    let n := sizeRegs x.size.toNat
    some (.m 0x49 w x (un w.d && pairOk w.a && rdOk n w.b && x.size.toNat ≤ 4 && (x.sem.toNat == 0 || x.sem.toNat == 2)
      && x.cache.toNat ≤ 4 && x.cache.toNat != 1) 0 2 n)
  | .lds w x =>
    let n := sizeRegs x.size.toNat
    some (.m 0x4A w x (longOk n w.d && un w.b && x.size.toNat ≤ 4 && x.sem.toNat ≤ 1 && x.cache == 0) n 1 0)
  | .sts w x =>
    let n := sizeRegs x.size.toNat
    some (.m 0x4B w x (un w.d && rdOk n w.b && x.size.toNat ≤ 4 && (x.sem.toNat == 0 || x.sem.toNat == 2) && x.cache == 0) 0 1 n)
  | .ldln w x => some (.m 0x4C w x (longOk 2 w.d && pairOk w.a && rcOk w x && x.size.toNat == 5 && x.sem.toNat ≤ 1
      && x.cache.toNat ≤ 4) 2 2 (rcRegs x))
  | .atom w x =>
    let n := typeRegs x.type.toNat
    some (.t 0x4D w x (longOk n w.d && rdOk n w.b && un x.c && aopOk x.aop.toNat x.type.toNat) n n 0)
  | .cas w x =>
    let n := typeRegs x.type.toNat
    some (.t 0x4E w x (longOk n w.d && rdOk n w.b && rdOk n x.c && x.aop == 0 && (x.type.toNat ≤ 5 || x.type.toNat == 8)) n n n)
  | .red w x =>
    let n := typeRegs x.type.toNat
    some (.t 0x4F w x (un w.d && rdOk n w.b && un x.c && aopOk x.aop.toNat x.type.toNat && x.sem.toNat != 1) 0 n 0)
  | .fence w x => some (.m 0x50 w x (un w.d && un w.a && un w.b && x.off == 0 && x.size == 0 && x.cache == 0) 0 0 0)
  | .pref w x => some (.m 0x51 w x (un w.d && pairOk w.a && rcOk w x && x.size == 0 && x.sem == 0 && x.cache.toNat ≤ 4) 0 2 (rcRegs x))
  | .cflush w x => some (.m 0x52 w x (un w.d && pairOk w.a && x.size == 0 && x.sem == 0 && x.cache == 0) 0 2 1)
  | .sleept w => some (.n 0x53 w (un w.d && un w.b && pairOk w.a) 0 2 0)
  | .ferryCopy w x => some (.ferry w x 0)
  | .ferryMcast w x => some (.ferry w x 1)
  | .ferryGather w x => some (.ferry w x 2)
  | .ferryScatter w x => some (.ferry w x 3)
  | .ferryExp24 w x => some (.ferry w x 4)
  | .ferryCmp24 w x => some (.ferry w x 5)
  | .ferryTier w x => some (.ferry w x 6)
  | .fwaitTest w x => some (.e 0x59 w x (x.fn.toNat == 0 && x.imm == 0 && x.slot == 0 && ppOk w.d && un x.c) 0 1 1 0)
  | .fwaitWait w x => some (.e 0x59 w x (x.fn.toNat == 1 && x.imm == 0 && x.slot == 0 && un w.d && un x.c) 0 1 1 0)
  | .fwaitWaitp w x => some (.e 0x59 w x (x.fn.toNat == 2 && x.imm == 0 && x.slot == 0 && un w.d && pairOk x.c) 0 1 1 2)
  | .lmark w x => some (.e 0x5A w x (x.fn == 0 && x.imm == 0 && un w.d && un w.b && un x.c) 0 1 0 0)
  | .mxop w x => some (.e 0x5B w x (un w.d && w.a.toNat < 112 && w.a.toNat % 4 == 0 && w.b.toNat < 112 && w.b.toNat % 4 == 0
      && mxopFnOk x.fn && x.imm.toNat < 32) 0 0 0 1 (mxopFeat x.fn))
  | .mxdrainRegs w x => some (.e 0x5C w x (x.fn.toNat == 0 && w.d.toNat % 4 == 0 && w.d.toNat + 31 ≤ 111 && un w.b && un x.c
      && x.imm.toNat < 16) 32 1 0 0)
  | .mxdrainScratch w x => some (.drain w x 1 none)
  | .mxdrainPeer w x => some (.drain w x 2 none)
  | .mxdrainPeerord w x => some (.drain w x 3 (some 6))
  | .mxpod w x => some (.e 0x5D w x (x.fn == 0 && un w.d && un w.b && un x.c && x.imm.toNat < 16) 0 1 0 0 (some 1))
  | .mxrelOne w x => some (.e 0x5E w x (x.fn.toNat == 0 && un w.d && un w.a && un w.b && un x.c && x.imm.toNat < 16) 0 0 0 0)
  | .mxrelAll w x => some (.e 0x5E w x (x.fn.toNat == 1 && un w.d && un w.a && un w.b && un x.c && x.imm == 0) 0 0 0 0)
  | .bra w imm => some (.i 0x60 w imm (un w.d && un w.a && un w.b && imm.toNat % 4 == 0) 0 0)
  | .brx w => some (.n 0x61 w (un w.d && un w.b && pairOk w.a) 0 2 0)
  | .call w imm => some (.i 0x62 w imm (pairOk w.d && un w.a && un w.b && imm.toNat % 4 == 0) 2 0)
  | .callx w => some (.n 0x63 w (pairOk w.d && pairOk w.a && un w.b) 2 2 0)
  | .ret w => some (.n 0x64 w (un w.d && un w.b && pairOk w.a) 0 2 0)
  | .exit w => some (.n 0x65 w (un w.d && un w.a && un w.b) 0 0 0)
  | .barSync w x => some (.bar w x 0)
  | .barArrive w x => some (.bar w x 1)
  | .barWait w x => some (.bar w x 2)
  | .launch w x => some (.e 0x67 w x (x.fn == 0 && x.imm.toNat < 64 && un w.b && un x.c && pairOk w.a && longOk 1 w.d) 1 2 0 0)
  | .svc w x => some (.e 0x68 w x (x.fn == 0 && longOk 1 w.d) 1 1 1 1)
  | .trap w x => some (.e 0x69 w x (x.fn == 0 && x.slot == 0 && un w.d && un w.b && un x.c) 0 1 0 0)
  | .towrec w x => some (.e 0x70 w x (x.fn == 0 && x.imm.toNat < 16 && un x.c && longOk 1 w.d) 1 1 1 0 (some 0))
  | .towiter w x => some (.e 0x71 w x (x.fn == 0 && x.imm.toNat < 16 && un x.c && un w.d && un w.a && un w.b) 0 0 0 0 (some 0))
  | .towplay w x => some (.tow 0x72 w x)
  | .towstop w x => some (.tow 0x73 w x)
  | .towstat w x => some (.e 0x74 w x (x.fn == 0 && x.imm.toNat < 16 && un x.c && longOk 4 w.d && un w.a && un w.b) 4 0 0 0 (some 0))
  | .towdrop w x => some (.tow 0x75 w x)
  | .mapsync w x => some (.e 0x76 w x (x.fn == 0 && x.imm == 0 && longOk 1 w.d && pairOk w.a) 1 2 1 1)
  | .refit w x => some (.e 0x77 w x (x.fn == 0 && x.imm == 0 && longOk 1 w.d && pairOk w.a) 1 2 1 1)
  | .xlq w x => some (.e 0x78 w x (x.fn == 0 && x.imm == 0 && longOk 4 w.d && pairOk w.a && un w.b) 4 2 0 1)
  | .mbxrd w x => some (.e 0x79 w x (x.fn == 0 && x.imm == 0 && longOk 1 w.d && pairOk w.a && un w.b && un x.c) 1 2 0 0)
  | .mbxwr w x => some (.e 0x7A w x (x.fn == 0 && x.imm == 0 && longOk 1 w.d && pairOk x.c) 1 1 1 2)
  | .ctxSave w x => some (.ctx w x 0)
  | .ctxLoad w x => some (.ctx w x 1)
  | .ctxPreempt w x => some (.ctx w x 2)
  | .ctxResume w x => some (.ctx w x 3)
  | .ctxAbort w x => some (.ctx w x 4)
  | .srmovRead w x => some (.e 0x7E w x (x.fn.toNat == 0 && longOk 2 w.d && un w.a && un w.b && un x.c && srOk x.imm.toNat) 2 0 0 0)
  | .srmovWrite w x => some (.e 0x7E w x (x.fn.toNat == 1 && un w.d && pairOk w.a && un w.b && un x.c && srOk x.imm.toNat) 0 2 0 0)
  | .chooseRun _ | .sfuComplete _ | .cbloadComplete _ | .homeRead _ | .loadComplete _ | .storePerform _
  | .revocationReceive _ _ | .revocationAck _ | .releaseComplete _ | .atomicPerform _ | .atomicComplete _
  | .atomicopCompletion _ _ | .fenceComplete _ | .cflushComplete _ | .sleepWake _ | .ferryAccept _
  | .ferryChunkComplete _ _ | .ferryChunkFault _ _ | .fwaitPromiseMissed _ | .engineGrant _ | .enginePassComplete _
  | .drainPassComplete _ | .podPassComplete _ | .podTrapDeliver _ | .peerAddArrive _ | .peerordApply _
  | .mxrelRelease _ _ _ | .launchComplete _ | .mailboxPost _ | .pushInstall _ | .mapsyncComplete _
  | .refitPassPublish _ | .mbxrdComplete _ | .lockwaitRetry _ | .teamStopped _ | .lqclaim _ | .packetTake _
  | .dependenceRead _ | .teamPlace _ | .teamStart _ | .gridComplete _ | .leaseExpire _ _ | .scrubVisit _ _
  | .cacheWake _ _ _ | .timeFaultStart _ | .timeFaultEnd _ | .desynchronise _ | .resynchronise _
  | .hostMemRead _ _ | .hostMemWrite _ _ | .hostAtomicopRequest _ | .hostSnoop _ _ | .featureNegotiation
  | .cxlioRegisterWrite _ _ | .cxlPortDown _ | .cxlPortUp _ | .linkPartnerDetect _ _ | .linkEqualized _ _
  | .linkIdent _ _ _ _ _ | .linkTimesync _ _ | .linkLaneFail _ _ | .linkRetrained _ | .linkTimeout _
  | .flitReceive _ _ | .pauseFlit _ _ | .resumeFlit _ _ | .peerRequest _ _ | .reset _ _ _ | .supervisorLoad _ _
  | .coreFault _ | .softErrorCorrected | .powerLimitReached | .uncorrectableSoftError _ _ | .xlqComplete _
  | .towlineRequestServed _ | .contextSaveComplete _ | .contextLoadComplete _ | .prefComplete _
  | .peerAddPassComplete _ | .resumeFlitSend _ _ | .signedFirmwareUpdate _ => none

/-- The part's own events: they have no words. -/
def Instr.isEvent (i : Instr) : Bool := i.info.isNone

/-! ### What the opcode alone decides (R33, R46 to R50) -/

/-- Extension layouts of the opcode map. -/
inductive ExtKind where
  | none | i | a | m | t | e
  deriving DecidableEq, Repr, Inhabited

/-- Reserved opcodes: the dashes of R46. -/
def opReserved (op : Nat) : Bool :=
  op == 0x3F || op == 0x47 || (0x54 ≤ op && op ≤ 0x57) || op == 0x5F || (0x6A ≤ op && op ≤ 0x6F) || op == 0x7F

/-- The extension layout of an opcode (R33, R46). -/
def opExt (op : Nat) : ExtKind :=
  if op == 0x15 || op == 0x16 || op == 0x60 || op == 0x62 then .i
  else if op == 0x06 || op == 0x13 || op == 0x14 || op == 0x17 || op == 0x18 || op == 0x19 || op == 0x1B
    || op == 0x23 || op == 0x26 || op == 0x2B || op == 0x2E || (0x30 ≤ op && op ≤ 0x3B) || op == 0x3D || op == 0x3E
    || (0x40 ≤ op && op ≤ 0x46) then .a
  else if (0x48 ≤ op && op ≤ 0x4C) || (0x50 ≤ op && op ≤ 0x52) then .m
  else if 0x4D ≤ op && op ≤ 0x4F then .t
  else if op == 0x3C || (0x58 ≤ op && op ≤ 0x5E) || (0x66 ≤ op && op ≤ 0x69) || (0x70 ≤ op && op ≤ 0x7B) || op == 0x7E then .e
  else .none

/-- Instruction classes (R47). -/
inductive Class where
  | alu | mem | xln | eng | ctl | sys
  deriving DecidableEq, Repr, Inhabited

/-- The class of an opcode (R47); a reserved opcode belongs to none. -/
def opClass (op : Nat) : Option Class :=
  if opReserved op then none
  else if op == 0x3C then some .mem
  else if op ≤ 0x3E then some .alu
  else if 0x40 ≤ op && op ≤ 0x46 then some .xln
  else if (0x48 ≤ op && op ≤ 0x53) || op == 0x78 then some .mem
  else if (0x58 ≤ op && op ≤ 0x5E) || (0x70 ≤ op && op ≤ 0x75) then some .eng
  else if 0x60 ≤ op && op ≤ 0x69 then some .ctl
  else if op == 0x76 || op == 0x77 || (0x79 ≤ op && op ≤ 0x7B) || op == 0x7E then some .sys
  else none

/-- Which classes a run of header class `c` may hold (R49); a reserved opcode is allowed everywhere. -/
def runHolds (c : Nat) (k : Option Class) : Bool :=
  match k with
  | none => true
  | some k =>
    match c with
    | 0 => k == .alu || k == .ctl
    | 1 => k == .mem || k == .alu
    | 2 => k == .xln || k == .alu
    | 3 => k == .eng || k == .alu || k == .mem
    | 4 => k == .ctl || k == .alu
    | 5 => true
    | _ => false

/-- Flow-ending opcodes (R48). -/
def opFlowEnd (op : Nat) : Bool := 0x60 ≤ op && op ≤ 0x66

/-- Supervisor-only opcodes (R50). -/
def opSup (op : Nat) : Bool := op == 0x76 || op == 0x77 || (0x79 ≤ op && op ≤ 0x7B) || op == 0x7E

/-- `OP` of an instruction word (R32). -/
def opOf (w : Word) : Nat := w.toNat / 2 ^ 25

end Sys2Proof
end

