-- ==== Sys2Proof/WellFormed.lean ====
section
/-! DEFINITION. Well-formed instructions: every field holds a value that the encoding admits (R62 item 4),
so that the instruction never traps 0x02 by its encoding alone. The checks themselves stand in
Machine/Encoding.lean. A well-formed event names units that exist. -/

namespace Sys2Proof

/-- Legal guard codes (R32). -/
def guardOk (g : BitVec 4) : Bool := g.toNat ≤ 12

/-- Units that exist (R4, R339, R362): what an event's arguments may name. -/
def eventOk (i : Instr) : Bool :=
  match i with
  | .chooseRun s => s < 768
  | .engineGrant c => c < 48
  | .lqclaim q | .packetTake q => q < 64
  | .timeFaultStart d | .timeFaultEnd d => d < 4
  | .cxlPortDown p | .cxlPortUp p => p < 2
  | .linkPartnerDetect l n | .linkLaneFail l n => l < 18 && n ≤ 8
  | .linkEqualized l _ | .linkIdent l _ _ _ _ | .linkTimesync l _ | .linkRetrained l | .linkTimeout l
  | .peerRequest l _ => l < 18
  | .flitReceive l v | .pauseFlit l v | .resumeFlit l v | .resumeFlitSend l v => l < 18 && v < 3
  | .coreFault c => c < 192
  | _ => true

/-- Well-formedness of an instruction or event. -/
def Instr.wf (i : Instr) : Bool :=
  match i.info with
  | some f => f.enc && guardOk f.w.g
  | none => eventOk i

end Sys2Proof
end

