-- ==== Sys2Proof/Decode.lean ====
section
/-! DEFINITION. The decoder: instruction words to instructions, total, refusing by name; and the encoder,
written from the same layouts (R32 to R38, R46). Also the run header (R30). -/

namespace Sys2Proof

/-- Why words do not decode. `reserved`: an opcode without an instruction (trap 0x01). `badFn`: a minor
function that names no instruction (trap 0x02). `headerWord`: `OP` 0x7C or 0x7D (R60, trap 0x03).
`short`: the extension word is missing (R60, trap 0x03). -/
inductive DecodeError where
  | reserved | badFn | headerWord | short
  deriving DecidableEq, Repr, Inhabited

/-- Bits `lo` up to `lo + n - 1` of a number. -/
def fld (w lo n : Nat) : Nat := w / 2 ^ lo % 2 ^ n

/-- The fields of an instruction word (R32). -/
def w1Of (w : Word) : W1 :=
  { g := BitVec.ofNat 4 (fld w.toNat 21 4), d := BitVec.ofNat 7 (fld w.toNat 14 7),
    a := BitVec.ofNat 7 (fld w.toNat 7 7), b := BitVec.ofNat 7 (fld w.toNat 0 7) }

/-- EXT-A (R35). -/
def extAOf (w : Word) : ExtA :=
  { c := BitVec.ofNat 7 (fld w.toNat 25 7), rnd := BitVec.ofNat 3 (fld w.toNat 22 3), ovf := BitVec.ofNat 2 (fld w.toNat 20 2),
    bsel := BitVec.ofNat 2 (fld w.toNat 18 2), na := w.toNat.testBit 17, nc := w.toNat.testBit 16,
    cnd := BitVec.ofNat 4 (fld w.toNat 12 4), slot := BitVec.ofNat 3 (fld w.toNat 9 3), sen := w.toNat.testBit 8,
    fn := BitVec.ofNat 8 (fld w.toNat 0 8) }

/-- EXT-M (R36). -/
def extMOf (w : Word) : ExtM :=
  { off := BitVec.ofNat 18 (fld w.toNat 14 18), size := BitVec.ofNat 3 (fld w.toNat 11 3), sem := BitVec.ofNat 2 (fld w.toNat 9 2),
    scope := BitVec.ofNat 3 (fld w.toNat 6 3), slot := BitVec.ofNat 3 (fld w.toNat 3 3), cache := BitVec.ofNat 3 (fld w.toNat 0 3) }

/-- EXT-T (R37). -/
def extTOf (w : Word) : ExtT :=
  { c := BitVec.ofNat 7 (fld w.toNat 25 7), aop := BitVec.ofNat 4 (fld w.toNat 21 4), type := BitVec.ofNat 4 (fld w.toNat 17 4),
    scope := BitVec.ofNat 3 (fld w.toNat 14 3), sem := BitVec.ofNat 2 (fld w.toNat 12 2), slot := BitVec.ofNat 3 (fld w.toNat 9 3),
    off := BitVec.ofNat 9 (fld w.toNat 0 9) }

/-- EXT-E (R38). -/
def extEOf (w : Word) : ExtE :=
  { c := BitVec.ofNat 7 (fld w.toNat 25 7), fn := BitVec.ofNat 9 (fld w.toNat 16 9), slot := BitVec.ofNat 3 (fld w.toNat 13 3),
    imm := BitVec.ofNat 13 (fld w.toNat 0 13) }

/-- One-word opcodes. -/
def decodeN (op : Nat) (w : W1) : Except DecodeError Instr :=
  match op with
  | 0x00 => .ok (.nop w)
  | 0x01 => .ok (.iadd w)
  | 0x02 => .ok (.isub w)
  | 0x03 => .ok (.imul w)
  | 0x04 => .ok (.imulh w)
  | 0x05 => .ok (.imulhu w)
  | 0x07 => .ok (.imin w)
  | 0x08 => .ok (.imax w)
  | 0x09 => .ok (.iminu w)
  | 0x0A => .ok (.imaxu w)
  | 0x0B => .ok (.and w)
  | 0x0C => .ok (.or w)
  | 0x0D => .ok (.xor w)
  | 0x0E => .ok (.shl w)
  | 0x0F => .ok (.shr w)
  | 0x10 => .ok (.sar w)
  | 0x11 => .ok (.iadd64 w)
  | 0x12 => .ok (.isub64 w)
  | 0x1A => .ok (.bitf w)
  | 0x1C => .ok (.v2p w)
  | 0x1D => .ok (.p2v w)
  | 0x1E => .ok (.mov w)
  | 0x1F => .ok (.rdsp w)
  | 0x20 => .ok (.faddF32 w)
  | 0x21 => .ok (.fsubF32 w)
  | 0x22 => .ok (.fmulF32 w)
  | 0x24 => .ok (.fminF32 w)
  | 0x25 => .ok (.fmaxF32 w)
  | 0x27 => .ok (.funaF32 w)
  | 0x28 => .ok (.faddF64 w)
  | 0x29 => .ok (.fsubF64 w)
  | 0x2A => .ok (.fmulF64 w)
  | 0x2C => .ok (.fminF64 w)
  | 0x2D => .ok (.fmaxF64 w)
  | 0x2F => .ok (.funaF64 w)
  | 0x53 => .ok (.sleept w)
  | 0x61 => .ok (.brx w)
  | 0x63 => .ok (.callx w)
  | 0x64 => .ok (.ret w)
  | 0x65 => .ok (.exit w)
  | _ => .error .reserved

/-- EXT-I opcodes. -/
def decodeI (op : Nat) (w : W1) (imm : Word) : Except DecodeError Instr :=
  match op with
  | 0x15 => .ok (.movi w imm)
  | 0x16 => .ok (.iaddi w imm)
  | 0x60 => .ok (.bra w imm)
  | 0x62 => .ok (.call w imm)
  | _ => .error .reserved

/-- EXT-A opcodes. -/
def decodeA (op : Nat) (w : W1) (x : ExtA) : Except DecodeError Instr :=
  match op with
  | 0x06 => .ok (.imad w x)
  | 0x13 => .ok (.imadw w x)
  | 0x14 => .ok (.sel w x)
  | 0x17 => .ok (.icmp w x)
  | 0x18 => .ok (.bool3 w x)
  | 0x19 => .ok (.dsh w x)
  | 0x1B => .ok (.pbool w x)
  | 0x23 => .ok (.ffmaF32 w x)
  | 0x26 => .ok (.fcmpF32 w x)
  | 0x2B => .ok (.ffmaF64 w x)
  | 0x2E => .ok (.fcmpF64 w x)
  | 0x30 => .ok (.pkadd w x)
  | 0x31 => .ok (.pkmul w x)
  | 0x32 => .ok (.pkfma w x)
  | 0x33 => .ok (.pkmin w x)
  | 0x34 => .ok (.pkmax w x)
  | 0x35 => .ok (.pkcmp w x)
  | 0x36 => .ok (.sfu w x)
  | 0x37 => .ok (.fdiv w x)
  | 0x38 => .ok (.fsqrt w x)
  | 0x39 => .ok (.cvt w x)
  | 0x3A => .ok (.cvtn w x)
  | 0x3B => .ok (.cvtw w x)
  | 0x3D => .ok (.cblu w x)
  | 0x3E => .ok (.dot2 w x)
  | 0x40 => .ok (.shfl w x)
  | 0x41 => .ok (.xgath w x)
  | 0x42 => .ok (.vote w x)
  | 0x43 => .ok (.matchLanes w x)
  | 0x44 => .ok (.compact w x)
  | 0x45 => .ok (.redx w x)
  | 0x46 => .ok (.scanx w x)
  | _ => .error .reserved

/-- EXT-M opcodes. -/
def decodeM (op : Nat) (w : W1) (x : ExtM) : Except DecodeError Instr :=
  match op with
  | 0x48 => .ok (.ld w x)
  | 0x49 => .ok (.st w x)
  | 0x4A => .ok (.lds w x)
  | 0x4B => .ok (.sts w x)
  | 0x4C => .ok (.ldln w x)
  | 0x50 => .ok (.fence w x)
  | 0x51 => .ok (.pref w x)
  | 0x52 => .ok (.cflush w x)
  | _ => .error .reserved

/-- EXT-T opcodes. -/
def decodeT (op : Nat) (w : W1) (x : ExtT) : Except DecodeError Instr :=
  match op with
  | 0x4D => .ok (.atom w x)
  | 0x4E => .ok (.cas w x)
  | 0x4F => .ok (.red w x)
  | _ => .error .reserved

/-- EXT-E opcodes; the minor function chooses the row where the opcode table has one row for each (R58). -/
def decodeE (op : Nat) (w : W1) (x : ExtE) : Except DecodeError Instr :=
  match op with
  | 0x3C => .ok (.cbload w x)
  | 0x58 =>
    match x.fn.toNat with
    | 0 => .ok (.ferryCopy w x)
    | 1 => .ok (.ferryMcast w x)
    | 2 => .ok (.ferryGather w x)
    | 3 => .ok (.ferryScatter w x)
    | 4 => .ok (.ferryExp24 w x)
    | 5 => .ok (.ferryCmp24 w x)
    | 6 => .ok (.ferryTier w x)
    | _ => .error .badFn
  | 0x59 =>
    match x.fn.toNat with
    | 0 => .ok (.fwaitTest w x)
    | 1 => .ok (.fwaitWait w x)
    | 2 => .ok (.fwaitWaitp w x)
    | _ => .error .badFn
  | 0x5A => .ok (.lmark w x)
  | 0x5B => .ok (.mxop w x)
  | 0x5C =>
    match x.fn.toNat with
    | 0 => .ok (.mxdrainRegs w x)
    | 1 => .ok (.mxdrainScratch w x)
    | 2 => .ok (.mxdrainPeer w x)
    | 3 => .ok (.mxdrainPeerord w x)
    | _ => .error .badFn
  | 0x5D => .ok (.mxpod w x)
  | 0x5E =>
    match x.fn.toNat with
    | 0 => .ok (.mxrelOne w x)
    | 1 => .ok (.mxrelAll w x)
    | _ => .error .badFn
  | 0x66 =>
    match x.fn.toNat % 4 with
    | 0 => .ok (.barSync w x)
    | 1 => .ok (.barArrive w x)
    | 2 => .ok (.barWait w x)
    | _ => .error .badFn
  | 0x67 => .ok (.launch w x)
  | 0x68 => .ok (.svc w x)
  | 0x69 => .ok (.trap w x)
  | 0x70 => .ok (.towrec w x)
  | 0x71 => .ok (.towiter w x)
  | 0x72 => .ok (.towplay w x)
  | 0x73 => .ok (.towstop w x)
  | 0x74 => .ok (.towstat w x)
  | 0x75 => .ok (.towdrop w x)
  | 0x76 => .ok (.mapsync w x)
  | 0x77 => .ok (.refit w x)
  | 0x78 => .ok (.xlq w x)
  | 0x79 => .ok (.mbxrd w x)
  | 0x7A => .ok (.mbxwr w x)
  | 0x7B =>
    match x.fn.toNat with
    | 0 => .ok (.ctxSave w x)
    | 1 => .ok (.ctxLoad w x)
    | 2 => .ok (.ctxPreempt w x)
    | 3 => .ok (.ctxResume w x)
    | 4 => .ok (.ctxAbort w x)
    | _ => .error .badFn
  | 0x7E =>
    match x.fn.toNat with
    | 0 => .ok (.srmovRead w x)
    | 1 => .ok (.srmovWrite w x)
    | _ => .error .badFn
  | _ => .error .reserved

/-- Decodes the instruction whose first word is `w`, with the word after it, if there is one (R33). -/
def decodeWords (w : Word) (next : Option Word) : Except DecodeError Instr :=
  let op := opOf w
  if op == 0x7C || op == 0x7D then .error .headerWord
  else if opReserved op then .error .reserved
  else
    match opExt op, next with
    | .none, _ => decodeN op (w1Of w)
    | .i, some e => decodeI op (w1Of w) e
    | .a, some e => decodeA op (w1Of w) (extAOf e)
    | .m, some e => decodeM op (w1Of w) (extMOf e)
    | .t, some e => decodeT op (w1Of w) (extTOf e)
    | .e, some e => decodeE op (w1Of w) (extEOf e)
    | _, none => .error .short

/-- Words of the instruction that begins with `w`: one, or two with an extension word (R33, R60). -/
def wordsOf (w : Word) : Nat :=
  if opReserved (opOf w) || opExt (opOf w) == .none then 1 else 2

/-- A little-endian word of bytes (R68). -/
def wordOfBytes (b0 b1 b2 b3 : Byte) : Word :=
  BitVec.ofNat 32 (b0.toNat + 2 ^ 8 * b1.toNat + 2 ^ 16 * b2.toNat + 2 ^ 24 * b3.toNat)

/-- Decodes the instruction at the head of a list of bytes, with the bytes that follow it. -/
def decodeBytes (bs : List Byte) : Except DecodeError (Instr × List Byte) :=
  match bs with
  | b0 :: b1 :: b2 :: b3 :: rest =>
    let w := wordOfBytes b0 b1 b2 b3
    match rest with
    | c0 :: c1 :: c2 :: c3 :: rest' =>
      match decodeWords w (some (wordOfBytes c0 c1 c2 c3)) with
      | .ok i => .ok (i, if wordsOf w == 2 then rest' else rest)
      | .error e => .error e
    | _ =>
      match decodeWords w none with
      | .ok i => .ok (i, rest)
      | .error e => .error e
  | _ => .error .short

/-- Byte `i` of a number. -/
def byteAt (n i : Nat) : Byte := BitVec.ofNat 8 (n / 2 ^ (8 * i))

/-- The bytes of a number, lowest first. -/
def bytesOf (n : Nat) : Nat → List Byte
  | 0 => []
  | k + 1 => byteAt n 0 :: bytesOf (n / 256) k

/-- The instruction that the decoder reads from a table word: first word lowest, each word in bytes,
lowest first, zeros above. -/
def decodeTableWord (nbits w : Nat) : Option Instr :=
  match decodeBytes (bytesOf (w % 2 ^ nbits) 8) with
  | .ok (i, _) => some i
  | .error _ => none

/-! ### The encoder -/

/-- An instruction word from its fields (R32). -/
def encW1 (op : Nat) (w : W1) : Word :=
  BitVec.ofNat 32 (op * 2 ^ 25 + w.g.toNat * 2 ^ 21 + w.d.toNat * 2 ^ 14 + w.a.toNat * 2 ^ 7 + w.b.toNat)

/-- An extension word from its fields (R34 to R38). -/
def encExt (e : Ext) : Option Word :=
  match e with
  | .none => none
  | .i imm => some imm
  | .a x => some (BitVec.ofNat 32 (x.c.toNat * 2 ^ 25 + x.rnd.toNat * 2 ^ 22 + x.ovf.toNat * 2 ^ 20 + x.bsel.toNat * 2 ^ 18
      + x.na.toNat * 2 ^ 17 + x.nc.toNat * 2 ^ 16 + x.cnd.toNat * 2 ^ 12 + x.slot.toNat * 2 ^ 9 + x.sen.toNat * 2 ^ 8
      + x.fn.toNat))
  | .m x => some (BitVec.ofNat 32 (x.off.toNat * 2 ^ 14 + x.size.toNat * 2 ^ 11 + x.sem.toNat * 2 ^ 9 + x.scope.toNat * 2 ^ 6
      + x.slot.toNat * 2 ^ 3 + x.cache.toNat))
  | .t x => some (BitVec.ofNat 32 (x.c.toNat * 2 ^ 25 + x.aop.toNat * 2 ^ 21 + x.type.toNat * 2 ^ 17 + x.scope.toNat * 2 ^ 14
      + x.sem.toNat * 2 ^ 12 + x.slot.toNat * 2 ^ 9 + x.off.toNat))
  | .e x => some (BitVec.ofNat 32 (x.c.toNat * 2 ^ 25 + x.fn.toNat * 2 ^ 16 + x.slot.toNat * 2 ^ 13 + x.imm.toNat))

/-- The words of an instruction; an event has none. -/
def encode (i : Instr) : List Word :=
  match i.info with
  | none => []
  | some f => encW1 f.op f.w :: (encExt f.ext).toList

/-! ### The run header (R30) -/

/-- A run header. -/
structure Header where
  count : Nat
  cls : Nat
  wait : Nat
  park : Bool
  deriving DecidableEq, Repr, Inhabited

/-- Reads a header word; `none` where its fields are malformed (R60). -/
def headerOf (w : Word) : Option Header :=
  let n := w.toNat
  let h : Header := { count := fld n 21 5, cls := fld n 18 3, wait := fld n 10 8, park := n.testBit 9 }
  if fld n 26 6 == 0x3E && 1 ≤ h.count && h.count ≤ 24 && h.cls ≤ 5 && fld n 0 9 == 0 then some h else none

/-- The header word of a run. -/
def encHeader (h : Header) : Word :=
  BitVec.ofNat 32 (0x3E * 2 ^ 26 + h.count * 2 ^ 21 + h.cls * 2 ^ 18 + h.wait * 2 ^ 10 + h.park.toNat * 2 ^ 9)

end Sys2Proof
end

