-- ==== Sys2Proof/Config.lean ====
section
/-! DEFINITION. What the model leaves free: constants without a body, so that no proof can see a value of
theirs. The order in which the part's agents move (log 3), values that the spec leaves open (log 7), and
the results of the special functions within their bounds (R128). -/

namespace Sys2Proof

/-- What the machine does next. `issue` lets a scheduler issue the next word of its run; `ev` is an event
row of the opcode table; `elapse` lets device time pass; `evict` is replacement in a cache (R205, R239);
`send` lets a store leave its core's memory queue, and update the L1 on its way (R208, R238);
`chunk` lets a Ferry or a pod engine issue the accesses of a chunk (R204, R282); `readMap` lets the refitter read the map for a range (R196);
`finish` ends a supervisor instruction whose result is known (R346); `peerStore` is a write that another module makes to its own memory, within
a sector (R231, log 104); `peerHalf` performs the second half of a peer's packed atomic (R268); `idle` changes nothing. -/
inductive Turn where
  | issue (sched : Nat)
  | ev (i : Instr)
  | elapse (ns : Nat)
  | evict (lvl key : Nat)
  | send (op : Nat)
  | chunk (pass : Bool) (id c : Nat)
  | readMap (refit : Nat)
  | finish (op : Nat)
  | peerStore (addr : Nat) (bytes : List (BitVec 8))
  | peerHalf
  | idle
  deriving DecidableEq, Repr, Inhabited

/-- The schedule: which turn comes when nothing is due. The argument counts the choices made. -/
opaque Config.choose : Nat → Turn

/-- A value that the spec leaves open, drawn by the count of draws. -/
opaque Config.freeWord : Nat → Word

/-- A choice between two outcomes that the spec leaves open, drawn by the count of draws. -/
opaque Config.freeBit : Nat → Bool

/-- Results of the special functions, by function code and input bits (R54, R128). -/
opaque Config.sfu : Nat → Nat → Nat

/-- The unused mask nibble of the last `META` byte of a CMP24 whose groups are odd in number (R282), by the elements of the last group. -/
opaque Config.cmpPad : Nat → List Nat → Word

/-- Whether a link is on the fabric path to a peer device (R364). -/
opaque Config.onPath : Nat → Nat → Bool

/-- The system register that an offset of the port 0 CXL.io space shows (R360): the spec gives no offset but `LQCLAIM`'s. -/
opaque Config.cxlioReg : Nat → Option Nat

/-- Whether a launch-queue ring at a base below 384 GiB lies in host memory (R146): the spec does not say how a base names
its memory. -/
opaque Config.ringHost : Nat → Bool

end Sys2Proof
end

