-- ==== Sys2Proof/Machine/State.lean ====
section
/-! DEFINITION. The state of the machine, all plain data: every piece of state the spec names, the
model's own bookkeeping (`due`, `cur`, `tick`, `serial`), and the machine right after reset.

Conventions. A thread's place is core x 1536 + group slot x 32 + lane; a group's place is
core x 48 + group slot; a scheduler's is core x 4 + s. A physical location is space x 2^56 + physical
address, space 0 device, 1 peer, 2 host. Device time is a natural number of ns (log 10). -/

namespace Sys2Proof.Machine

/-- A finite map with rising keys. -/
abbrev Tab (α : Type) := List (Nat × α)

/-- Poison of a register or predicate: clean, or poisoned with a tag naming a record of the ring (R339). -/
inductive Pois where
  | clean
  | bad (tag : BitVec 2) (lost : Bool)
  deriving DecidableEq, Repr, Inhabited

/-- A register: value, poison, and the number of outstanding operations that will write or hold it (R92, R100). -/
structure Reg where
  val : Word := 0
  pois : Pois := .clean
  pend : Nat := 0
  deriving DecidableEq, Repr, Inhabited

/-- A predicate (R96). -/
structure Pred where
  val : Bool := false
  pois : Pois := .clean
  deriving DecidableEq, Repr, Inhabited

/-- A fault record (R202). -/
structure FRec where
  va : Nat := 0
  akind : Nat := 0
  cause : Nat := 0
  asid : Nat := 0
  src : Nat := 0
  index : Nat := 0
  gen : Nat := 0
  deriving DecidableEq, Repr, Inhabited

/-- A place of the fault-record ring (R339). -/
structure RingPlace where
  record : FRec := {}
  lost : Bool := false
  deriving DecidableEq, Repr, Inhabited

/-- A mailbox record (R343, R403). -/
structure MRec where
  kind : Nat := 0
  code : Nat := 0
  detail : Nat := 0
  pc : Nat := 0
  hdr : Nat := 0
  asid : Nat := 0
  gslot : Nat := 0
  lane : Nat := 0
  core : Nat := 0
  word : Nat := 0
  team : Nat := 0
  payload : List Byte := []
  deriving DecidableEq, Repr, Inhabited

/-- Where a physical or scratchpad access goes. -/
inductive Loc where
  /-- the scratchpad of a team, at an offset -/
  | scratch (team off : Nat)
  /-- a physical location -/
  | phys (addr : Nat)
  deriving DecidableEq, Repr, Inhabited

/-- A checked and translated access (R190, R201, R209). -/
structure Acc where
  loc : Loc
  va : Nat
  size : Nat
  kind : Nat
  pol : Nat
  tow : Bool
  rc : Nat
  asid : Nat
  gen : Nat
  /-- `SRC` and `INDEX` of its translation (R202) -/
  src : Nat
  index : Nat
  deriving DecidableEq, Repr, Inhabited

/-- Why a thread is suspended and where it resumes (R341, R344, R348). -/
structure Susp where
  /-- code, detail and payload of the record -/
  code : Nat
  detail : Nat
  payload : List Byte
  /-- header and word index of a trap at an instruction; `none` for a boundary or run-start trap -/
  pos : Option (Nat × Nat)
  /-- a fetch or malformed-run trap (R344: no SKIP) -/
  fetch : Bool
  /-- the access of a 0x0A trap (R348 LOCKWAIT): ASID or team, address, length, scratchpad, write -/
  acc : Option (Nat × Nat × Nat × Bool × Bool)
  /-- the trapping instruction is a crew collective (SKIP counts as arrival) -/
  coll : Bool
  /-- the FWAIT conditions of a 0x0B trap (R348 RETRY) -/
  waits : List (Nat × Nat)
  deriving DecidableEq, Repr, Inhabited

/-- What a thread is doing. -/
inductive TStat where
  /-- stands at a run header -/
  | ready
  /-- belongs to the issue group of a scheduler -/
  | issuing (sched : Nat)
  /-- suspended in a trap -/
  | susp
  /-- a reply lets it go on alone at word `wix` of the run at its program counter (R348) -/
  | resume (wix : Nat) (skip : Bool)
  /-- RETRY with LOCKWAIT: parked until no lock covers its access (R348) -/
  | lockwait
  /-- the supervisor group of the core has stopped (R345) -/
  | stopped
  | exited
  deriving DecidableEq, Repr, Inhabited

/-- A thread waiting at a barrier (R160, R162). -/
structure BarWait where
  id : Nat
  inst : Nat
  scope : Nat
  form : Nat
  /-- waits for the open phase to advance before arriving (R160, first wait) -/
  first : Bool
  pc : Nat
  hdr : Nat
  word : Nat
  /-- the token that the thread had before (R162) -/
  was : Option Nat := none
  deriving DecidableEq, Repr, Inhabited

/-- A parked FWAIT condition with its promise (R287). -/
structure FWaitC where
  off : Nat
  mask : Nat
  promise : Option Nat
  /-- device time has passed the promise while the condition did not hold -/
  missed : Bool := false
  deriving DecidableEq, Repr, Inhabited

/-- Trap 0x12 waiting for a boundary (R324). -/
structure PodTrap where
  blk : Nat
  tokix : Nat
  tokv : Nat
  reason : Nat
  brow : Nat
  /-- word index of the elected thread's MXPOD -/
  word : Nat := 0
  /-- the thread was suspended in another trap when the pass failed: after the reply it takes this one at a run boundary (R324) -/
  late : Bool := false
  deriving DecidableEq, Repr, Inhabited

/-- The latest GWCT of some writes: what is final, and the revocations whose final value has not arrived, with their provisional one
(R226, R227). -/
structure WClock where
  t : Nat := 0
  provs : List (Nat × Nat) := []
  /-- the latest fabric window of the writes among them that went to peer memory (R232) -/
  win : Option Nat := none
  deriving DecidableEq, Repr, Inhabited

/-- A thread (R92). -/
structure Thread where
  team : Nat
  gid : Nat
  st : TStat := .ready
  /-- program counter: header of the run it stands at or executes (R22) -/
  pc : DWord := 0
  /-- address that produced the program counter (R61) -/
  prod : DWord := 0
  /-- target set by a control instruction of the run being executed -/
  next : Option DWord := none
  /-- executed EXIT with a true guard, or was told to terminate: exits at run end (R156, R164) -/
  exiting : Bool := false
  v : List Reg := []
  k : List Reg := []
  p : List Pred := []
  ring : List RingPlace := []
  ringNext : Nat := 0
  wake : Nat := 0
  waits : List FWaitC := []
  /-- FWAITs of the run being executed, which take effect at run end -/
  newWaits : List FWaitC := []
  park : Bool := false
  /-- parked at a crew collective that would open a fifth collection (R288, R291) -/
  collPark : Bool := false
  bar : Option BarWait := none
  /-- the phase in which it last arrived at a barrier, by barrier id: its token (R160) -/
  toks : Tab Nat := []
  rclk : Nat := 0
  /-- stores whose final GWCT has not arrived: revocation and provisional GWCT (R226) -/
  provs : List (Nat × Nat) := []
  pwin : Option Nat := none
  /-- one past the device time at which its latest sc fence of scope d or wider completed: copies granted before serve none of its loads (R244) -/
  fenceAt : Nat := 0
  /-- what the engines had written behind the chunk bits and Ferry `STATE`s that its loads have read, for the acquire of a fence (R241, R242) -/
  seen : WClock := {}
  ncoll : Nat := 0
  susp : Option Susp := none
  podTraps : List PodTrap := []
  /-- trap 0x18 waiting for the next boundary: failed core (R354) -/
  abort : Option Nat := none
  routeLost : Bool := false
  /-- order in which the thread began waiting at its key (R24) -/
  since : Nat := 0
  deriving DecidableEq, Repr, Inhabited

/-- A resident group (R11, R99). -/
structure Group where
  team : Nat
  gid : Nat
  sb : List Nat := [0, 0, 0, 0, 0, 0, 0, 0]
  deriving DecidableEq, Repr, Inhabited

/-- A launch packet (R151) without its `STATE`. -/
structure Packet where
  code : Nat := 0
  gx : Nat := 1
  gy : Nat := 1
  gz : Nat := 1
  groups : Nat := 2
  prod : Nat := 1
  crew : Nat := 0
  gang : Nat := 1
  budp : Nat := 8
  budc : Nat := 8
  scru : Nat := 0
  tiles : Nat := 0
  prio : Nat := 0
  asid : Nat := 1
  args : Nat := 0
  save : Nat := 0
  feat : List Nat := [0, 0, 0, 0]
  depa : Nat := 0
  depv : Nat := 0
  done : Nat := 0
  /-- a must-be-zero byte is not zero -/
  mbz : Bool := false
  deriving DecidableEq, Repr, Inhabited

/-- A codebook slot (R77, R135). -/
structure Codebook where
  ents : List (BitVec 16) := List.replicate 16 0
  pois : Bool := false
  record : FRec := {}
  deriving DecidableEq, Repr, Inhabited

/-- A barrier instance (R159, R284). -/
structure Barrier where
  phase : Nat := 0
  /-- thread ids that have arrived in the open phase -/
  arrived : List Nat := []
  /-- multicast arrivals owed -/
  owed : Nat := 0
  deriving DecidableEq, Repr, Inhabited

/-- An accumulator tile (R288, R307); unlisted words are zero. -/
structure Tile where
  words : Tab Word := []
  pois : Bool := false
  record : Option FRec := none
  next : Nat := 0
  expect : Option Nat := none
  held : Bool := true
  deriving DecidableEq, Repr, Inhabited

/-- Which collective a collection joins (R290). -/
inductive CollKind where
  | mxop (shape fmt : Nat) (a b : Nat) (zero : Bool)
  | drain (fn : Nat) (d : Nat)
  | mxpod
  | mxrel (all : Bool)
  deriving DecidableEq, Repr, Inhabited

/-- One thread's arrival at a collection: the block offset it supplied, its operation, and its own
fragment or destination bases (R291, R293). -/
structure Arrival where
  th : Nat
  off : Nat
  op : Nat
  kind : CollKind
  /-- word index of its instruction (R343) -/
  word : Nat := 0
  deriving DecidableEq, Repr, Inhabited

/-- A collection of a crew (R290). -/
structure Coll where
  k : Nat
  addr : Nat
  kind : CollKind
  tile : Nat
  arr : List Arrival := []
  /-- threads counted as arrived by a skip reply (R292) -/
  skip : List Nat := []
  deriving DecidableEq, Repr, Inhabited

/-- A crew (R17, R288). -/
structure Crew where
  tiles : List Tile := []
  colls : List Coll := []
  deriving DecidableEq, Repr, Inhabited

/-- A tier schedule (R285). -/
structure Tier where
  sched : Nat
  nent : Nat
  cur : Nat
  look : Nat
  deriving DecidableEq, Repr, Inhabited

/-- Context states of a team (R350); `placed` before its groups start (R20, R155). -/
inductive CtxState where
  | placed | running | stopping | stopped
  deriving DecidableEq, Repr, Inhabited

/-- A resident team (R12, R20). -/
structure Team where
  grid : Nat
  index : Nat
  core : Nat
  slots : List Nat
  pkt : Packet
  st : CtxState := .placed
  scratch : List Host.Cell := []
  /-- poisoned scratchpad sectors, by offset / 64, with the cause -/
  spois : Tab Nat := []
  books : List Codebook := List.replicate 8 {}
  bars : Tab Barrier := []
  crews : List Crew := []
  tier : Option Tier := none
  /-- latest GWCT of the writes of a chunk, by chunk-map word offset x 32 + bit (R254) -/
  gws : Tab WClock := []
  /-- the writes behind the last `STATE` of its Ferry commands, by where that lies: a scratchpad offset, or 2^57 + physical location (R242, R283) -/
  states : Tab WClock := []
  /-- release clocks of the releases that its threads have completed, which an acquire in the team takes on (R242, log 77) -/
  rel : WClock := {}
  /-- the writes of its engine commands, for the completion of its grid (R153, R245, R246) -/
  wrote : WClock := {}
  /-- the physical scratchpad units that it owns (R206) -/
  units : List Nat := []
  rcnt : Nat := 0
  /-- every thread has exited, its commands and collectives have ended, and its scratchpad has been given back (R21) -/
  ended : Bool := false
  aborted : Bool := false
  /-- records of suspended threads, withdrawn from the mailbox (R352) -/
  held : List (Nat × MRec) := []
  deriving DecidableEq, Repr, Inhabited

/-- One write of a chunk that has been translated: the team as whose agent it is made, the place, the kind of the page and whether it is
eligible for Towline, and the bytes, each with its poison. -/
structure FWrite where
  team : Nat
  loc : Loc
  kind : Nat
  tow : Bool
  bytes : List (Byte × Bool)
  deriving DecidableEq, Repr, Inhabited

/-- A chunk on its way, from its translation to the performance of its writes (R193, R204): the generation, its writes, what it adds to
`COUNT`, and the first poisoned source address. -/
structure Flight where
  chunk : Nat
  gen : Nat
  writes : List FWrite
  count : Nat
  pois : Option Nat
  deriving DecidableEq, Repr, Inhabited

/-- An accepted Ferry command (R280). -/
structure Cmd where
  team : Nat
  core : Nat
  th : Nat
  /-- word index of the FERRY or LMARK (R343) -/
  word : Nat := 0
  fn : Nat
  q : Nat
  /-- the copied block -/
  blk : List Byte
  /-- where its STATE is written: scratchpad offset or generic address -/
  blkAt : Nat
  blkScratch : Bool
  promise : Nat
  /-- chunks done, in every target team -/
  chunks : List Nat := []
  /-- chunks translated whose writes are not all performed (R204) -/
  flight : List Flight := []
  /-- a chunk has faulted: the command ends once no chunk is on its way (R283) -/
  bad : Option (FRec × Nat) := none
  count : Nat := 0
  pois : Bool := false
  /-- the writes of its chunks, which its `STATE` releases (R283) -/
  clk : WClock := {}
  /-- a gang abort has cancelled it: `STATE` 5 is still to be written (R283, R362) -/
  cancelled : Bool := false
  /-- multicast targets -/
  targets : List Nat := []
  deriving DecidableEq, Repr, Inhabited

/-- A collection as it is saved: 1 not yet complete, 2 complete, 3 a peer drain that waits (R310). Threads are named by their crew index. -/
structure CollRec where
  st : Nat
  k : Nat
  addr : Nat := 0
  kind : CollKind := .mxpod
  tile : Nat := 0
  slot : Nat := 0
  elected : Nat := 0
  off : Nat := 0
  arr : List Nat := []
  /-- each arrival's block offset and word index, by crew index -/
  offs : Tab (Nat × Nat) := []
  /-- the order of an ordered drain among those that wait (R307) -/
  sentAt : Nat := 0
  /-- the rows that a peer drain which waits has read, and whether its source was poisoned (R306, R307, R310) -/
  rows : Option (List (Tab Word)) := none
  srcPois : Bool := false
  skip : List Nat := []
  blk : List Byte := []
  strips : List Nat := []
  square : Nat := 127
  spois : Bool := false
  book : Codebook := {}
  /-- the place of a complete collection among the team's, in the order in which they completed (R310) -/
  ord : Nat := 0
  deriving DecidableEq, Repr, Inhabited

/-- A team whose context has been saved (R350), with what the save area has no field for (log 8): the team without its scratchpad, codebooks and
tile words, its threads by tid, its collections by crew, and its commands. -/
structure Kept where
  index : Nat
  /-- the save area -/
  asid : Nat
  save : Nat
  team : Team
  threads : Tab Thread
  colls : List (List CollRec)
  cmds : List Cmd
  deriving DecidableEq, Repr, Inhabited

/-- Phases of a grid in progress (R148). -/
inductive GridPhase where
  | waiting | placing | placed
  deriving DecidableEq, Repr, Inhabited

/-- A grid in progress (R149). -/
structure Grid where
  queue : Nat
  entry : Nat
  pkt : Packet
  phase : GridPhase := .waiting
  placed : Nat := 0
  ended : Nat := 0
  /-- teams whose contexts are saved (R350) -/
  saved : List Kept := []
  aborted : Bool := false
  /-- latest GWCT of the writes of its teams that have ended -/
  clock : WClock := {}
  /-- the completion word has risen or could not: the `STATE` to be written once that write is visible (R148, R153) -/
  fin : Option Nat := none
  deriving DecidableEq, Repr, Inhabited

/-- A launch-queue descriptor (R146, R355). -/
structure Queue where
  base : Nat := 0
  /-- the ring lies in host-coherent memory (log 9) -/
  host : Bool := false
  log2 : Nat := 0
  isOpen : Bool := false
  head : Nat := 0
  tail : Nat := 0
  deriving DecidableEq, Repr, Inhabited

/-- A regrouping entry, or an unfiled set (R144, R145). -/
structure Entry where
  core : Nat
  team : Nat
  role : Nat
  addr : Nat
  /-- `none` for a filed entry, the group slot of an unfiled set -/
  slot : Option Nat
  members : List Nat
  /-- the cached header -/
  hdr : Word
  ready : Option Nat := none
  cls : Nat
  passed : Nat := 0
  deriving DecidableEq, Repr, Inhabited

/-- A scheduler (R139, R142). -/
structure Sched where
  ptr : Nat := 0
  sups : Nat := 0
  deriving DecidableEq, Repr, Inhabited

/-- The run that a scheduler is issuing (R23, R140). -/
structure Issue where
  /-- places of the issue group's threads, in ascending home lane -/
  lanes : List Nat
  hdr : Nat
  count : Nat
  cls : Nat
  park : Bool
  sup : Bool
  body : List Word
  wix : Nat := 0
  /-- threads that have done the word at which the scheduler holds -/
  served : List Nat := []
  /-- operations whose acceptance the scheduler holds for (R280) -/
  holds : List Nat := []
  /-- the word is to be issued again -/
  stall : Bool := false
  /-- the number of the instruction being issued, kept while the word is issued again; 0 before the first word -/
  batch : Nat := 0
  /-- device time at which the instruction issued: its sample of the clock (R95) -/
  clk : Nat := 0
  /-- the single thread skips this word (R348) -/
  skip : Bool := false
  deriving DecidableEq, Repr, Inhabited

/-- One lane of a merged atomic (R269). -/
structure Part where
  th : Nat
  lane : Nat
  dst : Nat
  opnd : Nat
  cmp : Nat
  /-- the value read, or the cause of the poison read -/
  old : Option (Nat × Option Nat) := none
  /-- the ordinal of the lane's release (R328) -/
  ord : Option Nat := none
  deriving DecidableEq, Repr, Inhabited

/-- Where an atomic is performed (R262); `proxySys` at the proxy atomic unit at scope s. -/
inductive APlace where
  | array | l1 | home | proxy | proxySys | pcie | peer
  deriving DecidableEq, Repr, Inhabited

/-- What an outstanding operation is. -/
inductive OpKind where
  /-- a load; whether it is one of LDLN, whose lanes of one line are served by one access (R218); the data and poison bound by the level
  that served it (R225) -/
  | load (a : Acc) (line : Bool) (bound : Option (List Byte × Option Nat))
  /-- a load that faulted (R203) -/
  | loadBad (r : FRec)
  /-- a store -/
  | store (a : Acc) (data : List Byte)
  /-- a merged atomic: place, operation, lanes, whether it has been performed
  (R262, R269) -/
  | atomic (a : Acc) (place : APlace) (cas : Bool) (aop ty : Nat) (parts : List Part) (performed : Bool)
  /-- a fence; `win` is the first window in which a fabric sc fence may complete (R244) -/
  | fence (sem scope win : Nat)
  | pref (a : Option Acc)
  | cflush (pa n asid gen : Nat)
  | cbload (slot : Nat) (a : Option Acc) (bad : FRec)
  | sfu (res : Nat)
  | xlq (va asid : Nat) (user : Bool)
  /-- a claimed entry, and the checked read of the packet's source, or its fault (R163) -/
  | launch (q e : Nat) (src : List Acc) (bad : Option FRec)
  | ferry (fn q blk : Nat) (scratch : Bool) (promise : Bool)
  | lmark (n : Nat)
  | mapsync (va cnt asid : Nat) (status pages : Nat) (gen : Option Nat)
  /-- REFIT; `done` once a pass that serves it has been published before its release ended (R197) -/
  | refit (va cnt asid : Nat) (status : Nat) (done : Option Nat)
  /-- a Towline request; `sys` in a SYS run of the supervisor group (R335) -/
  | tow (op id a b : Nat) (sys : Bool)
  | mbxrd (va : Nat)
  | mbxwr (entry word target : Nat)
  | ctx (fn save asid core team : Nat)
  | srmovW (r : Nat) (v : DWord)
  | srmovR (r : Nat)
  /-- a CTX whose status is known (R346) -/
  | status (v : Nat)
  | svc (post : Nat)
  | coll (team crew k : Nat)
  /-- the release of a barrier arrival (R160) -/
  | barRel (inst : Nat)
  /-- keeps the slots of an instruction counted while its issue group holds at the word (R99) -/
  | anchor
  deriving DecidableEq, Repr, Inhabited

/-- An outstanding operation (R99, R100). -/
structure Op where
  kind : OpKind
  /-- the issuing thread -/
  th : Nat
  /-- every thread whose destination it writes -/
  ths : List Nat
  /-- groups whose slot counts it -/
  grps : List Nat
  slot : Option Nat
  /-- the instruction that made it -/
  batch : Nat
  /-- the word index of that instruction in its run (R343) -/
  word : Nat := 0
  dst : Nat := 120
  nd : Nat := 0
  /-- scope of its release part, and whether the release has completed (R240) -/
  rel : Option Nat := none
  relDone : Bool := false
  /-- ordinal taken by its release (R328) -/
  ord : Option Nat := none
  /-- the scope of its acquire part: later accesses wait for it (R241) -/
  acq : Option Nat := none
  /-- an earlier operation of the same instruction that must end first (R269) -/
  after : Option Nat := none
  /-- when it left the core's memory queue: from then on the core's L1 shows its update, until it is performed (R208, R238) -/
  sent : Option Nat := none
  /-- where and what an atomic performed in an L1 writes through as a store (R262) -/
  out : Option (Nat × List Byte) := none
  /-- the fabric window in which a store or atomic to peer memory issued (R232) -/
  win : Option Nat := none
  /-- the half that an atomic of two halves has done (R268) -/
  half : Option Nat := none
  /-- the cause it meets because its route or its host port was lost while it was on its way (R273, R364) -/
  lost : Option Nat := none
  deriving DecidableEq, Repr, Inhabited

/-- An engine pass, from the completion of its collection (R294, R309). -/
structure Pass where
  cluster : Nat
  team : Nat
  crew : Nat
  k : Nat
  kind : CollKind
  tile : Nat
  blkOff : Nat
  blk : List Byte
  elected : Nat
  arr : List Arrival
  /-- codebook copy (R294) -/
  book : Codebook := {}
  /-- strip scale bytes, square scale byte, and whether one was poisoned (R299) -/
  strips : List Nat := []
  square : Nat := 127
  spois : Bool := false
  cls : Nat
  core : Nat
  /-- the collection is complete and its block has not been read: it waits behind what its threads did before (R246, R294) -/
  raw : Bool := false
  posted : Option Nat := none
  passed : Nat := 0
  granted : Bool := false
  /-- a drain whose rows have been read: the rows, and what is left to do (R305 to R307) -/
  rows : Option (List (Tab Word)) := none
  /-- a peer add at its target: team, crew, tile, source drain -/
  add : Option (Nat × Nat × Nat × Nat) := none
  srcPois : Bool := false
  /-- the tokens of a pod stream that have been read, each with its poison, and the fault that ended the reading (R204, R323) -/
  toks : List (Nat × Bool) := []
  tokBad : Option FRec := none
  /-- a peer drain whose rows have been posted at the target engine -/
  sent : Bool := false
  /-- order in which a peer drain became ready to be applied (R307) -/
  sentAt : Nat := 0
  deriving DecidableEq, Repr, Inhabited

/-- A mailbox entry (R342). -/
structure MEnt where
  mrec : MRec
  order : Nat
  read : Bool := false
  th : Option Nat
  op : Option Nat := none
  deriving DecidableEq, Repr, Inhabited

/-- A record waiting to be posted (R342). -/
structure Post where
  core : Nat
  mrec : MRec
  th : Option Nat
  op : Option Nat := none
  /-- the unit that posts an event (R342) -/
  unit : Nat := 0
  /-- an SVC has counted on this entry (R164) -/
  resv : Bool := false
  deriving DecidableEq, Repr, Inhabited

/-- A sector copy in an L1 or an RDC (R225, R229, R238). -/
structure Copy where
  data : List Byte
  pois : Option Nat := none
  exp : Nat := 0
  granted : Nat := 0
  dirty : Bool := false
  /-- a host line held outside CXL.cache, never snooped (R208, R230) -/
  nc : Bool := false
  /-- filled under policy stream: a first candidate for eviction (R209) -/
  first : Bool := false
  /-- the latest fill or visit of the scrubber (R235) -/
  seen : Nat := 0
  /-- pushed and not yet read: recording (R333) -/
  pushed : Option Nat := none
  deriving DecidableEq, Repr, Inhabited

/-- A sector's record at its home: holders with the expiry of each (cores, and 192 + die), and the
latest expiry kept when the holder record is lost (R226). -/
structure Dir where
  holders : List (Nat × Nat) := []
  lost : Nat := 0
  deriving DecidableEq, Repr, Inhabited

/-- A line present in a home L2 slice: the sectors that it holds (R208), its pushed and unread sectors (R332, R333), and whether it is a first candidate
for eviction (R209). -/
structure L2Line where
  secs : Nat := 0
  /-- the recording whose push brought a sector that nobody has read, by sector -/
  marks : Tab Nat := []
  first : Bool := false
  /-- its dirty sectors (R205) -/
  dirty : Nat := 0
  deriving DecidableEq, Repr, Inhabited

/-- One load instruction's read of a line (R210, R211): the caches whose counts it has decremented, those whose count reached zero and whose
line goes once the read has returned, and the sectors that it has demanded at their home (R331). -/
structure LineRead where
  batch : Nat
  line : Nat
  done : List Nat := []
  drop : List Nat := []
  secs : List Nat := []
  deriving DecidableEq, Repr, Inhabited

/-- A performed store or atomic whose thread made it before all that it wrote earlier was visible: a dependence word that it satisfies is not yet
to start a grid (R153, R245). `clk` is the thread's release clock once its accesses before operation `op` are over. -/
structure Wrote where
  th : Nat
  op : Nat
  addr : Nat
  len : Nat
  clk : Option WClock := none
  deriving DecidableEq, Repr, Inhabited

/-- A revocation in progress (R226). -/
structure Rev where
  sector : Nat
  left : List Nat
  e : Nat
  deriving DecidableEq, Repr, Inhabited

/-- What a writer tag says for one recording: whether the write fell in the writer's recorded iteration, and the writer's iteration
count (R331, R333). -/
structure TagId where
  id : Nat
  recd : Bool
  iter : Nat
  deriving DecidableEq, Repr, Inhabited

/-- A writer tag (R326, R331): name of the team, ordinal, and the recordings in which the team takes part. -/
structure Tag where
  asid : Nat
  team : Nat
  ord : Nat
  ids : List TagId
  deriving DecidableEq, Repr, Inhabited

/-- A range of a lock entry (R247): scratchpad of a team, or virtual range of an ASID. -/
structure LRange where
  scratch : Bool
  owner : Nat
  base : Nat
  len : Nat
  deriving DecidableEq, Repr, Inhabited

/-- A range-lock entry (R247, R274). -/
structure Lock where
  /-- Ferry command or engine pass -/
  cmd : Nat
  pass : Bool
  dest : Bool
  ranges : List LRange
  order : Nat
  deriving DecidableEq, Repr, Inhabited

/-- Memories and caches. -/
structure MemSys where
  /-- device, peer and host memory; an unlisted byte reads 0 (log 2) -/
  cells : List Host.Cell := []
  /-- sectors poisoned in memory, with the cause (R338) -/
  pois : Tab Nat := []
  l1 : Tab Copy := []
  rdc : Tab Copy := []
  /-- where each line of an L1 stands: a scratchpad unit that no team owns, or 128, the L1's own 64 KiB (R155, R205) -/
  l1at : Tab Nat := []
  /-- lines present in home L2 slices -/
  l2 : Tab L2Line := []
  /-- read counts of line copies (R211) -/
  counts : Tab Nat := []
  /-- reads of lines by load instructions that have not returned in every lane (R210) -/
  reads : List LineRead := []
  /-- lines of the memory-side LLC, with their dirty sectors (R205) -/
  llc : Tab Nat := []
  /-- writes that a dependence word may have been satisfied by (R245) -/
  wrote : List Wrote := []
  dir : Tab Dir := []
  revs : Tab Rev := []
  tags : Tab Tag := []
  locks : Tab Lock := []
  /-- rotating pointer of each atomic unit of a slice or proxy (R270) -/
  atomPtr : Tab Nat := []
  deriving DecidableEq, Repr, Inhabited

/-- Attributes of a mapped page (R186). -/
structure Attr where
  perm : Nat
  kind : Nat
  cpol : Nat
  tow : Bool
  deriving DecidableEq, Repr, Inhabited

/-- A segment (R188). -/
structure Seg where
  vbase : Nat
  len : Nat
  pbase : Nat
  slope : Int
  attr : Attr
  deriving DecidableEq, Repr, Inhabited

/-- An exception entry (R189). -/
structure Exc where
  vpn : Nat
  asid : Nat
  ppn : Nat
  attr : Attr
  ev : Bool
  igen : Nat
  deriving DecidableEq, Repr, Inhabited

/-- The translation that the V9 holds for an ASID (R178). -/
structure Space where
  valid : Bool := false
  h : Bool := false
  root : Nat := 0
  fit : Nat := 0
  priv : Nat := 0
  gen : Nat := 0
  segs : List Seg := []
  deriving DecidableEq, Repr, Inhabited

/-- A pending refit range (R196, R197). -/
structure RefitReq where
  asid : Nat
  first : Nat
  last : Nat
  op : Option Nat
  deriving DecidableEq, Repr, Inhabited

/-- A pass of the refitter from its read of the map to its publication (R196): the range that it serves, by its number, when it read, and what
it read: generation, pages covered, status, each page's leaf, and the segments that it gives. -/
structure RefitPass where
  key : Nat
  req : RefitReq
  at0 : Nat
  gen : Nat := 0
  lo : Nat := 0
  hi : Nat := 0
  status : Nat := 0
  leaves : List (Nat × Option (Nat × Attr)) := []
  segs : List Seg := []
  deriving DecidableEq, Repr, Inhabited

/-- Translation state (R179, R189, R191). -/
structure Xl where
  xasb : Nat := 0
  xspb : Nat := 0
  xspn : Nat := 0
  xthr : Nat := 0
  exc : Tab Exc := []
  spill : Tab Exc := []
  spaces : Tab Space := []
  refits : Tab RefitReq := []
  /-- the pass that has read the map and not yet published (R196) -/
  pass : Option RefitPass := none
  deriving DecidableEq, Repr, Inhabited

/-- States of a recording (R329). -/
inductive TowState where
  | free | armed | recording | recorded | playing | departed
  deriving DecidableEq, Repr, Inhabited

/-- A participant of a recording (R326, R330, R333), under the name of its team (R327). -/
structure TowPart where
  name : Nat
  /-- in its recorded iteration -/
  inRec : Bool := true
  /-- executed TOWITER since the last advance of ITER -/
  seen : Bool := false
  /-- pushes have started, or go on until the next TOWITER after departure -/
  push : Bool := false
  live : Bool := true
  iters : Nat := 0
  deriving DecidableEq, Repr, Inhabited

/-- An entry of a recording part (R331). -/
structure TowEnt where
  sector : Nat
  prod : Nat
  cons : Nat
  die : Nat
  ord : Nat
  reads : Nat
  deriving DecidableEq, Repr, Inhabited

/-- A recording (R326, R333). -/
structure Recd where
  st : TowState := .free
  trunc : Bool := false
  owner : Nat := 0xFFFF
  thrUnused : Nat := 0
  thrUncov : Nat := 0
  npart : Nat := 0
  parts : List TowPart := []
  ents : List TowEnt := []
  iter : Nat := 0
  unused : Nat := 0
  uncov : Nat := 0
  covered : List (Nat × Nat) := []
  /-- TOWPLAY has been served since the latest TOWREC: `ITER` advances and the counters count (R333, R401) -/
  played : Bool := false
  /-- departed, and `ITER` has advanced since: the counters rest (R334) -/
  frozen : Bool := false
  deriving DecidableEq, Repr, Inhabited

/-- A push on its way (R332). -/
structure Push where
  id : Nat
  ent : TowEnt
  deriving DecidableEq, Repr, Inhabited

/-- Link states (R363). -/
inductive LinkState where
  | down | detect | equalize | ident | timesync | active | degraded
  deriving DecidableEq, Repr, Inhabited

/-- A virtual lane of a link (R362): free bytes of the receiver, pause sent, own sending paused. -/
structure VLane where
  free : Nat := 65536
  pauseSent : Bool := false
  paused : Bool := false
  deriving DecidableEq, Repr, Inhabited

/-- A Glokar Link (R361 to R363). -/
structure Link where
  st : LinkState := .down
  lanes : Nat := 0
  peer : Nat := 0
  rtt : Nat := 0
  /-- the peer has fabric scope enabled (R360) -/
  peerFabric : Bool := false
  offset : Int := 0
  vls : List VLane := [{}, {}, {}]
  deriving DecidableEq, Repr, Inhabited

/-- A CXL port (R356, R361). -/
structure Port where
  up : Bool := false
  lost : Nat := 0
  deriving DecidableEq, Repr, Inhabited

/-- The configuration record (R367). -/
structure CfgRec where
  devid : Nat := 0
  roles : List Bool := List.replicate 18 false
  enables : List Bool := List.replicate 18 true
  lsl1 : Nat := 1024
  lsrdc : Nat := 2048
  fwin : Nat := 2048
  power : Nat := 3200
  deriving DecidableEq, Repr, Inhabited

/-- Start-up (R366). -/
structure Boot where
  /-- the step about to run, or waited at -/
  step : Nat := 1
  failed : Nat := 0
  cause : Nat := 0
  recovery : Bool := false
  badChannels : List Nat := []
  supLoaded : Bool := false
  deriving DecidableEq, Repr, Inhabited

/-- What the host or a peer was answered last. -/
inductive BusReply where
  | none
  | data (bytes : List Byte) (pois : Bool)
  | ack
  | claim (index : DWord)
  | unsupported
  deriving DecidableEq, Repr, Inhabited

/-- A peer's atomic on F16X2 or BF16X2 whose first half is done (R268): its place, operation, operand, that half, and what it read. -/
structure PeerHalf where
  link : Nat
  pa : Nat
  aop : Nat
  ty : Nat
  opnd : Nat
  half : Nat
  old : Nat
  deriving DecidableEq, Repr, Inhabited

/-- A write of a peer to a sector here (R232, R260): when it was performed, and how many windows after that one older copies may still serve loads. -/
structure PeerCap where
  sector : Nat
  at0 : Nat
  ahead : Nat
  deriving DecidableEq, Repr, Inhabited

/-- An sc fence that has completed (R244): its scope instance, when, and its rank by core and home lane. -/
structure FenceDone where
  inst : Nat
  at0 : Nat
  rank : Nat
  deriving DecidableEq, Repr, Inhabited

/-- Device time, leases, host and fabric attachment. -/
structure Mod where
  /-- device time in ns (R223) -/
  now : Nat := 0
  /-- 1588 time less device time, ns (R231) -/
  ptp : Int := 0
  timeFault : List Bool := [false, false, false, false]
  desync : Bool := false
  lsl1 : Nat := 1024
  lsrdc : Nat := 2048
  fwin : Nat := 2048
  clockLow : Bool := false
  fen : List Nat := [0, 0, 0, 0]
  fack : Nat := 0
  devid : Nat := 0
  cfg : CfgRec := {}
  nextCfg : CfgRec := {}
  boot : Boot := {}
  cxlio : Tab DWord := []
  rasce : Nat := 0
  rasue : Nat := 0
  ports : List Port := [{}, {}]
  links : List Link := List.replicate 18 {}
  fenced : List Nat := []
  reply : BusReply := .none
  /-- host writes not yet acknowledged (R357) -/
  hostWait : List WClock := []
  /-- peers' packed atomics that have done their first half (R268) -/
  peerHalves : List PeerHalf := []
  /-- latest peer window of the releases of scope d or wider that have completed, which an acquire of such a scope takes on (R242, log 77) -/
  relWin : Option Nat := none
  /-- peers' writes whose window has not passed on a clock within the band (R232, R234, R260) -/
  peerCaps : List PeerCap := []
  /-- the sc fences of scopes g to s that have completed at this device time (R244) -/
  fences : List FenceDone := []
  deriving DecidableEq, Repr, Inhabited

/-- The machine. -/
structure State where
  mod : Mod := {}
  mem : MemSys := {}
  xl : Xl := {}
  queues : Tab Queue := []
  grids : Tab Grid := []
  teams : Tab Team := []
  groups : Tab Group := []
  threads : Tab Thread := []
  entries : List Entry := []
  scheds : Tab Sched := []
  issues : Tab Issue := []
  ops : Tab Op := []
  cmds : Tab Cmd := []
  /-- latest promise given on a Ferry queue, by core x 2 + queue (R281) -/
  proms : Tab Nat := []
  /-- release clocks of the releases that the supervisor threads of a core have completed, by core, which an acquire among them takes on (R242,
  log 77) -/
  supRel : Tab WClock := []
  passes : Tab Pass := []
  recs : Tab Recd := []
  pushes : Tab Push := []
  mail : Tab MEnt := []
  posts : Tab Post := []
  svflt : Tab Nat := []
  /-- which turns come next (log 3) -/
  due : List Turn := []
  /-- the scheduler whose word is being executed (log 3) -/
  cur : Nat := 0
  /-- count of free choices and free values drawn (log 3, log 7) -/
  tick : Nat := 0
  /-- next serial number (log 3) -/
  serial : Nat := 1
  deriving DecidableEq, Repr, Inhabited

/-- Why a step stops with a fault. -/
inductive Fault where
  /-- A host or peer access to a device address at or above 384 GiB, to which R6 gives no home; raised by HOST_MEM_READ, HOST_MEM_WRITE and
  PEER_REQUEST. Safe: the run stops. Log 120: DESIGN CHOICE, safe. -/
  | physicalHole
  deriving DecidableEq, Repr, Inhabited

/-- Why a step refuses. -/
inductive Refusal where
  /-- An instruction without a meaning yet; raised by the arms of Dispatch. Safe: the run stops. -/
  | notModelled (mnemonic : String)
  deriving DecidableEq, Repr, Inhabited

/-- The machine right after reset: start-up step 1 is about to run (R366), nothing is resident, and every
register stands at the spec's reset value or at the value that log 1 names. Log 1: DESIGN CHOICE, unsafe. -/
def State.reset : State := {}

end Sys2Proof.Machine
end

