-- ==== Sys2Proof/Machine/Table.lean ====
section
/-! DEFINITION. Finite maps, byte memories in canonical form, and little-endian numbers (R68). -/

namespace Sys2Proof.Machine

/-- Lookup. -/
def Tab.get {α : Type} (t : Tab α) (k : Nat) : Option α :=
  match t with
  | [] => none
  | (j, v) :: r => if j == k then some v else Tab.get r k

/-- Lookup with a default. -/
def Tab.getD {α : Type} (t : Tab α) (k : Nat) (d : α) : α := (Tab.get t k).getD d

/-- Insert or replace, keys rising. -/
def Tab.put {α : Type} (t : Tab α) (k : Nat) (v : α) : Tab α :=
  match t with
  | [] => [(k, v)]
  | (j, x) :: r => if k < j then (k, v) :: (j, x) :: r else if k == j then (k, v) :: r else (j, x) :: Tab.put r k v

/-- Remove. -/
def Tab.del {α : Type} (t : Tab α) (k : Nat) : Tab α := t.filter (fun e => e.1 != k)

/-- Change the value at a key, if there is one. -/
def Tab.upd {α : Type} (t : Tab α) (k : Nat) (f : α → α) : Tab α :=
  t.map (fun e => if e.1 == k then (e.1, f e.2) else e)

/-- Membership. -/
def Tab.has {α : Type} (t : Tab α) (k : Nat) : Bool := (Tab.get t k).isSome

/-- The entries that satisfy a test. -/
def Tab.find {α : Type} (t : Tab α) (p : Nat → α → Bool) : Tab α := t.filter (fun e => p e.1 e.2)

/-! ### Byte memories -/

/-- The canonical form: addresses strictly rising, no listed zero (an unlisted byte reads 0, log 2, R206). -/
def Memory.wf (m : List Host.Cell) : Bool :=
  match m with
  | [] => true
  | [(_, b)] => b != 0
  | (a, b) :: (a', b') :: r => b != 0 && a < a' && Memory.wf ((a', b') :: r)

/-- One byte. Log 2: DESIGN CHOICE, unsafe. -/
def Memory.get (m : List Host.Cell) (a : Nat) : Byte :=
  match m with
  | [] => 0
  | (j, b) :: r => if j == a then b else Memory.get r a

/-- Write one byte, keeping the canonical form. -/
def Memory.set (m : List Host.Cell) (a : Nat) (b : Byte) : List Host.Cell :=
  match m with
  | [] => if b == 0 then [] else [(a, b)]
  | (j, x) :: r =>
    if a < j then (if b == 0 then (j, x) :: r else (a, b) :: (j, x) :: r)
    else if a == j then (if b == 0 then r else (a, b) :: r)
    else (j, x) :: Memory.set r a b

/-- `n` bytes from `a` on. -/
def Memory.read (m : List Host.Cell) (a : Nat) : Nat → List Byte
  | 0 => []
  | n + 1 => Memory.get m a :: Memory.read m (a + 1) n

/-- Write bytes from `a` on. -/
def Memory.write (m : List Host.Cell) (a : Nat) : List Byte → List Host.Cell
  | [] => m
  | b :: r => Memory.write (Memory.set m a b) (a + 1) r

/-- A little-endian number. -/
def leNat : List Byte → Nat
  | [] => 0
  | b :: r => b.toNat + 256 * leNat r

/-- `n` bytes of a list of bytes from `i` on, as a number; missing bytes are 0. -/
def fieldAt (bs : List Byte) (i n : Nat) : Nat := leNat ((bs.drop i).take n)

/-- Overwrite bytes of a list from `i` on. -/
def patch (bs : List Byte) (i : Nat) (new : List Byte) : List Byte :=
  bs.take i ++ new ++ bs.drop (i + new.length)

/-- Zero bytes. -/
def zeros (n : Nat) : List Byte := List.replicate n 0

/-! ### Small helpers -/

/-- The numbers below `n`, rising. -/
def upto (n : Nat) : List Nat := List.range n

/-- Insertion into a list sorted by a key. -/
def insertBy {α : Type} (key : α → Nat) (x : α) : List α → List α
  | [] => [x]
  | y :: r => if key x < key y then x :: y :: r else y :: insertBy key x r

/-- Insertion sort, stable. -/
def sortBy {α : Type} (key : α → Nat) (l : List α) : List α := l.foldl (fun acc x => insertBy key x acc) []

/-- The element with the least key, first on ties. -/
def minBy {α : Type} (key : α → Nat) (l : List α) : Option α :=
  l.foldl (fun best x => match best with
    | none => some x
    | some b => if key x < key b then some x else some b) none

/-- A number as a two's complement of `n` bits. -/
def toSigned (n x : Nat) : Int := if x % 2 ^ n < 2 ^ (n - 1) then (x % 2 ^ n : Nat) else (x % 2 ^ n : Nat) - (2 ^ n : Nat)

/-- An integer modulo 2^n. -/
def wrapInt (n : Nat) (x : Int) : Nat := (x % (2 ^ n : Nat)).toNat

/-- Removes repeats. -/
def dedup (l : List Nat) : List Nat := l.foldl (fun acc x => if acc.contains x then acc else acc ++ [x]) []

/-- The device time that a register or field of 64 bits shows. -/
def time64 (n : Nat) : Nat := n % 2 ^ 64

/-- The device time nearest to `now` that a field of 64 bits names. -/
def timeNear (now x : Nat) : Nat :=
  let d := (x + (2 ^ 64 - time64 now)) % 2 ^ 64
  if d < 2 ^ 63 then now + d else now + d - 2 ^ 64

end Sys2Proof.Machine
end

