-- ==== Sys2Proof/Machine/Num.lean ====
section
/-! DEFINITION. Numbers (R67 to R91): formats by their code, exact values, one rounding in five modes,
overflow policies, and the sums, products, quotients and roots of the floating-point instructions. A value
of any format is held here as the natural number of its bits. -/

namespace Sys2Proof.Machine

/-- An exact value: NaN, an infinity, or (-1)^neg x m x 2^e. -/
inductive FV where
  | nan
  | inf (neg : Bool)
  | fin (neg : Bool) (m : Nat) (e : Int)
  deriving DecidableEq, Repr, Inhabited

/-- A float format: exponent bits, fraction bits, bias, and whether it has infinities and a signed zero (R69, R71, R72). -/
structure FFmt where
  eb : Nat
  fb : Nat
  bias : Nat
  ieee : Bool
  deriving DecidableEq, Repr, Inhabited

def fF64 : FFmt := ⟨11, 52, 1023, true⟩
def fF32 : FFmt := ⟨8, 23, 127, true⟩
def fF16 : FFmt := ⟨5, 10, 15, true⟩
def fBF16 : FFmt := ⟨8, 7, 127, true⟩
def fF8A : FFmt := ⟨4, 3, 8, false⟩
def fF8B : FFmt := ⟨5, 2, 16, false⟩

/-- The float format of a format code (R44). -/
def floatFmt (code : Nat) : Option FFmt :=
  match code with
  | 4 => some fF32
  | 5 => some fF64
  | 6 => some fF16
  | 7 => some fBF16
  | 8 => some fF8A
  | 9 => some fF8B
  | _ => none

/-- Width and signedness of an integer format code (R44, R67). -/
def intFmt (code : Nat) : Option (Nat × Bool) :=
  match code with
  | 0 => some (32, true)
  | 1 => some (32, false)
  | 2 => some (64, true)
  | 3 => some (64, false)
  | 11 => some (8, true)
  | 12 => some (8, false)
  | 13 => some (16, true)
  | 14 => some (16, false)
  | _ => none

/-- Bits of a format. -/
def FFmt.width (f : FFmt) : Nat := 1 + f.eb + f.fb
/-- The sign bit's weight. -/
def FFmt.signBit (f : FFmt) : Nat := 2 ^ (f.eb + f.fb)
/-- The canonical NaN (R69, R73). -/
def FFmt.qnan (f : FFmt) : Nat :=
  if f.ieee then (2 ^ f.eb - 1) * 2 ^ f.fb + 2 ^ (f.fb - 1) else f.signBit
/-- Infinity, where the format has one. -/
def FFmt.infBits (f : FFmt) (neg : Bool) : Nat := (if neg then f.signBit else 0) + (2 ^ f.eb - 1) * 2 ^ f.fb
/-- Largest finite value (R74). -/
def FFmt.maxBits (f : FFmt) (neg : Bool) : Nat :=
  (if neg then f.signBit else 0) + (if f.ieee then (2 ^ f.eb - 1) * 2 ^ f.fb - 1 else f.signBit - 1)

/-- The exact value of a bit pattern. -/
def FFmt.dec (f : FFmt) (x : Nat) : FV :=
  let neg := x / f.signBit % 2 == 1
  let e := x / 2 ^ f.fb % 2 ^ f.eb
  let m := x % 2 ^ f.fb
  if !f.ieee && x % 2 ^ f.width == f.signBit then .nan
  else if f.ieee && e == 2 ^ f.eb - 1 then (if m == 0 then .inf neg else .nan)
  else if e == 0 then .fin neg m (1 - (f.bias : Int) - f.fb)
  else .fin neg (m + 2 ^ f.fb) ((e : Int) - f.bias - f.fb)

/-- Whether to round away from zero (R79): `odd` the last bit kept, `r` 0 exact, 1 below half, 2 half, 3 above. -/
def roundAway (rnd : Nat) (neg odd : Bool) (r : Nat) : Bool :=
  match rnd with
  | 0 => r == 3 || (r == 2 && odd)
  | 1 => false
  | 2 => neg && r != 0
  | 3 => !neg && r != 0
  | _ => 2 ≤ r

/-- Splits m x 2^e at weight 2^q: the kept part and the class of the rest; `sticky` says that a further
positive amount below the last bit of m is there. -/
def splitAt (m : Nat) (e q : Int) (sticky : Bool) : Nat × Nat :=
  if q ≤ e then (m * 2 ^ (e - q).toNat, if sticky then 1 else 0)
  else
    let sh := (q - e).toNat
    let rest := m % 2 ^ sh
    let half := 2 ^ (sh - 1)
    (m / 2 ^ sh,
      if rest == 0 && !sticky then 0 else if rest < half then 1 else if rest == half && !sticky then 2 else 3)

/-- What to do where a result overflows: IEEE 754 for the mode, or a policy of `OVF` (R81, R82). -/
inductive Ovf where
  | ieee
  | pol (p : Nat)
  deriving DecidableEq, Repr, Inhabited

/-- The bits of an overflowed result; `none` is trap 0x11 (R82). -/
def FFmt.overflow (f : FFmt) (rnd : Nat) (o : Ovf) (neg : Bool) : Option Nat :=
  match o with
  | .ieee =>
    let toInf := match rnd with | 0 => true | 1 => false | 2 => neg | 3 => !neg | _ => true
    some (if toInf then f.infBits neg else f.maxBits neg)
  | .pol 0 => some (f.maxBits neg)
  | .pol 1 => some (if f.ieee then f.infBits neg else f.signBit)
  | .pol 2 => some f.qnan
  | .pol _ => none

/-- Rounds an exact value once into a format (R79 to R83). `none` is trap 0x11. -/
def FFmt.round (f : FFmt) (rnd : Nat) (o : Ovf) (v : FV) (sticky : Bool := false) : Option Nat :=
  match v with
  | .nan => some f.qnan
  | .inf neg => if f.ieee then some (f.infBits neg) else f.overflow rnd o neg
  | .fin neg m e =>
    if m == 0 && !sticky then some (if neg && f.ieee then f.signBit else 0)
    else
      let emin : Int := 1 - (f.bias : Int) - f.fb
      let q := max ((Nat.log2 m : Int) + e - f.fb) emin
      let (k, r) := splitAt m e q sticky
      let k := if roundAway rnd neg (k % 2 == 1) r then k + 1 else k
      let bits := (q - emin).toNat * 2 ^ f.fb + k
      if (f.maxBits false) < bits then f.overflow rnd o neg
      else some (if bits == 0 && !f.ieee then 0 else (if neg then f.signBit else 0) + bits)

/-- Rounds where no overflow can trap. -/
def FFmt.rnd (f : FFmt) (rnd : Nat) (v : FV) : Nat := (f.round rnd .ieee v).getD 0

/-- Negation. -/
def FV.neg : FV → FV
  | .nan => .nan
  | .inf n => .inf !n
  | .fin n m e => .fin (!n) m e

/-- A signed integer times 2^e as a value; `z` is the sign of a zero. -/
def FV.ofInt (x : Int) (e : Int) (z : Bool) : FV := if x == 0 then .fin z 0 e else .fin (x < 0) x.natAbs e

/-- The signed coefficient at weight 2^w, for w at most the exponent. -/
def FV.coef (neg : Bool) (m : Nat) (e w : Int) : Int :=
  let c : Int := (m : Int) * (2 ^ (e - w).toNat : Nat)
  if neg then -c else c

/-- The exact sum; a zero sum of opposite signs is -0 under RDN and +0 otherwise (R121, R123). Log 32: DEDUCED, unsafe. -/
def FV.add (rnd : Nat) (a b : FV) : FV :=
  match a, b with
  | .nan, _ => .nan
  | _, .nan => .nan
  | .inf x, .inf y => if x == y then .inf x else .nan
  | .inf x, _ => .inf x
  | _, .inf y => .inf y
  | .fin na ma ea, .fin nb mb eb =>
    if ma == 0 && mb == 0 then .fin (if na == nb then na else rnd == 2) 0 0
    else
      let w := min ea eb
      FV.ofInt (FV.coef na ma ea w + FV.coef nb mb eb w) w (rnd == 2)

/-- The exact product. -/
def FV.mul (a b : FV) : FV :=
  match a, b with
  | .nan, _ => .nan
  | _, .nan => .nan
  | .inf x, .inf y => .inf (x != y)
  | .inf x, .fin n m _ => if m == 0 then .nan else .inf (x != n)
  | .fin n m _, .inf y => if m == 0 then .nan else .inf (n != y)
  | .fin na ma ea, .fin nb mb eb => .fin (na != nb) (ma * mb) (ea + eb)

/-- Times 2^k (R76). -/
def FV.scale (a : FV) (k : Int) : FV :=
  match a with
  | .fin n m e => .fin n m (e + k)
  | x => x

/-- Strict order of values that are not NaN; -0 below +0 where `zeros` (R122). -/
def FV.lt (zeros : Bool) (a b : FV) : Bool :=
  match a, b with
  | .nan, _ => false
  | _, .nan => false
  | .inf x, .inf y => x && !y
  | .inf x, _ => x
  | _, .inf y => !y
  | .fin na ma ea, .fin nb mb eb =>
    let w := min ea eb
    let x := FV.coef na ma ea w
    let y := FV.coef nb mb eb w
    x < y || (zeros && ma == 0 && mb == 0 && na && !nb)

/-- FMIN and FMAX on bits (R122). -/
def FFmt.minmax (f : FFmt) (isMax : Bool) (x y : Nat) : Nat :=
  match f.dec x, f.dec y with
  | .nan, .nan => f.qnan
  | .nan, _ => y
  | _, .nan => x
  | a, b => if isMax then (if FV.lt true a b then y else x) else (if FV.lt true b a then y else x)

/-- A float compare under a condition of R45 (R124). -/
def FFmt.cmp (f : FFmt) (cnd x y : Nat) : Bool :=
  match f.dec x, f.dec y with
  | .nan, _ => cnd == 1 || cnd == 10
  | _, .nan => cnd == 1 || cnd == 10
  | a, b =>
    let lt := FV.lt false a b
    let gt := FV.lt false b a
    match cnd with
    | 0 => !lt && !gt
    | 1 => lt || gt
    | 2 => lt
    | 3 => !gt
    | 4 => gt
    | 5 => !lt
    | 10 => false
    | _ => true

/-- An exact integer rounding of a value: the integer (R79, R131). -/
def roundInt (rnd : Nat) (neg : Bool) (m : Nat) (e : Int) : Int :=
  let (k, r) := splitAt m e 0 false
  let k := if roundAway rnd neg (k % 2 == 1) r then k + 1 else k
  if neg then -(k : Int) else k

/-- Bounds of an integer format. -/
def intBounds (w : Nat) (sg : Bool) : Int × Int :=
  if sg then (-(2 ^ (w - 1) : Nat), (2 ^ (w - 1) : Nat) - 1) else (0, (2 ^ w : Nat) - 1)

/-- Converts a value to an integer format under a policy (R82, R83); `none` is trap 0x11. -/
def toIntFmt (w : Nat) (sg : Bool) (rnd ovf : Nat) (v : FV) : Option Nat :=
  let (lo, hi) := intBounds w sg
  let ovfl := fun (neg : Bool) =>
    match ovf with
    | 0 | 1 => some (wrapInt w (if neg then lo else hi))
    | 2 => some 0
    | _ => none
  match v with
  | .nan => some 0
  | .inf neg => ovfl neg
  | .fin neg m e =>
    -- a huge exponent is out of range whatever the mantissa
    if m != 0 && 70 < (Nat.log2 m : Int) + e then ovfl neg
    else
      let x := roundInt rnd neg m e
      if x < lo || hi < x then ovfl neg else some (wrapInt w x)

/-- The value of bits in a format code; C4 is decoded elsewhere (R77). -/
def fmtDec (code x : Nat) : FV :=
  match floatFmt code with
  | some f => f.dec x
  | none =>
    match intFmt code with
    | some (w, sg) => FV.ofInt (if sg then toSigned w x else ((x % 2 ^ w : Nat) : Int)) 0 false
    | none => .nan

/-- Rounds a value into a format code; F32 and F64 overflow by IEEE 754 (R81, R131). -/
def fmtEnc (code rnd ovf : Nat) (v : FV) : Option Nat :=
  match floatFmt code with
  | some f => f.round rnd (if code == 4 || code == 5 then .ieee else .pol ovf) v
  | none =>
    match intFmt code with
    | some (w, sg) => toIntFmt w sg rnd ovf v
    | none => none

/-- A conversion with an E8 scale: removed where the destination is narrower, else applied (R130). -/
def convert (dst rnd ovf : Nat) (scale : Option Nat) (narrows : Bool) (v : FV) : Option Nat :=
  match scale with
  | none => fmtEnc dst rnd ovf v
  | some e =>
    if e == 255 then some (match floatFmt dst with | some f => f.qnan | none => 0)
    else fmtEnc dst rnd ovf (v.scale (if narrows then 127 - (e : Int) else (e : Int) - 127))

/-! ### Quotients and roots (R129) -/

/-- The integer square root, by bits from weight 2^n down. -/
def isqrtGo (x : Nat) : Nat → Nat → Nat
  | 0, acc => if (acc + 1) * (acc + 1) ≤ x then acc + 1 else acc
  | n + 1, acc =>
    let c := acc + 2 ^ (n + 1)
    isqrtGo x n (if c * c ≤ x then c else acc)

def isqrt (x : Nat) : Nat := if x == 0 then 0 else isqrtGo x (Nat.log2 x / 2 + 1) 0

/-- A correctly rounded quotient. -/
def FFmt.div (f : FFmt) (rnd x y : Nat) : Nat :=
  match f.dec x, f.dec y with
  | .nan, _ => f.qnan
  | _, .nan => f.qnan
  | .inf _, .inf _ => f.qnan
  | .inf a, .fin n _ _ => f.infBits (a != n)
  | .fin n _ _, .inf b => if n != b then f.signBit else 0
  | .fin na ma ea, .fin nb mb eb =>
    let neg := na != nb
    if mb == 0 then (if ma == 0 then f.qnan else f.infBits neg)
    else if ma == 0 then (if neg then f.signBit else 0)
    else
      let k := f.fb + 4 + Nat.log2 mb
      let n := ma * 2 ^ k
      (f.round rnd .ieee (.fin neg (n / mb) (ea - eb - k)) (n % mb != 0)).getD 0

/-- A correctly rounded square root. -/
def FFmt.sqrt (f : FFmt) (rnd x : Nat) : Nat :=
  match f.dec x with
  | .nan => f.qnan
  | .inf neg => if neg then f.qnan else f.infBits false
  | .fin neg m e =>
    if m == 0 then (if neg then f.signBit else 0)
    else if neg then f.qnan
    else
      -- an even exponent, with enough bits below
      let k := 2 * f.fb + 8 + (if e % 2 == 0 then 0 else 1)
      let n := m * 2 ^ k
      let r := isqrt n
      (f.round rnd .ieee (.fin false r ((e - k) / 2)) (r * r != n)).getD 0

/-! ### Unary functions (R125) -/

/-- The class mask. -/
def FFmt.classMask (f : FFmt) (x : Nat) : Nat :=
  let neg := x / f.signBit % 2 == 1
  let e := x / 2 ^ f.fb % 2 ^ f.eb
  let m := x % 2 ^ f.fb
  if e == 2 ^ f.eb - 1 then
    (if m == 0 then (if neg then 1 else 128) else if m < 2 ^ (f.fb - 1) then 256 else 512)
  else if e == 0 then
    (if m == 0 then (if neg then 8 else 16) else if neg then 4 else 32)
  else if neg then 2 else 64

/-- Rounds to an integral value in a mode, keeping the sign. -/
def FFmt.integral (f : FFmt) (rnd x : Nat) : Nat :=
  match f.dec x with
  | .nan => f.qnan
  | .inf neg => f.infBits neg
  | .fin neg m e =>
    if 0 ≤ e then x else f.rnd 0 (.fin neg (roundInt rnd neg m e).natAbs 0)

/-- FUNA but CLASS. -/
def FFmt.una (f : FFmt) (fn x : Nat) : Nat :=
  match f.dec x, fn with
  | .nan, 7 => 0
  | .nan, _ => f.qnan
  | _, 0 => if x / f.signBit % 2 == 1 then x - f.signBit else x + f.signBit
  | _, 1 => x % f.signBit
  | _, 2 => f.integral 2 x
  | _, 3 => f.integral 3 x
  | _, 4 => f.integral 1 x
  | _, 5 => f.integral 0 x
  | v, _ =>
    let one := f.rnd 0 (.fin false 1 0)
    if x / f.signBit % 2 == 1 then 0 else if FV.lt false (.fin false 1 0) v then one else x

end Sys2Proof.Machine
end

