-- ==== Sys2Proof/Machine/Ops.lean ====
section
/-! DEFINITION. The shared operations over the state: threads and their registers' homes, poison and the
ring of fault records, slots, operations, taking a trap and its reply, and the lanes of an issue group. -/

namespace Sys2Proof.Machine

/-- The outcome of an instruction or event. -/
abbrev Out := Host.Outcome State Fault Refusal

/-! ### Places -/

/-- The place of a thread. -/
def place (core gslot lane : Nat) : Nat := core * 1536 + gslot * 32 + lane
def placeCore (pl : Nat) : Nat := pl / 1536
def placeSlot (pl : Nat) : Nat := pl / 32 % 48
def placeLane (pl : Nat) : Nat := pl % 32
/-- The place of a thread's home group. -/
def placeGroup (pl : Nat) : Nat := pl / 32
/-- Die of a core, cluster of a core (R4). -/
def dieOf (core : Nat) : Nat := core / 48
def clusterOf (core : Nat) : Nat := core / 4

/-- The threads of supervisor groups stand in slot 47 (R345). -/
def isSup (pl : Nat) : Bool := placeSlot pl == 47

/-! ### State access -/

def State.thread (s : State) (pl : Nat) : Option Thread := s.threads.get pl
def State.setThread (s : State) (pl : Nat) (t : Thread) : State := { s with threads := s.threads.put pl t }
def State.updThread (s : State) (pl : Nat) (f : Thread → Thread) : State := { s with threads := s.threads.upd pl f }
def State.team (s : State) (k : Nat) : Option Team := s.teams.get k
def State.updTeam (s : State) (k : Nat) (f : Team → Team) : State := { s with teams := s.teams.upd k f }
def State.op (s : State) (k : Nat) : Option Op := s.ops.get k
def State.updOp (s : State) (k : Nat) (f : Op → Op) : State := { s with ops := s.ops.upd k f }
/-- Enabled feature bit of word 0, once acknowledged (R359, R360). -/
def State.feature (s : State) (bit : Nat) : Bool := s.mod.fack == 2 && (s.mod.fen.getD 0 0).testBit bit
/-- Whether a thread sleeps: device time, a count of 64 bits, has not reached its wake time (R7, R222). -/
def Thread.asleep (t : Thread) (s : State) : Bool := time64 s.mod.now < t.wake
/-- Sets the registers of the module. -/
def State.setMod (s : State) (m : Mod) : State := { s with mod := m }
def State.setMem (s : State) (m : MemSys) : State := { s with mem := m }

/-- Role of a thread of a team: 0 producer, 1 consumer (R13, R15). -/
def Team.role (tm : Team) (gid : Nat) : Nat := if gid < tm.pkt.prod then 0 else 1
/-- Register budget of a role (R15). -/
def Team.budget (tm : Team) (gid : Nat) : Nat := if gid < tm.pkt.prod then tm.pkt.budp else tm.pkt.budc
/-- Crew index of a group (R17). -/
def Team.crewOf (tm : Team) (gid : Nat) : Option Nat :=
  if tm.pkt.crew == 0 || gid < tm.pkt.prod then none
  else
    let j := (gid - tm.pkt.prod) / tm.pkt.crew
    if tm.pkt.prod + tm.pkt.crew * (j + 1) ≤ tm.pkt.groups then some j else none
/-- Number of crews (R17). -/
def Packet.crews (p : Packet) : Nat := if p.crew == 0 then 0 else (p.groups - p.prod) / p.crew
/-- Place of the thread with a given tid. -/
def Team.placeOf (tm : Team) (tid : Nat) : Nat := place tm.core (tm.slots.getD (tid / 32) 0) (tid % 32)
/-- The name of a team, the same wherever it is resumed (R327, log 11). Log 11: DEDUCED, unsafe. -/
def Team.name (tm : Team) : Nat := tm.grid * 2 ^ 64 + tm.index
/-- Places of all the threads of a team, in order of tid. -/
def Team.places (tm : Team) : List Nat := (upto (32 * tm.pkt.groups)).map tm.placeOf
/-- Scratchpad bytes of a team. -/
def Team.bound (tm : Team) : Nat := tm.pkt.scru * 4096

/-- A team of a grid whose context is saved (R350). -/
def Grid.savedAt (g : Grid) (index : Nat) : Option Kept := g.saved.find? (fun k => k.index == index)

/-- What a thread is, for the instruction that reads it. -/
structure Env where
  pl : Nat
  core : Nat
  gslot : Nat
  lane : Nat
  gid : Nat
  team : Nat
  tix : Nat
  role : Nat
  budget : Nat
  sup : Bool
  asid : Nat
  scru : Nat
  now : Nat
  deriving DecidableEq, Repr, Inhabited

/-- Device time as a thread's instruction reads it: its issue group's one sample, taken when the instruction issued (R95). -/
def State.clockOf (s : State) (pl : Nat) : Nat :=
  match s.issues.get s.cur with
  | some x => if x.batch != 0 && x.lanes.contains pl then x.clk else s.mod.now
  | none => s.mod.now

/-- The environment of a thread (R13, R117, R345). -/
def envOf (s : State) (pl : Nat) (t : Thread) : Env :=
  let e : Env :=
    { pl := pl, core := placeCore pl, gslot := placeSlot pl, lane := placeLane pl, gid := t.gid, team := t.team, tix := 0, role := 0,
      budget := 112, sup := true, asid := 0, scru := 0, now := time64 (s.clockOf pl) }
  match s.teams.get t.team with
  | none => { e with gid := 0, team := 0 }
  | some tm => { e with tix := tm.index, role := tm.role t.gid, budget := tm.budget t.gid, sup := false, asid := tm.pkt.asid,
                        scru := tm.pkt.scru }

/-! ### Poison (R97, R339) -/

def Pois.isBad : Pois → Bool
  | .clean => false
  | .bad _ _ => true

/-- The poison of a result: that of its first poisoned operand (R339). Log 14: DEDUCED, unsafe. -/
def Pois.or (a b : Pois) : Pois := if a.isBad then a else b

/-- A tag whose place is overwritten is lost. -/
def Pois.age (n : Nat) : Pois → Pois
  | .clean => .clean
  | .bad t l => .bad t (l || t.toNat == n)

/-- A new record takes the next place of the ring; tags that named the place are lost (R339). -/
def Thread.newRec (t : Thread) (r : FRec) (lost : Bool) : Thread × Pois :=
  let n := t.ringNext
  let age := fun (x : Reg) => { x with pois := x.pois.age n }
  ({ t with
      v := t.v.map age, k := t.k.map age, p := t.p.map (fun x => { x with pois := x.pois.age n }),
      ring := t.ring.set n { record := r, lost := lost }, ringNext := (n + 1) % 4 },
   .bad (BitVec.ofNat 2 n) lost)

/-- The record that a tag names, with its lost mark (R339). -/
def Thread.recOf (t : Thread) (p : Pois) : FRec × Bool :=
  match p with
  | .clean => ({}, true)
  | .bad tag l =>
    let x := t.ring.getD tag.toNat {}
    (x.record, l || x.lost)

/-- An empty ring. -/
def emptyRing : List RingPlace := List.replicate 4 {}
/-- Clean registers. -/
def cleanRegs (n : Nat) : List Reg := List.replicate n {}
/-- Clean predicates. -/
def cleanPreds : List Pred := List.replicate 12 {}

/-- A thread at team start (R93); the address that produced its first header is that header's own (R61). Log 110: DESIGN CHOICE, unsafe. -/
def Thread.fresh (team gid budget : Nat) (pc : DWord) (since : Nat) : Thread :=
  { team := team, gid := gid, pc := pc, prod := pc, v := cleanRegs budget, k := cleanRegs 8, p := cleanPreds, ring := emptyRing,
    since := since }

/-! ### Records -/

/-- The bytes of a fault record (R202). -/
def FRec.bytes (r : FRec) : List Byte :=
  bytesOf r.va 8 ++ bytesOf r.akind 1 ++ bytesOf r.cause 1 ++ bytesOf r.asid 2
    ++ bytesOf (r.src % 8 * 2 ^ 29 + r.index % 2 ^ 29) 4 ++ bytesOf r.gen 4 ++ zeros 4

/-- Reads a fault record from its bytes (R202). -/
def FRec.ofBytes (bs : List Byte) : FRec :=
  { va := fieldAt bs 0 8, akind := fieldAt bs 8 1, cause := fieldAt bs 9 1, asid := fieldAt bs 10 2,
    src := fieldAt bs 12 4 / 2 ^ 29, index := fieldAt bs 12 4 % 2 ^ 29, gen := fieldAt bs 16 4 }

/-- The 64 bytes of a mailbox record in an entry (R343). -/
def MRec.bytes (r : MRec) (entry : Nat) : List Byte :=
  bytesOf r.kind 1 ++ bytesOf r.code 1 ++ bytesOf entry 2 ++ bytesOf r.detail 4 ++ bytesOf r.pc 8 ++ bytesOf r.hdr 8
    ++ bytesOf r.asid 2 ++ bytesOf r.gslot 1 ++ bytesOf r.lane 1 ++ bytesOf r.core 1 ++ bytesOf r.word 1 ++ zeros 2
    ++ bytesOf r.team 8 ++ (r.payload ++ zeros 24).take 24

/-- Reads a mailbox record from its bytes (R343, R353 `TREC`). -/
def MRec.ofBytes (bs : List Byte) : MRec :=
  { kind := fieldAt bs 0 1, code := fieldAt bs 1 1, detail := fieldAt bs 4 4, pc := fieldAt bs 8 8, hdr := fieldAt bs 16 8,
    asid := fieldAt bs 24 2, gslot := fieldAt bs 26 1, lane := fieldAt bs 27 1, core := fieldAt bs 28 1, word := fieldAt bs 29 1,
    team := fieldAt bs 32 8, payload := (bs.drop 40).take 24 }

/-! ### Posting (R342) -/

/-- A record waits to be posted. -/
def State.post (s : State) (p : Post) : State :=
  { s with posts := s.posts.put s.serial p, serial := s.serial + 1 }

/-- The count of equal events in bits [31:24] of `DETAIL` rises by one, up to 255 (R342). -/
def countEvent (d : Nat) : Nat :=
  let c := d / 2 ^ 24 % 256
  2 ^ 24 * (if c < 255 then c + 1 else c) + d % 2 ^ 24

/-- A record that counts one more event like it (R342). -/
def Post.again (p : Post) : Post := { p with mrec := { p.mrec with detail := countEvent p.mrec.detail } }

/-- The units that post events: a core's Ferry, a cluster's engine, a die's proxy, a port, a time fault's die, the launch unit, the refitter,
the failed core, and a core's CTX. -/
def unitFerry (core : Nat) : Nat := core
def unitEngine (cluster : Nat) : Nat := 256 + cluster
def unitProxy (die : Nat) : Nat := 512 + die
def unitPort (p : Nat) : Nat := 520 + p
def unitTime (die : Nat) : Nat := 530 + die
def unitLaunch : Nat := 540
def unitRefit : Nat := 541
def unitCore (core : Nat) : Nat := 1024 + core
def unitCtx (core : Nat) : Nat := 2048 + core

/-- Posts an event of a unit. Where the event entries are exhausted and the unit holds a record of that code, the count of that record rises
(R342). -/
def State.postEvent (s : State) (core unit : Nat) (r : MRec) : State :=
  let free := 8 - (s.mail.find (fun k _ => k / 64 == core && 56 ≤ k % 64)).length
  let held := (s.posts.find (fun _ p => p.core == core && p.mrec.kind == 2)).drop free
  match held.find? (fun e => e.2.unit == unit && e.2.mrec.code == r.code) with
  | some (k, p) => { s with posts := s.posts.put k p.again }
  | none => s.post { core := core, mrec := r, th := none, unit := unit }

/-- An event about a faulting access (R344): code, payload record. -/
def State.postFault (s : State) (core unit : Nat) (r : FRec) : State :=
  s.postEvent core unit { kind := 2, code := r.cause, asid := r.asid, core := core, payload := r.bytes }

/-- An event about the command or instruction of a thread, at its core, with the thread's identity (R343). -/
def State.eventOf (s : State) (unit th team word : Nat) (r : MRec) : State :=
  s.postEvent (placeCore th) unit { r with
    kind := 2, gslot := placeSlot th, lane := placeLane th, core := placeCore th, word := word,
    team := match s.teams.get team with | some tm => tm.index | none => 0 }

/-- An event about a faulting access of a thread's command or instruction (R343, R344). -/
def State.faultOf (s : State) (unit th team word : Nat) (r : FRec) : State :=
  s.eventOf unit th team word { code := r.cause, asid := r.asid, payload := r.bytes }

/-- The lowest-numbered working core from `lo` up to `hi`. -/
def State.workingCore (s : State) (lo hi : Nat) : Option Nat :=
  (upto (hi - lo)).findSome? (fun i => if s.mod.fenced.contains (lo + i) then none else some (lo + i))

/-! ### Slots and operations (R99, R100) -/

/-- Changes a scoreboard slot of a group. -/
def State.updSlot (s : State) (g slot : Nat) (f : Nat → Nat) : State :=
  { s with groups := s.groups.upd g (fun x => { x with sb := x.sb.set slot (f (x.sb.getD slot 0)) }) }

/-- Marks the destination registers of a thread pending. -/
def Thread.addPend (t : Thread) (dst n : Nat) : Thread :=
  if dst < 112 then
    { t with v := t.v.mapIdx (fun i x => if dst ≤ i && i < dst + n then { x with pend := x.pend + 1 } else x) }
  else t
/-- Clears one pending mark of the destination registers. -/
def Thread.subPend (t : Thread) (dst n : Nat) : Thread :=
  if dst < 112 then
    { t with v := t.v.mapIdx (fun i x => if dst ≤ i && i < dst + n then { x with pend := x.pend - 1 } else x) }
  else t

/-- The operation as it stands in the table: with the word at which it issued. -/
def Op.atWord (s : State) (o : Op) : Op := { o with word := match s.issues.get s.cur with | some x => x.wix | none => o.word }

/-- Issues an operation: it enters the table, its slot rises in each group that no other operation of the
instruction already counts, its destinations become pending. -/
def State.addOp (s : State) (o : Op) : State :=
  let newg := o.grps.filter (fun g => !(s.ops.any (fun e => e.2.batch == o.batch && e.2.grps.contains g)))
  let s1 := { s with ops := s.ops.put s.serial (o.atWord s), serial := s.serial + 1 }
  let s2 := match o.slot with
    | none => s1
    | some k => newg.foldl (fun s g => s.updSlot g k (· + 1)) s1
  o.ths.foldl (fun s pl => s.updThread pl (fun t => t.addPend o.dst o.nd)) s2

/-- Ends an operation: its slot falls in each group that no other operation of the instruction still
counts, and its pending marks clear. -/
def State.endOp (s : State) (k : Nat) : State :=
  match s.ops.get k with
  | none => s
  | some o =>
    let s1 := { s with ops := s.ops.del k }
    let gone := o.grps.filter (fun g => !(s1.ops.any (fun e => e.2.batch == o.batch && e.2.grps.contains g)))
    let s2 := match o.slot with
      | none => s1
      | some n => gone.foldl (fun s g => s.updSlot g n (· - 1)) s1
    o.ths.foldl (fun s pl => s.updThread pl (fun t => t.subPend o.dst o.nd)) s2

/-! ### Traps (R341, R343, R344) -/

/-- A trap to be taken: code, detail, payload, and what its replies need. -/
structure Trap where
  code : Nat
  detail : Nat := 0
  payload : List Byte := []
  fetch : Bool := false
  acc : Option (Nat × Nat × Nat × Bool × Bool) := none
  coll : Bool := false
  waits : List (Nat × Nat) := []
  deriving DecidableEq, Repr, Inhabited

/-- A trap whose payload is a fault record. -/
def Trap.ofRec (r : FRec) : Trap := { code := r.cause, payload := r.bytes }

/-- Poison consumed (R340): the consumer's code, the lost mark, and the original record. -/
def poisonTrap (t : Thread) (p : Pois) (detail : Nat) : Trap :=
  let (r, lost) := t.recOf p
  { code := 0x05, detail := detail + (if lost then 256 else 0), payload := if lost then FRec.bytes { cause := 0x05 } else r.bytes }

/-- A trap in the supervisor group stops it and writes `SVFLT` (R345). -/
def State.stopSup (s : State) (core code : Nat) : State :=
  { s with
    svflt := if s.svflt.has core then s.svflt else s.svflt.put core code
    threads := s.threads.map (fun e => if placeCore e.1 == core && isSup e.1 && e.2.st != .exited then (e.1, { e.2 with st := .stopped }) else e)
    issues := s.issues.filter (fun e => !(e.1 / 4 == core && e.2.sup)) }

/-- The record of a trap or service of a thread. -/
def trapRec (s : State) (pl : Nat) (t : Thread) (kind code detail pc hdr word : Nat) (payload : List Byte) : MRec :=
  let e := envOf s pl t
  { kind := kind, code := code, detail := detail, pc := pc, hdr := hdr, asid := e.asid, gslot := e.gslot, lane := e.lane,
    core := e.core, word := word, team := e.tix, payload := payload }

/-- Suspends a thread with a trap and posts its record. `pos` is the run header and word of a trap at an
instruction; a trap at a run start or boundary has none, and HDR 0 (R343). Log 109: DEDUCED, unsafe. -/
def State.suspend (s : State) (pl : Nat) (tr : Trap) (pos : Option (Nat × Nat)) : State :=
  match s.threads.get pl with
  | none => s
  | some t =>
    if isSup pl then s.stopSup (placeCore pl) tr.code
    else
      let sp : Susp := { code := tr.code, detail := tr.detail, payload := tr.payload, pos := pos, fetch := tr.fetch, acc := tr.acc,
                         coll := tr.coll, waits := tr.waits }
      let t1 := { t with st := .susp, susp := some sp, next := none,
                         newWaits := if pos.isSome then t.newWaits else [] }
      let (pc, hdr, word) := match pos with
        | some (h, w) => (h + 4 * (w + 1), h, w)
        | none => (t.pc.toNat, 0, 0)
      (s.setThread pl t1).post { core := placeCore pl, mrec := trapRec s pl t 0 tr.code tr.detail pc hdr word tr.payload, th := some pl }

/-- Takes a thread out of the entries; an entry without threads is freed (R145). -/
def unfile (s : State) (pl : Nat) : State :=
  { s with entries := (s.entries.map (fun x => { x with members := x.members.filter (· != pl) })).filter (fun x => !x.members.isEmpty) }

/-- Takes a thread out of the issue group of a scheduler. -/
def State.leaveIssue (s : State) (sched pl : Nat) : State :=
  { s with issues := s.issues.upd sched (fun x => { x with lanes := x.lanes.filter (· != pl) }) }

/-- A thread of the current issue group takes a trap at the instruction being issued (R25, R341). -/
def State.trapAt (s : State) (pl : Nat) (tr : Trap) : State :=
  match s.issues.get s.cur with
  | none => s
  | some x => (s.suspend pl tr (some (x.hdr, x.wix))).leaveIssue s.cur pl

/-- A thread takes a trap at a run boundary. -/
def State.trapBoundary (s : State) (pl : Nat) (tr : Trap) : State := s.suspend pl tr none

/-! ### The checks of an issuing instruction (R62, R98) -/

/-- The registers that an instruction names, as codes, in the order `D`, `A`, `B`, `C`. -/
def infoRegs (f : Info) : List Nat :=
  let span := fun (c : BitVec 7) (n : Nat) => if c.toNat < 120 then (upto n).map (fun i => c.toNat + i) else []
  let c := match f.ext with
    | .a x => x.c
    | .t x => x.c
    | .e x => x.c
    | _ => 120
  span f.w.d f.nd ++ span f.w.a f.na ++ span f.w.b f.nb ++ span c f.nc

/-- The instruction's words as a trap payload (R344, 0x01 and 0x02). -/
def wordsPayload (i : Instr) : List Byte := ((encode i).map (fun w => bytesOf w.toNat 4)).flatten

/-- The guard of a thread. -/
inductive Gate where
  | skip
  | trap (t : Trap)
  | run
  deriving DecidableEq, Repr, Inhabited

/-- Whether a register of a thread is pending (R100). -/
def Thread.pending (t : Thread) (c : Nat) : Bool := c < 112 && (t.v.getD c {}).pend != 0

/-- Registers of each thread's `A` and `B` fragments, by shape and crew size (R296). -/
def fragRegs (shape crew : Nat) : Option (Nat × Nat) :=
  match shape, crew with
  | 0, 4 | 1, 4 | 2, 4 => some (32, 32)
  | 0, 8 | 1, 8 | 2, 8 => some (16, 16)
  | 3, 4 => some (32, 8)
  | 3, 8 => some (16, 4)
  | 4, 2 => some (32, 32)
  | 4, 4 => some (16, 16)
  | 4, 8 => some (8, 8)
  | _, _ => none

/-- Fields that are illegal for the thread that issues them, though its encoding is not (R62, item 4): a codebook of the supervisor group
(R135), an address space named by a user thread (R200), fragments that run past v111 or overlap (R300). A supervisor thread's XLQ may name an
address space in a run of any class. Log 98: DEDUCED, unsafe. -/
def illegalFor (s : State) (i : Instr) (e : Env) : Bool :=
  match i with
  | .cvt _ x => e.sup && cvtSrc x.fn == 10
  | .cblu _ _ | .cbload _ _ => e.sup
  | .xlq _ x => !e.sup && x.c != 120
  | .mxop w x =>
    (match fragRegs (x.fn.toNat % 16) (match s.teams.get e.team with | some tm => tm.pkt.crew | none => 0) with
      | some (na, nb) =>
        112 < w.a.toNat + na || 112 < w.b.toNat + nb || (w.a.toNat < w.b.toNat + nb && w.b.toNat < w.a.toNat + na)
      | none => false)
  | _ => false

/-- The `A` and `B` fragments of an MXOP: the registers that its shape takes of a crew of this width, the bases where it takes none (R296, R300). -/
def fragments (s : State) (i : Instr) (e : Env) : List Nat × List Nat :=
  match i with
  | .mxop w x =>
    let (na, nb) := (fragRegs (x.fn.toNat % 16) (match s.teams.get e.team with | some tm => tm.pkt.crew | none => 0)).getD (1, 1)
    ((upto na).map (w.a.toNat + ·), (upto nb).map (w.b.toNat + ·))
  | _ => ([], [])

/-- The registers of an instruction at or past their budget: a fragment has the consumers' (R62, item 5, R300). -/
def beyondBudget (s : State) (i : Instr) (f : Info) (e : Env) : List Nat :=
  let (a, b) := fragments s i e
  let budc := match s.teams.get e.team with | some tm => tm.pkt.budc | none => e.budget
  (a ++ b).filter (budc ≤ ·) ++ (infoRegs f).filter (fun c => c < 112 && e.budget ≤ c)

/-- The pending registers of an instruction, in the order of its operands (R62, item 6). -/
def pendingRegs (s : State) (i : Instr) (f : Info) (e : Env) (t : Thread) : List Nat :=
  let (a, b) := fragments s i e
  (a ++ b ++ infoRegs f).filter t.pending

/-- The guard (R32, R98) and then the checks of R62 in their order. Log 12: DEDUCED, unsafe. Log 13: DEDUCED, unsafe. -/
def gate (s : State) (i : Instr) (f : Info) (e : Env) (t : Thread) : Gate :=
  let g := f.w.g.toNat
  let pg := t.p.getD g {}
  if g < 12 && pg.pois.isBad then .trap (poisonTrap t pg.pois 3)
  else if 12 < g then .trap { code := 0x02, payload := wordsPayload i }
  else if g < 12 && !pg.val then .skip
  else if (match f.feat with | some b => !s.feature b | none => false) then .trap { code := 0x16, detail := f.feat.getD 0 }
  else if !f.enc || illegalFor s i e then .trap { code := 0x02, payload := wordsPayload i }
  else
    match beyondBudget s i f e with
    | c :: r => .trap { code := 0x14, detail := (c :: r).foldl max 0 }
    | [] =>
      match pendingRegs s i f e t with
      | c :: _ => .trap { code := 0x04, detail := c }
      | [] => .run

/-- What an instruction does on one lane. -/
inductive Res where
  | ok (s : State)
  | trap (s : State) (t : Trap)
  /-- the issue group holds at this word; later lanes wait -/
  | hold (s : State)
  deriving Repr, Inhabited

/-- Whether any operation or post that the scheduler holds for is still outstanding. -/
def State.holding (s : State) (x : Issue) : Bool := x.holds.any (fun k => s.ops.has k)

/-- Marks the word to be issued again. -/
def State.stallIssue (s : State) : State := { s with issues := s.issues.upd s.cur (fun x => { x with stall := true }) }
/-- A thread's guard `g` is clean and false: the instruction passes it by (R32). -/
def State.guardOff (s : State) (g pl : Nat) : Bool :=
  match s.threads.get pl with
  | some t => g < 12 && !(t.p.getD g {}).pois.isBad && !(t.p.getD g {}).val
  | none => false
/-- Where the issue group holds at a lane, the lanes before it whose guards `g` do not pass the word by have done their part of it. -/
def State.serveBefore (s : State) (g pl : Nat) : State :=
  { s with issues := s.issues.upd s.cur (fun x =>
      { x with served := x.served ++ (x.lanes.takeWhile (· != pl)).filter (fun q => !s.guardOff g q) }) }
/-- A lane has done its part of the word. -/
def State.serve (s : State) (pl : Nat) : State :=
  { s with issues := s.issues.upd s.cur (fun x => { x with served := pl :: x.served }) }

/-- The lanes of the issue group, in ascending home lane, each through its gate to `f`. -/
def lanesLoop (i : Instr) (f : Info) (act : State → Env → Thread → Res) : List Nat → State → State
  | [], s => s
  | pl :: rest, s =>
    match s.threads.get pl with
    | none => lanesLoop i f act rest s
    | some t =>
      let e := envOf s pl t
      match gate s i f e t with
      | .skip => lanesLoop i f act rest s
      | .trap tr => lanesLoop i f act rest (s.trapAt pl tr)
      | .run =>
        match act s e t with
        | .ok s' => lanesLoop i f act rest s'
        | .trap s' tr => lanesLoop i f act rest (s'.trapAt pl tr)
        | .hold s' => (s'.serveBefore f.w.g.toNat pl).stallIssue

/-- Runs an instruction over the issue group of the current scheduler. -/
def execLanes (i : Instr) (s : State) (act : State → Env → Thread → Res) : State :=
  match i.info, s.issues.get s.cur with
  | some f, some x =>
    if s.holding x then s.stallIssue
    else lanesLoop i f act (x.lanes.filter (fun pl => !x.served.contains pl)) s
  | _, _ => s

/-- Threads of the current issue group that pass the guard and the checks of an instruction (R167). -/
def participants (i : Instr) (s : State) : List (Env × Thread) :=
  match i.info, s.issues.get s.cur with
  | some f, some x => x.lanes.filterMap (fun pl =>
      match s.threads.get pl with
      | none => none
      | some t => let e := envOf s pl t; if gate s i f e t == .run then some (e, t) else none)
  | _, _ => []

/-- Whether an increment would take a slot of some participating group above 63 (R99). -/
def slotFull (i : Instr) (s : State) (slot : Nat) : Bool :=
  (participants i s).any (fun p => (match s.groups.get (placeGroup p.1.pl) with | some g => 63 ≤ g.sb.getD slot 0 | none => false))

/-- The number of the instruction being issued: one for all the operations it makes. -/
def State.batch (s : State) : Nat :=
  match s.issues.get s.cur with
  | some x => if x.batch == 0 then s.serial else x.batch
  | none => s.serial

/-- While the issue group holds at a word, the slots of every participating group stay counted (R99). -/
def State.anchor (s0 : State) (i : Instr) (slot : Nat) (s : State) : State :=
  match s.issues.get s.cur with
  | none => s
  | some x =>
    if x.stall && !s.ops.any (fun e => e.2.batch == s0.batch && e.2.kind == .anchor) then
      s.addOp { kind := .anchor, th := x.lanes.headD 0, ths := [], slot := some slot, batch := s0.batch,
                grps := dedup ((participants i s0).map (fun p => placeGroup p.1.pl)) }
    else s

/-- The word being issued has counted on its slots already: lanes have done their part, or it is anchored. -/
def State.counted (s : State) : Bool :=
  (match s.issues.get s.cur with | some x => !x.served.isEmpty | none => false) || s.ops.any (fun e => e.2.batch == s.batch && e.2.kind == .anchor)

/-- As `execLanes`, for an instruction that counts on a slot: the issue group holds while a slot is full (R99). -/
def execSlot (i : Instr) (s : State) (slot : Nat) (act : State → Env → Thread → Res) : State :=
  if !s.counted && slotFull i s slot then s.stallIssue else s.anchor i slot (execLanes i s act)

/-! ### Instructions by which one thread acts for its issue group (R135, R335) -/

/-- An instruction's registers but for the operands: the threads that do not act do not read them. -/
def noOperands (f : Info) : Info := { f with na := 0, nb := 0, nc := 0 }

/-- The place of the thread that acts: the lowest guard-true lane that passes its checks. -/
def leader (i : Instr) (s : State) : Option Nat := (participants i s).head?.map (·.1.pl)

/-- The guard-true threads that pass their checks: the one that acts, and those that only receive. -/
def ledParticipants (i : Instr) (s : State) : List (Env × Thread) :=
  match i.info, s.issues.get s.cur, leader i s with
  | some f, some x, some l => x.lanes.filterMap (fun pl =>
      match s.threads.get pl with
      | none => none
      | some t =>
        let e := envOf s pl t
        let f := if placeLane pl ≤ placeLane l then f else noOperands f
        if gate s i f e t == .run then some (e, t) else none)
  | _, _, _ => []

/-- Issues such an instruction: the lanes up to the acting one make every check, those after it none of the operands. It counts on a
slot: the issue group holds while a slot is full (R99). -/
def execLed (i : Instr) (s : State) (slot : Nat) (act : State → Env → Thread → Res) : State :=
  match i.info, s.issues.get s.cur with
  | some f, some x =>
    if (ledParticipants i s).any (fun p => (match s.groups.get (placeGroup p.1.pl) with | some g => 63 ≤ g.sb.getD slot 0 | none => false)) then
      s.stallIssue
    else
      match leader i s with
      | none => lanesLoop i f act x.lanes s
      | some l =>
        -- the checks of every lane, and a trap of the acting one, come before its effect, which makes the others' `D` pending
        let check := fun (s : State) (e : Env) (t : Thread) => match act s e t with | .trap s1 tr => Res.trap s1 tr | _ => .ok s
        let s1 := lanesLoop i f check (x.lanes.filter (fun pl => placeLane pl ≤ placeLane l)) s
        let s2 := lanesLoop i (noOperands f) (fun s _ _ => .ok s) (x.lanes.filter (fun pl => placeLane l < placeLane pl)) s1
        match s2.threads.get l with
        | some t => (match act s2 (envOf s2 l t) t with | .ok s3 => s3 | _ => s2)
        | none => s2
  | _, _ => s

/-- A thread is live while it has not exited (R159). -/
def State.live (s : State) (pl : Nat) : Bool :=
  match s.threads.get pl with
  | some t => t.st != .exited
  | none => false

/-- The current fabric window (R117, R231); zero where fabric scope is not negotiated.
Log 26: DEDUCED, unsafe. Log 43: DESIGN CHOICE, safe. -/
def State.window (s : State) : Nat := (max 0 ((s.mod.now : Int) + s.mod.ptp)).toNat / s.mod.fwin

/-- Draws a free value. Log 7: DESIGN CHOICE, safe. -/
def State.draw (s : State) : State × Word := ({ s with tick := s.tick + 1 }, Config.freeWord s.tick)

end Sys2Proof.Machine
end

