-- ==== Sys2Proof/Machine/Operands.lean ====
section
/-! DEFINITION. Operand forms: register codes read and written as single registers, pairs and quads (R40,
R41, R68), with their poison (R97). -/

namespace Sys2Proof.Machine

/-- Val and Pois of a register code (R40, R95, R97). -/
def rd (e : Env) (t : Thread) (c : Nat) : Nat × Pois :=
  if c < 112 then let r := t.v.getD c {}; (r.val.toNat, r.pois)
  else if c < 120 then let r := t.k.getD (c - 112) {}; (r.val.toNat, r.pois)
  else
    ((match c with
      | 121 => e.lane
      | 122 => 32 * e.gid + e.lane
      | 123 => e.gid
      | 124 => e.tix
      | 125 => e.role
      | 126 => e.now
      | 127 => e.now / 2 ^ 32
      | _ => 0) % 2 ^ 32, .clean)

/-- An operand of n registers, lowest word first; code 120 reads zero (R41, R68). Where several of them are poisoned, its tag is that of the
lowest. Log 83: DESIGN CHOICE, unsafe. -/
def rdN (e : Env) (t : Thread) (c : Nat) : Nat → Nat × Pois
  | 0 => (0, .clean)
  | n + 1 =>
    if c == 120 then (0, .clean)
    else
      let (x, p) := rd e t c
      let (y, q) := rdN e t (c + 1) n
      (x + 2 ^ 32 * y, p.or q)

/-- Write(x, v, q): replaces value and poison; code 120 discards (R40, R97). -/
def wr (t : Thread) (c x : Nat) (q : Pois) : Thread :=
  if c < 112 then { t with v := t.v.mapIdx (fun i r => if i == c then { r with val := BitVec.ofNat 32 x, pois := q } else r) }
  else if c < 120 then
    { t with k := t.k.mapIdx (fun i r => if i == c - 112 then { r with val := BitVec.ofNat 32 x, pois := q } else r) }
  else t

/-- Writes n registers, lowest word first. -/
def wrN (t : Thread) (c : Nat) (x : Nat) (q : Pois) : Nat → Thread
  | 0 => t
  | n + 1 => if c == 120 then t else wrN (wr t c (x % 2 ^ 32) q) (c + 1) (x / 2 ^ 32) q n

/-- Sets the thread of an environment. -/
def State.putThread (s : State) (e : Env) (t : Thread) : State := s.setThread e.pl t

/-- The result of an instruction that writes one value of n registers and completes within its issue. -/
def resWrite (s : State) (e : Env) (t : Thread) (d n x : Nat) (q : Pois) : Res := .ok (s.putThread e (wrN t d x q n))

/-- A two-operand instruction on n registers (R103, R104, R121). -/
def exec2 (i : Instr) (w : W1) (n : Nat) (f : Nat → Nat → Nat) (s : State) : State :=
  execLanes i s (fun s e t =>
    let (a, p) := rdN e t w.a.toNat n
    let (b, q) := rdN e t w.b.toNat n
    resWrite s e t w.d.toNat n (f a b) (p.or q))

/-- A one-operand instruction: reads `na` registers, writes `nd`. -/
def exec1 (i : Instr) (w : W1) (na nd : Nat) (f : Nat → Nat) (s : State) : State :=
  execLanes i s (fun s e t =>
    let (a, p) := rdN e t w.a.toNat na
    resWrite s e t w.d.toNat nd (f a) p)

/-- A three-operand instruction on n registers, with `C` of `nc` and a result of `nd`. -/
def exec3 (i : Instr) (w : W1) (c : BitVec 7) (na nc nd : Nat) (f : Nat → Nat → Nat → Nat) (s : State) : State :=
  execLanes i s (fun s e t =>
    let (a, p) := rdN e t w.a.toNat na
    let (b, q) := rdN e t w.b.toNat na
    let (x, r) := rdN e t c.toNat nc
    resWrite s e t w.d.toNat nd (f a b x) ((p.or q).or r))

end Sys2Proof.Machine
end

