-- ==== Sys2Proof/Machine/Flags.lean ====
section
/-! DEFINITION. Predicates: reading one as an operand (R43), writing pairs (R96, R97), integer conditions
(R45), and the truth tables of PBOOL and BOOL3 (R111, R115). -/

namespace Sys2Proof.Machine

/-- A predicate operand: 0 to 11 are p0 to p11, 12 is true and never poisoned (R43, R96). -/
def rdPred (t : Thread) (c : Nat) : Bool × Pois :=
  if c < 12 then let x := t.p.getD c {}; (x.val, x.pois) else (true, .clean)

/-- Writes predicate `k`. -/
def wrPred (t : Thread) (k : Nat) (v : Bool) (q : Pois) : Thread :=
  { t with p := t.p.mapIdx (fun i x => if i == k then { val := v, pois := q } else x) }

/-- Writes p(2i) := v and p(2i + 1) := not v, with one poison (R97, R114). -/
def wrPair (t : Thread) (i : Nat) (v : Bool) (q : Pois) : Thread := wrPred (wrPred t (2 * i) v q) (2 * i + 1) (!v) q

/-- Integer compare of n-bit values under a condition of R45. -/
def icmp (n cnd a b : Nat) : Bool :=
  let x := toSigned n a
  let y := toSigned n b
  match cnd with
  | 0 => a == b
  | 1 => a != b
  | 2 => x < y
  | 3 => x ≤ y
  | 4 => y < x
  | 5 => y ≤ x
  | 6 => a < b
  | 7 => a ≤ b
  | 8 => b < a
  | _ => b ≤ a

/-- Bit of a truth table of three inputs, the first lowest (R111, R115). -/
def truth (tt : Nat) (a b c : Bool) : Bool := tt.testBit (a.toNat + 2 * b.toNat + 4 * c.toNat)

/-- A bitwise function of three 32-bit words (R111). -/
def bool3 (tt a b c : Nat) : Nat :=
  (upto 32).foldl (fun acc j => acc + (truth tt (a.testBit j) (b.testBit j) (c.testBit j)).toNat * 2 ^ j) 0

/-- p0 to p11 as bits (R53, R116). -/
def predBits (t : Thread) : Nat :=
  (upto 12).foldl (fun acc j => acc + (t.p.getD j {}).val.toNat * 2 ^ j) 0
/-- Their poison bits. -/
def predPois (t : Thread) : Nat :=
  (upto 12).foldl (fun acc j => acc + (t.p.getD j {}).pois.isBad.toNat * 2 ^ j) 0
/-- The poison of p0 to p11 together. -/
def predOr (t : Thread) : Pois := t.p.foldl (fun acc x => acc.or x.pois) .clean

/-- A compare of n registers that writes a predicate pair (R114, R124). -/
def execCmp (i : Instr) (w : W1) (n : Nat) (f : Nat → Nat → Bool) (s : State) : State :=
  execLanes i s (fun s e t =>
    let (a, p) := rdN e t w.a.toNat n
    let (b, q) := rdN e t w.b.toNat n
    .ok (s.putThread e (wrPair t w.d.toNat (f a b) (p.or q))))

end Sys2Proof.Machine
end

