-- ==== Sys2Proof/Machine/Sfu.lean ====
section
/-! DEFINITION. The special functions (R54, R128): special values, the exact functions as enclosures of some 128 bits, and the bound of each within
which its result is free. -/

namespace Sys2Proof.Machine

/-- A dyadic number m x 2^e. -/
structure Dy where
  m : Int
  e : Int
  deriving DecidableEq, Repr, Inhabited

/-- The distance of two dyadic numbers is at most a third. -/
def Dy.near (a b d : Dy) : Bool :=
  let e := min a.e (min b.e d.e)
  let up := fun (x : Dy) => x.m * 2 ^ (x.e - e).toNat
  (up a - up b).natAbs ≤ (up d).natAbs

/-- What is known of an exact value: it lies from `lo` to `hi`, next to `mid`; all count 2^e. -/
structure Encl where
  lo : Int
  mid : Int
  hi : Int
  e : Int
  deriving DecidableEq, Repr, Inhabited

/-- The ends of an enclosure, and the one of lesser magnitude. -/
def Encl.low (v : Encl) : Dy := { m := v.lo, e := v.e }
def Encl.high (v : Encl) : Dy := { m := v.hi, e := v.e }
def Encl.least (v : Encl) : Dy := { m := min v.lo.natAbs v.hi.natAbs, e := v.e }
/-- The middle of an enclosure as an exact value. -/
def Encl.fv (v : Encl) : FV := .fin (v.mid < 0) v.mid.natAbs v.e
/-- The enclosure of the value of other sign, where `neg` holds. -/
def Encl.signed (neg : Bool) (v : Encl) : Encl := if neg then { lo := -v.hi, mid := -v.mid, hi := -v.lo, e := v.e } else v
/-- A value that is known exactly. -/
def Encl.exactly (m e : Int) : Encl := { lo := m, mid := m, hi := m, e := e }
/-- A value of 128 fraction bits next to `m`, off by no more than `d`, and known to lie from `a` to `b`. -/
def Encl.about (m d a b : Int) : Encl :=
  let lo := max a (m - d)
  let hi := min b (m + d)
  { lo := lo, mid := max lo (min hi m), hi := hi, e := -128 }

/-- One unit in the last place of a format at a dyadic number. -/
def FFmt.ulp (f : FFmt) (a : Dy) : Dy := { m := 1, e := max (a.e + Nat.log2 a.m.natAbs) (1 - (f.bias : Int)) - f.fb }

/-! ### The functions, in fixed point with 128 fraction bits -/

def fxOne : Nat := 2 ^ 128
/-- The natural logarithm of 2. -/
def fxLn2 : Nat := 0xb17217f7d1cf79abc9e3b39803f2f6af
/-- 2 pi, with 256 fraction bits. -/
def twoPi : Nat := 0x6487ed5110b4611a62633145c06e0e68948127044533e63a0105df531d89cd912

/-- e^t by its series, for t at most 1: `h` is what the higher terms give. -/
def fxExp (t : Nat) : Nat → Nat → Nat
  | 0, h => h
  | k + 1, h => fxExp t k (fxOne + t * h / fxOne / (k + 1))

/-- The even terms of a sine (`odd`) or a cosine: 1 - r2/(2 x 3) (1 - ...), or 1 - r2/(1 x 2) (1 - ...). -/
def fxTrig (r2 : Nat) (odd : Nat) : Nat → Int → Int
  | 0, h => h
  | k + 1, h => fxTrig r2 odd k ((fxOne : Int) - (r2 : Int) * h / fxOne / (((2 * (k + 1) + odd - 1) * (2 * (k + 1) + odd) : Nat) : Int))

/-- The series 1 + z2/3 + z2^2/5 + ... -/
def fxAtanh (z2 : Nat) : Nat → Nat → Nat
  | 0, h => h
  | k + 1, h => fxAtanh z2 k (fxOne / (2 * k + 1) + z2 * h / fxOne)

/-- m x 2^e in fixed point, rounded down. -/
def fxOf (m : Nat) (e : Int) (bits : Nat) : Nat := if 0 ≤ e + bits then m * 2 ^ (e + bits).toNat else m / 2 ^ (-(e + bits)).toNat

/-- e^-z, for z at least 0. -/
def fxExpNeg (z : Nat) : Nat :=
  let q := min (z / fxLn2) 200
  fxExp (fxLn2 - z % fxLn2) 40 fxOne / 2 ^ (q + 1)

/-- |m x 2^e| in fixed point, rounded up. -/
def fxUp (m : Nat) (e : Int) : Nat := if -128 ≤ e then fxOf m e 128 else fxOf m e 128 + 1

/-- 2^x: `x` is rounded down to 128 fraction bits, and the series falls short of e^t by less than 16 units. -/
def exactExp2 (neg : Bool) (m : Nat) (e : Int) : Encl :=
  let a : Int := fxOf m e 128
  let cut := e + 128 < 0 && m % 2 ^ (-(e + 128)).toNat != 0
  let x := if neg then (if cut then -a - 1 else -a) else a
  let k := max (x / fxOne) (-400) - 128
  let t := (x % fxOne).toNat
  if t == 0 && !cut then .exactly fxOne k
  else
    let c := fxExp (t * fxLn2 / fxOne) 40 fxOne
    { lo := c, mid := c, hi := min (c + 16) (2 * fxOne), e := k }

/-- The logarithm to base 2 of m x 2^e, to less than 16 units. -/
def exactLog2 (m : Nat) (e : Int) : Encl :=
  let j := Nat.log2 m
  let x := fxOf m (-(j : Int)) 128
  if x == fxOne then .exactly ((e + j) * fxOne) (-128)
  else
    let z := (x - fxOne) * fxOne / (x + fxOne)
    let a : Int := (e + j) * fxOne
    .about (a + (2 * z * fxAtanh (z * z / fxOne) 50 0 / fxLn2 : Nat)) 16 a (a + fxOne)

/-- The sine (`odd`) or the cosine, to less than 2^14 units; the sine of a number below 1 lies between 0 and it. -/
def exactTrig (odd : Nat) (neg : Bool) (m : Nat) (e : Int) : Encl :=
  let r := fxOf m e 256 % twoPi / 2 ^ 128
  let h := fxTrig (r * r / fxOne) odd 45 fxOne
  if odd == 0 then (if m == 0 then .exactly fxOne (-128) else .about h (2 ^ 14) (-(fxOne : Int)) fxOne)
  else
    let small := m < 2 ^ (-e).toNat
    .signed neg (.about ((r : Int) * h / fxOne) (2 ^ 14) (if small then 0 else -(fxOne : Int)) (if small then min fxOne (fxUp m e) else fxOne))

/-- The hyperbolic tangent, to less than 64 units; it lies between 0 and its operand, and below 1. -/
def exactTanh (neg : Bool) (m : Nat) (e : Int) : Encl :=
  let u := fxExpNeg (2 * fxOf m e 128)
  .signed neg (.about (((fxOne - u) * fxOne / (fxOne + u) : Nat) : Int) 64 0 (min fxOne (fxUp m e)))

/-- 1 / (1 + 2^(-x log2 e)) (R54), to less than 64 units; it lies between 1/2 and 1/2 + x/4, and from 0 to 1. -/
def exactSigm (neg : Bool) (m : Nat) (e : Int) : Encl :=
  let u := fxExpNeg (fxOf m e 128)
  let q := (fxUp m e + 3) / 4
  let half : Int := (fxOne / 2 : Nat)
  if m == 0 then .exactly half (-128)
  else if neg then .about ((u * fxOne / (fxOne + u) : Nat) : Int) 64 (max 0 (half - q)) half
  else .about ((fxOne * fxOne / (fxOne + u) : Nat) : Int) 64 half (min fxOne (half + q))

/-- The reciprocal. -/
def exactRcp (neg : Bool) (m : Nat) (e : Int) : Encl :=
  let q : Nat := 2 ^ 200 / m
  .signed neg { lo := q, mid := q, hi := if q * m == 2 ^ 200 then q else q + 1, e := -200 - e }

/-- The reciprocal square root. -/
def exactRsq (m : Nat) (e : Int) : Encl :=
  let m2 := if e % 2 == 0 then m else 2 * m
  let q : Nat := isqrt (2 ^ 400 / m2)
  { lo := q, mid := q, hi := if q * q * m2 == 2 ^ 400 then q else q + 1, e := -200 - e / 2 }

/-- The function of a code, of a finite operand that has no special value. -/
def sfuExact (fn : Nat) (neg : Bool) (m : Nat) (e : Int) : Encl :=
  match fn with
  | 0 | 8 => exactRcp neg m e
  | 1 | 9 => exactRsq m e
  | 2 => exactExp2 neg m e
  | 3 => exactLog2 m e
  | 4 => exactTrig 1 neg m e
  | 5 => exactTrig 0 neg m e
  | 6 => exactTanh neg m e
  | _ => exactSigm neg m e

/-- The bound of a function, of the operand with bits `x` and an exact value in `v`: units in the last place at the least that it may be (R128). -/
def sfuBound (fn x : Nat) (f : FFmt) (v : Encl) : Dy :=
  let u := f.ulp v.least
  match fn with
  | 0 | 1 | 8 | 9 => u
  | 2 => { u with e := u.e + 1 }
  | 3 => if 0x3F000000 ≤ x && x ≤ 0x40000000 then { m := 1, e := -22 } else { u with e := u.e + 1 }
  | 7 => { m := 1, e := -22 }
  | _ => { m := 1, e := -21 }

/-! ### Results (R128) -/

/-- Special values of an SFU function that the spec fixes; `none` where only a bound is given. -/
def sfuSpecial (fn x : Nat) : Option Nat :=
  let f := if 8 ≤ fn then fF64 else fF32
  let one := f.rnd 0 (.fin false 1 0)
  match f.dec x with
  | .nan => some f.qnan
  | .inf neg =>
    match fn with
    | 0 | 8 => some (if neg then f.signBit else 0)
    | 1 | 9 => some (if neg then f.qnan else 0)
    | 2 => some (if neg then 0 else f.infBits false)
    | 3 => some (if neg then f.qnan else f.infBits false)
    | 4 | 5 => some f.qnan
    | 6 => some (if neg then one + f.signBit else one)
    | _ => some (if neg then 0 else one)
  | .fin neg m _ =>
    if m == 0 then
      match fn with
      | 0 | 8 | 1 | 9 => some (f.infBits neg)
      | 3 => some (f.infBits true)
      | 4 | 6 => some x
      | _ => none
    else
      match fn with
      | 1 | 9 | 3 => if neg then some f.qnan else if fn == 3 && x == one then some 0 else none
      | _ => none

/-- Whether bits `r` are a result that R128 allows, where the exact value lies in `v`: a finite number within the bound of wherever it lies, and
within the range of TANH and SIGM. -/
def sfuAllows (fn x : Nat) (f : FFmt) (v : Encl) (r : Nat) : Bool :=
  let one := f.rnd 0 (.fin false 1 0)
  match f.dec r with
  | .fin neg m e =>
    let d : Dy := { m := if neg then -(m : Int) else m, e := e }
    let b := sfuBound fn x f v
    v.low.near d b && v.high.near d b
      && (fn != 6 || r % f.signBit ≤ one) && (fn != 7 || r ≤ one)
  | _ => false

/-- An SFU result: the special value; an infinity where the exact value, rounded, overflows; else any value that R128 allows, free, the
rounded exact value where the free one is not allowed. Log 7: DESIGN CHOICE, safe. -/
def sfuResult (fn x : Nat) : Nat :=
  match sfuSpecial fn x with
  | some r => r
  | none =>
    let f := if 8 ≤ fn then fF64 else fF32
    match f.dec x with
    | .fin neg m e =>
      let v := sfuExact fn neg m e
      let q := f.rnd 0 v.fv
      let raw := Config.sfu fn x % 2 ^ f.width
      let r := if q % f.signBit == f.infBits false then q else if sfuAllows fn x f v raw then raw else q
      if fn == 6 && f.rnd 0 (.fin false 1 0) < r % f.signBit then f.rnd 0 (.fin false 1 0) else r
    | _ => f.qnan

end Sys2Proof.Machine
end

