-- ==== Sys2Proof/Machine/Float.lean ====
section
/-! DEFINITION. Floating-point, packed-half and special-function instructions, opcodes 0x20 to 0x38
(R119 to R129). -/

namespace Sys2Proof.Machine

/-- A rounded sum, difference or product in a format (R121). -/
def fAdd (f : FFmt) (a b : Nat) : Nat := f.rnd 0 (FV.add 0 (f.dec a) (f.dec b))
def fSub (f : FFmt) (a b : Nat) : Nat := f.rnd 0 (FV.add 0 (f.dec a) (f.dec b).neg)
def fMul (f : FFmt) (a b : Nat) : Nat := f.rnd 0 (FV.mul (f.dec a) (f.dec b))

/-- The exact a x b + c with negations, before its one rounding (R123). -/
def fmaExact (f : FFmt) (rnd : Nat) (na nc : Bool) (a b c : Nat) : FV :=
  let x := if na then (f.dec a).neg else f.dec a
  let y := if nc then (f.dec c).neg else f.dec c
  FV.add rnd (FV.mul x (f.dec b)) y
/-- FFMA in a mode (R123). -/
def fFma (f : FFmt) (rnd : Nat) (na nc : Bool) (a b c : Nat) : Nat := f.rnd rnd (fmaExact f rnd na nc a b c)

/-- FADD.F32 (R121). -/
def execFaddF32 (w : W1) (s : State) : Out := .next (exec2 (.faddF32 w) w 1 (fAdd fF32) s)

/-- FSUB.F32 (R121). -/
def execFsubF32 (w : W1) (s : State) : Out := .next (exec2 (.fsubF32 w) w 1 (fSub fF32) s)

/-- FMUL.F32 (R121). -/
def execFmulF32 (w : W1) (s : State) : Out := .next (exec2 (.fmulF32 w) w 1 (fMul fF32) s)

/-- FMIN.F32 (R122). -/
def execFminF32 (w : W1) (s : State) : Out := .next (exec2 (.fminF32 w) w 1 (fF32.minmax false) s)

/-- FMAX.F32 (R122). -/
def execFmaxF32 (w : W1) (s : State) : Out := .next (exec2 (.fmaxF32 w) w 1 (fF32.minmax true) s)

/-- FFMA.F32 (R123). -/
def execFfmaF32 (w : W1) (x : ExtA) (s : State) : Out :=
  .next (exec3 (.ffmaF32 w x) w x.c 1 1 1 (fFma fF32 x.rnd.toNat x.na x.nc) s)

/-- FCMP.F32 (R124). -/
def execFcmpF32 (w : W1) (x : ExtA) (s : State) : Out :=
  .next (execCmp (.fcmpF32 w x) w 1 (fF32.cmp x.cnd.toNat) s)

/-- FUNA.F32 (R125): CLASS writes one register. -/
def execFunaF32 (w : W1) (s : State) : Out :=
  let f := w.b.toNat
  .next (exec1 (.funaF32 w) w 1 (if f == 6 then 1 else 1) (if f == 6 then fF32.classMask else fF32.una f) s)

/-- FADD.F64 (R121). -/
def execFaddF64 (w : W1) (s : State) : Out := .next (exec2 (.faddF64 w) w 2 (fAdd fF64) s)

/-- FSUB.F64 (R121). -/
def execFsubF64 (w : W1) (s : State) : Out := .next (exec2 (.fsubF64 w) w 2 (fSub fF64) s)

/-- FMUL.F64 (R121). -/
def execFmulF64 (w : W1) (s : State) : Out := .next (exec2 (.fmulF64 w) w 2 (fMul fF64) s)

/-- FMIN.F64 (R122). -/
def execFminF64 (w : W1) (s : State) : Out := .next (exec2 (.fminF64 w) w 2 (fF64.minmax false) s)

/-- FMAX.F64 (R122). -/
def execFmaxF64 (w : W1) (s : State) : Out := .next (exec2 (.fmaxF64 w) w 2 (fF64.minmax true) s)

/-- FFMA.F64 (R123). -/
def execFfmaF64 (w : W1) (x : ExtA) (s : State) : Out :=
  .next (exec3 (.ffmaF64 w x) w x.c 2 2 2 (fFma fF64 x.rnd.toNat x.na x.nc) s)

/-- FCMP.F64 (R124). -/
def execFcmpF64 (w : W1) (x : ExtA) (s : State) : Out :=
  .next (execCmp (.fcmpF64 w x) w 2 (fF64.cmp x.cnd.toNat) s)

/-- FUNA.F64 (R125): CLASS writes one register. -/
def execFunaF64 (w : W1) (s : State) : Out :=
  let f := w.b.toNat
  .next (exec1 (.funaF64 w) w 2 (if f == 6 then 1 else 2) (if f == 6 then fF64.classMask else fF64.una f) s)

/-! ### Packed halves (R126, R127) -/

/-- The half format of `FN`[0]. -/
def halfFmt (fn : Nat) : FFmt := if fn % 2 == 0 then fF16 else fBF16

/-- Trap 0x11: `FN` and the source operand (R344). -/
def ovfTrap (fn src : Nat) : Trap := { code := 0x11, detail := fn, payload := bytesOf src 8 }

/-- A packed instruction: each half once, a trap in either leaves `D` unchanged (R82, R126). -/
def packed (g : Nat → Nat → Nat → Option Nat) (a b c : Nat) : Option Nat :=
  match g (a % 2 ^ 16) (b % 2 ^ 16) (c % 2 ^ 16), g (a / 2 ^ 16) (b / 2 ^ 16) (c / 2 ^ 16) with
  | some l, some h => some (l + 2 ^ 16 * h)
  | _, _ => none

/-- Runs a packed-half instruction. -/
def execPacked (i : Instr) (w : W1) (x : ExtA) (g : Nat → Nat → Nat → Option Nat) (s : State) : State :=
  execLanes i s (fun s e t =>
    let (a, p) := rd e t w.a.toNat
    let (b, q) := rd e t w.b.toNat
    let (c, r) := rd e t x.c.toNat
    match packed g a b c with
    | some v => resWrite s e t w.d.toNat 1 v ((p.or q).or r)
    | none => .trap s (ovfTrap x.fn.toNat a))

/-- Negates where asked. -/
def negIf (n : Bool) (v : FV) : FV := if n then v.neg else v

/-- PKADD (R126). -/
def execPkadd (w : W1) (x : ExtA) (s : State) : Out :=
  let f := halfFmt x.fn.toNat
  .next (execPacked (.pkadd w x) w x (fun a b _ =>
    f.round x.rnd.toNat (.pol x.ovf.toNat) (FV.add x.rnd.toNat (negIf x.na (f.dec a)) (f.dec b))) s)

/-- PKMUL (R126). -/
def execPkmul (w : W1) (x : ExtA) (s : State) : Out :=
  let f := halfFmt x.fn.toNat
  .next (execPacked (.pkmul w x) w x (fun a b _ =>
    f.round x.rnd.toNat (.pol x.ovf.toNat) (FV.mul (negIf x.na (f.dec a)) (f.dec b))) s)

/-- PKFMA: fused per half (R126). -/
def execPkfma (w : W1) (x : ExtA) (s : State) : Out :=
  let f := halfFmt x.fn.toNat
  .next (execPacked (.pkfma w x) w x (fun a b c =>
    f.round x.rnd.toNat (.pol x.ovf.toNat) (fmaExact f x.rnd.toNat x.na x.nc a b c)) s)

/-- PKMIN (R126). -/
def execPkmin (w : W1) (x : ExtA) (s : State) : Out :=
  .next (execPacked (.pkmin w x) w x (fun a b _ => some ((halfFmt x.fn.toNat).minmax false a b)) s)

/-- PKMAX (R126). -/
def execPkmax (w : W1) (x : ExtA) (s : State) : Out :=
  .next (execPacked (.pkmax w x) w x (fun a b _ => some ((halfFmt x.fn.toNat).minmax true a b)) s)

/-- PKCMP combines the compares of the halves by `FN`[2:1] (R127). -/
def pkcmp (fn cnd a b : Nat) : Bool :=
  let f := halfFmt fn
  let t0 := f.cmp cnd (a % 2 ^ 16) (b % 2 ^ 16)
  let t1 := f.cmp cnd (a / 2 ^ 16) (b / 2 ^ 16)
  match fn / 2 with
  | 0 => t0
  | 1 => t1
  | 2 => t0 && t1
  | _ => t0 || t1
/-- PKCMP (R127). -/
def execPkcmp (w : W1) (x : ExtA) (s : State) : Out := .next (execCmp (.pkcmp w x) w 1 (pkcmp x.fn.toNat x.cnd.toNat) s)

/-! ### Long-latency functions (R120, R128, R129) -/

/-- Issues a special function: one operation for each thread, its poison carried to the result. -/
def execSfuLike (i : Instr) (w : W1) (x : ExtA) (n : Nat) (two : Bool) (f : Nat → Nat → Nat) (s : State) : State :=
  let b := s.batch
  execSlot i s x.slot.toNat (fun s e t =>
    let (a, p) := rdN e t w.a.toNat n
    let (c, q) := if two then rdN e t w.b.toNat n else (0, .clean)
    let pois := p.or q
    -- the poison of the result is known at issue; the value arrives with the operation
    let t1 := if w.d.toNat < 112 then
        { t with v := t.v.mapIdx (fun j r => if w.d.toNat ≤ j && j < w.d.toNat + n then { r with pois := pois } else r) }
      else t
    .ok ((s.putThread e t1).addOp
      { kind := .sfu (f a c), th := e.pl, ths := [e.pl], grps := [placeGroup e.pl], slot := some x.slot.toNat, batch := b,
        dst := w.d.toNat, nd := n }))

/-- SFU (R128). -/
def execSfu (w : W1) (x : ExtA) (s : State) : Out :=
  .next (execSfuLike (.sfu w x) w x (if 8 ≤ x.fn.toNat then 2 else 1) false (fun a _ => sfuResult x.fn.toNat a) s)

/-- FDIV: correctly rounded in mode `RND` (R129). -/
def execFdiv (w : W1) (x : ExtA) (s : State) : Out :=
  let f := if x.fn == 1 then fF64 else fF32
  .next (execSfuLike (.fdiv w x) w x (if x.fn == 1 then 2 else 1) true (f.div x.rnd.toNat) s)

/-- FSQRT: correctly rounded in mode `RND` (R129). -/
def execFsqrt (w : W1) (x : ExtA) (s : State) : Out :=
  let f := if x.fn == 1 then fF64 else fF32
  .next (execSfuLike (.fsqrt w x) w x (if x.fn == 1 then 2 else 1) false (fun a _ => f.sqrt x.rnd.toNat a) s)

/-- Writes the values of a completed operation into its thread, with a poison, unless the thread has exited. -/
def State.deliver (s : State) (pl dst n x : Nat) (q : Pois) : State :=
  s.updThread pl (fun t => if t.st == .exited then t else wrN t dst x q n)

/-- SFU_COMPLETE (R120): the result is written, the pending bits clear, the slot falls. -/
def execSfuComplete (op : Nat) (s : State) : Out :=
  match s.ops.get op with
  | some { kind := .sfu r, th := pl, dst := d, nd := n, .. } =>
    let q := match s.threads.get pl with | some t => (t.v.getD d {}).pois | none => .clean
    .next ((s.deliver pl d n r q).endOp op)
  | _ => .next s

end Sys2Proof.Machine
end

