-- ==== Sys2Proof/Machine/Convert.lean ====
section
/-! DEFINITION. Conversions, CBLU and DOT2 (R130 to R134, R137, R138). CBLOAD stands with the memory
instructions. -/

namespace Sys2Proof.Machine

/-- The scale of a conversion: byte `BSEL` of register `C`, none where `C` is 120 (R130). -/
def scaleOf (e : Env) (t : Thread) (x : ExtA) : Option Nat × Pois :=
  if x.c == 120 then (none, .clean)
  else
    let (c, p) := rd e t x.c.toNat
    (some (c / 2 ^ (8 * x.bsel.toNat) % 256), p)

/-- A codebook entry as decoded: NaN entries give 0x7FC0 (R77). -/
def bookEntry (b : Codebook) (c : Nat) : Nat :=
  let x := (b.ents.getD (c % 16) 0).toNat
  match fBF16.dec x with
  | .nan => 0x7FC0
  | _ => x

/-- The codebook slot of a thread's team; the supervisor group has none (R135). -/
def bookOf (s : State) (e : Env) (k : Nat) : Option Codebook :=
  match s.teams.get e.team with
  | none => none
  | some tm => some (tm.books.getD k {})

/-- The poison that a codebook slot gives: its record is copied into the thread's ring (R132, R137). -/
def bookPois (t : Thread) (own : Pois) (b : Codebook) : Thread × Pois :=
  if own.isBad || !b.pois then (t, own) else t.newRec b.record false

/-- Fills a register with a narrow result: sign-extended for S8 and S16, else zero-filled (R132). -/
def extendNarrow (dst x : Nat) : Nat :=
  match dst with
  | 11 => wrapInt 32 (toSigned 8 x)
  | 13 => wrapInt 32 (toSigned 16 x)
  | _ => x

/-- CVT (R132). From C4, a poisoned slot goes before a poisoned scale register, as the operand A that it decodes. Log 82: DESIGN CHOICE, unsafe. -/
def execCvt (w : W1) (x : ExtA) (s : State) : Out :=
  let dst := cvtDst x.fn
  let src := cvtSrc x.fn
  .next (execLanes (.cvt w x) s (fun s e t =>
    let (a, p) := rdN e t w.a.toNat (fmtRegs src)
    let (sc, q) := scaleOf e t x
    let go := fun (v : FV) (t : Thread) (p : Pois) =>
      match convert dst x.rnd.toNat x.ovf.toNat sc (fmtBits dst < fmtBits src) v with
      | some r => resWrite s e t w.d.toNat (fmtRegs dst) (extendNarrow dst r) (p.or q)
      | none => Res.trap s (ovfTrap x.fn.toNat a)
    if src == 10 then
      match bookOf s e (x.cnd.toNat % 8) with
      | none => .trap s { code := 0x02, payload := wordsPayload (.cvt w x) }
      | some b =>
        let (t1, p1) := bookPois t p b
        go (fBF16.dec (bookEntry b (a % 16))) t1 p1
    else go (fmtDec src (a % 2 ^ fmtBits src)) t p))

/-- The conversions of a list of elements; a trap in any is a trap of all (R133). -/
def convertAll (dst src rnd ovf : Nat) (sc : Option Nat) (narrows : Bool) (l : List Nat) : Option (List Nat) :=
  l.mapM (fun a => convert dst rnd ovf sc narrows (fmtDec src a))

/-- Elements of n bits packed lowest first. -/
def packBits (n : Nat) (l : List Nat) : Nat := l.foldr (fun x acc => x + 2 ^ n * acc) 0
/-- The elements of n bits of a value. -/
def unpackBits (n k x : Nat) : List Nat := (upto k).map (fun i => x / 2 ^ (n * i) % 2 ^ n)

/-- CVTN (R133). -/
def execCvtn (w : W1) (x : ExtA) (s : State) : Out :=
  let dst := cvtDst x.fn
  let src := cvtSrc x.fn
  let n := if is8 dst then 2 else 1
  .next (execLanes (.cvtn w x) s (fun s e t =>
    let (a, p) := rdN e t w.a.toNat n
    let (b, q) := rdN e t w.b.toNat n
    let (sc, r) := scaleOf e t x
    match convertAll dst src x.rnd.toNat x.ovf.toNat sc true (unpackBits 32 n a ++ unpackBits 32 n b) with
    | some l => resWrite s e t w.d.toNat 1 (packBits (fmtBits dst) l) ((p.or q).or r)
    | none => .trap s (ovfTrap x.fn.toNat a)))

/-- CVTW (R134). -/
def execCvtw (w : W1) (x : ExtA) (s : State) : Out :=
  let dst := cvtDst x.fn
  let src := cvtSrc x.fn
  let n := if is8 src then 4 else 2
  .next (execLanes (.cvtw w x) s (fun s e t =>
    let (a, p) := rd e t w.a.toNat
    let (sc, r) := scaleOf e t x
    match convertAll dst src x.rnd.toNat x.ovf.toNat sc false (unpackBits (fmtBits src) n a) with
    | some l => resWrite s e t w.d.toNat n (packBits 32 l) (p.or r)
    | none => .trap s (ovfTrap x.fn.toNat a)))

/-- CBLU (R137): each entry is copied exactly, decoded by R77. -/
def execCblu (w : W1) (x : ExtA) (s : State) : Out :=
  let f := x.fn.toNat
  .next (execLanes (.cblu w x) s (fun s e t =>
    match bookOf s e (x.cnd.toNat % 8) with
    | none => .trap s { code := 0x02, payload := wordsPayload (.cblu w x) }
    | some b =>
      let (a, p) := rd e t w.a.toNat
      let (t1, q) := bookPois t p b
      let all := (unpackBits 4 8 a).map (bookEntry b)
      if f == 4 then resWrite s e t1 w.d.toNat 4 (packBits 16 all) q
      else resWrite s e t1 w.d.toNat 1 (packBits 16 ((all.drop (2 * f)).take 2)) q))

/-- The exact value of DOT2 before its one rounding (R138). -/
def dot2Exact (inp res : FFmt) (rnd : Nat) (na nc : Bool) (a b c : Nat) : FV :=
  let h := fun (v i : Nat) => inp.dec (v / 2 ^ (16 * i) % 2 ^ 16)
  let s := FV.add rnd (FV.mul (h a 0) (h b 0)) (FV.mul (h a 1) (h b 1))
  FV.add rnd (negIf na s) (negIf nc (res.dec (c % 2 ^ res.width)))

/-- DOT2 (R138). -/
def execDot2 (w : W1) (x : ExtA) (s : State) : Out :=
  let inp := halfFmt x.fn.toNat
  let res := if x.fn.toNat < 2 then fF32 else inp
  let o := if x.fn.toNat < 2 then Ovf.ieee else .pol x.ovf.toNat
  .next (execLanes (.dot2 w x) s (fun s e t =>
    let (a, p) := rd e t w.a.toNat
    let (b, q) := rd e t w.b.toNat
    let (c, r) := rd e t x.c.toNat
    match res.round x.rnd.toNat o (dot2Exact inp res x.rnd.toNat x.na x.nc a b c) with
    | some v => resWrite s e t w.d.toNat 1 v ((p.or q).or r)
    | none => .trap s (ovfTrap x.fn.toNat a)))

end Sys2Proof.Machine
end

