-- ==== Sys2Proof/Machine/CrossLane.lean ====
section
/-! DEFINITION. Cross-lane instructions, opcodes 0x40 to 0x46 (R167 to R176). Operands of every participant
are read from the state before the instruction. -/

namespace Sys2Proof.Machine

/-- The participants, with what each holds before the instruction (R167). -/
abbrev Parts := List (Env × Thread)

/-- The participant at a home lane. -/
def Parts.at (ps : Parts) (l : Nat) : Option (Env × Thread) := ps.find? (fun p => p.1.lane == l)

/-- Runs a cross-lane instruction: `f` gives each participant's new thread. -/
def execX (i : Instr) (s : State) (f : Parts → Env → Thread → Thread) : State :=
  let ps := participants i s
  execLanes i s (fun s' e t => .ok (s'.putThread e (f ps e t)))

/-- The poison of a result that depends on one operand class of several lanes: the thread's own tag where its
own operand is poisoned, else a copy of the record of the lowest poisoned lane (R168). -/
def takePois (t : Thread) (own : Pois) (others : List (Thread × Pois)) : Thread × Pois :=
  if own.isBad then (t, own)
  else
    match others.find? (fun o => o.2.isBad) with
    | none => (t, .clean)
    | some (src, p) =>
      let (r, lost) := src.recOf p
      t.newRec r lost

/-- What a lane receives of an operand class: the lane that holds it, its thread, and the poison. -/
abbrev Received := List (Nat × Thread × Pois)

/-- The poison of a result that depends on two operand classes of several lanes, for the thread at home lane `l`: the tag of its own poisoned
operand where that comes first in the order of R339, else a copy of the record of the lowest sending lane (R168). -/
def takePois2 (t : Thread) (l : Nat) (a : Pois) (as : Received) (b : Pois) (bs : Received) : Thread × Pois :=
  let bad := fun (r : Received) => r.filter (fun o => o.1 != l && o.2.2.isBad)
  if a.isBad then (t, a)
  else if (bad as).isEmpty && b.isBad then (t, b)
  else
    match minBy (fun o => o.1) (bad as ++ bad bs) with
    | none => (t, .clean)
    | some (_, src, p) =>
      let (r, lost) := src.recOf p
      t.newRec r lost

/-- The lane that SHFL reads (R169). -/
def shflLane (mode l n : Nat) : Int :=
  match mode % 4 with
  | 0 => n
  | 1 => (l : Int) - n
  | 2 => (l : Int) + n
  | _ => ((l ^^^ n : Nat) : Int)

/-- SHFL (R169). -/
def execShfl (w : W1) (x : ExtA) (s : State) : Out :=
  let n := if 4 ≤ x.fn.toNat then 2 else 1
  .next (execX (.shfl w x) s (fun ps e t =>
    let (b, q) := rd e t w.b.toNat
    let src := shflLane x.fn.toNat e.lane b
    match (if 0 ≤ src && src ≤ 31 then Parts.at ps src.toNat else none) with
    | some (e', t') =>
      let (a, p) := rdN e' t' w.a.toNat n
      if e'.lane == e.lane then wrN t w.d.toNat a (p.or q) n
      else
        let (t1, r) := takePois t .clean [(t', p)]
        wrN t1 w.d.toNat a (r.or q) n
    | none =>
      let (a, p) := rdN e t w.a.toNat n
      wrN t w.d.toNat a (p.or q) n))

/-- XGATH (R170): an invalid index gives zero. -/
def execXgath (w : W1) (x : ExtA) (s : State) : Out :=
  .next (execX (.xgath w x) s (fun ps e t =>
    let (b, q) := rd e t w.b.toNat
    let o := b / 32 % 64
    match (if b / 2 ^ 11 == 0 && o < x.fn.toNat then Parts.at ps (b % 32) else none) with
    | some (e', t') =>
      let (a, p) := rd e' t' (w.a.toNat + o)
      if e'.lane == e.lane then wr t w.d.toNat a (p.or q)
      else
        let (t1, r) := takePois t .clean [(t', p)]
        wr t1 w.d.toNat a (r.or q)
    | none => wr t w.d.toNat 0 q))

/-- The predicate of each participant, by lane, with its poison. -/
def predsOf (ps : Parts) (c : Nat) : List (Nat × Bool × Thread × Pois) :=
  ps.map (fun p => let (v, q) := rdPred p.2 c; (p.1.lane, v, p.2, q))

/-- VOTE (R171). -/
def execVote (w : W1) (x : ExtA) (s : State) : Out :=
  .next (execX (.vote w x) s (fun ps _ t =>
    let v := predsOf ps x.cnd.toNat
    let (t1, q) := takePois t (rdPred t x.cnd.toNat).2 (v.map (fun y => y.2.2))
    match x.fn.toNat with
    | 0 => wrPair t1 w.d.toNat (v.any (fun y => y.2.1)) q
    | 1 => wrPair t1 w.d.toNat (v.all (fun y => y.2.1)) q
    | _ => wr t1 w.d.toNat (v.foldl (fun acc y => acc + (if y.2.1 then 2 ^ y.1 else 0)) 0) q))

/-- MATCH (R172). -/
def execMatch (w : W1) (x : ExtA) (s : State) : Out :=
  let n := if x.fn == 1 then 2 else 1
  .next (execX (.matchLanes w x) s (fun ps e t =>
    let (a, p) := rdN e t w.a.toNat n
    let others := ps.map (fun y => (y.1.lane, y.2, rdN y.1 y.2 w.a.toNat n))
    let (t1, q) := takePois t p (others.map (fun y => (y.2.1, y.2.2.2)))
    wr t1 w.d.toNat (others.foldl (fun acc y => acc + (if y.2.2.1 == a then 2 ^ y.1 else 0)) 0) q))

/-- COMPACT (R173): rank and total. -/
def execCompact (w : W1) (x : ExtA) (s : State) : Out :=
  .next (execX (.compact w x) s (fun ps e t =>
    let v := predsOf ps x.cnd.toNat
    let (t1, q) := takePois t (rdPred t x.cnd.toNat).2 (v.map (fun y => y.2.2))
    let rank := (v.filter (fun y => y.2.1 && y.1 < e.lane)).length
    let total := (v.filter (fun y => y.2.1)).length
    wrN t1 w.d.toNat (rank + 2 ^ 32 * total) q 2))

/-! ### Reductions and scans (R174 to R176) -/

/-- One combination of a reduction (R85, R176). -/
def redCombine (op ty a b : Nat) : Nat :=
  match ty with
  | 4 => (match op with | 0 => fAdd fF32 a b | 1 => fF32.minmax false a b | _ => fF32.minmax true a b)
  | 5 => (match op with | 0 => fAdd fF64 a b | 1 => fF64.minmax false a b | _ => fF64.minmax true a b)
  | _ =>
    let n := if ty == 2 || ty == 3 then 64 else 32
    let sg := ty == 0 || ty == 2
    let le := if sg then decide (toSigned n a ≤ toSigned n b) else decide (a ≤ b)
    match op with
    | 0 => (a + b) % 2 ^ n
    | 1 => if le then a else b
    | 2 => if le then b else a
    | 3 => a &&& b
    | 4 => a ||| b
    | _ => a ^^^ b

/-- The identity of a reduction (R176). -/
def redIdentity (op ty : Nat) : Nat :=
  let n := if ty == 2 || ty == 3 then 64 else 32
  let sg := ty == 0 || ty == 2
  match ty, op with
  | 4, 1 => fF32.infBits false
  | 4, 2 => fF32.infBits true
  | 5, 1 => fF64.infBits false
  | 5, 2 => fF64.infBits true
  | _, 0 => 0
  | _, 1 => if sg then 2 ^ (n - 1) - 1 else 2 ^ n - 1
  | _, 2 => if sg then 2 ^ (n - 1) else 0
  | _, 3 => 2 ^ n - 1
  | _, _ => 0

/-- One level of the fixed tree: an absent child passes the other up unchanged (R85). -/
def treeLevel (f : Nat → Nat → Nat) : List (Option Nat) → List (Option Nat)
  | a :: b :: r =>
    (match a, b with
      | some x, some y => some (f x y)
      | some x, none => some x
      | none, y => y) :: treeLevel f r
  | l => l

/-- The fixed tree over 32 lane positions (R85). -/
def tree (f : Nat → Nat → Nat) (leaves : List (Option Nat)) : Option Nat :=
  ((treeLevel f (treeLevel f (treeLevel f (treeLevel f (treeLevel f leaves))))).head?).join

/-- Whether participant lane `j` belongs to the segment of lane `l` (R175): no head lies above the lower of
the two, up to the higher. -/
def sameSegment (heads : List Nat) (l j : Nat) : Bool := !(heads.any (fun h => min l j < h && h ≤ max l j))

/-- REDX and SCANX: `keep l j` says whether lane `l` combines lane `j` (R176). -/
def execRed (i : Instr) (w : W1) (x : ExtA) (keep : Nat → Nat → Bool) (s : State) : State :=
  let op := x.fn.toNat % 8
  let ty := redType x.fn
  let n := typeRegs ty
  let seg := x.cnd.toNat < 12
  execX i s (fun ps e t =>
    let v := predsOf ps x.cnd.toNat
    let heads := if seg then (v.filter (fun y => y.2.1)).map (fun y => y.1) else []
    let mem := ps.filter (fun y => keep e.lane y.1.lane && sameSegment heads e.lane y.1.lane)
    let vals := mem.map (fun y => (y.1.lane, y.2, rdN y.1 y.2 w.a.toNat n))
    let leaves := (upto 32).map (fun j => (vals.find? (fun y => y.1 == j)).map (fun y => y.2.2.1))
    let r := (tree (redCombine op ty) leaves).getD (redIdentity op ty)
    let own := match vals.find? (fun y => y.1 == e.lane) with | some y => y.2.2.2 | none => .clean
    let (t1, q) := takePois2 t e.lane own (vals.map (fun y => (y.1, y.2.1, y.2.2.2)))
      (if seg then (rdPred t x.cnd.toNat).2 else .clean) (if seg then v.map (fun y => (y.1, y.2.2)) else [])
    wrN t1 w.d.toNat r q n)

/-- REDX: every member of the segment (R176). -/
def execRedx (w : W1) (x : ExtA) (s : State) : Out := .next (execRed (.redx w x) w x (fun _ _ => true) s)

/-- SCANX: the members up to the lane, without it where exclusive (R176). -/
def execScanx (w : W1) (x : ExtA) (s : State) : Out :=
  .next (execRed (.scanx w x) w x (fun l j => if x.fn.toNat / 8 % 2 == 1 then j < l else j ≤ l) s)

end Sys2Proof.Machine
end

