-- ==== Sys2Proof/Machine/Integer.lean ====
section
/-! DEFINITION. Integer, predicate and move instructions, opcodes 0x00 to 0x1F (R102 to R117). -/

namespace Sys2Proof.Machine

/-- NOP (R110): no effect; its guard and encoding are checked. -/
def execNop (w : W1) (s : State) : Out := .next (execLanes (.nop w) s (fun s _ _ => .ok s))

/-- IADD: modulo 2^32 (R103). -/
def aluIadd (a b : Nat) : Nat := (a + b) % 2 ^ 32
/-- IADD: `D` := f(`A`, `B`) (R103). -/
def execIadd (w : W1) (s : State) : Out := .next (exec2 (.iadd w) w 1 aluIadd s)

/-- ISUB: modulo 2^32 (R103). -/
def aluIsub (a b : Nat) : Nat := (a + 2 ^ 32 - b) % 2 ^ 32
/-- ISUB: `D` := f(`A`, `B`) (R103). -/
def execIsub (w : W1) (s : State) : Out := .next (exec2 (.isub w) w 1 aluIsub s)

/-- IMUL: low 32 bits of the product (R103). -/
def aluImul (a b : Nat) : Nat := a * b % 2 ^ 32
/-- IMUL: `D` := f(`A`, `B`) (R103). -/
def execImul (w : W1) (s : State) : Out := .next (exec2 (.imul w) w 1 aluImul s)

/-- IMULH: bits 63 to 32 of the signed product (R103). -/
def aluImulh (a b : Nat) : Nat := wrapInt 64 (toSigned 32 a * toSigned 32 b) / 2 ^ 32
/-- IMULH: `D` := f(`A`, `B`) (R103). -/
def execImulh (w : W1) (s : State) : Out := .next (exec2 (.imulh w) w 1 aluImulh s)

/-- IMULHU: bits 63 to 32 of the unsigned product (R103). -/
def aluImulhu (a b : Nat) : Nat := a * b / 2 ^ 32
/-- IMULHU: `D` := f(`A`, `B`) (R103). -/
def execImulhu (w : W1) (s : State) : Out := .next (exec2 (.imulhu w) w 1 aluImulhu s)

/-- IMIN: signed minimum (R103). -/
def aluImin (a b : Nat) : Nat := if toSigned 32 a ≤ toSigned 32 b then a else b
/-- IMIN: `D` := f(`A`, `B`) (R103). -/
def execImin (w : W1) (s : State) : Out := .next (exec2 (.imin w) w 1 aluImin s)

/-- IMAX: signed maximum (R103). -/
def aluImax (a b : Nat) : Nat := if toSigned 32 a ≤ toSigned 32 b then b else a
/-- IMAX: `D` := f(`A`, `B`) (R103). -/
def execImax (w : W1) (s : State) : Out := .next (exec2 (.imax w) w 1 aluImax s)

/-- IMINU (R103). -/
def aluIminu (a b : Nat) : Nat := min a b
/-- IMINU: `D` := f(`A`, `B`) (R103). -/
def execIminu (w : W1) (s : State) : Out := .next (exec2 (.iminu w) w 1 aluIminu s)

/-- IMAXU (R103). -/
def aluImaxu (a b : Nat) : Nat := max a b
/-- IMAXU: `D` := f(`A`, `B`) (R103). -/
def execImaxu (w : W1) (s : State) : Out := .next (exec2 (.imaxu w) w 1 aluImaxu s)

/-- AND (R103). -/
def aluAnd (a b : Nat) : Nat := a &&& b
/-- AND: `D` := f(`A`, `B`) (R103). -/
def execAnd (w : W1) (s : State) : Out := .next (exec2 (.and w) w 1 aluAnd s)

/-- OR (R103). -/
def aluOr (a b : Nat) : Nat := a ||| b
/-- OR: `D` := f(`A`, `B`) (R103). -/
def execOr (w : W1) (s : State) : Out := .next (exec2 (.or w) w 1 aluOr s)

/-- XOR (R103). -/
def aluXor (a b : Nat) : Nat := a ^^^ b
/-- XOR: `D` := f(`A`, `B`) (R103). -/
def execXor (w : W1) (s : State) : Out := .next (exec2 (.xor w) w 1 aluXor s)

/-- SHL: counts of 32 or more give 0 (R103). -/
def aluShl (a b : Nat) : Nat := if 32 ≤ b then 0 else a * 2 ^ b % 2 ^ 32
/-- SHL: `D` := f(`A`, `B`) (R103). -/
def execShl (w : W1) (s : State) : Out := .next (exec2 (.shl w) w 1 aluShl s)

/-- SHR: counts of 32 or more give 0 (R103). -/
def aluShr (a b : Nat) : Nat := if 32 ≤ b then 0 else a / 2 ^ b
/-- SHR: `D` := f(`A`, `B`) (R103). -/
def execShr (w : W1) (s : State) : Out := .next (exec2 (.shr w) w 1 aluShr s)

/-- SAR: sign fill, counts of 32 or more give 32 copies of the sign (R103). -/
def aluSar (a b : Nat) : Nat := wrapInt 32 (toSigned 32 a / (2 ^ min b 32 : Nat))
/-- SAR: `D` := f(`A`, `B`) (R103). -/
def execSar (w : W1) (s : State) : Out := .next (exec2 (.sar w) w 1 aluSar s)

/-- IADD64 (R104): modulo 2^64. -/
def aluIadd64 (a b : Nat) : Nat := (a + b) % 2 ^ 64
/-- IADD64 on pairs (R104). -/
def execIadd64 (w : W1) (s : State) : Out := .next (exec2 (.iadd64 w) w 2 aluIadd64 s)

/-- ISUB64 (R104): modulo 2^64. -/
def aluIsub64 (a b : Nat) : Nat := (a + 2 ^ 64 - b) % 2 ^ 64
/-- ISUB64 on pairs (R104). -/
def execIsub64 (w : W1) (s : State) : Out := .next (exec2 (.isub64 w) w 2 aluIsub64 s)

/-- IMAD (R105). -/
def aluImad (na nc : Bool) (a b c : Nat) : Nat :=
  let x := if na then (2 ^ 32 - a) % 2 ^ 32 else a
  let y := if nc then (2 ^ 32 - c) % 2 ^ 32 else c
  (x * b + y) % 2 ^ 32
/-- IMAD: one multiply-add modulo 2^32 (R105). -/
def execImad (w : W1) (x : ExtA) (s : State) : Out := .next (exec3 (.imad w x) w x.c 1 1 1 (aluImad x.na x.nc) s)

/-- IMADW (R106): widening product, signed for `FN` 0, plus a pair. -/
def aluImadw (signed na nc : Bool) (a b c : Nat) : Nat :=
  let widen := fun (v : Nat) => if signed then toSigned 32 v else (v : Int)
  let x := if na then -widen a else widen a
  let y := if nc then -(c : Int) else c
  wrapInt 64 (x * widen b + y)
/-- IMADW (R106). -/
def execImadw (w : W1) (x : ExtA) (s : State) : Out :=
  .next (exec3 (.imadw w x) w x.c 1 2 2 (aluImadw (x.fn == 0) x.na x.nc) s)

/-- SEL (R109): the operand that is not selected adds no poison. -/
def execSel (w : W1) (x : ExtA) (s : State) : Out :=
  .next (execLanes (.sel w x) s (fun s e t =>
    let n := if x.fn == 1 then 2 else 1
    let (c, pc) := rdPred t x.cnd.toNat
    let (v, p) := rdN e t (if c then w.a.toNat else w.b.toNat) n
    resWrite s e t w.d.toNat n v (p.or pc)))

/-- MOVI (R107). -/
def execMovi (w : W1) (imm : Word) (s : State) : Out :=
  .next (execLanes (.movi w imm) s (fun s e t => resWrite s e t w.d.toNat 1 imm.toNat .clean))

/-- IADDI (R107). -/
def execIaddi (w : W1) (imm : Word) (s : State) : Out :=
  .next (exec1 (.iaddi w imm) w 1 1 (fun a => (a + imm.toNat) % 2 ^ 32) s)

/-- ICMP (R114). -/
def execIcmp (w : W1) (x : ExtA) (s : State) : Out :=
  let n := if x.fn == 1 then 2 else 1
  .next (execCmp (.icmp w x) w n (icmp (32 * n) x.cnd.toNat) s)

/-- BOOL3 (R111). -/
def execBool3 (w : W1) (x : ExtA) (s : State) : Out :=
  .next (exec3 (.bool3 w x) w x.c 1 1 1 (bool3 x.fn.toNat) s)

/-- DSH (R112): X is `A` over `C`, the count `B`[5:0]. -/
def aluDsh (fn a b c : Nat) : Nat :=
  let x := a * 2 ^ 32 + c
  let n := b % 64
  match fn with
  | 0 => x * 2 ^ n % 2 ^ 64 / 2 ^ 32
  | 1 => x / 2 ^ n % 2 ^ 32
  | 2 => wrapInt 64 (toSigned 64 x / (2 ^ n : Nat)) % 2 ^ 32
  | _ => (x * 2 ^ n % 2 ^ 64 + x / 2 ^ (64 - n)) / 2 ^ 32
/-- DSH (R112). -/
def execDsh (w : W1) (x : ExtA) (s : State) : Out :=
  .next (exec3 (.dsh w x) w x.c 1 1 1 (aluDsh x.fn.toNat) s)

/-- Bits of an n-bit value, lowest first. -/
def bitsOf (n x : Nat) : List Bool := (upto n).map x.testBit
/-- A number from bits, lowest first. -/
def ofBits (l : List Bool) : Nat := l.foldr (fun b acc => b.toNat + 2 * acc) 0

/-- BITF (R51, R113). -/
def aluBitf (fn a : Nat) : Nat :=
  match fn with
  | 0 => (bitsOf 32 a).count true
  | 1 => ((bitsOf 32 a).reverse.takeWhile (!·)).length
  | 2 => ((bitsOf 32 a).takeWhile (!·)).length
  | 3 => ofBits (bitsOf 32 a).reverse
  | 4 => leNat (bytesOf a 4).reverse
  | 5 => (bitsOf 64 a).count true
  | 6 => ((bitsOf 64 a).reverse.takeWhile (!·)).length
  | 7 => ((bitsOf 64 a).takeWhile (!·)).length
  | _ => ofBits (bitsOf 64 a).reverse
/-- BITF: pairs as R51 gives. -/
def execBitf (w : W1) (s : State) : Out :=
  let f := w.b.toNat
  .next (exec1 (.bitf w) w (if 5 ≤ f then 2 else 1) (if f == 8 then 2 else 1) (aluBitf f) s)

/-- PBOOL (R115). -/
def execPbool (w : W1) (x : ExtA) (s : State) : Out :=
  .next (execLanes (.pbool w x) s (fun s e t =>
    let (a, p) := rdPred t w.a.toNat
    let (b, q) := rdPred t w.b.toNat
    let (c, r) := rdPred t x.c.toNat
    .ok (s.putThread e (wrPair t w.d.toNat (truth x.fn.toNat a b c) ((p.or q).or r)))))

/-- V2P (R116): predicates whose mask bit is clear are unchanged. -/
def execV2p (w : W1) (s : State) : Out :=
  .next (execLanes (.v2p w) s (fun s e t =>
    let (a, p) := rd e t w.a.toNat
    let (m, q) := rd e t w.b.toNat
    .ok (s.putThread e ((upto 12).foldl (fun t k => if m.testBit k then wrPred t k (a.testBit k) (p.or q) else t) t))))

/-- P2V (R116). -/
def execP2v (w : W1) (s : State) : Out :=
  .next (execLanes (.p2v w) s (fun s e t => resWrite s e t w.d.toNat 1 (predBits t) (predOr t)))

/-- MOV (R108). -/
def execMov (w : W1) (s : State) : Out := .next (exec1 (.mov w) w 1 1 id s)

/-- Values of RDSP (R53, R117). -/
def rdspValue (s : State) (e : Env) (t : Thread) (fn : Nat) : Nat :=
  let tm := (s.teams.get e.team).getD default
  let k := tm.pkt
  match fn with
  | 0 => if e.sup then 0 else e.tix % k.gx
  | 1 => if e.sup then 0 else e.tix / k.gx % k.gy
  | 2 => if e.sup then 0 else e.tix / k.gx / k.gy
  | 3 => if e.sup then 0 else e.tix
  | 4 => if e.sup then 0 else k.gx
  | 5 => if e.sup then 0 else k.gy
  | 6 => if e.sup then 0 else k.gz
  | 7 => e.core
  | 8 => clusterOf e.core
  | 9 => dieOf e.core
  | 10 => e.asid
  | 11 => e.gslot
  | 12 => if e.sup then 0xFFFFFFFF else (tm.crewOf e.gid).getD 0xFFFFFFFF
  | 13 => if e.sup || k.gang ≤ 1 then 0 else e.tix % k.gang
  | 14 => e.budget
  | 15 => e.scru
  | 16 => if e.sup then 0 else k.args
  | 17 => if s.feature 2 then s.window else 0
  | _ => predBits t + predPois t * 2 ^ 16

/-- RDSP (R117): unpoisoned. -/
def execRdsp (w : W1) (s : State) : Out :=
  .next (execLanes (.rdsp w) s (fun s e t =>
    let f := w.b.toNat
    resWrite s e t w.d.toNat (if f == 3 || f == 16 || f == 17 then 2 else 1) (rdspValue s e t f) .clean))

end Sys2Proof.Machine
end

