-- ==== Sys2Proof/Machine/Translate.lean ====
section
/-! DEFINITION. Line-fit translation and the checks of an access (R177 to R203, R209). -/

namespace Sys2Proof.Machine

/-! ### Physical memory as its home holds it -/

/-- The number of a physical location: space 0 device, 1 peer, 2 host. -/
def physOf (space pa : Nat) : Nat := space * 2 ^ 56 + pa
def spaceOf (a : Nat) : Nat := a / 2 ^ 56
def paOf (a : Nat) : Nat := a % 2 ^ 56
/-- Space of a page kind (R187). -/
def kindSpace (k : Nat) : Nat := match k with | 0 => 0 | 1 => 1 | _ => 2
/-- Die that homes a device or host location (R6, R207). -/
def homeDie (a : Nat) : Nat := if spaceOf a == 2 then paOf a / 2 ^ 12 % 4 else paOf a / 0x1800000000 % 4
/-- Key of a sector copy in a cache. -/
def copyKey (cache a : Nat) : Nat := cache * 2 ^ 56 + a / 64

/-- The proxy RDC's copy of a host sector, which stands as its home inside the module (R207). -/
def proxyCopy (m : MemSys) (a : Nat) : Option Copy :=
  if spaceOf a == 2 then m.rdc.get (copyKey (homeDie a) a) else none

/-- A byte as its home holds it. -/
def homeByte (m : MemSys) (a : Nat) : Byte :=
  match proxyCopy m a with
  | some c => c.data.getD (a % 64) 0
  | none => Memory.get m.cells a

/-- Bytes as their homes hold them. Log 18: DEDUCED, unsafe. -/
def homeBytes (m : MemSys) (a : Nat) : Nat → List Byte
  | 0 => []
  | n + 1 => homeByte m a :: homeBytes m (a + 1) n

/-- The poison of a sector as its home holds it: its cause (R338). -/
def homePois (m : MemSys) (a : Nat) : Option Nat :=
  match proxyCopy m a with
  | some c => c.pois
  | none => m.pois.get (a / 64)

/-- The port that a host line travels through, if one is up (R356). -/
def hostPort (s : State) (a : Nat) : Option Nat :=
  let p := homeDie a % 2
  if (s.mod.ports.getD p {}).up then some p
  else if (s.mod.ports.getD (1 - p) {}).up then some (1 - p) else none

/-- A host location that no port reaches now (R365). -/
def hostGone (s : State) (a : Nat) : Bool := spaceOf a == 2 && (hostPort s a).isNone

/-- A number of n bytes in memory, little-endian (R68). -/
def homeNat (m : MemSys) (a n : Nat) : Nat := leNat (homeBytes m a n)

/-! ### Translation (R187 to R190) -/

/-- One translation: its source (R200), index, generation, and the page where it is mapped. -/
structure Trans where
  src : Nat
  index : Nat
  gen : Nat
  page : Option (Nat × Attr)
  deriving DecidableEq, Repr, Inhabited

/-- Whether a page translates as unmapped whatever its entry says (R187). -/
def pageBad (s : State) (ppn : Nat) (a : Attr) : Bool :=
  (a.kind == 0 && 0x6000000000 ≤ ppn * 2 ^ 16) || (a.kind == 1 && ppn * 2 ^ 16 / 2 ^ 39 % 2 ^ 13 == s.mod.devid)

/-- The exception entry of a page: on-die, then spilled (R190); of the spilled ones the V9 keeps a table. Log 114: DESIGN CHOICE, unsafe. -/
def excOf (x : Xl) (asid vpn : Nat) : Option (Nat × Nat × Exc) :=
  match x.exc.find (fun _ e => e.vpn == vpn && e.asid == asid) with
  | (k, e) :: _ => some (2, k, e)
  | [] =>
    match x.spill.find (fun _ e => e.vpn == vpn && e.asid == asid) with
    | (k, e) :: _ => some (3, k, e)
    | [] => none

/-- The segment of a page, with its index (R188). -/
def segFind (vpn : Nat) : List Seg → Nat → Option (Nat × Seg)
  | [], _ => none
  | g :: r, i => if g.vbase ≤ vpn && vpn < g.vbase + g.len then some (i, g) else segFind vpn r (i + 1)

/-- The physical page that a segment gives (R188). -/
def Seg.ppn (g : Seg) (vpn : Nat) : Nat := wrapInt 36 ((g.pbase : Int) + g.slope * ((vpn : Int) - g.vbase))

/-- Translates a page in the current generation (R190). -/
def transPage (s : State) (asid vpn : Nat) : Trans :=
  let sp := s.xl.spaces.getD asid {}
  let chk := fun (src i ppn : Nat) (a : Attr) =>
    if pageBad s ppn a then Trans.mk 0 0xFFFFFFFF sp.gen none else Trans.mk src i sp.gen (some (ppn, a))
  match excOf s.xl asid vpn with
  | some (src, k, e) => if e.ev then chk src k e.ppn e.attr else ⟨0, 0xFFFFFFFF, sp.gen, none⟩
  | none =>
    match segFind vpn sp.segs 0 with
    | some (i, g) => chk 1 i (g.ppn vpn) g.attr
    | none => ⟨0, 0xFFFFFFFF, sp.gen, none⟩

/-- Translates a global address (R180, R190). -/
def transVa (s : State) (asid va : Nat) : Trans :=
  if va / 2 ^ 56 != 0 then ⟨0, 0xFFFFFFFF, (s.xl.spaces.getD asid {}).gen, none⟩
  else transPage s asid (va / 2 ^ 16 % 2 ^ 40)

/-! ### Windows (R181 to R183) -/

def scratchBase : Nat := 0x00F0000000000000
def privBase : Nat := 0x00F1000000000000

/-- 0 global, 1 scratchpad, 2 private (R181). -/
def windowOf (va : Nat) : Nat :=
  if scratchBase ≤ va && va < scratchBase + 2 ^ 19 then 1
  else if privBase ≤ va && va < privBase + 2 ^ 20 then 2
  else 0

/-- Who makes an access: address space, team and its scratchpad bound, and the number of its private memory. -/
structure Who where
  asid : Nat
  team : Nat
  bound : Nat
  privNo : Nat
  deriving DecidableEq, Repr, Inhabited

/-- A thread as the maker of an access (R183). -/
def Env.who (e : Env) : Who :=
  { asid := e.asid, team := e.team, bound := e.scru * 4096,
    privNo := if e.sup then 32 * e.core + e.lane else e.tix * 512 + (32 * e.gid + e.lane) }

/-- The generic address at which a private or global access is translated (R183). -/
def globalVa (s : State) (w : Who) (va : Nat) : Nat :=
  if windowOf va == 2 then ((s.xl.spaces.getD w.asid {}).priv + w.privNo * 2 ^ 20 + (va - privBase)) % 2 ^ 64 else va

/-- The effective policy, 0 normal to 3 uncached, and the read count that survives (R209, R210). -/
def policyOf (cache cpol rc : Nat) : Nat × Nat :=
  let c := if cache ≤ 1 then 0 else cache - 1
  let p := max c cpol
  (p, if cache == 1 && p == 0 then min rc 255 else 0)

/-- The fault record of an access (R202). `GEN` is 0 where nothing is translated, in the scratchpad's window. Log 96: DESIGN CHOICE, unsafe. -/
def faultRec (s : State) (w : Who) (va akind cause : Nat) : FRec :=
  if windowOf va == 1 then { va := va, akind := akind, cause := cause, asid := w.asid, src := 4, index := 0xFFFFFFFF % 2 ^ 29 }
  else
    let t := transVa s w.asid (globalVa s w va)
    { va := va, akind := akind, cause := cause, asid := w.asid, src := t.src, index := t.index % 2 ^ 29, gen := t.gen }

/-- The checks of R201 but for the atomic one: `perm` is the bit of `PERM` needed, `align` the alignment. A
global access that crosses pages is checked on both (R190). -/
def checkAcc (s : State) (w : Who) (va size perm akind align cache rc : Nat) : Except FRec Acc :=
  let bad := fun (c : Nat) => Except.error (faultRec s w va akind c)
  if windowOf va != windowOf ((va + size - 1) % 2 ^ 64) then bad 0x0E
  else if va % align != 0 then bad 0x10
  else if windowOf va == 1 then
    let o := va - scratchBase
    if w.bound < o + size then bad 0x13
    else
      .ok { loc := .scratch w.team o, va := va, size := size, kind := 4, pol := 0, tow := false, rc := 0, asid := w.asid, gen := 0, src := 4,
            index := 0xFFFFFFFF % 2 ^ 29 }
  else
    let g := globalVa s w va
    let t := transVa s w.asid g
    let t2 := transVa s w.asid ((g + size - 1) % 2 ^ 64)
    match t.page, t2.page with
    | some (ppn, a), some (_, a2) =>
      if !(a.perm.testBit perm && a2.perm.testBit perm) then bad 0x0D
      else
        let (pol, rc') := policyOf cache a.cpol rc
        .ok { loc := .phys (physOf (kindSpace a.kind) (ppn * 2 ^ 16 + g % 2 ^ 16)), va := va, size := size, kind := a.kind, pol := pol,
              tow := a.tow && a.kind == 0, rc := rc', asid := w.asid, gen := t.gen, src := t.src, index := t.index % 2 ^ 29 }
    | _, _ => bad 0x0C

/-- A scratchpad access of LDS, STS or FWAIT at an offset (R213). -/
def checkScratch (w : Who) (off size akind align : Nat) : Except FRec Acc :=
  let r : FRec := { va := scratchBase + off, akind := akind, asid := w.asid, src := 4, index := 0xFFFFFFFF % 2 ^ 29 }
  if off % align != 0 then .error { r with cause := 0x10 }
  else if w.bound < off + size then .error { r with cause := 0x13 }
  else .ok { loc := .scratch w.team off, va := scratchBase + off, size := size, kind := 4, pol := 0, tow := false, rc := 0,
             asid := w.asid, gen := 0, src := 4, index := r.index }

/-- The record of a checked access, in the layout of a translation fault (R202). -/
def Acc.record (a : Acc) (akind cause : Nat) : FRec :=
  { va := a.va, akind := akind, cause := cause, asid := a.asid, src := a.src, index := a.index, gen := a.gen }

/-! ### Instruction fetch (R61, R182) -/

/-- One word of code, or the record of the fetch fault. -/
def fetchWord (s : State) (asid va : Nat) : Except FRec Word :=
  let w : Who := { asid := asid, team := 0, bound := 0, privNo := 0 }
  if windowOf va != 0 then .error (faultRec s w va 3 0x0D)
  else
    let t := transVa s asid va
    match t.page with
    | none => .error (faultRec s w va 3 0x0C)
    | some (ppn, a) =>
      if !a.perm.testBit 2 then .error (faultRec s w va 3 0x0D)
      else .ok (BitVec.ofNat 32 (homeNat s.mem (physOf (kindSpace a.kind) (ppn * 2 ^ 16 + va % 2 ^ 16)) 4))

/-! ### The page map (R184 to R187) -/

/-- Memory exists at a table's address. -/
def tableExists (h : Bool) (pa : Nat) : Bool := h || pa < 0x6000000000

/-- Reads a 64-bit table word: `none` where it holds poison, or no port reaches it (R365). -/
def tableWord (s : State) (h : Bool) (pa : Nat) : Option Nat :=
  if !tableExists h pa then some 0
  else
    let a := physOf (if h then 2 else 0) pa
    if hostGone s a || (homePois s.mem a).isSome then none else some (homeNat s.mem a 8)

/-- What the page map says of a page: poison, unmapped, or its page and attributes. -/
inductive Leaf where
  | poison
  | unmapped
  | page (ppn : Nat) (a : Attr)
  deriving DecidableEq, Repr, Inhabited

/-- Walks the map (R184 to R187). -/
def leafOf (s : State) (sp : Space) (vpn : Nat) : Leaf :=
  match tableWord s sp.h (sp.root + 8 * (vpn / 2 ^ 26 % 2 ^ 14)) with
  | none => .poison
  | some e1 =>
    let bad := fun (e : Nat) => e % 2 == 0 || fld e 2 14 != 0 || fld e 52 12 != 0
    if bad e1 then .unmapped
    else
      match tableWord s (e1.testBit 1) (fld e1 16 36 * 2 ^ 16 + 8 * (vpn / 2 ^ 13 % 2 ^ 13)) with
      | none => .poison
      | some e2 =>
        if bad e2 then .unmapped
        else
          match tableWord s (e2.testBit 1) (fld e2 16 36 * 2 ^ 16 + 8 * (vpn % 2 ^ 13)) with
          | none => .poison
          | some l =>
            let a : Attr := { perm := fld l 1 4, kind := fld l 5 2, cpol := fld l 7 2, tow := l.testBit 9 }
            if l % 2 == 0 || fld l 10 6 != 0 || fld l 52 12 != 0 || pageBad s (fld l 16 36) a then .unmapped
            else .page (fld l 16 36) a

/-- The page that the current translation gives, in the form of a leaf. -/
def currentLeaf (s : State) (asid vpn : Nat) : Leaf :=
  match (transPage s asid vpn).page with
  | none => .unmapped
  | some (p, a) => .page p a

/-! ### Descriptors and the fit image (R178, R188) -/

/-- A segment from its 32 bytes. -/
def segOfBytes (bs : List Byte) : Seg :=
  let x := fieldAt bs 0 8
  let y := fieldAt bs 8 8
  { vbase := x % 2 ^ 40, len := x / 2 ^ 40, pbase := y % 2 ^ 36, slope := toSigned 8 (fld y 36 8),
    attr := { perm := fld y 44 4, kind := fld y 48 2, cpol := fld y 50 2, tow := y.testBit 52 } }

/-- The 32 bytes of a segment. -/
def segBytes (asid : Nat) (g : Seg) : List Byte :=
  bytesOf (g.vbase + g.len * 2 ^ 40) 8
    ++ bytesOf (g.pbase + wrapInt 8 g.slope * 2 ^ 36 + g.attr.perm * 2 ^ 44 + g.attr.kind * 2 ^ 48 + g.attr.cpol * 2 ^ 50
        + g.attr.tow.toNat * 2 ^ 52) 8
    ++ bytesOf asid 2 ++ zeros 14

/-- Reads the descriptor of an ASID and its fit image (R178). Log 28: DEDUCED, unsafe. Poison of their sectors is not looked at. Log 102:
DESIGN CHOICE, unsafe. -/
def readSpace (s : State) (asid : Nat) : Space :=
  let a := s.xl.xasb + 64 * asid
  if 4096 ≤ asid || 0x6000000000 < a + 64 then {}
  else
    let w := homeNat s.mem a 8
    let fit := homeNat s.mem (a + 8) 8
    let n := min (homeNat s.mem (a + 0x1C) 4) 8192
    { valid := w % 2 == 1, h := w.testBit 1, root := fld w 17 35 * 2 ^ 17, fit := fit, priv := homeNat s.mem (a + 0x10) 8,
      gen := homeNat s.mem (a + 0x18) 4, segs := (upto n).map (fun i => segOfBytes (homeBytes s.mem (fit + 32 * i) 32)) }

/-- Reads a descriptor into the translation that the V9 holds; a descriptor no longer valid leaves the fit that
resident teams use (R178). -/
def loadSpace (s : State) (asid : Nat) : State :=
  let sp := readSpace s asid
  let old := s.xl.spaces.getD asid {}
  let sp := if sp.valid then sp else { old with valid := false }
  { s with xl := { s.xl with spaces := s.xl.spaces.put asid sp } }

/-- On-die exception entries in use, and spilled ones (R179). -/
def Xl.xocc (x : Xl) : Nat := x.exc.length
def Xl.xspc (x : Xl) : Nat := x.spill.length

end Sys2Proof.Machine
end

