-- ==== Sys2Proof/Machine/Copies.lean ====
section
/-! DEFINITION. Cached copies: which level may serve an access, leases, read counts, fills, and the replacement of lines where a cache is full
(R205 to R211, R225, R229 to R235, R248). -/

namespace Sys2Proof.Machine

/-! ### Sectors and their poison (R207, R338) -/

/-- New poison of a sector after a write: cleared only by a write of the whole sector (R338), set by a
poisoning write. -/
def newPois (old : Option Nat) (whole : Bool) (mark : Option Nat) : Option Nat :=
  match mark with
  | some c => some c
  | none => if whole then none else old

def setOpt {α : Type} (t : Tab α) (k : Nat) : Option α → Tab α
  | some v => t.put k v
  | none => t.del k

/-- The pieces of a write by sector: offset of the piece in the bytes, address, length. -/
def pieces (a n : Nat) : List (Nat × Nat × Nat) :=
  if n == 0 then []
  else
    (upto ((a + n - 1) / 64 - a / 64 + 1)).map (fun i =>
      let lo := max a ((a / 64 + i) * 64)
      let hi := min (a + n) ((a / 64 + i + 1) * 64)
      (lo - a, lo, hi - lo))

/-- The sector of a copy's key, and its cache. -/
def keySector (k : Nat) : Nat := k % 2 ^ 56
def keyCache (k : Nat) : Nat := k / 2 ^ 56

/-- A copy takes an update: the bytes at offset `i` of its sector. -/
def Copy.update (c : Copy) (i : Nat) (bs : List Byte) (mark : Option Nat) : Copy :=
  { c with data := patch c.data i bs, pois := newPois c.pois (bs.length == 64) mark }

/-! ### Stores on their way (R208, R238) -/

/-- What an operation writes through its core's L1 and has not yet had performed: when it left, address, bytes. -/
def Op.onWay (o : Op) : Option (Nat × Nat × List Byte) :=
  match o.sent, o.kind with
  | some n, .store { loc := .phys y, .. } d => some (n, y, d)
  | some n, .atomic _ _ _ _ _ _ _ => o.out.map (fun w => (n, w.1, w.2))
  | _, _ => none

/-- An atomic of two halves (R268). -/
def twoHalves (cas : Bool) (aop ty : Nat) : Bool := !cas && (ty == 6 || ty == 7) && aop ≤ 2

/-- All that an operation writes through its core's L1 is on its way: of an atomic of two halves, the second too (R268). -/
def Op.allOut (o : Op) : Bool :=
  o.onWay.isSome && (match o.kind with
    | .atomic _ _ cas aop ty _ _ => !twoHalves cas aop ty || o.half.isSome
    | _ => true)

/-- The stores of a core that are on their way, in the order in which they left. -/
def onWay (s : State) (core : Nat) : List (Nat × Nat × List Byte) :=
  sortBy (·.1) (s.ops.filterMap (fun e => if placeCore e.2.th == core then e.2.onWay else none))

/-- The bytes at `y` with the updates of a list of stores. -/
def overlay (ws : List (Nat × Nat × List Byte)) (y : Nat) (bs : List Byte) : List Byte :=
  ws.foldl (fun bs w =>
    bs.mapIdx (fun i b => if w.2.1 ≤ y + i && y + i < w.2.1 + w.2.2.length then w.2.2.getD (y + i - w.2.1) 0 else b)) bs

/-- Whether a line of a core's L1 has a write-through that is not acknowledged: it stays (R238). -/
def pinned (s : State) (core sector : Nat) : Bool := (onWay s core).any (fun w => w.2.1 / 256 == sector / 4)

/-- An earlier store of the core to some of these bytes is on its way: the L1 writes through in order (R238). -/
def behindStore (s : State) (core y n : Nat) (sent : Option Nat) : Bool :=
  (onWay s core).any (fun w => w.2.1 < y + n && y < w.2.1 + w.2.2.length && (match sent with | some k => w.1 < k | none => true))

/-! ### Leases (R225, R226, R233, R235) -/

/-- Up to a multiple of 16 ns, the unit of a stamp (R225, R235). -/
def ceil16 (n : Nat) : Nat := (n + 15) / 16 * 16

/-- An expiry: grant plus length, up to a multiple of 16 ns (R225). -/
def leaseEnd (now len : Nat) : Nat := ceil16 (now + len)

/-- The expiry of a lease that is taken back: a stamp that lies ahead of no time from now on. -/
def lapsed (now : Nat) : Nat := now / 16 * 16

/-- How far a stamp lies ahead of device time, ns: stamps are 24 bits in units of 16 ns, and wrap (R235). -/
def stampAhead (exp now : Nat) : Nat := (exp / 16 % 2 ^ 24 * 16 + 2 ^ 28 - now % 2 ^ 28) % 2 ^ 28

/-- The lease of a copy runs: its stamp lies ahead of device time, and by no more than `LSRDC`, both counted in whole units of a stamp, as the
expiry of R225 is (R225, R235). Log 108: DEDUCED, unsafe. -/
def Copy.leased (c : Copy) (m : Mod) : Bool := 0 < stampAhead c.exp m.now && stampAhead c.exp (ceil16 m.now) ≤ ceil16 m.lsrdc

/-- Whether a copy may serve a load of a thread whose latest sc fence asks for copies granted from `fenceAt` on (R225, R244). -/
def Copy.valid (c : Copy) (m : Mod) (fenceAt : Nat) : Bool := c.leased m && fenceAt ≤ c.granted

/-- An expiry as its home sees it: a die in a time fault is given 64 ns more (R233). -/
def holderExp (s : State) (h : Nat × Nat) : Nat :=
  let die := if h.1 < 192 then dieOf h.1 else h.1 - 192
  if s.mod.timeFault.getD die false then h.2 + 64 else h.2
def holderDeaf (s : State) (h : Nat × Nat) : Bool :=
  s.mod.timeFault.getD (if h.1 < 192 then dieOf h.1 else h.1 - 192) false

/-- Whether a die's caches take leases: not in a time fault (R233). -/
def leased (s : State) (die : Nat) : Bool := !(s.mod.timeFault.getD die false)

/-- Records a lease at the home. -/
def dirAdd (m : MemSys) (sector holder exp : Nat) : MemSys :=
  let d := m.dir.getD sector {}
  { m with dir := m.dir.put sector { d with holders := (holder, exp) :: d.holders.filter (fun h => h.1 != holder) } }

/-- Removes a holder from the record of a sector. -/
def dirDel (m : MemSys) (sector holder : Nat) : MemSys :=
  { m with dir := m.dir.upd sector (fun d => { d with holders := d.holders.filter (fun h => h.1 != holder) }) }

/-! ### Read counts (R210, R211) -/

/-- Key of the count of a line copy: cache 0 to 191 an L1, 200 + die an RDC, 300 the home L2. -/
def countKey (cache a : Nat) : Nat := cache * 2 ^ 54 + a / 256

/-- A store that hits a counted line clears its count (R211). -/
def clearCount (m : MemSys) (cache a : Nat) : MemSys := { m with counts := m.counts.del (countKey cache a) }

/-- A fill gives its count to a copy of the line that it creates (R211). -/
def countFill (m : MemSys) (cache a n : Nat) : MemSys :=
  if n == 0 then m else { m with counts := m.counts.put (countKey cache a) n }

/-! ### Towline marks of copies (R333) -/

/-- Whether the counters of a recording count: from TOWPLAY on, until `ITER` advances in DEPARTED (R333, R334, R401). -/
def Recd.counting (r : Recd) : Bool := r.played && !r.frozen

/-- Counts a push that is gone before any read (R333). Log 52: DEDUCED, unsafe. -/
def towUnused (s : State) (id : Nat) : State :=
  { s with recs := s.recs.upd id (fun r =>
      if r.counting then
        let u := min (r.unused + 1) 0xFFFF
        { r with unused := u, st := if r.st == .playing && r.thrUnused < u && r.thrUnused != 0xFFFF then .departed else r.st }
      else r) }

/-! ### The memory-side LLC (R205, R208)

`cells` shows device memory's bytes, whichever of the home slice, the LLC and GDDR7 holds the latest: the dirty masks say what is still to be
written where. -/

/-- A free choice out of a list. -/
def pick (s : State) (l : List Nat) : Option Nat :=
  match l with
  | [] => none
  | [x] => some x
  | x :: r => some ((x :: r).getD ((Config.freeWord s.tick).toNat % (x :: r).length) x)

/-- The L2 slice, over the dies, and the channel of a device location (R6). -/
def channelOf (y : Nat) : Nat := 24 * homeDie y + paOf y % 0x1800000000 / 4096 % 24
def sliceOf (y : Nat) : Nat := 4 * channelOf y + paOf y / 256 % 4

/-- A line's place in the LLC slice of 16 MiB of its channel, and the sectors of it that are written there. A line that goes for it is written to
GDDR7. -/
def llcAdd (s : State) (a dirty : Nat) : State :=
  let line := a / 256
  if s.mem.llc.has line then s.setMem { s.mem with llc := s.mem.llc.upd line (· ||| dirty) }
  else
    let mine := (s.mem.llc.find (fun l _ => channelOf (l * 256) == channelOf a)).map (·.1)
    let (s, l) := if mine.length < 65536 then (s, s.mem.llc)
      else
        match pick s mine with
        | some v => ({ s with tick := s.tick + 1 }, s.mem.llc.del v)
        | none => (s, s.mem.llc)
    s.setMem { s.mem with llc := l.put line dirty }

/-- Counts and forgets the unread pushes of a line of a home slice, but for the sectors of `keep` (R333). -/
def l2Lost (s : State) (line keep : Nat) : State :=
  match s.mem.l2.get line with
  | some x => (x.marks.find (fun i _ => !keep.testBit i)).foldl (fun s e => towUnused s e.2)
      (s.setMem { s.mem with l2 := s.mem.l2.put line { x with marks := x.marks.find (fun i _ => keep.testBit i) } })
  | none => s

/-! ### Lines that go (R205, R211, R236) -/

/-- A line leaves the home slice: its dirty sectors are written to the LLC, and its read count and its writer tags are lost (R205, R211, R331). -/
def dropL2 (s : State) (line : Nat) : State :=
  let s := l2Lost s line 0
  let d := (s.mem.l2.getD line {}).dirty
  let s := if d == 0 then s else llcAdd s (line * 256) d
  s.setMem { s.mem with
    l2 := s.mem.l2.del line, counts := s.mem.counts.del (300 * 2 ^ 54 + line)
    tags := s.mem.tags.filter (fun e => e.1 / 4 != line) }

/-- The sectors of a line that an L1 or an RDC holds. -/
def lineSectors (t : Tab Copy) (cache line : Nat) : List Nat :=
  ((upto 4).map (fun i => 4 * line + i)).filter (fun x => t.has (cache * 2 ^ 56 + x))

/-- Takes a sector out of an L1; with its last sector the line's count and place go. -/
def dropL1 (m : MemSys) (core sector : Nat) : MemSys :=
  let m := dirDel { m with l1 := m.l1.del (core * 2 ^ 56 + sector) } sector core
  if (lineSectors m.l1 core (sector / 4)).isEmpty then
    { m with counts := m.counts.del (core * 2 ^ 54 + sector / 4), l1at := m.l1at.del (core * 2 ^ 54 + sector / 4) }
  else m

/-- Invalidates a sector of an L1. A line with an unacknowledged write-through stays, without a lease, and keeps its updates (R238). -/
def killL1 (s : State) (core sector : Nat) : State :=
  let k := core * 2 ^ 56 + sector
  if !s.mem.l1.has k then s
  else if pinned s core sector then
    s.setMem (dirDel { s.mem with l1 := s.mem.l1.upd k (fun c => { c with exp := lapsed s.mod.now }) } sector core)
  else s.setMem (dropL1 s.mem core sector)

/-- Invalidates a sector in every L1 of a die. -/
def dropDieL1 (s : State) (die sector : Nat) : State := (upto 48).foldl (fun s i => killL1 s (48 * die + i) sector) s

/-- Invalidates a sector in every L1 of the module. -/
def dropAllL1 (s : State) (sector : Nat) : State := (upto 4).foldl (fun s d => dropDieL1 s d sector) s

/-- Takes a sector out of an RDC, with the line's count where it was the last; an unread push in it counts as unused. Dirty host data goes to
the host, where a port reaches it (R205, R333). -/
def dropRdc (s : State) (die sector : Nat) : State :=
  let k := die * 2 ^ 56 + sector
  match s.mem.rdc.get k with
  | none => s
  | some c =>
    let m := s.mem
    let m := if c.dirty then
        { m with cells := Memory.write m.cells (sector * 64) c.data, pois := setOpt m.pois sector c.pois }
      else m
    let m := dirDel { m with rdc := m.rdc.del k } sector (192 + die)
    let m := if (lineSectors m.rdc die (sector / 4)).isEmpty then { m with counts := m.counts.del ((200 + die) * 2 ^ 54 + sector / 4) } else m
    let s := s.setMem m
    match c.pushed with
    | some id => towUnused s id
    | none => s

/-- An L1 loses a line, but for a sector kept by an unacknowledged write-through (R238). -/
def dropL1Line (s : State) (core line : Nat) : State :=
  if pinned s core (4 * line) then s else (lineSectors s.mem.l1 core line).foldl (fun s x => s.setMem (dropL1 s.mem core x)) s

/-- An RDC loses a line. It is the home of a host line for the L1s, whose copies go with it (R229). -/
def dropRdcLine (s : State) (die line : Nat) : State :=
  (lineSectors s.mem.rdc die line).foldl (fun s x =>
    let s := if spaceOf (x * 64) == 2 then dropAllL1 s x else s
    dropRdc s die x) s

/-- Whether an RDC can replace a line now: of a host line, a port reaches the host (R365). -/
def rdcFree (s : State) (line : Nat) : Bool := !hostGone s (line * 256)

/-- Drops a line from a cache after its count reached zero, with no write-back; a line that a store has made dirty since stays (R211). -/
def dropLine (s : State) (cache a : Nat) : State :=
  let line := a / 256
  if cache < 192 then dropL1Line s cache line
  else if cache < 300 then
    (if (lineSectors s.mem.rdc (cache - 200) line).any (fun x => (s.mem.rdc.getD ((cache - 200) * 2 ^ 56 + x) default).dirty) || !rdcFree s line then s
    else dropRdcLine s (cache - 200) line)
  else if (s.mem.l2.getD line {}).dirty != 0 then s
  else dropL2 s line

/-! ### Room for a line (R1, R5, R155, R205)

A cache that is full gives up a line for a new one: a first candidate where it holds one, else any. Which one, and in which free unit a new
line of an L1 stands, is free. Log 74: DESIGN CHOICE, safe. -/

/-- The candidates for replacement: the first candidates, where there are some. -/
def victims (first : Nat → Bool) (lines : List Nat) : List Nat :=
  match lines.filter first with
  | [] => lines
  | f => f

/-- The scratchpad units of a core that a resident team owns. -/
def unitsOwned (s : State) (core : Nat) : List Nat :=
  ((s.teams.find (fun _ tm => tm.core == core && !tm.ended)).map (fun e => e.2.units)).flatten

/-- The units that no team owns: they are lent to the L1 (R205). -/
def unitsLent (s : State) (core : Nat) : List Nat :=
  let own := unitsOwned s core
  (upto 128).filter (fun u => !own.contains u)

/-- Lines of a core's L1, and those that stand in a unit. -/
def l1Lines (s : State) (core : Nat) : List Nat := (s.mem.l1at.find (fun k _ => k / 2 ^ 54 == core)).map (fun e => e.1 % 2 ^ 54)
def unitLines (s : State) (core unit : Nat) : List Nat :=
  (s.mem.l1at.find (fun k u => k / 2 ^ 54 == core && u == unit)).map (fun e => e.1 % 2 ^ 54)

/-- Whether a unit has room for one more line: 16 lines of 256 bytes in 4 KiB, 256 in the L1's own 64 KiB. -/
def unitRoom (s : State) (core unit : Nat) : Bool := (unitLines s core unit).length < (if unit == 128 then 256 else 16)

/-- Whether every sector of a line was filled as a first candidate. -/
def firstLine (t : Tab Copy) (cache line : Nat) : Bool :=
  (lineSectors t cache line).all (fun x => (t.getD (cache * 2 ^ 56 + x) default).first)

/-- The units in which lines of an L1 may stand: its own 64 KiB and those lent to it (R5, R205). -/
def l1Units (s : State) (core : Nat) : List Nat := 128 :: unitsLent s core

/-- A place for a line that an L1 does not hold: `none` where every line in its units must stay. -/
def l1Place (s : State) (core a : Nat) : Option State :=
  let key := countKey core a
  let s1 := { s with tick := s.tick + 1 }
  let stays := fun (l : Nat) => pinned s core (4 * l) || !(l1Units s core).contains (s.mem.l1at.getD (core * 2 ^ 54 + l) 128)
  match pick s ((l1Units s core).filter (unitRoom s core)) with
  | some u => some (s1.setMem { s1.mem with l1at := s1.mem.l1at.put key u })
  | none =>
    match pick s (victims (firstLine s.mem.l1 core) ((l1Lines s core).filter (fun l => !stays l))) with
    | some v =>
      let u := s.mem.l1at.getD (core * 2 ^ 54 + v) 128
      let s2 := dropL1Line s1 core v
      some (s2.setMem { s2.mem with l1at := s2.mem.l1at.put key u })
    | none => none

/-- Room for a line in an L1: `none` where every line must stay. A line that still stands in a unit that a team has taken since goes, and is placed
anew, unless an unacknowledged write-through keeps it: such a unit takes no more (R5, R155, R238). -/
def l1Room (s : State) (core a : Nat) : Option State :=
  match s.mem.l1at.get (countKey core a) with
  | none => l1Place s core a
  | some u =>
    if (l1Units s core).contains u then some s
    else if pinned s core (a / 64) then none
    else l1Place (dropL1Line s core (a / 256)) core a

/-- Lines of a die's RDC. -/
def rdcLines (s : State) (die : Nat) : List Nat := dedup ((s.mem.rdc.find (fun k _ => keyCache k == die)).map (fun e => keySector e.1 / 4))

/-- Room for a line in an RDC of 32 MiB: `none` where it is full of lines that cannot go, host lines while no port is up (R365). The line is then
not held, and its access is served where its home lies behind the RDC. Log 91: DESIGN CHOICE, unsafe. -/
def rdcRoom (s : State) (die a : Nat) : Option State :=
  let lines := rdcLines s die
  if lines.contains (a / 256) || lines.length < 131072 then some s
  else
    match pick s (victims (firstLine s.mem.rdc die) (lines.filter (rdcFree s))) with
    | some v => some (dropRdcLine { s with tick := s.tick + 1 } die v)
    | none => none

/-- Whether a home slice holds a sector (R208). -/
def L2Line.holds (x : L2Line) (a : Nat) : Bool := x.secs.testBit (a / 64 % 4)
def l2Holds (m : MemSys) (a : Nat) : Bool := match m.l2.get (a / 256) with | some x => x.holds a | none => false

/-- A sector comes into its home slice of 512 KiB: room for its line, and its place there (R208). -/
def l2Add (s : State) (a : Nat) (first : Bool) : State :=
  let line := a / 256
  let enter := fun (x : L2Line) => { x with secs := x.secs ||| 2 ^ (a / 64 % 4) }
  if s.mem.l2.has line then s.setMem { s.mem with l2 := s.mem.l2.upd line enter }
  else
    let mine := (s.mem.l2.find (fun k _ => sliceOf (k * 256) == sliceOf a)).map (·.1)
    let s := if mine.length < 2048 then s
      else
        match pick s (victims (fun l => (s.mem.l2.getD l {}).first) mine) with
        | some v => dropL2 { s with tick := s.tick + 1 } v
        | none => s
    s.setMem { s.mem with l2 := s.mem.l2.put line (enter { first := first }) }

/-! ### Fills (R208, R209, R225) -/

/-- A location's home is another die than the core's: its die level is the RDC of the core's die. -/
def remote (core y : Nat) : Bool := spaceOf y == 0 && homeDie y != dieOf core

/-- What an access asks of the caches: its core, policy, read count, whether its page is host-noncoherent, and the thread's latest sc
fence. -/
structure Ask where
  core : Nat
  pol : Nat := 0
  rc : Nat := 0
  nc : Bool := false
  fence : Nat := 0
  deriving DecidableEq, Repr, Inhabited

/-- Whether a cache holds a sector of a line under a running lease: the line is then not brought in anew (R211, R332). -/
def lineLeased (s : State) (t : Tab Copy) (cache a : Nat) : Bool :=
  (lineSectors t cache (a / 256)).any (fun x => (t.getD (cache * 2 ^ 56 + x) default).leased s.mod)

/-- Fills an L1 with a sector, its lease not past `limit` (R225); `granted` is when the data was known to be current. A line that the fill
brings in takes the read count (R211). Log 115: DESIGN CHOICE, unsafe. -/
def fillL1 (s : State) (q : Ask) (a : Nat) (data : List Byte) (pois : Option Nat) (limit : Option Nat) (granted : Nat) : State :=
  if !leased s (dieOf q.core) then s
  else
    match l1Room s q.core a with
    | none => s
    | some s1 =>
      let fresh := !lineLeased s1 s1.mem.l1 q.core a
      let e0 := leaseEnd s.mod.now s.mod.lsl1
      let e := match limit with | some l => min l e0 | none => e0
      let c : Copy := { data := data, pois := pois, exp := e, granted := granted, first := q.pol == 1, seen := s.mod.now }
      let m := dirAdd { s1.mem with l1 := s1.mem.l1.put (copyKey q.core a) c } (a / 64) q.core e
      s1.setMem (if fresh then countFill m q.core a q.rc else m)

/-- Fills the RDC of a die with a sector homed on another die (R225). -/
def fillRdc (s : State) (q : Ask) (die a : Nat) (data : List Byte) (pois : Option Nat) : State :=
  if !leased s die then s
  else
    let fresh := !lineLeased s s.mem.rdc die a
    let e := leaseEnd s.mod.now s.mod.lsrdc
    let k := copyKey die a
    let s := match s.mem.rdc.get k with
      | some { pushed := some id, .. } => towUnused s id
      | _ => s
    match rdcRoom s die a with
    | none => s
    | some s =>
      let c : Copy := { data := data, pois := pois, exp := e, granted := s.mod.now, first := q.pol == 1, seen := s.mod.now }
      let m := dirAdd { s.mem with rdc := s.mem.rdc.put k c } (a / 64) (192 + die) e
      s.setMem (if fresh then countFill m (200 + die) a q.rc else m)

/-- The host sector's copy at its proxy RDC, or the one that a fill brings in (R207, R229). Log 63: DEDUCED, unsafe. -/
def proxyFill (s : State) (a : Nat) (nc : Bool) : Copy :=
  match proxyCopy s.mem a with
  | some c => c
  | none => { data := Memory.read s.mem.cells (a / 64 * 64) 64, pois := s.mem.pois.get (a / 64), granted := s.mod.now, nc := nc, seen := s.mod.now }

/-- Brings a host sector into its proxy RDC. -/
def fillProxy (s : State) (q : Ask) (a : Nat) : State :=
  let die := homeDie a
  let fresh := (lineSectors s.mem.rdc die (a / 256)).isEmpty
  match rdcRoom s die a with
  | none => s
  | some s =>
    let m := { s.mem with rdc := s.mem.rdc.put (copyKey die a) { proxyFill s a q.nc with first := q.pol == 1 } }
    s.setMem (if fresh then countFill m (200 + die) a q.rc else m)

/-- What an access of a die in a time fault asks: its loads are served as under policy uncached (R233). -/
def Ask.faulted (q : Ask) (s : State) : Ask := if leased s (dieOf q.core) then q else { q with pol := 3, rc := 0 }

/-- A demand fill from the home: every level that the policy fills (R208, R209). -/
def demandFill (s : State) (q0 : Ask) (a : Nat) : State :=
  let q := q0.faulted s
  let data := homeBytes s.mem (a / 64 * 64) 64
  let pois := homePois s.mem a
  let die := dieOf q.core
  let fresh := !s.mem.l2.has (a / 256)
  let s := if spaceOf a == 0 && q.pol ≤ 2 then
      let s := l2Add s a (q.pol == 1)
      if fresh then s.setMem (countFill s.mem 300 a q.rc) else s
    else s
  let s := if spaceOf a == 0 && (q.pol == 0 || q.pol == 3) then llcAdd s a 0 else s
  let s := if spaceOf a == 2 && q.pol ≤ 2 then fillProxy s q a else s
  let s := if remote q.core a && q.pol ≤ 2 then fillRdc s q die a data pois else s
  let limit := if remote q.core a then (s.mem.rdc.get (copyKey die a)).map (·.exp) else none
  if q.pol ≤ 1 then fillL1 s q a data pois limit s.mod.now else s

/-- The L1 copy that may serve an access (R225, R244). -/
def l1Copy (s : State) (q : Ask) (y : Nat) : Option Copy :=
  match s.mem.l1.get (copyKey q.core y) with
  | some c => if c.valid s.mod q.fence then some c else none
  | none => none

/-- The RDC copy of the core's die that may serve an access to a line homed on another die (R208, R225, R244). -/
def rdcCopy (s : State) (q : Ask) (y : Nat) : Option Copy :=
  if remote q.core y then
    match s.mem.rdc.get (copyKey (dieOf q.core) y) with
    | some c => if c.valid s.mod q.fence then some c else none
    | none => none
  else none

/-- A pushed RDC copy has been read (R333). -/
def readRdc (s : State) (die y : Nat) : State :=
  s.setMem { s.mem with rdc := s.mem.rdc.upd (copyKey die y) (fun c => { c with pushed := none }) }

/-- A pushed sector of the home slice has been read (R333). -/
def readL2 (s : State) (y : Nat) : State :=
  s.setMem { s.mem with l2 := s.mem.l2.upd (y / 256) (fun x => { x with marks := x.marks.del (y / 64 % 4) }) }

/-- The copies that a core's own caches hold of a sector, but may not serve, show what was served behind them: a later load of the thread returns
nothing older (R238). -/
def seeSector (s : State) (core y : Nat) (rdc : Bool) (data : List Byte) (pois : Option Nat) : State :=
  let f := fun (c : Copy) => { c with data := data, pois := pois }
  s.setMem { s.mem with
    l1 := s.mem.l1.upd (copyKey core y) f
    rdc := if rdc && remote core y then s.mem.rdc.upd (copyKey (dieOf core) y) f else s.mem.rdc }

/-- The bytes of a sector's copy at `y`, with the core's own stores on their way (R238). -/
def Copy.view (c : Copy) (s : State) (core y n : Nat) : List Byte := overlay (onWay s core) y ((c.data.drop (y % 64)).take n)

/-- Bytes that a level behind the L1 serves: where the core's L1 holds the line, its own stores on their way stand in it (R238). -/
def viewBehind (s : State) (core y : Nat) (bs : List Byte) : List Byte :=
  if s.mem.l1.has (copyKey core y) then overlay (onWay s core) y bs else bs

/-! ### Reads of lines (R210, R211) -/

/-- Changes the record of an instruction's read of a line, made where it is absent. -/
def updRead (s : State) (batch line : Nat) (f : LineRead → LineRead) : State :=
  let mine := fun (r : LineRead) => r.batch == batch && r.line == line
  let rs := if s.mem.reads.any mine then s.mem.reads else s.mem.reads ++ [{ batch := batch, line := line }]
  s.setMem { s.mem with reads := rs.map (fun r => if mine r then f r else r) }

/-- The record of an instruction's read of a line. -/
def lineRead (s : State) (batch line : Nat) : LineRead :=
  (s.mem.reads.find? (fun r => r.batch == batch && r.line == line)).getD { batch := batch, line := line }

/-- A read reaches a copy of a line: once for the instruction, its count falls by one; at zero the line is to go (R211). -/
def countRead (s : State) (batch cache y : Nat) : State :=
  if (lineRead s batch (y / 256)).done.contains cache then s
  else
    let s1 := updRead s batch (y / 256) (fun r => { r with done := cache :: r.done })
    match s.mem.counts.get (countKey cache y) with
    | none => s1
    | some n =>
      if n ≤ 1 then
        updRead (s1.setMem (clearCount s1.mem cache y)) batch (y / 256) (fun r => { r with drop := cache :: r.drop })
      else s1.setMem { s1.mem with counts := s1.mem.counts.put (countKey cache y) (n - 1) }

/-- A load instruction's read of a line has returned in every lane: lines whose count reached zero go (R211). -/
def endRead (s : State) (batch line : Nat) : State :=
  let r := lineRead s batch line
  let s1 := s.setMem { s.mem with reads := s.mem.reads.filter (fun r => !(r.batch == batch && r.line == line)) }
  r.drop.foldl (fun s c => if s.mem.counts.has (countKey c (line * 256)) then s else dropLine s c (line * 256)) s1

/-! ### Replacement (R205) -/

/-- Replacement in a cache: level 0 a line of an L1, by its key, 1 a line of an RDC, 2 a line of a home slice, 3 an LLC line; 4 loses a home's
holder record of a sector, of which only the latest expiry stays (R226). Log 74: DESIGN CHOICE, safe. -/
def evictCopy (s : State) (lvl key : Nat) : State :=
  match lvl with
  | 0 => dropL1Line s (key / 2 ^ 54) (key % 2 ^ 54)
  | 1 => if rdcFree s (key % 2 ^ 54) then dropRdcLine s (key / 2 ^ 54) (key % 2 ^ 54) else s
  | 2 => dropL2 s key
  | 3 => s.setMem { s.mem with llc := s.mem.llc.del key }
  | 4 => s.setMem { s.mem with
      dir := s.mem.dir.upd key (fun d => { holders := [], lost := d.holders.foldl (fun m h => max m (holderExp s h)) d.lost }) }
  | _ => s

end Sys2Proof.Machine
end

