-- ==== Sys2Proof/Machine/Memory.lean ====
section
/-! DEFINITION. Where accesses are performed: scratchpad, homes, revocations, release clocks, writer tags, range locks, and which
operations an operation waits for (R205 to R211, R223 to R249, R326 to R333). -/

namespace Sys2Proof.Machine

/-! ### Scratchpad (R206) -/

def scratchBytes (s : State) (team off n : Nat) : List Byte :=
  match s.teams.get team with
  | some tm => Memory.read tm.scratch off n
  | none => zeros n

def scratchPois (s : State) (team off n : Nat) : Option Nat :=
  match s.teams.get team with
  | some tm => (upto ((off + n - 1) / 64 - off / 64 + 1)).findSome? (fun i => tm.spois.get (off / 64 + i))
  | none => none

/-- Writes scratchpad bytes; `mark` poisons the sectors (R282, R305). -/
def scratchWrite (s : State) (team off : Nat) (bs : List Byte) (mark : Option Nat := none) : State :=
  s.updTeam team (fun tm =>
    let sp := (pieces off bs.length).foldl (fun sp p =>
      setOpt sp (p.2.1 / 64) (newPois (Tab.get sp (p.2.1 / 64)) (p.2.2 == 64) mark)) tm.spois
    { tm with scratch := Memory.write tm.scratch off bs, spois := sp })

/-! ### Writes at their homes (R208, R226) -/

/-- Who writes: the core of a store, its policy, and whether its page is host-noncoherent. -/
structure Writer where
  core : Option Nat := none
  pol : Nat := 0
  nc : Bool := false
  deriving DecidableEq, Repr, Inhabited

/-- Writes within one sector where memory holds it, behind every cache. -/
def writeBehind (s : State) (a : Nat) (bs : List Byte) (mark : Option Nat) : State :=
  s.setMem { s.mem with
    cells := Memory.write s.mem.cells a bs,
    pois := setOpt s.mem.pois (a / 64) (newPois (s.mem.pois.get (a / 64)) (bs.length == 64) mark) }

/-- Writes within one sector at its home, without leases. A host-coherent sector that no proxy RDC holds stays out of it under policy
uncached (R209); a host-noncoherent one is always written in the RDC (R208, R230). A line that a store of policy stream brings in is a first
candidate (R209). -/
def writeSector (s : State) (q : Writer) (a : Nat) (bs : List Byte) (mark : Option Nat) : State :=
  if spaceOf a == 2 && !((proxyCopy s.mem a).isNone && q.pol == 3 && !q.nc) then
    let c := proxyFill s a q.nc
    let first := match proxyCopy s.mem a with | some c => c.first | none => q.pol == 1
    match rdcRoom s (homeDie a) a with
    | some s => s.setMem { s.mem with
        rdc := s.mem.rdc.put (copyKey (homeDie a) a) { c.update (a % 64) bs mark with dirty := true, nc := c.nc && q.nc, first := first } }
    | none => writeBehind s a bs mark
  else writeBehind s a bs mark

/-- Writes bytes at their homes. -/
def homeWrite (s : State) (a : Nat) (bs : List Byte) (mark : Option Nat := none) : State :=
  (pieces a bs.length).foldl (fun s p => writeSector s {} p.2.1 ((bs.drop p.1).take p.2.2) mark) s

/-- The levels that a core's write passes take it: its L1 copy, and the RDC copy of its die of a line homed on another die, which lose their
read counts; a pushed copy that nobody has read is overwritten (R208, R211, R333). -/
def writeThrough (s : State) (core a : Nat) (bs : List Byte) (mark : Option Nat) : State :=
  let m := s.mem
  let m := if m.l1.has (copyKey core a) then
      clearCount { m with l1 := m.l1.upd (copyKey core a) (fun c => c.update (a % 64) bs mark) } core a else m
  let k := copyKey (dieOf core) a
  if remote core a then
    match m.rdc.get k with
    | some c =>
      let s1 := s.setMem (clearCount { m with rdc := m.rdc.put k { c.update (a % 64) bs mark with pushed := none } } (200 + dieOf core) a)
      (match c.pushed with
        | some id => towUnused s1 id
        | none => s1)
    | none => s.setMem m
  else s.setMem m

/-- A device sector that is written stands dirty in its home slice, where the policy puts it there or it stands there, else in the LLC; under policy
normal a line that comes into the slice comes into the LLC too (R205, R209). -/
def writtenAt (s : State) (pol a : Nat) : State :=
  let d := 2 ^ (a / 64 % 4)
  let held := l2Holds s.mem a
  let s := if !held && pol == 0 then llcAdd s a 0 else s
  if held || pol ≤ 2 then
    let s := l2Add s a (pol == 1)
    s.setMem { s.mem with l2 := s.mem.l2.upd (a / 256) (fun x => { x with dirty := x.dirty ||| d }) }
  else llcAdd s a d

/-- A write performed at the home of one sector: the latest expiry over the holders less the storer's own L1, revocations above the threshold
of 256 ns, and the GWCT: final, or provisional with its revocation (R226). -/
def performSector (s : State) (q : Writer) (a : Nat) (bs : List Byte) (mark : Option Nat) : State × Nat × Option (Nat × Nat) :=
  let s1 := writeSector s q a bs mark
  let s1 := s1.setMem (clearCount s1.mem (if spaceOf a == 2 then 200 + homeDie a else 300) a)
  -- a push not yet read is overwritten (R333)
  let s1 := if spaceOf a == 0 then writtenAt (l2Lost s1 (a / 256) (15 ^^^ 2 ^ (a / 64 % 4))) q.pol a else s1
  let s1 := match q.core with
    | some c => writeThrough s1 c a bs mark
    | none => s1
  let d := s1.mem.dir.getD (a / 64) {}
  let hs := d.holders.filter (fun h => some h.1 != q.core)
  let e := hs.foldl (fun m h => max m (holderExp s h)) d.lost
  let now := s.mod.now
  let live := hs.filter (fun h => !holderDeaf s h)
  if 256 < e - now && d.lost ≤ now && !live.isEmpty then
    let r := s1.serial
    ({ s1 with
        serial := r + 1
        mem := { s1.mem with revs := s1.mem.revs.put r { sector := a / 64, left := live.map (·.1), e := e } } },
      e, some (r, e))
  else (s1, if e ≤ now then now else e, none)

/-! ### Release clocks (R227, R232, R242) -/

/-- The later of two peer windows. -/
def laterWin : Option Nat → Option Nat → Option Nat
  | some a, some b => some (max a b)
  | some a, none => some a
  | none, b => b

/-- One more write. -/
def WClock.join (a b : WClock) : WClock :=
  { t := max a.t b.t, provs := a.provs ++ b.provs.filter (fun p => !a.provs.contains p), win := laterWin a.win b.win }
/-- The final GWCT of a revocation has arrived. -/
def WClock.settle (c : WClock) (rev g : Nat) : WClock :=
  if c.provs.any (fun p => p.1 == rev) then { c with t := max c.t g, provs := c.provs.filter (fun p => p.1 != rev) } else c
/-- Every write has its GWCT behind it. -/
def WClock.passed (c : WClock) (s : State) : Bool := c.t ≤ s.mod.now && c.provs.all (fun p => p.2 ≤ s.mod.now || !s.mem.revs.has p.1)
/-- The latest time, a provisional GWCT counted as it stands. -/
def WClock.latest (c : WClock) : Nat := c.provs.foldl (fun m p => max m p.2) c.t

/-- A thread's release clock, and the window of its latest peer store (R227, R232). -/
def Thread.clk (t : Thread) : WClock := { t := t.rclk, provs := t.provs, win := t.pwin }
/-- Raises a thread's release clock by performed writes (R227). -/
def Thread.raise (t : Thread) (w : WClock) : Thread :=
  let c := t.clk.join w
  { t with rclk := c.t, provs := c.provs, pwin := c.win }

/-- A write performed at its homes, and its GWCTs. -/
def perform (s : State) (q : Writer) (a : Nat) (bs : List Byte) (mark : Option Nat) : State × WClock :=
  (pieces a bs.length).foldl (fun (s, c) p =>
    let (s', g, r) := performSector s q p.2.1 ((bs.drop p.1).take p.2.2) mark
    match r with
    | some x => (s', { c with provs := x :: c.provs })
    | none => (s', { c with t := max c.t g })) (s, {})

/-- A GWCT that waited for a revocation is final: every clock that holds it takes it (R226, R227). -/
def settleRev (s : State) (rev g : Nat) : State :=
  { s with
    mem := { s.mem with
      revs := s.mem.revs.del rev, wrote := s.mem.wrote.map (fun w => { w with clk := w.clk.map (·.settle rev g) }) }
    threads := s.threads.map (fun e =>
      let c := e.2.clk.settle rev g; (e.1, { e.2 with rclk := c.t, provs := c.provs, seen := e.2.seen.settle rev g }))
    teams := s.teams.map (fun e => (e.1, { e.2 with
      rel := e.2.rel.settle rev g, wrote := e.2.wrote.settle rev g, gws := e.2.gws.map (fun x => (x.1, x.2.settle rev g))
      states := e.2.states.map (fun x => (x.1, x.2.settle rev g)) }))
    cmds := s.cmds.map (fun e => (e.1, { e.2 with clk := e.2.clk.settle rev g }))
    supRel := s.supRel.map (fun e => (e.1, e.2.settle rev g))
    grids := s.grids.map (fun e => (e.1, { e.2 with clock := e.2.clock.settle rev g }))
    mod := { s.mod with hostWait := s.mod.hostWait.map (·.settle rev g) } }

/-- A release of a thread has completed: its team, or the supervisor group of its core, and from scope d on the module, hold its clocks for the
threads that acquire from it (R241, R242). Log 77: DEDUCED, unsafe. -/
def releaseClocks (s : State) (th scope : Nat) : State :=
  match s.threads.get th with
  | none => s
  | some t =>
    let s1 := if isSup th then { s with supRel := s.supRel.put (placeCore th) ((s.supRel.getD (placeCore th) {}).join t.clk) }
      else s.updTeam t.team (fun tm => { tm with rel := tm.rel.join t.clk })
    if 2 ≤ scope then s1.setMod { s1.mod with relWin := laterWin s1.mod.relWin t.pwin } else s1

/-- A thread has acquired: its own later releases cover what the releases that it may have acquired from covered (R242). Log 77: DEDUCED,
unsafe. -/
def Thread.acquire (t : Thread) (s : State) (pl scope : Nat) : Thread :=
  let t1 := if isSup pl then t.raise (s.supRel.getD (placeCore pl) {})
    else match s.teams.get t.team with
      | some tm => t.raise tm.rel
      | none => t
  if 2 ≤ scope then { t1 with pwin := laterWin t1.pwin s.mod.relWin } else t1

/-- An acquire of a thread has completed. -/
def acquireClocks (s : State) (th scope : Nat) : State := s.updThread th (fun t => t.acquire s th scope)

/-! ### What the engines release (R242, R246, R254, R283) -/

/-- A key of `Team.states`. -/
def stateKey : Loc → Nat
  | .scratch _ o => o
  | .phys y => 2 ^ 57 + y

/-- A value of `STATE` that a Ferry wrote with a release when the command ended (R283). -/
def stateEnds (b : Byte) : Bool := b == 2 || b == 3 || b == 5

/-- What the Ferries had written behind the chunk bits and the `STATE`s that stand in bytes read by a thread of a team (R246, R283). -/
def enginesBehind (s : State) (team : Nat) (l : Loc) (bs : List Byte) : WClock :=
  match s.teams.get team with
  | none => {}
  | some tm =>
    let o := stateKey l
    let byte := fun (k : Nat) => bs.getD (k - o) 0
    let inside := fun (k : Nat) => o ≤ k && k < o + bs.length
    let c := tm.states.foldl (fun (c : WClock) e => if inside e.1 && stateEnds (byte e.1) then c.join e.2 else c) {}
    match l with
    | .scratch _ _ => tm.gws.foldl (fun c e => if inside (e.1 / 32 + e.1 % 32 / 8) && (byte (e.1 / 32 + e.1 % 32 / 8)).toNat.testBit (e.1 % 8) then c.join e.2 else c) c
    | .phys _ => c

/-- A thread has read bytes: with an acquire of scope t or wider its later releases cover what the engines had written behind them; else the
acquire of a fence still may (R241, R242). -/
def Thread.sees (t : Thread) (acq : Option Nat) (c : WClock) : Thread :=
  match acq with
  | some sc => if 1 ≤ sc then t.raise c else t
  | none => { t with seen := t.seen.join c }

/-- The acquire of a fence covers what the thread's earlier loads have read (R241). -/
def Thread.fenced (t : Thread) (scope : Nat) : Thread := if 1 ≤ scope then { t.raise t.seen with seen := {} } else t

/-! ### Range locks (R247) -/

/-- Whether a range of a lock covers some byte of an access, chunk by chunk. -/
def LRange.hits (r : LRange) (scratch : Bool) (owner a n : Nat) (locked : Nat → Bool) : Bool :=
  r.scratch == scratch && r.owner == owner && a < r.base + r.len && r.base < a + n &&
    (let lo := max a r.base
     let hi := min (a + n) (r.base + r.len)
     (upto ((hi - 1 - r.base) / 512 - (lo - r.base) / 512 + 1)).any (fun i => locked ((lo - r.base) / 512 + i)))

/-- Chunks of a command (R277): of its destination, or of the dense source of SCATTER and the values of CMP24. -/
def Cmd.len (c : Cmd) : Nat := fieldAt c.blk 0x10 4
def Cmd.nchunks (c : Cmd) : Nat := ((if c.fn == 5 then c.len / 2 else c.len) + 511) / 512

/-- Element size of a command's function (R278). -/
def Cmd.esize (c : Cmd) : Nat :=
  if c.fn == 2 || c.fn == 3 then 2 ^ (fieldAt c.blk 0x2C 1 % 16)
  else
    match fieldAt c.blk 0x2D 1 with
    | 6 | 7 | 13 => 2
    | _ => 1

/-- Bytes of the index array and of the source that chunk `c` of a command reads, as generic addresses
(R278, R282); the elements that the indices name are found by `idx`. -/
def Cmd.reads (cm : Cmd) (c : Nat) (idx : Nat → Option Nat) : List (Nat × Nat) :=
  let src := fieldAt cm.blk 0 8
  let E := cm.esize
  let lo := 512 * c
  let n := min 512 ((if cm.fn == 5 then cm.len / 2 else cm.len) - lo)
  match cm.fn with
  | 2 =>
    let ix := fieldAt cm.blk 0x20 8
    let iw := if fieldAt cm.blk 0x2D 1 % 2 == 1 then 8 else 4
    let i0 := lo / E
    let k := n / E
    (ix + i0 * iw, k * iw) ::
      (upto k).filterMap (fun j => (idx (i0 + j)).map (fun v => (src + v * fieldAt cm.blk 0x38 4, E)))
  | 3 =>
    let ix := fieldAt cm.blk 0x20 8
    let iw := if fieldAt cm.blk 0x2D 1 % 2 == 1 then 8 else 4
    [(ix + lo / E * iw, n / E * iw), (src + lo, n)]
  | 4 => [(src + lo / 2, n / 2), (fieldAt cm.blk 0x20 8 + lo / (8 * E), (n + 8 * E - 1) / (8 * E))]
  | 5 => [(src + 2 * lo, 2 * n)]
  | _ => [(src + lo, n)]

/-- Bytes at a generic address, as their home or the scratchpad holds them, with poison; `none` where unmapped. -/
def genericBytes (s : State) (w : Who) (va n : Nat) : Option (List Byte × Option Nat) :=
  if windowOf va == 1 then some (scratchBytes s w.team (va - scratchBase) n, scratchPois s w.team (va - scratchBase) n)
  else
    let g := globalVa s w va
    match (transVa s w.asid g).page with
    | none => none
    | some (ppn, a) =>
      let pa := physOf (kindSpace a.kind) (ppn * 2 ^ 16 + g % 2 ^ 16)
      some (homeBytes s.mem pa n, homePois s.mem pa)

/-- Where a generic address lies now; `none` where unmapped. -/
def genericLoc (s : State) (w : Who) (va : Nat) : Option Loc :=
  if windowOf va == 1 then some (.scratch w.team (va - scratchBase))
  else
    let g := globalVa s w va
    (transVa s w.asid g).page.map (fun p => .phys (physOf (kindSpace p.2.kind) (p.1 * 2 ^ 16 + g % 2 ^ 16)))

/-- The maker of a command's accesses: the team, with the private memory of the issuing thread. -/
def teamWho (s : State) (team th : Nat) : Who :=
  match s.teams.get team with
  | none => { asid := 0, team := team, bound := 0, privNo := 0 }
  | some tm =>
    let gid := match s.threads.get th with | some t => t.gid | none => 0
    { asid := tm.pkt.asid, team := team, bound := tm.bound, privNo := tm.index * 512 + 32 * gid + placeLane th }

/-- Index `i` of a gather or scatter: `none` where it is out of range, poisoned or unreadable (R282). -/
def Cmd.index (s : State) (cm : Cmd) (i : Nat) : Option Nat :=
  let iw := if fieldAt cm.blk 0x2D 1 % 2 == 1 then 8 else 4
  match genericBytes s (teamWho s cm.team cm.th) (fieldAt cm.blk 0x20 8 + i * iw) iw with
  | some (bs, none) => if leNat bs < fieldAt cm.blk 0x30 8 then some (leNat bs) else none
  | _ => none

/-- Whether a lock still holds chunk `c`, counted from its range's first byte. A destination chunk of a command
is locked until its bit is set (of CMP24's masks: the bits of the chunks whose masks it holds), of SCATTER until
the command ends; a source chunk while some chunk that has not been read reads a byte of it (R247, R282). The ranges of an
engine pass are locked until it ends. -/
def chunkLocked (s : State) (l : Lock) (r : LRange) (c : Nat) : Bool :=
  if l.pass then s.passes.has l.cmd
  else
    match s.cmds.get l.cmd with
    | none => false
    | some cm =>
      let w := teamWho s cm.team cm.th
      let at0 := fun (va : Nat) => if r.scratch then va - scratchBase else globalVa s w va
      if l.dest then
        if cm.fn == 3 then true
        else if cm.fn == 5 && r.base != at0 (fieldAt cm.blk 8 8) then
          (upto (4 * cm.esize)).any (fun k => 4 * cm.esize * c + k < cm.nchunks && !cm.chunks.contains (4 * cm.esize * c + k))
        else !cm.chunks.contains c
      else
        (upto cm.nchunks).any (fun k => !cm.chunks.contains k && !cm.flight.any (·.chunk == k) && (cm.reads k (cm.index s)).any (fun x =>
          at0 x.1 < r.base + 512 * (c + 1) && r.base + 512 * c < at0 x.1 + x.2))

/-- The first lock that a thread's access meets: any touch of a locked destination chunk, or a write of a
locked source chunk (R247). -/
def lockHit (s : State) (scratch : Bool) (owner a n : Nat) (write : Bool) : Option Nat :=
  s.mem.locks.findSome? (fun e =>
    if (e.2.dest || write) && e.2.ranges.any (fun r => r.hits scratch owner a n (chunkLocked s e.2 r)) then some e.1 else none)

/-- The lock check of a checked access (R247): global ranges by ASID and virtual address. -/
def lockTrap (s : State) (a : Acc) (g : Nat) (akind : Nat) (write : Bool) : Option Trap :=
  let (sc, owner, addr) := match a.loc with
    | .scratch tm off => (true, tm, off)
    | .phys _ => (false, a.asid, g)
  match lockHit s sc owner addr a.size write with
  | none => none
  | some k =>
    some { code := 0x0A, detail := k % 4096 + (k / 4096) * 4096,
           payload := (a.record akind 0x0A).bytes,
           acc := some (owner, addr, a.size, sc, write) }

/-! ### What an operation waits for (R238 to R241) -/

/-- The bytes of an operation's access. -/
def Op.accs (o : Op) : List Acc :=
  match o.kind with
  | .load a _ _ => [a]
  | .store a _ => [a]
  | .atomic a _ _ _ _ _ _ => [a]
  | .cbload _ (some a) _ => [a]
  | .launch _ _ src _ => src
  | _ => []

def Op.writes (o : Op) : Bool :=
  match o.kind with
  | .store _ _ => true
  | .atomic _ _ _ _ _ _ _ => true
  | _ => false

/-- An operation that loads: LAUNCH loads its packet and LMARK its entries and blocks as the thread does (R163, R286). -/
def Op.loads (o : Op) : Bool :=
  match o.kind with
  | .load _ _ _ | .loadBad _ | .atomic _ _ _ _ _ _ _ | .cbload _ _ _ | .launch _ _ _ _ | .lmark _ => true
  | _ => false

/-- A load, store or atomic of a thread. -/
def Op.isAccess (o : Op) : Bool := o.loads || o.writes

def Loc.overlaps (x : Loc) (n : Nat) (y : Loc) (k : Nat) : Bool :=
  match x, y with
  | .scratch t a, .scratch u b => t == u && a < b + k && b < a + n
  | .phys a, .phys b => a < b + k && b < a + n
  | _, _ => false

/-- Whether two operations touch one location (R238). -/
def Op.overlaps (o p : Op) : Bool := o.accs.any (fun a => p.accs.any (fun b => a.loc.overlaps a.size b.loc b.size))

/-- The threads of an operation. -/
def Op.threads (o : Op) : List Nat :=
  match o.kind with
  | .atomic _ _ _ _ _ ps _ => ps.map (·.th)
  | _ => [o.th]

/-- Whether the thread's own earlier operation `p` holds `o` back: a release not yet done, an acquire not yet
complete, or an access to the same location (R238, R240, R241). -/
def holdsBack (p o : Op) : Bool :=
  p.threads.any (fun t => o.threads.contains t) && ((p.rel.isSome && !p.relDone) || p.acq.isSome || p.overlaps o)

/-- Where `n` bytes at a generic address lie, in at most two pages. -/
def genericSpans (s : State) (w : Who) (va n : Nat) : List (Loc × Nat) :=
  let k := min n (65536 - globalVa s w va % 65536)
  ((genericLoc s w va).map (fun l => (l, k))).toList ++ (if k == n then [] else ((genericLoc s w (va + k)).map (fun l => (l, n - k))).toList)

/-- What an LMARK of layer `n` is still to load as its thread does: from the cursor on, the entries that its walk comes to, and their blocks (R286). -/
def lmarkReads (s : State) (th n : Nat) : List (Loc × Nat) :=
  match s.threads.get th with
  | none => []
  | some t =>
    match (s.teams.get t.team).bind (·.tier) with
    | none => []
    | some ti =>
      let w := teamWho s t.team th
      let at0 := fun (i : Nat) => ti.sched + 16 * i
      let entry := fun (i : Nat) => match genericBytes s w (at0 i) 16 with | some (bs, _) => bs | none => zeros 16
      let ixs := (upto (ti.nent - ti.cur)).map (ti.cur + ·)
      let walked := ixs.takeWhile (fun i => fieldAt (entry i) 0 4 ≤ n + ti.look)
      ((ixs.take (walked.length + 1)).map (fun i => genericSpans s w (at0 i) 16)).flatten
        ++ (walked.map (fun i => genericSpans s w (fieldAt (entry i) 8 8) 64)).flatten

/-- An earlier LMARK of the thread is still to load some bytes of an access: a later access to them waits (R238, R286). -/
def behindLmark (s : State) (k : Nat) (o : Op) : Bool :=
  s.ops.any (fun e => e.1 < k && o.threads.contains e.2.th && (match e.2.kind with
    | .lmark n => (lmarkReads s e.2.th n).any (fun r => o.accs.any (fun a => r.1.overlaps r.2 a.loc a.size))
    | _ => false))

/-- Whether an operation still waits (R238 to R241, R269, R286). -/
def blocked (s : State) (k : Nat) (o : Op) : Bool :=
  s.ops.any (fun e => e.1 < k && holdsBack e.2 o) || behindLmark s k o ||
    (match o.after with | some j => s.ops.has j | none => false)

/-- 1588 time has reached the start of window N + 2 (R232, R240). -/
def winPassed (s : State) (w : Option Nat) : Bool :=
  match w with
  | none => true
  | some n => ((n + 2) * s.mod.fwin : Int) ≤ (s.mod.now : Int) + s.mod.ptp

/-- Whether a thread's earlier accesses are complete and its release clock has passed, for a scope (R240); a fabric release waits while the
device is desynchronised (R234). Log 17: DEDUCED, safe. -/
def releasedAt (s : State) (k th scope : Nat) : Bool :=
  let earlier := fun (f : Op → Bool) => s.ops.any (fun e => e.1 < k && e.2.threads.contains th && f e.2)
  !earlier Op.isAccess &&
  (match s.threads.get th with
    | none => true
    | some t =>
      scope ≤ 1 ||
        (t.clk.passed s &&
          (scope != 4 || !earlier (fun o => match o.kind with | .cflush _ _ _ _ => true | _ => false)) &&
          (scope != 3 || (!s.mod.desync && winPassed s t.pwin))))

/-- The instruction that made an operation is still being issued: its issue group holds, and lanes may yet join (R269). -/
def Op.issuing (o : Op) (s : State) : Bool := s.issues.any (fun e => e.2.batch != 0 && e.2.batch == o.batch)

/-- A merged atomic that lanes may yet join, each with its own release (R240, R269). -/
def Op.joins (o : Op) (s : State) : Bool :=
  match o.kind with
  | .atomic _ pl _ _ _ _ _ => pl != .pcie && o.issuing s
  | _ => false

/-- Whether the release part of an operation may complete (R240). -/
def releaseReady (s : State) (k : Nat) (o : Op) : Bool :=
  match o.rel with
  | none => false
  | some sc => !o.relDone && !o.joins s && o.threads.all (fun th => releasedAt s k th sc)

/-! ### Stores that satisfy a dependence word (R153, R245) -/

/-- A write that a dependence word may be satisfied by is noted, with its thread and operation, until all that the thread did before is visible. -/
def noteWriter (s : State) (th op y n : Nat) : State :=
  s.setMem { s.mem with wrote := s.mem.wrote ++ [{ th := th, op := op, addr := y, len := n }] }

/-- The earlier accesses of a thread that has written, before the operation that wrote, are over. -/
def writerDone (s : State) (w : Wrote) : Bool :=
  !s.ops.any (fun e => e.1 < w.op && e.2.threads.contains w.th && e.2.isAccess)

/-- Whether what was written before a write is visible. -/
def Wrote.visible (w : Wrote) (s : State) : Bool := match w.clk with | some c => c.passed s | none => false

/-- Whether a write need not be noted any longer: what was written before is visible, to peers too (R232). -/
def Wrote.over (w : Wrote) (s : State) : Bool := match w.clk with | some c => c.passed s && winPassed s c.win | none => false

/-- The writes that touch a dependence word. -/
def depWrites (s : State) (y : Nat) : List Wrote := s.mem.wrote.filter (fun w => w.addr < y + 8 && y < w.addr + w.len)

/-- Whether a dependence word at `y` was satisfied by a write before which not everything is visible (R245). -/
def depWaits (s : State) (y : Nat) : Bool := (depWrites s y).any (fun w => !w.visible s)

/-- A write takes on its thread's clock once what the thread did before is performed, and is forgotten once that is visible (R245). -/
def wroteSettle (s : State) : State :=
  let clk := fun (w : Wrote) => (match s.threads.get w.th with | some t => t.clk | none => {} : WClock)
  let ws := s.mem.wrote.map (fun w => if w.clk.isNone && writerDone s w then { w with clk := some (clk w) } else w)
  s.setMem { s.mem with wrote := ws.filter (fun w => !w.over s) }

/-! ### Release ordinals (R328) and pushes (R332) -/

/-- Takes the ordinal of a completed release of scope d, s or f (R328). -/
def takeOrdinal (s : State) (th : Nat) : State × Option Nat :=
  match s.threads.get th with
  | none => (s, none)
  | some t =>
    match s.teams.get t.team with
    | none => (s, none)
    | some tm => (s.updTeam t.team (fun x => { x with rcnt := min (x.rcnt + 1) 65535 }), some tm.rcnt)

/-- Pushes that a participant's release with ordinal `k` starts (R332). Log 41: DEDUCED, safe. -/
def startPushes (s : State) (asid name k : Nat) : State :=
  s.recs.foldl (fun s e =>
    let r := e.2
    if r.owner == asid && (r.st == .playing || r.st == .departed) && r.parts.any (fun p => p.name == name && p.push) then
      (r.ents.filter (fun x => x.prod == name && x.ord == k)).foldl (fun s x =>
        { s with pushes := s.pushes.put s.serial { id := e.1, ent := x }, serial := s.serial + 1 }) s
    else s) s

/-- A release of a thread completes: its ordinal, and its pushes unless its own store is still to be performed. -/
def completeRelease (s : State) (th scope : Nat) (hasStore : Bool) : State × Option Nat :=
  if scope ≤ 1 then (s, none)
  else
    let (s1, k) := takeOrdinal s th
    match k, s.threads.get th with
    | some n, some t =>
      (match s.teams.get t.team with
        | some tm => (if hasStore then s1 else startPushes s1 tm.pkt.asid tm.name n, some n)
        | none => (s1, some n))
    | _, _ => (s1, k)

/-- The tag that a write by a team leaves on an eligible sector that its home slice holds, for every recording in which the team takes part
(R326, R331). -/
def tagWrite (s : State) (team a : Nat) (ord : Nat) (tow : Bool) : State :=
  if !tow || spaceOf a != 0 || !l2Holds s.mem a then s
  else
    match s.teams.get team with
    | none => s
    | some tm =>
      let ids := s.recs.filterMap (fun e =>
        if e.2.owner == tm.pkt.asid then
          (e.2.parts.find? (fun p => p.name == tm.name)).map (fun p => ⟨e.1, e.2.st == .recording && p.inRec, p.iters⟩)
        else none)
      if ids.isEmpty then s
      else s.setMem { s.mem with tags := s.mem.tags.put (a / 64) { asid := tm.pkt.asid, team := tm.name, ord := ord, ids := ids } }

/-- What a demand read by a team's thread on a die, of a sector with tag `tg`, does to one recording: an entry while recording, or a count of
what the recording does not cover (R331, R333). -/
def Recd.read (r : Recd) (id name die a : Nat) (tg : Tag) : Recd :=
  match r.parts.find? (fun p => p.name == name), tg.ids.find? (fun x => x.id == id) with
  | some q, some x =>
    let same := fun (e : TowEnt) => e.sector == a / 64 && e.prod == tg.team && e.cons == name && e.die == die && e.ord == tg.ord
    if r.st == .recording then
      if !(x.recd && q.inRec) then r
      else if r.ents.any same then { r with ents := r.ents.map (fun e => if same e then { e with reads := min (e.reads + 1) 255 } else e) }
      else if 65536 ≤ (r.ents.filter (fun e => homeDie (e.sector * 64) == homeDie a)).length then { r with trunc := true }
      else { r with ents := r.ents ++ [{ sector := a / 64, prod := tg.team, cons := name, die := die, ord := tg.ord, reads := 1 }] }
    else if r.counting then
      let fresh := match r.parts.find? (fun p => p.name == tg.team) with | some p => x.iter == p.iters | none => false
      if !fresh || r.ents.any same || r.covered.contains (a / 64, name * 4 + die) then r
      else
        let u := min (r.uncov + 1) 0xFFFF
        { r with
          uncov := u, covered := (a / 64, name * 4 + die) :: r.covered,
          st := if r.st == .playing && r.thrUncov < u && r.thrUncov != 0xFFFF then .departed else r.st }
    else r
  | _, _ => r

/-- A demand read reaches the home (R331, R333). -/
def towRead (s : State) (team core a : Nat) (tow : Bool) : State :=
  if !tow || spaceOf a != 0 then s
  else
    match s.teams.get team, s.mem.tags.get (a / 64) with
    | some tm, some tg =>
      if tg.asid != tm.pkt.asid || tg.team == tm.name then s
      else
        { s with recs := s.recs.map (fun e =>
            if e.2.owner == tg.asid then (e.1, e.2.read e.1 tm.name (dieOf core) a tg) else e) }
    | _, _ => s

/-! ### Routes (R364) -/

/-- A peer is routed while a link to the fabric path to it is ACTIVE or DEGRADED (R364). Log 71: DESIGN CHOICE, safe. -/
def routed (s : State) (peer : Nat) : Bool :=
  (upto 18).any (fun l =>
    let k := s.mod.links.getD l {}
    (k.st == .active || k.st == .degraded) && (k.peer == peer || Config.onPath l peer))

/-- Requests to a routed peer wait while every link to it has its request lane paused (R362). -/
def sendHeld (s : State) (peer : Nat) : Bool :=
  routed s peer && !(upto 18).any (fun l =>
    let k := s.mod.links.getD l {}
    (k.st == .active || k.st == .degraded) && (k.peer == peer || Config.onPath l peer) && !(k.vls.getD 0 {}).paused)

/-- The peer device that a location names (R187). -/
def peerOf (a : Nat) : Nat := paOf a / 2 ^ 39 % 2 ^ 13

end Sys2Proof.Machine
end

