-- ==== Sys2Proof/Machine/LoadStore.lean ====
section
/-! DEFINITION. Memory instructions and their completions: LD, LDS, LDLN, ST, STS, PREF, CFLUSH, SLEEPT, FENCE,
CBLOAD, XLQ (R135, R200, R212 to R222, R225, R226, R250). -/

namespace Sys2Proof.Machine

/-- Trap 0x1A at an access (R234, R344). -/
def timeTrap (s : State) (e : Env) (va akind : Nat) : Trap := .ofRec (faultRec s e.who va akind 0x1A)

/-- A release or acquire of fabric scope while desynchronised, or the first fabric release after a lost route,
traps 0x1A (R234, R364). The state has the route mark cleared. -/
def fabricTrap (s : State) (t : Thread) (scope : Nat) (ordered rel : Bool) : Bool :=
  scope == 3 && ordered && (s.mod.desync || (rel && t.routeLost))

/-- Clears the mark of a lost route once it has trapped (R364). Log 15: DEDUCED, unsafe. -/
def clearRoute (s : State) (e : Env) : State := s.updThread e.pl (fun t => { t with routeLost := false })

/-- Sign-extended offset added to an address (R213). -/
def effAddr (base : Nat) (n off : Nat) (scale : Nat) : Nat := wrapInt 64 ((base : Int) + toSigned n off * scale)

/-- Whether a checked access goes to a peer that cannot be reached now (R234, R364). -/
def peerLost (s : State) (a : Acc) : Bool :=
  match a.loc with
  | .phys x => spaceOf x == 1 && (s.mod.desync || !routed s (peerOf x))
  | _ => false

/-- The generic address under which a global access is locked (R247): the translated one. -/
def lockAddr (s : State) (w : Who) (va : Nat) : Nat := globalVa s w va

/-- Issues a load whose check has been made (R203, R217). -/
def issueLoad (s : State) (e : Env) (r : Except FRec Acc) (dst n slot batch : Nat) (acq : Option Nat) (line : Bool) : Res :=
  let mk := fun (k : OpKind) => s.addOp
    { kind := k, th := e.pl, ths := [e.pl], grps := [placeGroup e.pl], slot := some slot, batch := batch, dst := dst, nd := n, acq := acq }
  match r with
  | .error f => .ok (mk (.loadBad f))
  | .ok a =>
    match lockTrap s a (lockAddr s e.who a.va) 0 false with
    | some tr => .trap s tr
    | none =>
      if peerLost s a then .ok (mk (.loadBad (a.record 0 0x1A)))
      else .ok (mk (.load a line none))

/-- The read count operand of LD, LDLN and PREF (R210). -/
def readCount (e : Env) (t : Thread) (w : W1) (x : ExtM) : Nat × Pois :=
  if x.cache.toNat == 1 then rd e t w.b.toNat else (0, .clean)

/-- The scope of an acquire, where a load is one; in the scratchpad window a scope above team is team (R212, R237). -/
def acqOf (x : ExtM) (ea : Nat) : Option Nat :=
  if x.sem.toNat == 1 then some (if windowOf ea == 1 then min x.scope.toNat 1 else x.scope.toNat) else none

/-- LD and LDLN: checks, then the operation (R217, R218). -/
def execGenLoad (i : Instr) (w : W1) (x : ExtM) (size : Nat) (line : Bool) (s : State) : State :=
  let b := s.batch
  execSlot i s x.slot.toNat (fun s e t =>
    let (base, p) := rdN e t w.a.toNat 2
    let (n, q) := readCount e t w x
    if p.isBad then .trap s (poisonTrap t p 2)
    else if q.isBad then .trap s (poisonTrap t q 7)
    else
      let ea := effAddr base 18 x.off.toNat 1
      if fabricTrap s t x.scope.toNat (x.sem.toNat == 1) false && windowOf ea != 1 then .trap s (timeTrap s e ea 0)
      else
        let r := checkAcc s e.who ea size 0 0 size x.cache.toNat n
        let r := if line then
            (match r with
              | .ok a =>
                if peerLost s a then .error (a.record 0 0x1A)
                else
                  let l := match a.loc with
                    | .scratch tm o => Loc.scratch tm (o + 8 * e.lane)
                    | .phys y => .phys (y + 8 * e.lane)
                  Except.ok { a with loc := l, va := a.va + 8 * e.lane, size := 8 }
              | .error f => .error f)
          else r
        issueLoad s e r w.d.toNat (if line then 2 else sizeRegs x.size.toNat) x.slot.toNat b (acqOf x ea) line)

/-- LD (R217). -/
def execLd (w : W1) (x : ExtM) (s : State) : Out :=
  .next (execGenLoad (.ld w x) w x (2 ^ x.size.toNat) false s)

/-- LDLN (R218): each thread takes its eight bytes of the line. Log 16: DEDUCED, unsafe. -/
def execLdln (w : W1) (x : ExtM) (s : State) : Out := .next (execGenLoad (.ldln w x) w x 256 true s)

/-- LDS (R213, R217). -/
def execLds (w : W1) (x : ExtM) (s : State) : Out :=
  let b := s.batch
  let size := 2 ^ x.size.toNat
  .next (execSlot (.lds w x) s x.slot.toNat (fun s e t =>
    let (base, p) := rd e t w.a.toNat
    if p.isBad then .trap s (poisonTrap t p 2)
    else
      let o := wrapInt 32 ((base : Int) + toSigned 18 x.off.toNat)
      issueLoad s e (checkScratch e.who o size 0 size) w.d.toNat (sizeRegs x.size.toNat) x.slot.toNat b
        (if x.sem.toNat == 1 then some (min x.scope.toNat 1) else none) false))

/-- Issues a store whose check has been made (R219). -/
def issueStore (s : State) (e : Env) (t : Thread) (r : Except FRec Acc) (data : List Byte) (slot batch : Nat) (rel : Option Nat) : Res :=
  match r with
  | .error f => .trap s (.ofRec f)
  | .ok a =>
    match lockTrap s a (lockAddr s e.who a.va) 1 true with
    | some tr => .trap s tr
    | none =>
      if peerLost s a then .trap s (timeTrap s e a.va 1)
      else
        let s1 := match a.loc with
          | .phys y =>
            if spaceOf y == 1 then s.putThread e { t with pwin := some (max s.window (t.pwin.getD 0)) } else s
          | _ => s
        let sc := match a.loc with | .scratch _ _ => rel.map (fun r => min r 1) | _ => rel
        let win := match a.loc with | .phys y => if spaceOf y == 1 then some s.window else none | _ => none
        .ok (s1.addOp { kind := .store a data, th := e.pl, ths := [], grps := [placeGroup e.pl], slot := some slot, batch := batch, rel := sc,
                        win := win })

/-- ST (R219). -/
def execSt (w : W1) (x : ExtM) (s : State) : Out :=
  let b := s.batch
  let size := 2 ^ x.size.toNat
  let rel := if x.sem.toNat == 2 then some x.scope.toNat else none
  .next (execSlot (.st w x) s x.slot.toNat (fun s e t =>
    let (base, p) := rdN e t w.a.toNat 2
    let (v, q) := rdN e t w.b.toNat (sizeRegs x.size.toNat)
    if p.isBad then .trap s (poisonTrap t p 2)
    else if q.isBad then .trap s (poisonTrap t q 1)
    else
      let ea := effAddr base 18 x.off.toNat 1
      if fabricTrap s t x.scope.toNat rel.isSome rel.isSome && windowOf ea != 1 then .trap (clearRoute s e) (timeTrap s e ea 1)
      else issueStore s e t (checkAcc s e.who ea size 1 1 size x.cache.toNat 0) (bytesOf v size) x.slot.toNat b rel))

/-- STS (R213, R219). -/
def execSts (w : W1) (x : ExtM) (s : State) : Out :=
  let b := s.batch
  let size := 2 ^ x.size.toNat
  let rel := if x.sem.toNat == 2 then some (min x.scope.toNat 1) else none
  .next (execSlot (.sts w x) s x.slot.toNat (fun s e t =>
    let (base, p) := rd e t w.a.toNat
    let (v, q) := rdN e t w.b.toNat (sizeRegs x.size.toNat)
    if p.isBad then .trap s (poisonTrap t p 2)
    else if q.isBad then .trap s (poisonTrap t q 1)
    else
      let o := wrapInt 32 ((base : Int) + toSigned 18 x.off.toNat)
      issueStore s e t (checkScratch e.who o size 1 size) (bytesOf v size) x.slot.toNat b rel))

/-- FENCE (R250): sem 0 sc, 1 acq, 2 rel, 3 acqrel. -/
def execFence (w : W1) (x : ExtM) (s : State) : Out :=
  let b := s.batch
  let sem := x.sem.toNat
  let sc := x.scope.toNat
  .next (execSlot (.fence w x) s x.slot.toNat (fun s e t =>
    if fabricTrap s t sc true (sem != 1) then .trap (clearRoute s e) { code := 0x1A, payload := FRec.bytes { cause := 0x1A, asid := e.asid } }
    else
      .ok (s.addOp { kind := .fence sem sc 0, th := e.pl, ths := [], grps := [placeGroup e.pl], slot := some x.slot.toNat, batch := b,
                     rel := if sem != 1 then some sc else none, acq := if sem != 2 then some sc else none })))

/-- PREF (R220): what would fault, the scratchpad, peer memory and a poisoned count do nothing. -/
def execPref (w : W1) (x : ExtM) (s : State) : Out :=
  let b := s.batch
  .next (execSlot (.pref w x) s x.slot.toNat (fun s e t =>
    let (base, p) := rdN e t w.a.toNat 2
    let (n, q) := readCount e t w x
    if p.isBad then .trap s (poisonTrap t p 2)
    else
      let ea := effAddr base 18 x.off.toNat 1
      match checkAcc s e.who ea 1 0 0 1 x.cache.toNat n with
      | .ok a =>
        if q.isBad || a.kind == 1 || a.kind == 4 then .ok s
        else .ok (s.addOp { kind := .pref (some a), th := e.pl, ths := [], grps := [placeGroup e.pl], slot := some x.slot.toNat, batch := b })
      | .error _ => .ok s))

/-- CFLUSH (R221): no effect beyond its checks but on host-noncoherent pages. -/
def execCflush (w : W1) (x : ExtM) (s : State) : Out :=
  let b := s.batch
  .next (execSlot (.cflush w x) s x.slot.toNat (fun s e t =>
    let (base, p) := rdN e t w.a.toNat 2
    let (n, q) := rd e t w.b.toNat
    if p.isBad then .trap s (poisonTrap t p 2)
    else if q.isBad then .trap s (poisonTrap t q 7)
    else
      let ea := effAddr base 18 x.off.toNat 1
      if n == 0 then .ok s
      else if 65536 < n || ea / 2 ^ 16 != (ea + n - 1) / 2 ^ 16 then .trap s (.ofRec (faultRec s e.who ea 0 0x10))
      else
        match checkAcc s e.who ea 1 0 0 1 0 0 with
        | .error f => .trap s (.ofRec f)
        | .ok a =>
          match a.loc with
          | .phys y =>
            if a.kind != 3 then .ok s
            else .ok (s.addOp { kind := .cflush y n a.asid a.gen, th := e.pl, ths := [], grps := [placeGroup e.pl], slot := some x.slot.toNat, batch := b })
          | _ => .ok s))

/-- SLEEPT (R222): the wake time is the largest read. -/
def execSleept (w : W1) (s : State) : Out :=
  .next (execLanes (.sleept w) s (fun s e t =>
    let (v, p) := rdN e t w.a.toNat 2
    if p.isBad then .trap s (poisonTrap t p 7) else .ok (s.putThread e { t with wake := max t.wake v })))

/-- SLEEP_WAKE (R222): device time has reached the wake time, which is forgotten; from then on the thread does not wait (`Thread.asleep`). -/
def execSleepWake (th : Nat) (s : State) : Out :=
  match s.threads.get th with
  | some t => if t.wake != 0 && !t.asleep s then .next (s.setThread th { t with wake := 0 }) else .next s
  | none => .next s

/-- XLQ (R200). The ASID that a supervisor thread names is C modulo 2^16. Log 79: DESIGN CHOICE, unsafe. -/
def execXlq (w : W1) (x : ExtE) (s : State) : Out :=
  let b := s.batch
  .next (execSlot (.xlq w x) s x.slot.toNat (fun s e t =>
    let (va, p) := rdN e t w.a.toNat 2
    let (c, q) := rd e t x.c.toNat
    if p.isBad then .trap s (poisonTrap t p 2)
    else if q.isBad then .trap s (poisonTrap t q 7)
    else
      .ok (s.addOp { kind := .xlq va (if e.sup then c % 2 ^ 16 else e.asid) (!e.sup), th := e.pl, ths := [e.pl],
                     grps := [placeGroup e.pl], slot := some x.slot.toNat, batch := b, dst := w.d.toNat, nd := 4 })))

/-- The quad that XLQ writes (R200). Where nothing is mapped its third word is the index 0xFFFFFFFF of the table of R200. Log 78: DESIGN CHOICE,
unsafe. -/
def xlqValue (s : State) (w : Who) (va : Nat) : Nat :=
  if windowOf va == 1 then
    (va - scratchBase) + (0xB * 2 ^ 20 + 4 * 2 ^ 29) * 2 ^ 32 + 0xFFFFFFFF * 2 ^ 64 + (s.xl.spaces.getD w.asid {}).gen * 2 ^ 96
  else
    let g := globalVa s w va
    let t := transVa s w.asid g
    match t.page with
    | none => 0xFFFFFFFF * 2 ^ 64 + t.gen * 2 ^ 96
    | some (ppn, a) =>
      let pa := ppn * 2 ^ 16 + g % 2 ^ 16
      pa % 2 ^ 32 + (pa / 2 ^ 32 % 2 ^ 20 + a.perm * 2 ^ 20 + a.kind * 2 ^ 24 + a.cpol * 2 ^ 26 + a.tow.toNat * 2 ^ 28 + t.src * 2 ^ 29) * 2 ^ 32
        + t.index * 2 ^ 64 + t.gen * 2 ^ 96

/-- XLQ_COMPLETE (R200): one translation, written clean. A private address that a supervisor thread asks of an ASID lies in that ASID's private
memory. Log 80: DESIGN CHOICE, unsafe. An ASID whose descriptor was never read is not valid. Log 99: DEDUCED, unsafe. -/
def execXlqComplete (op : Nat) (s : State) : Out :=
  match s.ops.get op with
  | some { kind := .xlq va asid user, th := pl, dst := d, .. } =>
    match s.threads.get pl with
    | none => .next (s.endOp op)
    | some t =>
      let w := (envOf s pl t).who
      let w := if user then w else { w with asid := asid }
      .next ((s.deliver pl d 4 (xlqValue s w va) .clean).endOp op)
  | _ => .next s

/-- CBLOAD (R135): the lowest guard-true lane supplies the address; one load for the issue group. Where that thread traps at its own checks, the
next one that passes them supplies the address. Log 81: DESIGN CHOICE, unsafe. -/
def execCbload (w : W1) (x : ExtE) (s : State) : Out :=
  let b := s.batch
  let ps := ledParticipants (.cbload w x) s
  .next (execLed (.cbload w x) s x.slot.toNat (fun s e t =>
    let (va, p) := rdN e t w.a.toNat 2
    if p.isBad then .trap s (poisonTrap t p 2)
    else
      let mk := fun (k : OpKind) => s.addOp
        { kind := k, th := e.pl, ths := [], grps := dedup (ps.map (fun y => placeGroup y.1.pl)), slot := some x.slot.toNat, batch := b }
      let k := x.imm.toNat % 8
      match checkAcc s e.who va 32 0 8 32 0 0 with
      | .error f => .ok (mk (.cbload k none f))
      | .ok a =>
        match lockTrap s a (lockAddr s e.who va) 8 false with
        | some tr => .trap s tr
        | none =>
          if peerLost s a then .ok (mk (.cbload k none (a.record 8 0x1A)))
          else .ok (mk (.cbload k (some a) {}))))

/-! ### Completions -/

/-- The value of a location at its home with its poison; a host line whose ports are down is poison 0x19 (R365). -/
def homeValue (s : State) (y n : Nat) : List Byte × Option Nat :=
  let p := if spaceOf y == 2 && (hostPort s y).isNone then some 0x19 else homePois s.mem y
  (homeBytes s.mem y n, p)

/-- What a thread's access asks of the caches. -/
def askOf (s : State) (th : Nat) (a : Acc) : Ask :=
  { core := placeCore th, pol := a.pol, rc := a.rc, nc := a.kind == 3, fence := (match s.threads.get th with | some t => t.fenceAt | none => 0) }

/-- The team of a thread. -/
def teamOf (s : State) (th : Nat) : Nat := match s.threads.get th with | some t => t.team | none => 0

/-- A load is served at the home of a device or host line (R225): a demand read, once for the instruction and sector (R331), every level that
the policy fills, and the counts of the copies that it reaches (R211). -/
def readHome (s : State) (q : Ask) (batch team : Nat) (tow : Bool) (y n : Nat) : State × List Byte × Option Nat :=
  let (bs, p) := homeValue s y n
  let bs := viewBehind s q.core y bs
  if hostGone s y then (s, bs, p)
  else
    let die := dieOf q.core
    let l1New := !lineLeased s s.mem.l1 q.core y
    let s1 := if (lineRead s batch (y / 256)).secs.contains (y / 64) then s
      else updRead (towRead s team q.core y tow) batch (y / 256) (fun r => { r with secs := y / 64 :: r.secs })
    let s2 := demandFill (seeSector (readL2 s1 y) q.core y true (homeBytes s.mem (y / 64 * 64) 64) p) q y
    let s3 := countRead s2 batch (if spaceOf y == 0 then 300 else 200 + homeDie y) y
    let s4 := if remote q.core y then countRead s3 batch (200 + die) y else s3
    (if l1New then countRead s4 batch q.core y else s4, bs, p)

/-- A load of `n` bytes of one sector is served by the nearest level that may serve it: the core's L1, the RDC of its die, the home (R208,
R225, R238). -/
def readPiece (s : State) (q : Ask) (batch team : Nat) (tow : Bool) (y n : Nat) : State × List Byte × Option Nat :=
  match l1Copy s q y with
  | some c => (countRead s batch q.core y, c.view s q.core y n, c.pois)
  | none =>
    match rdcCopy s q y with
    | some c =>
      let die := dieOf q.core
      let bs := viewBehind s q.core y ((c.data.drop (y % 64)).take n)
      let l1New := !lineLeased s s.mem.l1 q.core y
      let s1 := seeSector (readRdc s die y) q.core y false c.data c.pois
      let s2 := if q.pol ≤ 1 then fillL1 s1 q y c.data c.pois (some c.exp) c.granted else s1
      let s3 := countRead s2 batch (200 + die) y
      (if l1New then countRead s3 batch q.core y else s3, bs, c.pois)
    | none => readHome s q batch team tow y n

/-- Brings a sector into the levels that a policy fills, from the nearest level that may serve it (PREF, atomics in an L1). What is read at the home
is a demand read (R331, R401). Log 92: DEDUCED, unsafe. -/
def fetch (s : State) (q : Ask) (team : Nat) (tow : Bool) (y : Nat) : State :=
  if (l1Copy s q y).isSome then s
  else
    match rdcCopy s q y with
    | some c => if q.pol ≤ 1 then fillL1 (readRdc s (dieOf q.core) y) q y c.data c.pois (some c.exp) c.granted else s
    | none => demandFill (readL2 (towRead s team q.core y tow) y) q y

/-- The line of memory that an access lies in. -/
def Acc.line (a : Acc) : Option Nat := match a.loc with | .phys y => some (y / 256) | _ => none

/-- An instruction's read of a line has returned, unless another lane's is outstanding. -/
def returnRead (s : State) (batch : Nat) (a : Acc) : State :=
  match a.line with
  | some l => if s.ops.any (fun e => e.2.batch == batch && e.2.accs.any (fun b => b.line == some l)) then s else endRead s batch l
  | none => s

/-- CBLOAD_COMPLETE (R135): all entries at once, or the slot poisoned with the record. -/
def execCbloadComplete (op : Nat) (s : State) : Out :=
  match s.ops.get op with
  | some ({ kind := .cbload k acc bad, th := pl, .. } : Op) =>
    let o := (s.ops.get op).getD default
    if blocked s op o then .next s
    else
      let team := teamOf s pl
      let put := fun (s : State) (f : Codebook → Codebook) =>
        s.updTeam team (fun tm => { tm with books := tm.books.mapIdx (fun i c => if i == k then f c else c) })
      let poison := fun (s : State) (r : FRec) => (put s (fun c => { c with pois := true, record := r })).endOp op
      match acc with
      | none => .next (poison s bad)
      | some a =>
        let done := fun (r : State × List Byte × Option Nat) =>
          let s1 := match r.2.2 with
            | some c => poison r.1 (a.record 8 c)
            | none => (put r.1 (fun _ => { ents := (upto 16).map (fun j => BitVec.ofNat 16 (fieldAt r.2.1 (2 * j) 2)) })).endOp op
          Host.Outcome.next (returnRead s1 o.batch a)
        match a.loc with
        | .scratch tm off => done (s, scratchBytes s tm off 32, scratchPois s tm off 32)
        | .phys y =>
          if spaceOf y != 1 then done (readPiece s (askOf s pl a) o.batch team a.tow y 32)
          else if sendHeld s (peerOf y) then .next s
          else if peerLost s a || o.lost.isSome then .next (poison s (a.record 8 0x1A))
          else done (s, homeBytes s.mem y 32, homePois s.mem y)
  | _ => .next s

/-- Whether a load may be served without its home now: in the scratchpad, at a peer, by a copy (R238). An earlier store of the thread to the
location may be seen in its L1 once it is on its way. -/
def serveNear (s : State) (k : Nat) (o : Op) (a : Acc) : Bool :=
  match a.loc with
  | .scratch _ _ => !blocked s k o
  | .phys y =>
    if spaceOf y == 1 then !blocked s k o && !sendHeld s (peerOf y)
    else if (l1Copy s (askOf s o.th a) y).isSome then
      !s.ops.any (fun e => e.1 < k && holdsBack e.2 o && (!e.2.allOut || e.2.acq.isSome))
    else (rdcCopy s (askOf s o.th a) y).isSome && !blocked s k o

/-- Whether a load needs its home: no copy may serve it (R225). -/
def needsHome (s : State) (o : Op) (a : Acc) : Bool :=
  match a.loc with
  | .scratch _ _ => false
  | .phys y => spaceOf y != 1 && (l1Copy s (askOf s o.th a) y).isNone && (rdcCopy s (askOf s o.th a) y).isNone

/-- The operations that one access serves: of LDLN, those of the instruction's lanes that name the line (R218). -/
def lineMates (s : State) (k : Nat) (o : Op) (a : Acc) (line : Bool) : Tab Op :=
  if line then
    s.ops.find (fun _ p => p.batch == o.batch && (match p.kind with
      | .load b true none => b.va / 256 == a.va / 256 && b.line == a.line
      | _ => false))
  else [(k, o)]

/-- Binds a load's data and poison from where it is served (R217), those of a whole access in one event (R215). Log 105: DEDUCED, unsafe. -/
def bindLoad (s : State) (k : Nat) : State :=
  match s.ops.get k with
  | some o =>
    (match o.kind with
      | .load a line none =>
        let (s1, bs, p) := match a.loc with
          | .scratch tm off => (s, scratchBytes s tm off a.size, scratchPois s tm off a.size)
          | .phys y =>
            if spaceOf y == 1 then
              (if peerLost s a || o.lost.isSome then (s, zeros a.size, some 0x1A) else (s, homeBytes s.mem y a.size, homePois s.mem y))
            else readPiece s (askOf s o.th a) o.batch (teamOf s o.th) a.tow y a.size
        s1.updOp k (fun o => { o with kind := .load a line (some (bs, p)) })
      | _ => s)
  | none => s

/-- HOME_READ (R225): a demand read or renewal of a load that no copy serves is served at the home, binding the load's data and filling the
levels that its policy fills. -/
def execHomeRead (op : Nat) (s : State) : Out :=
  match s.ops.get op with
  | none => .next s
  | some o =>
    match o.kind with
    | .load a line none =>
      let ms := lineMates s op o a line
      let acc := fun (p : Op) => match p.kind with | .load b _ _ => b | _ => a
      if needsHome s o a && ms.all (fun e => serveNear s e.1 e.2 (acc e.2) || (needsHome s e.2 (acc e.2) && !blocked s e.1 e.2))
      then .next (ms.foldl (fun s e => bindLoad s e.1) s) else .next s
    | _ => .next s

/-- A thread has read bytes at a place: what engines had written behind them counts for its acquires (R241, R242, R283). -/
def seeBytes (s : State) (th : Nat) (acq : Option Nat) (l : Loc) (bs : List Byte) : State :=
  s.updThread th (fun t => t.sees acq (enginesBehind s t.team l bs))

/-- Writes a load's result and ends it (R214, R216, R217). -/
def finishLoad (s : State) (op : Nat) (o : Op) (a : Acc) (bs : List Byte) (p : Option Nat) : State :=
  let s1 := match p with
    | none => s.deliver o.th o.dst o.nd (leNat bs) .clean
    | some c =>
      s.updThread o.th (fun t =>
        if t.st == .exited then t
        else
          let (t1, q) := t.newRec (a.record 0 c) false
          wrN t1 o.dst (leNat bs) q o.nd)
  let s1 := seeBytes s1 o.th o.acq a.loc bs
  let s2 := match o.acq with | some sc => acquireClocks s1 o.th sc | none => s1
  returnRead (s2.endOp op) o.batch a

/-- LOAD_COMPLETE (R216, R217): data from the scratchpad, a valid copy, the home or the peer is written, or
poison with its record. Log 4: DEDUCED, safe. -/
def execLoadComplete (op : Nat) (s : State) : Out :=
  match s.ops.get op with
  | none => .next s
  | some o =>
    match o.kind with
    | .loadBad r =>
      .next ((s.updThread o.th (fun t =>
        if t.st == .exited then t else let (t1, q) := t.newRec r false; wrN t1 o.dst 0 q o.nd)).endOp op)
    | .load a _ (some (bs, p)) => .next (finishLoad s op o a bs p)
    | .load a line none =>
      let ms := lineMates s op o a line
      if ms.all (fun e => match e.2.kind with | .load b _ _ => serveNear s e.1 e.2 b | _ => false) then
        let s1 := ms.foldl (fun s e => bindLoad s e.1) s
        match s1.ops.get op with
        | some { kind := .load _ _ (some (bs, p)), .. } => .next (finishLoad s1 op o a bs p)
        | _ => .next s1
      else .next s
    | _ => .next s

/-- A store to a host line with no port up is discarded and its sector poisoned (R365), in the proxy RDC and in the core's L1. -/
def lostStore (s : State) (core : Option Nat) (y : Nat) : State :=
  let s1 := writeSector s {} y [] (some 0x19)
  let s1 := match core with | some c => writeThrough s1 c y [] (some 0x19) | none => s1
  let p := homeDie y % 2
  s1.setMod { s1.mod with ports := s1.mod.ports.mapIdx (fun i x => if i == p then { x with lost := (x.lost + 1) % 65536 } else x) }

/-- A store leaves its core's memory queue: from now on the core's L1 shows its update (R208, R238). It goes after what holds it back, a
release after all that it waits for (R240, R241). -/
def sendStore (s : State) (op : Nat) : State :=
  match s.ops.get op with
  | none => s
  | some o =>
    match o.kind with
    | .store a _ =>
      (match a.loc with
        | .scratch _ _ => s
        | .phys y =>
          if o.sent.isSome || spaceOf y == 1 || blocked s op o || (o.rel.isSome && !o.relDone) then s
          else
            let core := placeCore o.th
            let s1 := if s.mem.l1.has (copyKey core y) then s.setMem (clearCount s.mem core y) else s
            { s1.updOp op (fun o => { o with sent := some s.serial }) with serial := s.serial + 1 })
    | _ => s

/-- The ordinal that a write of an operation's thread carries: its release's, or the team's count (R328). -/
def writeOrd (s : State) (o : Op) (th : Nat) : Nat :=
  match o.ord with
  | some n => n
  | none => (match s.teams.get (teamOf s th) with | some tm => tm.rcnt | none => 0)

/-- STORE_PERFORM (R208, R226, R227): the store is performed at its place, with its GWCT and revocations. -/
def execStorePerform (op : Nat) (s : State) : Out :=
  match s.ops.get op with
  | none => .next s
  | some o =>
    match o.kind with
    | .store a data =>
      if blocked s op o || (o.rel.isSome && !o.relDone) then .next s
      else
        let core := placeCore o.th
        let fin := fun (s : State) =>
          -- a release's own store has been performed: its pushes start (R332)
          let s := match o.ord, s.teams.get (teamOf s o.th) with
            | some n, some tm => startPushes s tm.pkt.asid tm.name n
            | _, _ => s
          s.endOp op
        match a.loc with
        | .scratch tm off =>
          let s1 := scratchWrite s tm off data
          .next (fin (s1.updThread o.th (fun t => t.raise { t := s.mod.now })))
        | .phys y =>
          if spaceOf y == 1 then
            if sendHeld s (peerOf y) then .next s
            else if routed s (peerOf y) && o.lost.isNone then .next (fin (homeWrite s y data))
            else
              -- the effect at the peer is unknown (R364)
              let s1 := if Config.freeBit s.tick then homeWrite s y data else s
              .next (fin { s1 with tick := s.tick + 1 })
          else if behindStore s core y data.length o.sent then .next s
          else if hostGone s y then .next (fin (lostStore s (some core) y))
          else
            let (s1, c) := perform s { core := some core, pol := a.pol, nc := a.kind == 3 } y data none
            let s2 := noteWriter (tagWrite s1 (teamOf s o.th) y (writeOrd s o o.th) a.tow) o.th op y data.length
            .next (fin (s2.updThread o.th (fun t => t.raise c)))
    | _ => .next s

/-- REVOCATION_RECEIVE (R226): a copy receives a revocation, invalidates itself and acknowledges; an RDC first revokes the L1 copies of its die.
An L1 line with an unacknowledged write-through stays, without its lease (R238). Log 19: DESIGN CHOICE, unsafe. -/
def execRevocationReceive (rev holder : Nat) (s : State) : Out :=
  match s.mem.revs.get rev with
  | none => .next s
  | some r =>
    if !r.left.contains holder then .next s
    else
      let s1 := if holder < 192 then killL1 s holder r.sector else dropRdc (dropDieL1 s (holder - 192) r.sector) (holder - 192) r.sector
      .next (s1.setMem { s1.mem with revs := s1.mem.revs.put rev { r with left := r.left.filter (· != holder) } })

/-- REVOCATION_ACK (R226): with the last acknowledgement the final GWCT reaches every clock that waits for it. -/
def execRevocationAck (rev : Nat) (s : State) : Out :=
  match s.mem.revs.get rev with
  | none => .next s
  | some r => if !r.left.isEmpty then .next s else .next (settleRev s rev (min r.e s.mod.now))

/-- An earlier load, atomic or fence acquire of the thread is outstanding, which the acquire of a fence waits for (R241). -/
def fenceLoads (s : State) (op : Nat) (o : Op) : Bool :=
  s.ops.any (fun e => e.1 < op && e.2.threads.contains o.th && (e.2.loads || (match e.2.kind with
    | .fence m _ _ => m != 2
    | _ => false)))

/-! ### The order of sc fences (R244) -/

/-- The scope instance of a thread for a fence of a scope: its group, its team or its core's supervisor group, or the module (R9, R244). -/
def fenceInst (s : State) (th scope : Nat) : Nat :=
  match scope with
  | 0 => 8 * placeGroup th
  | 1 => 1 + 8 * (if isSup th then 2 ^ 64 + placeCore th else teamOf s th)
  | k => k

/-- Core and home lane, by which fences that tie are ordered (R244). -/
def fenceRank (th : Nat) : Nat := placeCore th * 32 + placeLane th

/-- An sc fence that would complete out of its order (R244): of scope f, one of an earlier window, or of this window and a lower rank, is still to
complete; of another scope, one of the same instance and a higher rank has completed at this device time. -/
def fenceLate (s : State) (th scope win : Nat) : Bool :=
  if scope == 3 then
    s.ops.any (fun e => match e.2.kind with
      | .fence 0 3 w => w != 0 && (w < win || (w == win && fenceRank e.2.th < fenceRank th))
      | _ => false)
  else s.mod.fences.any (fun f => f.inst == fenceInst s th scope && f.at0 == s.mod.now && fenceRank th < f.rank)

/-- An sc fence of another scope than f has completed (R244). -/
def noteFence (s : State) (th scope : Nat) : State :=
  s.setMod { s.mod with fences := { inst := fenceInst s th scope, at0 := s.mod.now, rank := fenceRank th } :: s.mod.fences.filter (·.at0 == s.mod.now) }

/-- FENCE_COMPLETE (R244, R250): after its release, and for an acquire every earlier load and atomic; an sc fence
of scope d or wider makes later loads ignore earlier leases. sc fences of one scope instance complete in their order. -/
def execFenceComplete (op : Nat) (s : State) : Out :=
  match s.ops.get op with
  | none => .next s
  | some o =>
    match o.kind with
    | .fence sem scope win =>
      if (o.rel.isSome && !o.relDone) || (sem != 2 && fenceLoads s op o)
          || (scope == 3 && (s.mod.desync || (sem == 0 && (win == 0 || s.window < win)))) || (sem == 0 && fenceLate s o.th scope win) then .next s
      else
        let s0 := if sem == 0 && scope != 3 then noteFence s o.th scope else s
        let s1 := if sem == 0 && 2 ≤ scope then s0.updThread o.th (fun t => { t with fenceAt := s.mod.now + 1 }) else s0
        .next ((if sem != 2 then (acquireClocks s1 o.th scope).updThread o.th (fun t => t.fenced scope) else s1).endOp op)
    | _ => .next s

/-- CFLUSH_COMPLETE (R221): once the earlier stores of the thread to its range are performed, every dirty sector
goes to the host and the lines are invalidated. Log 24: DESIGN CHOICE, unsafe. -/
def execCflushComplete (op : Nat) (s : State) : Out :=
  match s.ops.get op with
  | none => .next s
  | some o =>
    match o.kind with
    | .cflush pa n _ _ =>
      let wait := s.ops.any (fun e => e.1 < op && e.2.threads.contains o.th &&
        ((e.2.rel.isSome && !e.2.relDone) || e.2.acq.isSome || (e.2.writes && e.2.accs.any (fun b => (Loc.phys pa).overlaps n b.loc b.size))))
      let lines := (upto ((pa + n - 1) / 256 - pa / 256 + 1)).map (fun i => pa / 256 + i)
      -- a dirty sector can be written only where a port reaches the host (R365)
      let stuck := lines.any (fun l => hostGone s (l * 256) && (lineSectors s.mem.rdc (homeDie (l * 256)) l).any (fun x =>
        (s.mem.rdc.getD (copyKey (homeDie (l * 256)) (x * 64)) default).dirty))
      if wait || stuck then .next s
      else
        let s1 := lines.foldl (fun s l => (upto 4).foldl (fun s j =>
          dropAllL1 (dropRdc s (homeDie (l * 256)) (4 * l + j)) (4 * l + j)) s) s
        .next (s1.endOp op)
    | _ => .next s

/-- PREF_COMPLETE (R220): the line is filled, with any count, or the request is dropped. -/
def execPrefComplete (op : Nat) (s : State) : Out :=
  match s.ops.get op with
  | none => .next s
  | some o =>
    match o.kind with
    | .pref (some a) =>
      match a.loc with
      | .phys y =>
        if Config.freeBit s.tick && !blocked s op o && !hostGone s y then
          let s1 := (upto 4).foldl (fun s j => fetch s (askOf s o.th a) (teamOf s o.th) a.tow (y / 256 * 256 + 64 * j)) s
          .next ({ s1 with tick := s.tick + 1 }.endOp op)
        else .next ({ s with tick := s.tick + 1 }.endOp op)
      | _ => .next (s.endOp op)
    | .pref none => .next (s.endOp op)
    | _ => .next s

end Sys2Proof.Machine
end

