-- ==== Sys2Proof/Machine/Atomics.lean ====
section
/-! DEFINITION. Atomics: ATOM, CAS and RED, their places, merging and completion (R261 to R273). -/

namespace Sys2Proof.Machine

/-- The pairings that go out as PCIe AtomicOps (R264). -/
def pcieOk (cas : Bool) (aop ty : Nat) : Bool :=
  cas || (aop == 0 && ty ≤ 3) || (aop == 6 && ty ≤ 7)

/-- The place of an atomic, by page kind (4 the scratchpad window) and scope; `none` is fault 0x0F (R262). -/
def atomPlace (s : State) (kind scope : Nat) (cas : Bool) (aop ty : Nat) : Option APlace :=
  match kind, scope with
  | 4, _ => some .array
  | 0, 0 | 0, 1 | 2, 0 | 2, 1 | 3, 0 | 3, 1 => some .l1
  | 0, _ => some .home
  | 1, 3 => some .peer
  | 2, 2 => some .proxy
  | 2, 4 => if s.feature 3 then some .proxySys else none
  | 3, 2 => some .proxy
  | 3, 4 => if s.feature 4 && pcieOk cas aop ty then some .pcie else none
  | _, _ => none

/-- Bytes of an atomic's operand (R266). -/
def atomSize (ty : Nat) : Nat := 4 * typeRegs ty

/-- Joins a lane to the atomic of its address that the instruction has already made (R269). -/
def mergeAtomic (s : State) (k : Nat) (o : Op) (p : Part) : State :=
  let g := placeGroup p.th
  let counted := s.ops.any (fun e => e.2.batch == o.batch && e.2.grps.contains g)
  let kind := match o.kind with
    | .atomic a pl cas aop ty ps d => .atomic a pl cas aop ty (ps ++ [p]) d
    | x => x
  let dest := !o.ths.isEmpty
  let o' := { o with kind := kind, grps := dedup (o.grps ++ [g]), ths := if dest then o.ths ++ [p.th] else o.ths }
  let s1 := { s with ops := s.ops.put k o' }
  let s2 := match o.slot with
    | some n => if counted then s1 else s1.updSlot g n (· + 1)
    | none => s1
  if dest then s2.updThread p.th (fun t => t.addPend o.dst o.nd) else s2

/-- Outstanding AtomicOps of a CXL port (R261). -/
def pcieOut (s : State) (port : Option Nat) : Nat :=
  (s.ops.find (fun _ o => match o.kind with
    | .atomic { loc := .phys y, .. } .pcie _ _ _ _ _ => hostPort s y == port
    | _ => false)).length

/-- ATOM, CAS and RED (R266). In the scratchpad window a scope above team acts as team (R212), and no fabric trap is met. Log 118: DEDUCED, unsafe. -/
def execAtomic (i : Instr) (w : W1) (x : ExtT) (cas red : Bool) (s : State) : State :=
  let b := s.batch
  let ty := x.type.toNat
  let n := typeRegs ty
  let size := atomSize ty
  let sem := x.sem.toNat
  let scope := x.scope.toNat
  let rel := 2 ≤ sem
  let acq := !red && sem % 2 == 1
  execSlot i s x.slot.toNat (fun s e t =>
    let (base, p) := rdN e t w.a.toNat 2
    let (v, q) := rdN e t w.b.toNat n
    let (c, r) := if cas then rdN e t x.c.toNat n else (0, .clean)
    let ea := effAddr base 9 x.off.toNat size
    if p.isBad then .trap s (poisonTrap t p 2)
    else if q.isBad || r.isBad then .trap s (poisonTrap t (q.or r) 1)
    else if scope == 3 && windowOf ea != 1 && (s.mod.desync || (rel && t.routeLost)) then .trap (clearRoute s e) (timeTrap s e ea 2)
    else
      match checkAcc s e.who ea size 3 2 size 0 0 with
      | .error f => .trap s (.ofRec f)
      | .ok a =>
        match atomPlace s a.kind scope cas x.aop.toNat ty with
        | none => .trap s (.ofRec (faultRec s e.who ea 2 0x0F))
        | some pl =>
          match lockTrap s a (lockAddr s e.who ea) 2 true with
          | some tr => .trap s tr
          | none =>
            if peerLost s a then .trap s (timeTrap s e ea 2)
            else if pl == .pcie && (match a.loc with | .phys y => 64 ≤ pcieOut s (hostPort s y) | _ => false) then .hold s
            else
              let s0 := if pl == .peer then s.putThread e { t with pwin := some (max s.window (t.pwin.getD 0)) } else s
              let part : Part := { th := e.pl, lane := e.lane, dst := w.d.toNat, opnd := v, cmp := c }
              let same := s0.ops.find (fun _ o => o.batch == b && (match o.kind with | .atomic a' _ _ _ _ _ _ => a'.va == ea && a'.loc == a.loc | _ => false))
              let new := fun (after : Option Nat) => s0.addOp
                { kind := .atomic a pl cas x.aop.toNat ty [part] false, th := e.pl, ths := if red then [] else [e.pl],
                  grps := [placeGroup e.pl], slot := some x.slot.toNat, batch := b, dst := w.d.toNat, nd := if red then 0 else n,
                  rel := if rel then some (if a.kind == 4 then min scope 1 else scope) else none,
                  acq := if acq then some (if a.kind == 4 then min scope 1 else scope) else none, after := after,
                  win := if pl == .peer then some s.window else none }
              -- AtomicOps go out one after the other (R269)
              let out := (s0.ops.find (fun _ o => o.batch == b && (match o.kind with | .atomic _ .pcie _ _ _ _ _ => true | _ => false))).getLast?
              if pl == .pcie then .ok (new (out.map (·.1)))
              else
                match same with
                | [] => .ok (new none)
                | (k, o) :: _ => .ok (mergeAtomic s0 k o part))

/-- ATOM (R266). -/
def execAtom (w : W1) (x : ExtT) (s : State) : Out := .next (execAtomic (.atom w x) w x false false s)
/-- CAS (R266). -/
def execCas (w : W1) (x : ExtT) (s : State) : Out := .next (execAtomic (.cas w x) w x true false s)
/-- RED (R266). -/
def execRed1 (w : W1) (x : ExtT) (s : State) : Out := .next (execAtomic (.red w x) w x false true s)

/-! ### What an atomic computes (R267) -/

/-- One half of an atomic on F16X2 or BF16X2 (R267). -/
def halfOp (aop ty x y : Nat) : Nat :=
  let f := if ty == 6 then fF16 else fBF16
  match aop with
  | 0 => fAdd f x y
  | 1 => f.minmax false x y
  | _ => f.minmax true x y

/-- A function on each 16-bit half. -/
def onHalves (f : Nat → Nat → Nat) (a b : Nat) : Nat :=
  f (a % 2 ^ 16) (b % 2 ^ 16) + 2 ^ 16 * f (a / 2 ^ 16) (b / 2 ^ 16)

/-- Op(AOP, TYPE, o, b) (R267). -/
def atomOp (aop ty o b : Nat) : Nat :=
  match aop with
  | 6 => b
  | 7 => if b ≤ o then 0 else o + 1
  | 8 => if o == 0 || b < o then b else o - 1
  | _ => if ty == 6 || ty == 7 then onHalves (halfOp aop ty) o b else redCombine aop ty o b

/-- The new value of one lane, `none` where it writes nothing (a compare that fails). -/
def atomNew (cas : Bool) (aop ty old opnd cmp : Nat) : Option Nat :=
  if cas then (if old == cmp then some opnd else none) else some (atomOp aop ty old opnd)

/-- What one access of an atomic covers: its offset and bytes, and what a lane writes over the value it finds. -/
structure AStep where
  off : Nat
  n : Nat
  half : Option Nat
  f : Part → Nat → Option Nat

/-- An atomic is one access, but for ADD, MIN and MAX on halves: each half is an atomic of its own, in either order (R268). -/
def atomStep (o : Op) (cas : Bool) (aop ty n : Nat) (highFirst : Bool) : AStep :=
  if twoHalves cas aop ty then
    let h := match o.half with | some k => 1 - k | none => highFirst.toNat
    { off := 2 * h, n := 2, half := some h, f := fun p v => some (halfOp aop ty v (p.opnd / 2 ^ (16 * h) % 2 ^ 16)) }
  else { off := 0, n := n, half := none, f := fun p v => atomNew cas aop ty v p.opnd p.cmp }

/-- A lane receives what its access read, beside what an earlier half read. -/
def Part.see (p : Part) (off v : Nat) : Part :=
  { p with old := some ((match p.old with | some (w, none) => w | _ => 0) + v * 2 ^ (8 * off), none) }

/-- The serial execution of the lanes, in ascending home lane: what each lane read, the last value, and the last lane that wrote (R269). -/
def atomSerial (st : AStep) : List Part → Nat → List Part × Nat × Option Part
  | [], v => ([], v, none)
  | p :: r, v =>
    let n := st.f p v
    let (ps, last, w) := atomSerial st r (n.getD v)
    (p.see st.off v :: ps, last, match w with | some q => some q | none => if n.isSome then some p else none)

/-- Sets what the lanes of an atomic have read. -/
def setParts (s : State) (op : Nat) (ps : List Part) (performed : Bool) : State :=
  s.updOp op (fun o => match o.kind with
    | .atomic a pl cas aop ty _ _ => { o with kind := .atomic a pl cas aop ty ps performed }
    | _ => o)

/-- One access of an atomic is over: the atomic, or its first half. -/
def endStep (s : State) (op : Nat) (ps : List Part) (half : Option Nat) : State :=
  match half, (s.ops.get op).bind (·.half) with
  | some h, none => (setParts s op ps false).updOp op (fun o => { o with half := some h })
  | _, _ => setParts s op ps true

/-- Requester number `req` comes before `r` in the order from a pointer on (R270). -/
def turnBefore (ptr req r : Nat) : Bool := (req + 210 - ptr) % 210 ≤ (r + 210 - ptr) % 210

/-- Cores whose requests wait at the unit of `y` for bytes that overlap the `n` at `y`, beside operation `op` (R270). -/
def atomRivals (s : State) (op y n : Nat) : List Nat :=
  s.ops.filterMap (fun e =>
    match e.2.kind with
    | .atomic b pl _ _ _ _ false =>
      (match b.loc with
        | .phys z =>
          if e.1 != op && (pl == .home || pl == .proxy || pl == .proxySys) && z < y + n && y < z + b.size && !blocked s e.1 e.2
              && (e.2.rel.isNone || e.2.relDone)
          then some (placeCore e.2.th) else none
        | _ => none)
    | _ => none)

/-- The atomic unit of a physical location: the L2 slice of a device line (R6), numbered over the dies, or the proxy unit of a host
line's die, from 384 on (R261, R262). -/
def atomUnit (y : Nat) : Nat := if spaceOf y == 2 then 384 + homeDie y else sliceOf y

/-- Requester `req` goes first at the unit of `y` (R270). Whether others arrived in the same clk, cores that wait there or links whose
requests come after it, is free; where they did, the one that goes first is the lowest at or after the pointer, and the pointer moves to one
past it. An order that the pointer does not give is one of requests that arrived in different clk. Log 76: DESIGN CHOICE, safe. -/
def turnUnit (s : State) (req op y n : Nat) : State :=
  let ptr := (s.mem.atomPtr.get (atomUnit y)).getD 0
  let rivals := (atomRivals s op y n).filter (· != req)
  let links := (upto 18).filter (fun l => let st := (s.mod.links.getD l {}).st
                                         spaceOf y == 0 && (st == .active || st == .degraded) && 192 + l != req && turnBefore ptr req (192 + l))
  if (rivals.isEmpty && links.isEmpty) || !rivals.all (turnBefore ptr req) then s
  else
    let s1 := { s with tick := s.tick + 1 }
    if Config.freeBit s.tick then { s1 with mem := { s1.mem with atomPtr := s1.mem.atomPtr.put (atomUnit y) ((req + 1) % 210) } } else s1

/-- The copies that an atomic's core holds of what it read at the home show it: a later load of the thread returns nothing older (R238). -/
def seeHome (s : State) (core y : Nat) : State := seeSector s core y true (homeBytes s.mem (y / 64 * 64) 64) (homePois s.mem y)

/-- A write of an atomic is performed at its home: the release clocks of all its lanes take its GWCT (R272), and the sector takes the tag of
the last lane that wrote (R328, R331). -/
def performAtomic (s : State) (op : Nat) (o : Op) (a : Acc) (ths : List Nat) (y : Nat) (bs : List Byte) (last : Part) : State :=
  let (s1, c) := perform s { core := some (placeCore o.th), pol := a.pol, nc := a.kind == 3 } y bs none
  let ord := match last.ord with | some n => n | none => writeOrd s o last.th
  let s2 := noteWriter (tagWrite s1 (teamOf s o.th) y ord a.tow) last.th op y bs.length
  ths.foldl (fun s th => s.updThread th (fun t => t.raise c)) s2

/-- What an L1 atomic's core sees: its L1 copy, brought in where it may be, with the core's own stores on their way (R262). -/
def l1Value (s : State) (q : Ask) (team : Nat) (tow : Bool) (y n : Nat) : State × List Byte × Option Nat :=
  let s1 := fetch s q team tow y
  match l1Copy s1 q y with
  | some c => (s1, c.view s1 q.core y n, c.pois)
  | none => (s1, overlay (onWay s1 q.core) y (homeBytes s1.mem y n), homePois s1.mem y)

/-- The proxy die sends an AtomicOp, once it has written back any dirty copy of the line and invalidated it in its RDC and in every L1
(R264). -/
def sendAtomicOp (s : State) (op y : Nat) : State :=
  let s1 := (upto 4).foldl (fun s j => dropRdc (dropAllL1 s (y / 256 * 4 + j)) (homeDie y) (y / 256 * 4 + j)) s
  { s1.updOp op (fun o => { o with sent := some s.serial }) with serial := s1.serial + 1 }

/-- ATOMIC_PERFORM (R269): one merged request is performed at its place, lanes in order. An atomic in an L1 is a load and then a store: its
write leaves the L1 with one event and is performed with the next (R262). An AtomicOp is sent (R264); any other request goes once its instruction
has issued for every lane (R269). Log 20: DEDUCED, safe. Log 116: DEDUCED, unsafe. Log 117: DEDUCED, unsafe. -/
def execAtomicPerform (op : Nat) (s : State) : Out :=
  match s.ops.get op with
  | none => .next s
  | some o =>
    match o.kind with
    | .atomic a pl cas aop ty parts false =>
      let core := placeCore o.th
      let ths := parts.map (·.th)
      match o.out with
      | some (z, bs) =>
        if behindStore s core z bs.length o.sent then .next s
        else
          let half := if a.size == bs.length then none else some ((z - (match a.loc with | .phys y => y | _ => z)) / 2)
          let last := ((parts.filter (fun p => !cas || p.old == some (p.cmp, none))).getLast?).getD default
          let s1 := if hostGone s z then lostStore s (some core) z else performAtomic s op o a ths z bs last
          .next (endStep (s1.updOp op (fun o => { o with out := none, sent := none })) op parts half)
      | none =>
        if blocked s op o || (o.rel.isSome && !o.relDone) || (if pl == .pcie then o.sent.isSome else o.issuing s) then .next s
        else
          let st := atomStep o cas aop ty a.size (Config.freeBit s.tick)
          let s := if st.half.isSome && o.half.isNone then { s with tick := s.tick + 1 } else s
          let poisoned := fun (s : State) (c : Nat) => setParts s op (parts.map (fun p => { p with old := some (0, some c) })) true
          match a.loc with
          | .scratch tm off =>
            (match scratchPois s tm (off + st.off) st.n with
              | some c => .next (poisoned s c)
              | none =>
                let (ps, v, w) := atomSerial st parts (leNat (scratchBytes s tm (off + st.off) st.n))
                let s1 := if w.isSome then scratchWrite s tm (off + st.off) (bytesOf v st.n) else s
                .next (endStep (ths.foldl (fun s th => s.updThread th (fun t => t.raise { t := s.mod.now })) s1) op ps st.half))
          | .phys y0 =>
            let y := y0 + st.off
            if hostGone s y then .next (poisoned s 0x19)
            else if spaceOf y == 1 then
              if sendHeld s (peerOf y) then .next s
              else if !routed s (peerOf y) || o.lost.isSome then .next (poisoned s 0x1A)
              else
                (match homePois s.mem y with
                  | some k => .next (poisoned s k)
                  | none =>
                    let (ps, v, w) := atomSerial st parts (homeNat s.mem y st.n)
                    .next (endStep (if w.isSome then homeWrite s y (bytesOf v st.n) else s) op ps st.half))
            else if pl == .pcie then .next (sendAtomicOp s op y)
            else if pl == .l1 then
              let (s1, bs, p) := l1Value s { askOf s o.th a with pol := 0, rc := 0 } (teamOf s o.th) a.tow y st.n
              (match p with
                | some k => .next (poisoned s1 k)
                | none =>
                  let (ps, v, w) := atomSerial st parts (leNat bs)
                  match w with
                  | none => .next (endStep s1 op ps st.half)
                  | some _ =>
                    let s2 := if s1.mem.l1.has (copyKey core y) then s1.setMem (clearCount s1.mem core y) else s1
                    .next { (setParts s2 op ps false).updOp op (fun o => { o with sent := some s2.serial, out := some (y, bytesOf v st.n) }) with
                            serial := s2.serial + 1 })
            else if behindStore s core y st.n none then .next s
            else
              let s0 := turnUnit s core op y st.n
              match homePois s.mem y with
              | some k => .next (poisoned s0 k)
              | none =>
                let (ps, v, w) := atomSerial st parts (homeNat s.mem y st.n)
                .next (endStep (match w with
                  | some q => performAtomic s0 op o a ths y (bytesOf v st.n) q
                  | none => seeHome s0 core y) op ps st.half)
    | _ => .next s

/-- Delivers what the lanes of an atomic read: the old value, or poison with its record (R266). A RED that failed
at the host posts its record (R264, R273). -/
def deliverParts (s : State) (o : Op) (a : Acc) : List Part → State
  | [] => s
  | p :: r =>
    let s1 := match p.old with
      | some (v, none) => if o.nd == 0 then s else s.deliver p.th p.dst o.nd v .clean
      | some (_, some c) =>
        if o.nd == 0 then
          (if c == 0x0F || c == 0x19 then s.faultOf (unitProxy (homeDie (match a.loc with | .phys y => y | _ => 0))) p.th (teamOf s p.th) o.word (a.record 2 c)
           else s)
        else s.updThread p.th (fun t =>
          if t.st == .exited then t else let (t1, q) := t.newRec (a.record 2 c) false; wrN t1 p.dst 0 q o.nd)
      | none => s
    deliverParts s1 o a r

/-- An atomic completes for its lanes: pushes of their releases start (R332), what they read is delivered, and an acquire takes effect. -/
def completeAtomic (s : State) (op : Nat) (o : Op) (a : Acc) (ps : List Part) : State :=
  let s1 := ps.foldl (fun s (p : Part) =>
    match p.ord, s.teams.get (teamOf s p.th) with
    | some n, some tm => startPushes s tm.pkt.asid tm.name n
    | _, _ => s) s
  let s2 := deliverParts s1 o a ps
  let s2 := ps.foldl (fun s (p : Part) => match p.old with
    | some (v, none) => if o.nd == 0 then s else seeBytes s p.th o.acq a.loc (bytesOf v a.size)
    | _ => s) s2
  let s3 := match o.acq with
    | some sc => ps.foldl (fun s (p : Part) => acquireClocks s p.th sc) s2
    | none => s2
  s3.endOp op

/-- ATOMIC_COMPLETE (R272); where the host link was lost on the way, the lanes receive poison (R273). -/
def execAtomicComplete (op : Nat) (s : State) : Out :=
  match s.ops.get op with
  | none => .next s
  | some o =>
    match o.kind with
    | .atomic a _ _ _ _ parts true =>
      .next (completeAtomic s op o a (match o.lost with
        | some c => parts.map (fun p => { p with old := some (0, some c) })
        | none => parts))
    | _ => .next s

/-- ATOMICOP_COMPLETION (R264): the host completes an AtomicOp that has been sent; a completion other than Successful leaves no promised
effect, and poisons `D` or posts a record. Log 117: DEDUCED, unsafe. -/
def execAtomicopCompletion (op : Nat) (ok : Bool) (s : State) : Out :=
  match s.ops.get op with
  | none => .next s
  | some o =>
    match o.kind with
    | .atomic a .pcie cas aop ty parts false =>
      if o.sent.isNone then .next s
      else
        match a.loc with
        | .scratch _ _ => .next s
        | .phys y =>
          let down := hostGone s y || o.lost.isSome
          let done := ok && !down
          let effect := done || Config.freeBit s.tick
          let pois := if done then s.mem.pois.get (y / 64) else some (if down then 0x19 else 0x0F)
          let st := atomStep o cas aop ty a.size false
          let (ps, v, w) := atomSerial st parts (leNat (Memory.read s.mem.cells y a.size))
          let s1 := if effect && w.isSome && (s.mem.pois.get (y / 64)).isNone then
              s.setMem { s.mem with cells := Memory.write s.mem.cells y (bytesOf v a.size) } else s
          let s2 := { s1 with tick := if done then s1.tick else s1.tick + 1 }
          .next (completeAtomic s2 op o a (match pois with
            | some c => parts.map (fun p => { p with old := some (0, some c) })
            | none => ps))
    | _ => .next s

end Sys2Proof.Machine
end

