-- ==== Sys2Proof/Machine/Access.lean ====
section
/-! DEFINITION. Ranges of bytes that engines, launches and contexts read and write: checked and translated page
by page, with the poison of each byte (R190, R201, R204, R282, R338). -/

namespace Sys2Proof.Machine

/-- The pieces of `n` bytes from `g` on by page: offset and length. -/
def pagePieces (g n : Nat) : List (Nat × Nat) :=
  if n == 0 then []
  else
    (upto ((g + n - 1) / 65536 - g / 65536 + 1)).map (fun i =>
      let lo := max g ((g / 65536 + i) * 65536)
      let hi := min (g + n) ((g / 65536 + i + 1) * 65536)
      (lo - g, hi - lo))

/-- One byte whose sector holds poison travels with that mark. -/
abbrev PByte := Byte × Bool

/-- A part of a range within one page: where it lies, its bytes, and the kind of its page. -/
structure Span where
  loc : Loc
  len : Nat
  kind : Nat
  deriving DecidableEq, Repr, Inhabited

/-- Checks a range (R201) and gives its parts: every page is translated, then every page's permission is checked (R190), and a record holds the
address of the range's first byte (R202). A peer that cannot be reached faults 0x1A (R234, R364). -/
def rangeAt (s : State) (w : Who) (va n perm akind : Nat) : Except FRec (List Span) :=
  if n == 0 then .ok []
  else if windowOf va != windowOf ((va + n - 1) % 2 ^ 64) then .error (faultRec s w va akind 0x0E)
  else if windowOf va == 1 then
    if w.bound < va - scratchBase + n then .error (faultRec s w va akind 0x13)
    else .ok [{ loc := .scratch w.team (va - scratchBase), len := n, kind := 4 }]
  else
    let g := globalVa s w va
    let pages := (pagePieces g n).map (fun p => (p, (transVa s w.asid (g + p.1)).page))
    let bad := fun (p : Nat × Nat) (c : Nat) => Except.error { faultRec s w (va + p.1) akind c with va := va }
    match pages.find? (fun x => x.2.isNone), pages.find? (fun x => match x.2 with | some (_, a) => !a.perm.testBit perm | none => true) with
    | some (p, _), _ => bad p 0x0C
    | none, some (p, _) => bad p 0x0D
    | none, none =>
      let spans : List Span := pages.filterMap (fun x => x.2.map (fun y =>
        { loc := .phys (physOf (kindSpace y.2.kind) (y.1 * 2 ^ 16 + (g + x.1.1) % 2 ^ 16)), len := x.1.2, kind := y.2.kind }))
      match (pages.zip spans).find? (fun x => match x.2.loc with
        | .phys y => x.2.kind == 1 && (s.mod.desync || !routed s (peerOf y))
        | _ => false) with
      | some ((p, _), _) => bad p 0x1A
      | none => .ok spans

/-- Some of a range lies at a peer to which every request lane is paused: nothing is sent (R362). -/
def rangeHeld (s : State) (w : Who) (va n : Nat) : Bool :=
  windowOf va != 1 && (pagePieces (globalVa s w va) n).any (fun p => match (transVa s w.asid (globalVa s w va + p.1)).page with
    | some (ppn, a) => a.kind == 1 && sendHeld s (peerOf (ppn * 2 ^ 16))
    | none => false)

/-- The bytes of a location, with the poison of each. -/
def locBytes (s : State) (l : Loc) (n : Nat) : List PByte :=
  match l with
  | .scratch t o => (scratchBytes s t o n).zip ((upto n).map (fun i => (scratchPois s t (o + i) 1).isSome))
  | .phys a =>
    (homeBytes s.mem a n).zip ((upto n).map (fun i =>
      hostGone s a || (homePois s.mem (a + i)).isSome))

/-- Reads a range. -/
def readRange (s : State) (w : Who) (va n akind : Nat) : Except FRec (List PByte) :=
  match rangeAt s w va n 0 akind with
  | .error f => .error f
  | .ok ls => .ok ((ls.map (fun p => locBytes s p.loc p.len)).flatten)

/-- The plain bytes. -/
def plain (bs : List PByte) : List Byte := bs.map (·.1)
/-- Whether some byte is poisoned. -/
def anyPois (bs : List PByte) : Bool := bs.any (·.2)
/-- Clean bytes. -/
def cleanBytes (bs : List Byte) : List PByte := bs.map (fun b => (b, false))

/-- Writes one sector's piece at its place, and its GWCTs, or the fabric window of a write to a peer (R226, R232, R254). -/
def writePiece (s : State) (q : Writer) (l : Loc) (bs : List Byte) (mark : Option Nat) : State × WClock :=
  match l with
  | .scratch t o => (scratchWrite s t o bs mark, { t := s.mod.now })
  | .phys y =>
    if spaceOf y == 1 then (homeWrite s y bs mark, { win := some s.window })
    else if hostGone s y then (lostStore s q.core y, {})
    else perform s q y bs mark

/-- Writes bytes at a location, each sector that receives a poisoned byte marked poisoned. Eligible sectors take the
writer's tag (R331). -/
def writeLoc (s : State) (q : Writer) (l : Loc) (bs : List PByte) (team : Nat) (tow : Bool) : State × WClock :=
  let base := match l with | .scratch _ o => o | .phys y => y
  (pieces base bs.length).foldl (fun (s, c) p =>
    let part := (bs.drop p.1).take p.2.2
    let loc := match l with | .scratch t _ => Loc.scratch t p.2.1 | .phys _ => .phys p.2.1
    let (s1, d) := writePiece s q loc (plain part) (if anyPois part then some 0x05 else none)
    let ord := match s.teams.get team with | some tm => tm.rcnt | none => 0
    let s2 := match loc with
      | .phys y => tagWrite s1 team y ord tow
      | _ => s1
    (s2, c.join d)) (s, {})

/-- Whether a page is eligible for Towline: its `TOW` attribute (R326). -/
def towAt (s : State) (w : Who) (va : Nat) : Bool :=
  match (transVa s w.asid (globalVa s w va)).page with
  | some (_, a) => a.tow && a.kind == 0
  | none => false

/-- Writes a range, or the fault that it meets before anything is written. -/
def writeRange (s : State) (w : Who) (va : Nat) (bs : List PByte) (akind : Nat) (core : Option Nat) : Except FRec (State × WClock) :=
  match rangeAt s w va bs.length 1 akind with
  | .error f => .error f
  | .ok ls =>
    let tow := windowOf va == 0 && towAt s w va
    let (s1, c, _) := ls.foldl (fun (s, c, rest) p =>
      let (s1, d) := writeLoc s { core := core, nc := p.kind == 3 } p.loc (rest.take p.len) w.team tow
      (s1, c.join d, rest.drop p.len)) (s, ({} : WClock), bs)
    .ok (s1, c)

/-- A record of poison that was read (R282, R344). Log 30: DEDUCED, unsafe. -/
def poisonRec (s : State) (w : Who) (va akind : Nat) : FRec := { faultRec s w va akind 0x05 with cause := 0x05 }

/-- The thread's earlier stores and atomics are still outstanding before operation `k`. -/
def earlierWrites (s : State) (k th : Nat) : Bool :=
  s.ops.any (fun e => e.1 < k && e.2.threads.contains th && e.2.writes)

end Sys2Proof.Machine
end

