-- ==== Sys2Proof/Machine/Control.lean ====
section
/-! DEFINITION. Control instructions: branches, calls, EXIT, BAR, LAUNCH, SVC and TRAP (R156 to R165). -/

namespace Sys2Proof.Machine

/-- Header address, word index and count of the run being issued. -/
def State.runHdr (s : State) : Nat := match s.issues.get s.cur with | some x => x.hdr | none => 0
def State.runWix (s : State) : Nat := match s.issues.get s.cur with | some x => x.wix | none => 0
def State.runCount (s : State) : Nat := match s.issues.get s.cur with | some x => x.count | none => 0

/-- The fall-through address F (R156). -/
def fallThrough (hdr count : Nat) : Nat := (hdr + 4 * (count + 1)) % 2 ^ 64

/-- Sets the next address of a thread. -/
def Thread.goto (t : Thread) (a : Nat) : Thread := { t with next := some (BitVec.ofNat 64 a) }

/-- H + SignExtend(IMM32) (R156). -/
def relTarget (hdr : Nat) (imm : Word) : Nat := wrapInt 64 ((hdr : Int) + imm.toInt)

/-- BRA (R156). -/
def execBra (w : W1) (imm : Word) (s : State) : Out :=
  .next (execLanes (.bra w imm) s (fun s e t => .ok (s.putThread e (t.goto (relTarget s.runHdr imm)))))

/-- BRX and RET: the address in a pair; a poisoned pair traps (R156, R157). -/
def execIndirect (i : Instr) (w : W1) (s : State) : State :=
  execLanes i s (fun s e t =>
    let (a, p) := rdN e t w.a.toNat 2
    if p.isBad then .trap s (poisonTrap t p 4) else .ok (s.putThread e (t.goto a)))

/-- BRX (R156). -/
def execBrx (w : W1) (s : State) : Out := .next (execIndirect (.brx w) w s)
/-- RET (R156). -/
def execRet (w : W1) (s : State) : Out := .next (execIndirect (.ret w) w s)

/-- CALL (R156): the return address is clean. -/
def execCall (w : W1) (imm : Word) (s : State) : Out :=
  .next (execLanes (.call w imm) s (fun s e t =>
    .ok (s.putThread e ((wrN t w.d.toNat (fallThrough s.runHdr s.runCount) .clean 2).goto (relTarget s.runHdr imm)))))

/-- CALLX (R156): the target is read before the return address is written. -/
def execCallx (w : W1) (s : State) : Out :=
  .next (execLanes (.callx w) s (fun s e t =>
    let (a, p) := rdN e t w.a.toNat 2
    if p.isBad then .trap s (poisonTrap t p 4)
    else .ok (s.putThread e ((wrN t w.d.toNat (fallThrough s.runHdr s.runCount) .clean 2).goto a))))

/-- EXIT (R158): the thread exits at run end. -/
def execExit (w : W1) (s : State) : Out :=
  .next (execLanes (.exit w) s (fun s e t => .ok (s.putThread e { t with exiting := true })))

/-! ### Barriers (R159 to R162) -/

/-- Whether a thread lies in a scope of BAR: 0 team, 1 prod, 2 cons, 3 crew (R159, R160). -/
def inScope (s : State) (e : Env) (scope : Nat) : Bool :=
  match s.teams.get e.team with
  | none => false
  | some tm =>
    match scope with
    | 0 => true
    | 1 => e.role == 0
    | 2 => e.role == 1
    | _ => (tm.crewOf e.gid).isSome

/-- The key of a barrier instance: id x 16 with 0 team, 1 prod, 2 cons, 3 + j crew j. -/
def barKey (s : State) (e : Env) (id scope : Nat) : Nat :=
  let k := match scope with
    | 3 => 3 + (match s.teams.get e.team with | some tm => (tm.crewOf e.gid).getD 0 | none => 0)
    | k => k
  id * 16 + k

/-- Threads of a team that belong to the scope of an instance. -/
def barPlaces (tm : Team) (key : Nat) : List Nat :=
  (upto (32 * tm.pkt.groups)).filterMap (fun tid =>
    let g := tid / 32
    let inside := match key % 16 with
      | 0 => true
      | 1 => g < tm.pkt.prod
      | 2 => tm.pkt.prod ≤ g
      | k => tm.crewOf g == some (k - 3)
    if inside then some (tm.placeOf tid) else none)

/-- A thread's number in its team. -/
def tidOf (pl : Nat) (t : Thread) : Nat := 32 * t.gid + placeLane pl

/-- Whether a thread has an arrival at an instance on its way, or has arrived in its open phase. -/
def hasArrived (s : State) (pl : Nat) (t : Thread) (key : Nat) : Bool :=
  s.ops.any (fun e => e.2.th == pl && e.2.kind == .barRel key) ||
    (match s.teams.get t.team with
      | some tm => ((tm.bars.getD key {}).arrived).contains (tidOf pl t)
      | none => false)

/-- The phase of an instance in a thread's team. -/
def phaseOf (s : State) (t : Thread) (key : Nat) : Nat :=
  match s.teams.get t.team with
  | some tm => (tm.bars.getD key {}).phase
  | none => 0

/-- ReleaseTeam() is over; Arrive(instance), and the token of the thread for the barrier id becomes the instance's phase (R160). -/
def arriveAt (s : State) (pl : Nat) (key : Nat) : State :=
  match s.threads.get pl with
  | none => s
  | some t => ((releaseClocks s pl 1).updTeam t.team (fun tm =>
      let b := tm.bars.getD key {}
      { tm with bars := tm.bars.put key { b with arrived := tidOf pl t :: b.arrived } })).updThread pl
        (fun u => { u with toks := u.toks.put (key / 16) (phaseOf s t key) })

/-- Whether a wait at an instance has to wait: an arrival of the thread at that barrier id is on its way, or its token is not below the instance's
phase (R160). The token is the thread's for the id, whichever scope it arrived in. Log 27: DEDUCED, unsafe. -/
def barWaits (s : State) (pl : Nat) (t : Thread) (key : Nat) : Bool :=
  s.ops.any (fun e => e.2.th == pl && (match e.2.kind with | .barRel k => k / 16 == key / 16 | _ => false)) ||
    (match t.toks.get (key / 16) with
      | some n => phaseOf s t key ≤ n
      | none => false)

/-- Starts an arrival: at once where the team-scope release has nothing to wait for, else as an operation that waits
for it (R160, R240). -/
def startArrival (s : State) (pl key batch : Nat) : State :=
  if releasedAt s s.serial pl 1 && !s.ops.any (fun e => e.2.threads.contains pl && ((e.2.rel.isSome && !e.2.relDone) || e.2.acq.isSome)) then
    arriveAt s pl key
  else s.addOp { kind := .barRel key, th := pl, ths := [], grps := [], slot := none, batch := batch, rel := some 1 }

/-- BAR on one guard-true thread (R160): forms 0 SYNC, 1 ARRIVE, 2 WAIT. -/
def barThread (form : Nat) (x : ExtE) (s : State) (e : Env) (t : Thread) : Res :=
  let id := x.imm.toNat % 16
  let scope := x.fn.toNat / 4 % 4
  let key := barKey s e id scope
  let wait := fun (first : Bool) => BarWait.mk id key scope form first (s.runHdr + 4 * (s.runWix + 1)) s.runHdr s.runWix (t.toks.get id)
  let pos := fun (first : Bool) => { t with bar := some (wait first) }
  if !inScope s e scope then .trap s { code := 0x07, detail := id + 16 * scope }
  else if form == 2 then .ok (if barWaits s e.pl t key then s.putThread e (pos false) else acquireClocks s e.pl 1)
  else if hasArrived s e.pl t key then .ok (s.putThread e (pos true))
  else
    let s1 := if form == 0 then s.putThread e (pos false) else s
    .ok (startArrival s1 e.pl key s.batch)

/-- The gates of the issue group at a BAR, without the threads whose guard is poisoned (R161). -/
def barGates (i : Instr) (s : State) : List (Nat × Gate) :=
  match i.info, s.issues.get s.cur with
  | some f, some x => x.lanes.filterMap (fun pl =>
      match s.threads.get pl with
      | none => none
      | some t =>
        match gate s i f (envOf s pl t) t with
        | .trap { code := 0x05, .. } => none
        | g => some (pl, g))
  | _, _ => []

/-- BAR: mixed guards trap the whole issue group 0x06 (R161). -/
def execBar (i : Instr) (form : Nat) (x : ExtE) (s : State) : State :=
  let gs := barGates i s
  let good := match i.info with | some f => f.enc | none => false
  if good && gs.any (fun g => g.2 == .skip) && gs.any (fun g => g.2 == .run) then
    let mask := gs.foldl (fun m g => if g.2 == .run then m + 2 ^ placeLane g.1 else m) 0
    let s1 := execLanes i s (fun s _ _ => .ok s)
    gs.foldl (fun s g => s.trapAt g.1 { code := 0x06, detail := mask }) s1
  else execLanes i s (barThread form x)

/-- BAR SYNC (R160). -/
def execBarSync (w : W1) (x : ExtE) (s : State) : Out := .next (execBar (.barSync w x) 0 x s)
/-- BAR ARRIVE (R160). -/
def execBarArrive (w : W1) (x : ExtE) (s : State) : Out := .next (execBar (.barArrive w x) 1 x s)
/-- BAR WAIT (R160). -/
def execBarWait (w : W1) (x : ExtE) (s : State) : Out := .next (execBar (.barWait w x) 2 x s)

/-! ### Launch queues (R146 to R148, R163) -/

/-- The physical location of an entry of a ring, in device memory or in host-coherent memory (R146, R358). Log 9: DESIGN CHOICE, safe. -/
def ringAt (q : Queue) (e off : Nat) : Nat :=
  let a := q.base + 128 * e + off
  if q.host then physOf 2 a else physOf 0 a

/-- `STATE` of an entry (R148). -/
def entryState (s : State) (q : Queue) (e : Nat) : Nat := homeNat s.mem (ringAt q e 0x78) 1

/-- A free entry (R148). Log 37: DEDUCED, safe. -/
def entryFree (st : Nat) : Bool := st == 0 || st == 5 || st == 6 || (0x80 ≤ st && st ≤ 0x8F)

/-- A write of the V9 into a ring. -/
def ringWrite (s : State) (q : Queue) (e off : Nat) (bs : List Byte) : State :=
  (writeLoc s {} (.phys (ringAt q e off)) (cleanBytes bs) 0 false).1

/-- Writes the `STATE` of an entry. -/
def setEntryState (s : State) (q e st : Nat) : State :=
  match s.queues.get q with
  | some d => ringWrite s d e 0x78 (bytesOf st 1)
  | none => s

/-- Claims the entry at the tail of a queue (R147, R163). -/
def claimEntry (s : State) (q : Nat) : Option (State × Nat) :=
  match s.queues.get q with
  | none => none
  | some d =>
    if d.isOpen && entryFree (entryState s d d.tail) then
      some ({ s with queues := s.queues.put q { d with tail := (d.tail + 1) % 2 ^ d.log2 } }, d.tail)
    else none

/-- The checked accesses of a range that has been checked, page by page. -/
def accsAt (s : State) (w : Who) (va n perm akind : Nat) : List Acc :=
  (pagePieces (globalVa s w va) n).filterMap (fun p =>
    match checkAcc s w (va + p.1) p.2 perm akind 1 0 0 with | .ok a => some a | .error _ => none)

/-- LAUNCH (R163): the entry is claimed and the source is translated and checked, as a thread's load is, at issue; a source that a lock covers
traps, with nothing claimed (R247). -/
def execLaunch (w : W1) (x : ExtE) (s : State) : Out :=
  let b := s.batch
  let q := x.imm.toNat % 64
  .next (execSlot (.launch w x) s x.slot.toNat (fun s e t =>
    let (src, p) := rdN e t w.a.toNat 2
    if p.isBad then .trap s (poisonTrap t p 7)
    else
      match claimEntry s q with
      | none => .trap s { code := 0x1B, detail := q }
      | some (s1, k) =>
        let mk := fun (src : List Acc) (bad : Option FRec) => s1.addOp
          { kind := .launch q k src bad, th := e.pl, ths := [e.pl], grps := [placeGroup e.pl], slot := some x.slot.toNat,
            batch := b, dst := w.d.toNat, nd := 1, rel := some 2 }
        match rangeAt s e.who src 0x78 0 9 with
        | .error f => .ok (mk [] (some f))
        | .ok _ =>
          let as := accsAt s e.who src 0x78 0 9
          match as.findSome? (fun a => lockTrap s a (lockAddr s e.who a.va) 9 false) with
          | some tr => .trap s tr
          | none => .ok (mk as none)))

/-- What a thread's plain load of an access reads, sector by sector, and the cause that it meets: no port to the host, no route to the peer,
or poison in memory (R163, R364, R365). -/
def readAcc (s : State) (o : Op) (a : Acc) : State × List Byte × Option Nat :=
  match a.loc with
  | .scratch tm off => (s, scratchBytes s tm off a.size, (scratchPois s tm off a.size).map (fun _ => 0x05))
  | .phys y0 =>
    (pieces y0 a.size).foldl (fun (s, bs, c) p =>
      let y := p.2.1
      let (s1, b, q) :=
        if spaceOf y == 1 then
          (s, homeBytes s.mem y p.2.2, if peerLost s a || o.lost.isSome then some 0x1A else (homePois s.mem y).map (fun _ => 0x05))
        else
          let (s1, b, q) := readPiece s (askOf s o.th a) o.batch (teamOf s o.th) a.tow y p.2.2
          (s1, b, q.map (fun _ => if hostGone s y then 0x19 else 0x05))
      (s1, bs ++ b, match c with | some _ => c | none => q)) (s, [], none)

/-- What a LAUNCH reads of its source, page by page, and the record of the first page that gives poison (R163). Log 112: DESIGN
CHOICE, unsafe. -/
def readSource (s : State) (o : Op) (src : List Acc) : State × List Byte × Option FRec :=
  src.foldl (fun (s, bs, c) a =>
    let (s1, b, q) := readAcc s o a
    (s1, bs ++ b, match c with | some _ => c | none => q.map (a.record 9))) (s, [], none)

/-- LAUNCH_COMPLETE (R163): after its release, the packet is copied and posted, or the claim is cancelled. -/
def execLaunchComplete (op : Nat) (s : State) : Out :=
  match s.ops.get op with
  | none => .next s
  | some o =>
    match o.kind with
    | .launch q k src bad =>
      if blocked s op o || (o.rel.isSome && !o.relDone) || src.any (fun a => match a.loc with
          | .phys y => spaceOf y == 1 && sendHeld s (peerOf y)
          | _ => false) then .next s
      else
        let poison := fun (s : State) (r : FRec) =>
          ((setEntryState s q k 0x80).updThread o.th (fun t =>
            if t.st == .exited then t else let (t1, p) := t.newRec r false; wrN t1 o.dst 0 p 1)).endOp op
        match bad with
        | some f => .next (poison s f)
        | none =>
          let (s1, bs, c) := readSource s o src
          let back := fun (s : State) => src.foldl (fun s a => returnRead s o.batch a) s
          match c with
          | some r => .next (back (poison s1 r))
          | none =>
            let s2 := match s1.queues.get q with
              | some d => ringWrite (ringWrite s1 d k 0 bs) d k 0x78 (bytesOf 1 1)
              | none => s1
            .next (back ((s2.deliver o.th o.dst 1 k .clean).endOp op))
    | _ => .next s

/-! ### SVC and TRAP (R164, R165, R403) -/

/-- Request entries of a core's mailbox that are free and not promised to an SVC (R342). -/
def freeRequests (s : State) (core : Nat) : Nat :=
  56 - (s.mail.find (fun k _ => k / 64 == core && k % 64 < 56)).length - (s.posts.find (fun _ p => p.core == core && p.resv)).length

/-- SVC (R164): posts while request entries remain, and holds the issue group when they run out. -/
def execSvc (w : W1) (x : ExtE) (s : State) : Out :=
  let b := s.batch
  .next (execSlot (.svc w x) s x.slot.toNat (fun s e t =>
    let (a, p) := rd e t w.a.toNat
    let (c, q) := rd e t w.b.toNat
    let (d, r) := rd e t x.c.toNat
    let bad := (p.or q).or r
    if bad.isBad then .trap s (poisonTrap t bad 6)
    else if freeRequests s e.core == 0 then .hold s
    else
      let mrec := trapRec s e.pl t 1 0 x.imm.toNat (s.runHdr + 4 * (s.runWix + 1)) s.runHdr s.runWix
        (bytesOf a 4 ++ bytesOf c 4 ++ bytesOf d 4)
      let k := s.serial
      let s1 := s.addOp { kind := .svc (k + 1), th := e.pl, ths := [e.pl], grps := [placeGroup e.pl], slot := some x.slot.toNat, batch := b,
                          dst := w.d.toNat, nd := 1 }
      .ok ((s1.post { core := e.core, mrec := mrec, th := some e.pl, op := some k, resv := true }).serve e.pl)))

/-- TRAP (R165). -/
def execTrap (w : W1) (x : ExtE) (s : State) : Out :=
  .next (execLanes (.trap w x) s (fun s e t =>
    let (a, p) := rd e t w.a.toNat
    if p.isBad then .trap s (poisonTrap t p 7) else .trap s { code := 0x17, detail := x.imm.toNat, payload := bytesOf a 4 }))

end Sys2Proof.Machine
end

