-- ==== Sys2Proof/Machine/Ferry.lean ====
section
/-! DEFINITION. Ferry commands, range locks, tier schedules and FWAIT (R274 to R287, R246, R247, R254). -/

namespace Sys2Proof.Machine

/-! ### Parameter blocks (R276 to R279) -/

def blkSrc (b : List Byte) : Nat := fieldAt b 0x00 8
def blkDst (b : List Byte) : Nat := fieldAt b 0x08 8
def blkLen (b : List Byte) : Nat := fieldAt b 0x10 4
def blkCmap (b : List Byte) : Nat := fieldAt b 0x14 4
def blkScope (b : List Byte) : Nat := fieldAt b 0x18 1
def blkClr (b : List Byte) : Bool := (fieldAt b 0x19 1).testBit 0
def blkBare (b : List Byte) : Bool := (fieldAt b 0x19 1).testBit 1
def blkBarid (b : List Byte) : Nat := fieldAt b 0x1A 1 % 16
/-- `CMASK`, `IDX`, `META` or `SCHED`. -/
def blkAux (b : List Byte) : Nat := fieldAt b 0x20 8
def blkNidx (b : List Byte) : Nat := fieldAt b 0x28 4
def blkEsize (b : List Byte) : Nat := fieldAt b 0x2C 1 % 16
def blkItype (b : List Byte) : Nat := fieldAt b 0x2D 1 % 2
def blkEtype (b : List Byte) : Nat := fieldAt b 0x2D 1
def blkBound (b : List Byte) : Nat := fieldAt b 0x30 8
def blkStride (b : List Byte) : Nat := fieldAt b 0x38 4
def blkLook (b : List Byte) : Nat := fieldAt b 0x2C 1

/-- Bytes `lo` up to `hi` of a block are zero. -/
def zeroAt (b : List Byte) (lo hi : Nat) : Bool := fieldAt b lo (hi - lo) == 0

/-- The command that a block and function describe. -/
def cmdOf (team core th fn q : Nat) (blk : List Byte) (at0 : Nat) (scratch : Bool) (targets : List Nat) : Cmd :=
  { team := team, core := core, th := th, fn := fn, q := q, blk := blk, blkAt := at0, blkScratch := scratch, promise := 0, targets := targets }

/-- Every field that must be zero is, and `SCOPE` is 1 to 4 (cause 1). -/
def blkZeros (fn : Nat) (b : List Byte) : Bool :=
  let f19 := fieldAt b 0x19 1
  let f1A := fieldAt b 0x1A 1
  1 ≤ blkScope b && blkScope b ≤ 4 && f19 / 4 == 0 && f1A / 16 == 0 && zeroAt b 0x1B 0x1C
    && (fn == 1 || (!blkBare b && f1A == 0))
    && (match fn with
      | 0 => zeroAt b 0x20 0x40
      | 1 => fieldAt b 0x20 1 / 16 == 0 && zeroAt b 0x21 0x40
      | 2 | 3 => fieldAt b 0x2C 1 / 16 == 0 && fieldAt b 0x2D 1 / 2 == 0 && zeroAt b 0x2E 0x30
      | 4 | 5 => zeroAt b 0x28 0x2D && zeroAt b 0x2E 0x3C
      | _ => zeroAt b 0x00 0x18 && f19 == 0 && zeroAt b 0x2D 0x40)

/-- Teams of the gang of a team; a team of no gang is a gang of one (R18, R284). -/
def gangOf (s : State) (team : Nat) : List Nat :=
  match s.teams.get team with
  | none => []
  | some tm =>
    if tm.pkt.gang ≤ 1 then [team]
    else (s.teams.find (fun _ x => x.grid == tm.grid && x.index / tm.pkt.gang == tm.index / tm.pkt.gang)).map (·.1)

/-- The member of a team's gang on core `c` of its cluster. -/
def gangAt (s : State) (team c : Nat) : Option Nat :=
  match s.teams.get team with
  | none => none
  | some tm => (gangOf s team).find? (fun k => match s.teams.get k with
    | some x => x.core == clusterOf tm.core * 4 + c
    | none => false)

/-- Target teams of a command; `none` where `CMASK` is not valid (R279 cause 5). -/
def cmdTargets (s : State) (team fn : Nat) (b : List Byte) : Option (List Nat) :=
  if fn != 1 then some [team]
  else
    let m := fieldAt b 0x20 1 % 16
    if m == 0 then none
    else ((upto 4).filter (m.testBit ·)).mapM (fun c => gangAt s team c)

/-- Ranges that a command reads: generic address and length (R282). -/
def Cmd.srcRanges (c : Cmd) : List (Nat × Nat) :=
  let b := c.blk
  let iw := if blkItype b == 1 then 8 else 4
  match c.fn with
  | 2 => [(blkAux b, blkNidx b * iw), (blkSrc b, blkBound b * blkStride b)]
  | 3 => [(blkAux b, blkNidx b * iw), (blkSrc b, c.len)]
  | 4 => [(blkSrc b, c.len / 2), (blkAux b, (c.len + 8 * c.esize - 1) / (8 * c.esize))]
  | 6 => []
  | _ => [(blkSrc b, c.len)]

/-- Ranges that a command writes (R282). -/
def Cmd.dstRanges (c : Cmd) : List (Nat × Nat) :=
  let b := c.blk
  match c.fn with
  | 3 => [(blkDst b, blkBound b * blkStride b)]
  | 5 => [(blkDst b, c.len / 2), (blkAux b, (c.len + 8 * c.esize - 1) / (8 * c.esize))]
  | 6 => []
  | _ => [(blkDst b, c.len)]

/-- The check of a block at acceptance: the first cause that applies (R279). -/
def blockCheck (s : State) (c : Cmd) (bound : Nat) (targets : Option (List Nat)) : Option Nat :=
  let b := c.blk
  let fn := c.fn
  let E := c.esize
  let len := c.len
  let gs := fn == 2 || fn == 3
  let sp := fn == 4 || fn == 5
  let map := blkCmap b
  let mapEnd := map + 4 * ((c.nchunks + 31) / 32)
  let cut := fun (x : Nat × Nat) => x.2 != 0 && windowOf x.1 == 1 && map < x.1 - scratchBase + x.2 && x.1 - scratchBase < mapEnd
  if !blkZeros fn b then some 1
  else if fn != 6 && (len == 0 || 4194304 < len || (sp && len % (4 * E) != 0)
      || (gs && (blkNidx b == 0 || 65536 < blkNidx b || len != blkNidx b * E))) then some 2
  else if (fn == 0 && (blkSrc b % 512 != 0 || blkDst b % 512 != 0))
      || (fn == 1 && (windowOf (blkSrc b) != 0 || blkSrc b % 512 != 0 || windowOf (blkDst b) != 1 || blkDst b % 512 != 0))
      || ((gs || sp) && blkSrc b % E != 0) || (gs && blkAux b % E != 0) then some 3
  else if blkScope b == 3 && !s.feature 2 then some 4
  else if targets.isNone then some 5
  else if fn != 6 && map != 0xFFFFFFFF && (map % 4 != 0 || bound < mapEnd || (c.blkScratch && map < c.blkAt + 64 && c.blkAt < mapEnd)
      || (c.srcRanges ++ c.dstRanges).any cut) then some 6
  else if (gs && 8 < blkEsize b) || (sp && !([6, 7, 8, 9, 11, 13].contains (blkEtype b))) then some 7
  else if gs && (blkBound b == 0 || blkStride b == 0 || blkStride b % E != 0) then some 8
  else if fn == 6 && (blkNidx b == 0 || 65536 < blkNidx b || blkLook b == 0 || 15 < blkLook b) then some 9
  else none

/-! ### The block in memory -/

/-- Writes of a team's engine commands count for the completion of its grid (R153, R245). -/
def engineWrote (s : State) (team : Nat) (g : WClock) : State := s.updTeam team (fun tm => { tm with wrote := tm.wrote.join g })

/-- Writes bytes of a command's block, and their GWCTs. -/
def Cmd.writeBack (s : State) (c : Cmd) (off : Nat) (bs : List Byte) : State × WClock :=
  if c.blkScratch then (scratchWrite s c.team (c.blkAt + off) bs, { t := s.mod.now })
  else
    match writeRange s (teamWho s c.team c.th) (c.blkAt + off) (cleanBytes bs) 5 (some c.core) with
    | .ok (s1, g) => (engineWrote s1 c.team g, g)
    | .error _ => (s, {})

/-- A command's block lies at a peer to which every request lane is paused: nothing of it is written now (R362). -/
def Cmd.blockHeld (s : State) (c : Cmd) : Bool := !c.blkScratch && rangeHeld s (teamWho s c.team c.th) c.blkAt 64

/-- Sets or clears bits of a chunk map. -/
def mapBit (s : State) (team map c : Nat) (v : Bool) : State :=
  if map == 0xFFFFFFFF then s
  else
    let o := map + 4 * (c / 32)
    let w := leNat (scratchBytes s team o 4)
    let bit := 2 ^ (c % 32)
    scratchWrite s team o (bytesOf (if v then w ||| bit else w - (w &&& bit)) 4)

/-- Records the GWCTs of a chunk whose bit has been set (R254). -/
def mapGwct (s : State) (team map c : Nat) (g : WClock) : State :=
  if map == 0xFFFFFFFF then s
  else s.updTeam team (fun tm => { tm with gws := tm.gws.put ((map + 4 * (c / 32)) * 32 + c % 32) g })

/-! ### Range locks (R247, R274) -/

/-- A range as the lock table holds it. -/
def lockRange (s : State) (w : Who) (r : Nat × Nat) : LRange :=
  if windowOf r.1 == 1 then { scratch := true, owner := w.team, base := r.1 - scratchBase, len := r.2 }
  else { scratch := false, owner := w.asid, base := globalVa s w r.1, len := r.2 }

/-- Lock entries of a command: one for its sources, one for each destination team or range; they take their order when they are registered. -/
def Cmd.locks (s : State) (c : Cmd) (id : Nat) : List Lock :=
  let w := teamWho s c.team c.th
  if c.fn == 6 then []
  else
    { cmd := id, pass := false, dest := false, ranges := c.srcRanges.map (lockRange s w), order := 0 } ::
      (c.targets.map (fun t => c.dstRanges.map (fun r =>
        ({ cmd := id, pass := false, dest := true, order := 0,
           ranges := [if c.fn == 1 then { lockRange s w r with owner := t } else lockRange s w r] } : Lock)))).flatten

/-- Lock entries of a die in use. -/
def locksUsed (s : State) (die : Nat) : Nat := (s.mem.locks.find (fun k _ => k / 4096 == die)).length

/-- Registers locks in the lowest free entries of a die, after all that are registered. -/
def addLocks (s : State) (die : Nat) (ls : List Lock) : State :=
  ls.foldl (fun s l =>
    match (upto 4096).find? (fun i => !s.mem.locks.has (die * 4096 + i)) with
    | some i => s.setMem { s.mem with locks := s.mem.locks.put (die * 4096 + i) { l with order := s.serial } }
    | none => s) { s with serial := s.serial + 1 }

/-- Gives back the locks of a command or pass. -/
def dropLocks (s : State) (id : Nat) (pass : Bool) : State :=
  s.setMem { s.mem with locks := s.mem.locks.find (fun _ l => !(l.cmd == id && l.pass == pass)) }

/-- The order of a command's or a pass's registration. -/
def lockOrder (s : State) (id : Nat) (pass : Bool) : Nat :=
  match (s.mem.locks.find (fun _ l => l.cmd == id && l.pass == pass)).head? with
  | some e => e.2.order
  | none => s.serial

/-- Whether an earlier registration of the die still locks a chunk of a range (R247). -/
def lockedBefore (s : State) (die id : Nat) (pass : Bool) (r : LRange) : Bool :=
  s.mem.locks.any (fun e => e.1 / 4096 == die && e.2.order < lockOrder s id pass && !(e.2.cmd == id && e.2.pass == pass) &&
    e.2.ranges.any (fun x => x.hits r.scratch r.owner r.base r.len (chunkLocked s e.2 x)))

/-! ### Acceptance (R280, R281) -/

/-- Rate of the memory that a generic address names, bytes per ns (R281). -/
def rateAt (s : State) (w : Who) (va : Nat) : Nat :=
  if windowOf va == 1 then 128
  else
    match (transVa s w.asid (globalVa s w va)).page with
    | some (_, a) => if a.kind == 0 then 128 else if a.kind == 1 then 32 else 16
    | none => 128

/-- Generic address and length of what a command touches: the ranges that its chunks read, the elements that its indices name now among them,
and what it writes (R281, R282). -/
def Cmd.touches (s : State) (c : Cmd) : List (Nat × Nat) :=
  let E := c.esize
  ((upto c.nchunks).map (fun k => c.reads k (c.index s))).flatten ++
    (if c.fn == 3 then
      (upto (blkNidx c.blk)).filterMap (fun i => (c.index s i).map (fun v => (blkDst c.blk + v * blkStride c.blk, E)))
    else c.dstRanges)

/-- The promise of a command: at the slowest rate among the pages that it touches (R281). -/
def promiseOf (s : State) (c : Cmd) : Nat :=
  if c.fn == 6 then s.mod.now
  else
    let w := teamWho s c.team c.th
    let rate := (c.touches s).foldl (fun m r => (pagePieces r.1 r.2).foldl (fun m p => min m (rateAt s w (r.1 + p.1))) m) 128
    let bytes := if c.fn == 2 || c.fn == 3 then blkNidx c.blk * max c.esize 64 else c.len
    max s.mod.now (s.proms.getD (c.core * 2 + c.q) 0) + 64 + (bytes + rate - 1) / rate

/-- Commands that hold entries of a Ferry queue. -/
def queueUsed (s : State) (core q : Nat) : Nat := (s.cmds.find (fun _ c => c.core == core && c.q == q)).length

/-- Whether a queue entry and the lock entries of a command are free. -/
def cmdRoom (s : State) (c : Cmd) : Bool :=
  queueUsed s c.core c.q < 64 && locksUsed s (dieOf c.core) + (c.locks s 0).length ≤ 4096

/-- A copied block with its targets. -/
def readCmd (s : State) (team core th fn q : Nat) (blk : List Byte) (at0 : Nat) (scratch : Bool) : Cmd :=
  cmdOf team core th fn q blk at0 scratch ((cmdTargets s team fn blk).getD [])

/-- Accepts or rejects a command; the value that `D` takes (R279, R280). A TIER's promise is one of the queue's too (R281). Log 119: DEDUCED, unsafe. -/
def acceptCmd (s : State) (c : Cmd) : State × Nat :=
  let bound := match s.teams.get c.team with | some tm => tm.bound | none => 0
  match blockCheck s c bound (cmdTargets s c.team c.fn c.blk) with
  | some cause => ((c.writeBack s 0x1C (bytesOf (4 + 256 * cause) 2)).1, 0xFFFFFFFFFFFFFFFF)
  | none =>
    let id := s.serial
    let p := promiseOf s c
    let c := { c with promise := p }
    let s1 := { s with serial := id + 1, proms := s.proms.put (c.core * 2 + c.q) p }
    if c.fn == 6 then
      let s2 := s1.updTeam c.team (fun tm => { tm with tier := some ⟨blkAux c.blk, blkNidx c.blk, 0, blkLook c.blk⟩ })
      ((c.writeBack (c.writeBack s2 0x1C (bytesOf 1 1)).1 0x1C (bytesOf 2 1)).1, time64 p)
    else
      let s2 := addLocks { s1 with cmds := s1.cmds.put id c } (dieOf c.core) (c.locks s id)
      let s3 := if blkClr c.blk then
          c.targets.foldl (fun s t => (upto c.nchunks).foldl (fun s k => mapBit s t (blkCmap c.blk) k false) s) s2
        else s2
      let s4 := if c.fn == 1 && blkBare c.blk then
          c.targets.foldl (fun s t => s.updTeam t (fun tm =>
            let b := tm.bars.getD (blkBarid c.blk * 16) {}
            { tm with bars := tm.bars.put (blkBarid c.blk * 16) { b with owed := b.owed + 1 } })) s3
        else s3
      ((c.writeBack s4 0x1C (bytesOf 1 1)).1, time64 p)

/-- The record of the checks of a FERRY's block offset (R280, R202): past the scratchpad's end it names the global address that the sum is.
Log 97: DEDUCED, unsafe. -/
def offsetRec (s : State) (e : Env) (o akind cause : Nat) : FRec := faultRec s e.who (scratchBase + o) akind cause

/-- FERRY on one thread: its checks, then its command waits for acceptance and holds the issue group (R275, R280). -/
def ferryThread (w : W1) (x : ExtE) (fn b : Nat) (s : State) (e : Env) (t : Thread) : Res :=
  let (o, p) := rd e t w.a.toNat
  if e.sup || e.role != 0 then .trap s { code := 0x09 }
  else if p.isBad then .trap s (poisonTrap t p 2)
  else if o % 64 != 0 then .trap s (.ofRec (offsetRec s e o 4 0x10))
  else if e.scru * 4096 < o + 64 then .trap s (.ofRec (offsetRec s e o 4 0x13))
  else
    let k := s.serial
    let s1 := s.addOp { kind := .ferry fn (x.imm.toNat % 2) o true true, th := e.pl, ths := [e.pl], grps := [placeGroup e.pl],
                        slot := some x.slot.toNat, batch := b, dst := w.d.toNat, nd := 2 }
    let s2 := s1.serve e.pl
    .hold { s2 with issues := s2.issues.upd s2.cur (fun y => { y with holds := k :: y.holds }) }

/-- FERRY of a function (R280). -/
def execFerry (i : Instr) (w : W1) (x : ExtE) (fn : Nat) (s : State) : State :=
  execSlot i s x.slot.toNat (ferryThread w x fn s.batch)

/-- FERRY COPY (R278). -/
def execFerryCopy (w : W1) (x : ExtE) (s : State) : Out := .next (execFerry (.ferryCopy w x) w x 0 s)
/-- FERRY MCAST (R284). -/
def execFerryMcast (w : W1) (x : ExtE) (s : State) : Out := .next (execFerry (.ferryMcast w x) w x 1 s)
/-- FERRY GATHER (R282). -/
def execFerryGather (w : W1) (x : ExtE) (s : State) : Out := .next (execFerry (.ferryGather w x) w x 2 s)
/-- FERRY SCATTER (R282). -/
def execFerryScatter (w : W1) (x : ExtE) (s : State) : Out := .next (execFerry (.ferryScatter w x) w x 3 s)
/-- FERRY EXP24 (R282). -/
def execFerryExp24 (w : W1) (x : ExtE) (s : State) : Out := .next (execFerry (.ferryExp24 w x) w x 4 s)
/-- FERRY CMP24 (R282). -/
def execFerryCmp24 (w : W1) (x : ExtE) (s : State) : Out := .next (execFerry (.ferryCmp24 w x) w x 5 s)
/-- FERRY TIER (R285). -/
def execFerryTier (w : W1) (x : ExtE) (s : State) : Out := .next (execFerry (.ferryTier w x) w x 6 s)

/-! ### Tier schedules (R285, R286) -/

/-- LMARK (R286): its walk goes on until no entry is left for it. -/
def execLmark (w : W1) (x : ExtE) (s : State) : Out :=
  let b := s.batch
  .next (execSlot (.lmark w x) s x.slot.toNat (fun s e t =>
    let (n, p) := rd e t w.a.toNat
    if e.sup || e.role != 0 then .trap s { code := 0x09 }
    else if p.isBad then .trap s (poisonTrap t p 7)
    else .ok (s.addOp { kind := .lmark n, th := e.pl, ths := [], grps := [placeGroup e.pl], slot := some x.slot.toNat, batch := b })))

/-- Advances the cursor of a tier schedule. -/
def tierNext (s : State) (team : Nat) : State :=
  s.updTeam team (fun tm => { tm with tier := tm.tier.map (fun x => { x with cur := x.cur + 1 }) })

/-- What an LMARK's thread loads of a schedule, served as a load of the thread is, or the record of the fault or poison that the load meets
(R286). -/
def loadRange (s : State) (o : Op) (w : Who) (va n : Nat) : State × Except FRec (List Byte) :=
  match rangeAt s w va n 0 4 with
  | .error f => (s, .error f)
  | .ok _ =>
    let (s1, bs, c) := (accsAt s w va n 0 4).foldl (fun (s, bs, c) a =>
      let (s1, b, q) := readAcc s o a
      (returnRead s1 o.batch a, bs ++ b, match c with | some _ => c | none => q)) (s, ([] : List Byte), (none : Option Nat))
    (s1, match c with | some k => .error { faultRec s w va 4 k with cause := k } | none => .ok bs)

/-- The entry of a tier schedule at its cursor, and what stands before it is issued: its function, queue and block address, or the record of
the fault that its read meets; `none` where the walk of an LMARK of layer `n` ends (R285, R286). Log 121: DESIGN CHOICE, unsafe. -/
def tierEntry (s : State) (o : Op) (w : Who) (ti : Tier) (cur n : Nat) : State × Option (Except FRec (Nat × Nat × Nat)) :=
  if ti.nent ≤ cur then (s, none)
  else
    match loadRange s o w (ti.sched + 16 * cur) 16 with
    | (s1, .error f) => (s1, some (.error f))
    | (s1, .ok eb) =>
      if n + ti.look < fieldAt eb 0 4 then (s1, none)
      else (s1, some (.ok (fieldAt eb 4 1 % 8, fieldAt eb 4 1 / 8 % 2, fieldAt eb 8 8)))

/-- Whether the walk of an LMARK still has an entry for a queue: `fuel` entries from `cur` on. -/
def tierNames (s : State) (o : Op) (w : Who) (ti : Tier) (n q : Nat) : Nat → Nat → Bool
  | 0, _ => false
  | k + 1, cur =>
    match (tierEntry s o w ti cur n).2 with
    | some (.ok (fn, eq, _)) => (eq == q && fn ≤ 5) || tierNames s o w ti n q k (cur + 1)
    | _ => false

/-- Whether an earlier operation of the core still has a command to be accepted on a queue: a FERRY, or an LMARK whose walk has an entry for it
(R274). -/
def queueBefore (s : State) (op core q : Nat) : Bool :=
  s.ops.any (fun e => e.1 < op && placeCore e.2.th == core && (match e.2.kind with
    | .ferry _ r _ _ _ => r == q
    | .lmark n =>
      (match s.threads.get e.2.th with
        | some t => (match (s.teams.get t.team).bind (·.tier) with
          | some ti => tierNames s e.2 (envOf s e.2.th t).who ti n q (ti.nent - ti.cur) ti.cur
          | none => false)
        | none => false)
    | _ => false))

/-- One entry of an LMARK's walk, or its end (R286). Log 29: DEDUCED, unsafe. Log 33: DEDUCED, safe. -/
def lmarkStep (s : State) (op : Nat) (o : Op) (n : Nat) : State :=
  match s.threads.get o.th with
  | none => s.endOp op
  | some t =>
    match s.teams.get t.team with
    | none => s.endOp op
    | some tm =>
      match tm.tier with
      | none => s.endOp op
      | some ti =>
        let w := (envOf s o.th t).who
        if rangeHeld s w (ti.sched + 16 * ti.cur) 16 then s
        else
          match tierEntry s o w ti ti.cur n with
          | (s, none) => s.endOp op
          | (s, some (.error f)) => (s.faultOf (unitFerry tm.core) o.th t.team o.word f).endOp op
          | (s, some (.ok (efn, q, at0))) =>
            if 5 < efn then tierNext s t.team
            else if queueBefore s op tm.core q || rangeHeld s w at0 64 then s
            else if at0 % 64 != 0 then tierNext (s.faultOf (unitFerry tm.core) o.th t.team o.word (faultRec s w at0 4 0x10)) t.team
            else
              match loadRange s o w at0 64 with
              | (s, .error f) => tierNext (s.faultOf (unitFerry tm.core) o.th t.team o.word f) t.team
              | (s, .ok bs) =>
                let scratch := windowOf at0 == 1
                let c := { readCmd s t.team tm.core o.th efn q bs (if scratch then at0 - scratchBase else at0) scratch with word := o.word }
                if cmdRoom s c then tierNext (acceptCmd s c).1 t.team else s

/-- Whether an engine operation waits behind its thread's earlier releases, acquires or stores (R246, R280). Log 23: DEDUCED, safe. -/
def engineHeld (s : State) (op th : Nat) : Bool :=
  s.ops.any (fun e => e.1 < op && e.2.threads.contains th && ((e.2.rel.isSome && !e.2.relDone) || e.2.acq.isSome || e.2.writes))

/-- FERRY_ACCEPT (R280): the block is copied and checked and the command accepted in issue order of its queue; or an
LMARK's walk takes its next entry (R286). -/
def execFerryAccept (op : Nat) (s : State) : Out :=
  match s.ops.get op with
  | none => .next s
  | some o =>
    match o.kind with
    | .ferry fn q blk _ _ =>
      let core := placeCore o.th
      if queueBefore s op core q || engineHeld s op o.th then .next s
      else
        match s.threads.get o.th with
        | none => .next (s.endOp op)
        | some t =>
          let c := { readCmd s t.team core o.th fn q (scratchBytes s t.team blk 64) blk true with word := o.word }
          if !cmdRoom s c then .next s
          else
            let (s1, d) := acceptCmd s c
            .next ((s1.deliver o.th o.dst 2 d .clean).endOp op)
    | .lmark n =>
      let before := s.ops.any (fun e => e.1 < op && placeCore e.2.th == placeCore o.th && (match e.2.kind with
        | .lmark _ => (s.threads.get e.2.th).map (·.team) == (s.threads.get o.th).map (·.team)
        | _ => false))
      if before || engineHeld s op o.th then .next s else .next (lmarkStep s op o n)
    | _ => .next s

/-! ### Chunks (R282 to R284) -/

/-- What a chunk writes: generic address and bytes of each write in order, what it adds to `COUNT`, and the first
poisoned source address. -/
structure ChunkOut where
  writes : List (Nat × List PByte) := []
  count : Nat := 0
  pois : Option Nat := none
  deriving DecidableEq, Repr, Inhabited

/-- The address of the first poisoned byte. -/
def poisAt (va : Nat) (bs : List PByte) : Option Nat := (bs.findIdx? (·.2)).map (va + ·)

/-- Joins a step to what a chunk has gathered. -/
def ChunkOut.add (a b : ChunkOut) : ChunkOut := ⟨a.writes ++ b.writes, a.count + b.count, a.pois.orElse (fun _ => b.pois)⟩

/-- Runs a step for each number, to the first fault. -/
def chunkFold (f : Nat → Except FRec ChunkOut) : List Nat → ChunkOut → Except FRec ChunkOut
  | [], a => .ok a
  | i :: r, a =>
    match f i with
    | .error e => .error e
    | .ok b => chunkFold f r (a.add b)

/-- Rank of a CMP24 element by magnitude (R282). -/
def cmpRank (etype x : Nat) : Nat :=
  match etype with
  | 11 => (toSigned 8 x).natAbs
  | 13 => (toSigned 16 x).natAbs
  | _ =>
    match floatFmt etype with
    | some f => if f.dec x == .nan then 2 ^ 16 else x % f.signBit
    | none => x

/-- The two elements of four that CMP24 keeps, in position order. -/
def cmpKeep (etype : Nat) (xs : List Nat) : List Nat :=
  let ranked := sortBy (fun i => 2 ^ 17 - cmpRank etype (xs.getD i 0)) (upto 4)
  sortBy id (ranked.take 2)

/-- A mask nibble with exactly two bits set. -/
def maskOk (m : Nat) : Bool := ((upto 4).filter (m.testBit ·)).length == 2

/-- One chunk of a command (R282). The unused nibble of a last odd `META` byte is free, a function of the last group (R90). -/
def chunkRun (s : State) (cm : Cmd) (c : Nat) : Except FRec ChunkOut :=
  let w := teamWho s cm.team cm.th
  let b := cm.blk
  let E := cm.esize
  let lo := 512 * c
  let n := min 512 ((if cm.fn == 5 then cm.len / 2 else cm.len) - lo)
  let iw := if blkItype b == 1 then 8 else 4
  let rdx := fun (va k : Nat) => readRange s w va k 4
  let index := fun (i : Nat) => match rdx (blkAux b + i * iw) iw with
    | .error e => Except.error e
    | .ok bs => Except.ok (if anyPois bs then (none, poisAt (blkAux b + i * iw) bs)
        else if leNat (plain bs) < blkBound b then (some (leNat (plain bs)), none) else (none, none))
  match cm.fn with
  | 2 =>
    chunkFold (fun j =>
      let i := lo / E + j
      match index i with
      | .error e => .error e
      | .ok (none, p) => .ok ⟨[(blkDst b + i * E, (zeros E).map (fun z => (z, p.isSome)))], 1, p⟩
      | .ok (some v, _) =>
        match rdx (blkSrc b + v * blkStride b) E with
        | .error e => .error e
        | .ok bs => .ok ⟨[(blkDst b + i * E, bs)], 0, poisAt (blkSrc b + v * blkStride b) bs⟩) (upto (n / E)) {}
  | 3 =>
    chunkFold (fun j =>
      let i := lo / E + j
      match index i with
      | .error e => .error e
      | .ok (none, p) => .ok ⟨[], 1, p⟩
      | .ok (some v, _) =>
        match rdx (blkSrc b + i * E) E with
        | .error e => .error e
        | .ok bs => .ok ⟨[(blkDst b + v * blkStride b, bs)], 0, poisAt (blkSrc b + i * E) bs⟩) (upto (n / E)) {}
  | 4 =>
    chunkFold (fun j =>
      let g := lo / (4 * E) + j
      match rdx (blkSrc b + 2 * g * E) (2 * E), rdx (blkAux b + g / 2) 1 with
      | .error e, _ => .error e
      | _, .error e => .error e
      | .ok vs, .ok ms =>
        let m := (leNat (plain ms)) / (if g % 2 == 0 then 1 else 16) % 16
        let badm := anyPois ms
        let pos := (upto 4).filter (m.testBit ·)
        let group := ((upto 4).map (fun k =>
          if !maskOk m then (zeros E).map (fun z => (z, badm))
          else
            match pos.findIdx? (· == k) with
            | some r => ((vs.drop (r * E)).take E).map (fun x => (x.1, x.2 || badm))
            | none => (zeros E).map (fun z => (z, badm)))).flatten
        .ok ⟨[(blkDst b + 4 * g * E, group)], if maskOk m then 0 else 1,
             (poisAt (blkSrc b + 2 * g * E) vs).orElse (fun _ => poisAt (blkAux b + g / 2) ms)⟩) (upto (n / (4 * E))) {}
  | 5 =>
    let groups := n / (2 * E)
    let g0 := lo / (2 * E)
    let one := fun (g : Nat) => match rdx (blkSrc b + 4 * g * E) (4 * E) with
      | .error e => Except.error e
      | .ok bs =>
        let xs := (upto 4).map (fun k => leNat (plain ((bs.drop (k * E)).take E)))
        let keep := cmpKeep (blkEtype b) xs
        -- which elements are kept is computed from the whole group, poison included
        let vals : List PByte := (keep.map (fun k => ((bs.drop (k * E)).take E).map (fun (x : PByte) => (x.1, anyPois bs)))).flatten
        let dropped := ((upto 4).filter (fun k => !keep.contains k && cmpRank (blkEtype b) (xs.getD k 0) != 0)).length
        Except.ok (vals, keep.foldl (fun m k => m + 2 ^ k) 0, anyPois bs, dropped, poisAt (blkSrc b + 4 * g * E) bs, xs)
    chunkFold (fun j =>
      -- two groups give one byte of masks
      match one (g0 + 2 * j) with
      | .error e => .error e
      | .ok (v1, m1, p1, d1, a1, x1) =>
        if 2 * j + 1 < groups then
          match one (g0 + 2 * j + 1) with
          | .error e => .error e
          | .ok (v2, m2, p2, d2, a2, _) =>
            .ok ⟨[(blkDst b + 2 * (g0 + 2 * j) * E, v1 ++ v2), (blkAux b + (g0 + 2 * j) / 2, [(BitVec.ofNat 8 (m1 + 16 * m2), p1 || p2)])],
                 d1 + d2, a1.orElse (fun _ => a2)⟩
        else
          .ok ⟨[(blkDst b + 2 * (g0 + 2 * j) * E, v1), (blkAux b + (g0 + 2 * j) / 2, [(BitVec.ofNat 8 (m1 + 16 * ((Config.cmpPad (blkEtype b) x1).toNat % 16)), p1)])], d1, a1⟩)
      (upto ((groups + 1) / 2)) {}
  | _ =>
    match rdx (blkSrc b + lo) n with
    | .error e => .error e
    | .ok bs => .ok ⟨[(blkDst b + lo, bs)], 0, poisAt (blkSrc b + lo) bs⟩

/-- The first fault that the writes of a chunk meet (R201, R283). Log 69: DEDUCED, unsafe. -/
def writesFault (s : State) (cm : Cmd) (ws : List (Nat × List PByte)) : Option FRec :=
  cm.targets.findSome? (fun t => ws.findSome? (fun x =>
    match rangeAt s { teamWho s cm.team cm.th with team := t } x.1 x.2.length 1 5 with
    | .error e => some e
    | .ok _ => none))

/-- A chunk's result, or the fault that one of its accesses meets. -/
def chunkTry (s : State) (cm : Cmd) (c : Nat) : Except FRec ChunkOut :=
  match chunkRun s cm c with
  | .error e => .error e
  | .ok o =>
    match writesFault s cm o.writes with
    | some e => .error e
    | none => .ok o

/-- The bytes that a chunk writes, by address: of two writes of one byte the later stands, poisoned where either was (R282). -/
def writtenBytes (ws : List (Nat × List PByte)) : Tab PByte :=
  ws.foldl (fun m w => w.2.zipIdx.foldl (fun (m : Tab PByte) b =>
    m.put (w.1 + b.2) (b.1.1, b.1.2 || (match m.get (w.1 + b.2) with | some o => o.2 | none => false))) m) []

/-- Bytes by rising address as whole runs, so that a sector that the chunk covers is written whole (R338). -/
def byteRuns : Tab PByte → List (Nat × List PByte)
  | [] => []
  | (a, b) :: r =>
    match byteRuns r with
    | (c, bs) :: q => if c == a + 1 then (a, b :: bs) :: q else (a, [b]) :: (c, bs) :: q
    | [] => [(a, [b])]

/-- The writes of a chunk as the agents of its target teams make them, translated. -/
def flightWrites (s : State) (cm : Cmd) (ws : List (Nat × List PByte)) : List FWrite :=
  (cm.targets.map (fun t =>
    let w := { teamWho s cm.team cm.th with team := t }
    ((byteRuns (writtenBytes ws)).map (fun x =>
      match rangeAt s w x.1 x.2.length 1 5 with
      | .error _ => []
      | .ok spans =>
        let tow := windowOf x.1 == 0 && towAt s w x.1
        (spans.foldl (fun (a : List FWrite × List PByte) sp =>
          (a.1 ++ [{ team := t, loc := sp.loc, kind := sp.kind, tow := tow, bytes := a.2.take sp.len }], a.2.drop sp.len)) ([], x.2)).1)).flatten)).flatten

/-- A command has started: a chunk of it has moved, or has faulted; a cancelled one keeps none behind it. -/
def Cmd.started (c : Cmd) : Bool := !c.chunks.isEmpty || !c.flight.isEmpty || c.bad.isSome || c.cancelled

/-- An earlier command of the same queue has not started, which goes first (R274); one of a stopped team does not move. -/
def startsLater (s : State) (id : Nat) (cm : Cmd) : Bool :=
  s.cmds.any (fun e => e.1 < id && e.2.core == cm.core && e.2.q == cm.q && !e.2.started
    && (match s.teams.get e.2.team with | some tm => tm.st != .stopped | none => false))

/-- Whether chunk `c` of a command may move now: it has not moved, no chunk has faulted, SCATTER keeps the order of its
elements, the team is not stopped, the commands of a queue start in order, no earlier registration locks what it touches, and nothing of it lies at
a peer to which nothing is sent (R247, R274, R282, R283, R352, R362). -/
def chunkReady (s : State) (id : Nat) (cm : Cmd) (c : Nat) (ws : List (Nat × List PByte)) : Bool :=
  let w := teamWho s cm.team cm.th
  let die := dieOf cm.core
  let free := fun (r : LRange) => !lockedBefore s die id false r
  c < cm.nchunks && cm.bad.isNone && !cm.cancelled && !cm.chunks.contains c && !cm.flight.any (fun f => f.chunk == c) &&
    (cm.fn != 3 || (upto c).all (fun k => cm.chunks.contains k)) &&
    (match s.teams.get cm.team with
      | some tm => tm.st == .running || tm.st == .stopping
      | none => false) && !startsLater s id cm &&
    (cm.reads c (cm.index s)).all (fun r => free (lockRange s w r) && !rangeHeld s w r.1 r.2) &&
    cm.targets.all (fun t => ws.all (fun x => free (lockRange s { w with team := t } (x.1, x.2.length))))

/-- A Ferry issues a chunk: its accesses are translated and its sources read; its writes are on their way (R204, R282). Both pages of a chunk
that straddles one are translated then. Log 100: DEDUCED, unsafe. -/
def startChunk (s : State) (id c : Nat) : State :=
  match s.cmds.get id with
  | none => s
  | some cm =>
    match chunkTry s cm c with
    | .error _ => s
    | .ok o =>
      if !chunkReady s id cm c o.writes then s
      else
        let gen := (s.xl.spaces.getD (teamWho s cm.team cm.th).asid {}).gen
        let f : Flight := { chunk := c, gen := gen, writes := flightWrites s cm o.writes, count := o.count, pois := o.pois }
        { s with cmds := s.cmds.put id { cm with flight := cm.flight ++ [f] } }

/-- Ends a command: its entries are given back (R274, R283). -/
def endCmd (s : State) (id : Nat) : State := dropLocks { s with cmds := s.cmds.del id } id false

/-- `COUNT`, where the function counts, is written before `STATE` (R283). -/
def Cmd.writeCount (s : State) (cm : Cmd) : State × WClock :=
  if 2 ≤ cm.fn && cm.fn ≤ 5 then cm.writeBack s 0x3C (bytesOf (cm.count % 2 ^ 32) 4) else (s, {})

/-- A command writes its last `STATE`, `COUNT` before it, with a release of team scope: an acquire that reads it covers what the command has
written (R242, R283). -/
def Cmd.release (s : State) (cm : Cmd) (bs : List Byte) : State :=
  let (s1, g) := cm.writeCount s
  let (s2, h) := cm.writeBack s1 0x1C bs
  let l := if cm.blkScratch then some (.scratch cm.team (cm.blkAt + 0x1C)) else genericLoc s (teamWho s cm.team cm.th) (cm.blkAt + 0x1C)
  match l with
  | some l => s2.updTeam cm.team (fun tm => { tm with states := tm.states.put (stateKey l) ((cm.clk.join g).join h) })
  | none => s2

/-- The arrival that a multicast owes its targets comes, or is withdrawn (R284). -/
def Cmd.arrive (s : State) (cm : Cmd) : State :=
  if cm.fn == 1 && blkBare cm.blk then
    cm.targets.foldl (fun s t => s.updTeam t (fun tm =>
      let b := tm.bars.getD (blkBarid cm.blk * 16) {}
      { tm with bars := tm.bars.put (blkBarid cm.blk * 16) { b with owed := b.owed - 1 } })) s
  else s

/-- Finish: `COUNT` where the function counts, then `STATE` (R283). A multicast that is done arrives (R284). -/
def finishCmd (s : State) (id : Nat) (cm : Cmd) : State := endCmd (cm.arrive (cm.release s (bytesOf 2 1))) id

/-- A command ends once no chunk is on its way and its block can be written: with `STATE` 3 where a chunk has faulted, with `STATE` 2 where every
chunk is set (R283, R362). -/
def endsCmd (s : State) (id : Nat) : State :=
  match s.cmds.get id with
  | some cm =>
    if !cm.flight.isEmpty || cm.cancelled || cm.blockHeld s then s
    else
      match cm.bad with
      | some (f, c) => endCmd (cm.release s (bytesOf (3 + 256 * f.cause + 65536 * c) 4)) id
      | none => if cm.chunks.length == cm.nchunks then finishCmd s id cm else s
  | none => s

/-- FERRY_CHUNK_COMPLETE (R282): the writes of a chunk on its way are performed, its bit is set in every target, and with the last
chunk the command is done. Log 22: DEDUCED, safe. -/
def execFerryChunkComplete (id c : Nat) (s : State) : Out :=
  match s.cmds.get id with
  | none => .next s
  | some cm =>
    match cm.flight.find? (fun f => f.chunk == c) with
    | none => .next s
    | some f =>
      if f.writes.any (fun x => match x.loc with | .phys y => spaceOf y == 1 && sendHeld s (peerOf y) | _ => false) then .next s
      else
      let (s1, g) := f.writes.foldl (fun (s, g) x =>
        let (s', h) := writeLoc s { core := some cm.core, nc := x.kind == 3 } x.loc x.bytes x.team x.tow
        (s', g.join h)) (s, ({ t := s.mod.now } : WClock))
      let cm1 := { cm with chunks := c :: cm.chunks, flight := cm.flight.filter (fun f => f.chunk != c), count := cm.count + f.count,
                           pois := cm.pois || f.pois.isSome, clk := cm.clk.join g }
      let s2 := { s1 with cmds := s1.cmds.put id cm1 }
      let s3 := cm.targets.foldl (fun s t => mapGwct (mapBit s t (blkCmap cm.blk) c true) t (blkCmap cm.blk) c g) (engineWrote s2 cm.team g)
      let s4 := match f.pois with
        | some va => if cm.pois then s3 else s3.faultOf (unitFerry cm.core) cm.th cm.team cm.word (poisonRec s3 (teamWho s3 cm.team cm.th) va 4)
        | none => s3
      .next (endsCmd s4 id)

/-- FERRY_CHUNK_FAULT (R283): a chunk's access faults: the command starts no further chunk, its record is posted, and it ends with `STATE` 3. -/
def execFerryChunkFault (id c : Nat) (s : State) : Out :=
  match s.cmds.get id with
  | none => .next s
  | some cm =>
    match chunkTry s cm c with
    | .ok _ => .next s
    | .error f =>
      if !chunkReady s id cm c [] then .next s
      else
        let s1 := { s with cmds := s.cmds.put id { cm with bad := some (f, c) } }
        .next (endsCmd (s1.faultOf (unitFerry cm.core) cm.th cm.team cm.word f) id)

/-- A gang abort cancels a command: `STATE` 5, once its block can be written, and the arrivals of a multicast are withdrawn (R283, R284, R354,
R362). -/
def cancelCmd (s : State) (id : Nat) (cm : Cmd) : State :=
  if cm.blockHeld s then dropLocks { s with cmds := s.cmds.put id { cm with cancelled := true, flight := [] } } id false
  else endCmd (cm.arrive (cm.release s (bytesOf 5 1))) id

/-- Commands whose end waited for their block come to it, but for those of a team that is stopped (R283, R352, R362). -/
def cmdSettle (s : State) : State :=
  s.cmds.foldl (fun s e => match s.teams.get e.2.team with
    | some tm => if tm.st == .running || tm.st == .stopping then endsCmd s e.1 else s
    | none => s) s

/-! ### FWAIT (R287, R254) -/

/-- A condition holds when the word has every bit of the mask. -/
def mapHolds (s : State) (team off mask : Nat) : Bool := leNat (scratchBytes s team off 4) &&& mask == mask

/-- A condition that a thread begins to wait for: its promise may have passed already (R287). -/
def FWaitC.from (s : State) (team : Nat) (c : FWaitC) : FWaitC :=
  { c with missed := (match c.promise with | some p => p < time64 s.mod.now && !mapHolds s team c.off c.mask | none => false) }

/-- Device time passes a promise: it is missed where its condition does not hold (R287). -/
def FWaitC.pass (s : State) (team now : Nat) (c : FWaitC) : FWaitC :=
  { c with missed := c.missed || (match c.promise with
      | some p => time64 s.mod.now ≤ p && p < time64 s.mod.now + (now - s.mod.now) && !mapHolds s team c.off c.mask
      | none => false) }

/-- The acquire of an FWAIT, of team scope, raises the release clock to the GWCTs of the chunks that its mask names (R254). -/
def mapAcquire (s : State) (pl : Nat) (t : Thread) (off mask : Nat) : Thread :=
  match s.teams.get t.team with
  | none => t
  | some tm => (upto 32).foldl (fun t i => if mask.testBit i then t.raise (tm.gws.getD (off * 32 + i) {}) else t) (t.acquire s pl 1)

/-- FWAIT: its checks, then one of its forms. -/
def fwaitThread (w : W1) (x : ExtE) (fn : Nat) (s : State) (e : Env) (t : Thread) : Res :=
  let (o, p) := rd e t w.a.toNat
  let (m, q) := rd e t w.b.toNat
  let (c, r) := if fn == 2 then rdN e t x.c.toNat 2 else (0, .clean)
  if p.isBad then .trap s (poisonTrap t p 2)
  else if q.isBad || r.isBad then .trap s (poisonTrap t (q.or r) 7)
  else if o % 4 != 0 then .trap s (.ofRec (offsetRec s e o 0 0x10))
  else if e.scru * 4096 ≤ o then .trap s (.ofRec (offsetRec s e o 0 0x13))
  else if fn == 0 then
    let v := mapHolds s e.team o m
    .ok (s.putThread e (wrPair (if v then mapAcquire s e.pl t o m else t) w.d.toNat v .clean))
  else .ok (s.putThread e { t with newWaits := t.newWaits ++ [{ off := o, mask := m, promise := if fn == 2 then some c else none }] })

/-- FWAIT TEST (R287). -/
def execFwaitTest (w : W1) (x : ExtE) (s : State) : Out := .next (execLanes (.fwaitTest w x) s (fwaitThread w x 0))
/-- FWAIT WAIT (R287). -/
def execFwaitWait (w : W1) (x : ExtE) (s : State) : Out := .next (execLanes (.fwaitWait w x) s (fwaitThread w x 1))
/-- FWAIT WAITP (R287). -/
def execFwaitWaitp (w : W1) (x : ExtE) (s : State) : Out := .next (execLanes (.fwaitWaitp w x) s (fwaitThread w x 2))

/-- Of the conditions whose promises are missed, the one whose promise passed first (R287). -/
def firstMissed (ws : List FWaitC) : Option FWaitC := minBy (fun (c : FWaitC) => c.promise.getD 0) (ws.filter (·.missed))

/-- FWAIT_PROMISE_MISSED (R287): device time has passed the promise of a condition that did not hold then. -/
def execFwaitPromiseMissed (th : Nat) (s : State) : Out :=
  match s.threads.get th with
  | none => .next s
  | some t =>
    match firstMissed t.waits with
    | none => .next s
    | some c =>
      if t.st != .ready || (match s.teams.get t.team with | some tm => tm.st == .stopped | none => true) then .next s
      else
        let payload := bytesOf c.off 4 ++ scratchBytes s t.team c.off 4 ++ bytesOf (c.promise.getD 0) 8
        let s1 := (unfile s th).setThread th { t with waits := [] }
        .next (s1.trapBoundary th { code := 0x0B, detail := c.mask, payload := payload, waits := t.waits.map (fun d => (d.off, d.mask)) })

end Sys2Proof.Machine
end

