-- ==== Sys2Proof/Machine/Matrix.lean ====
section
/-! DEFINITION. Crew collectives, matrix passes, drains, peer adds and releases of tiles (R86 to R88, R288 to
R309). -/

namespace Sys2Proof.Machine

/-! ### Crews -/

/-- First group of a crew (R295). -/
def Team.crewBase (tm : Team) (j : Nat) : Nat := tm.pkt.prod + tm.pkt.crew * j
/-- Places of a crew's threads in order of crew index u (R295). -/
def Team.crewPlaces (tm : Team) (j : Nat) : List Nat :=
  (upto (32 * tm.pkt.crew)).map (fun u => tm.placeOf (32 * tm.crewBase j + u))
/-- Crew index of a thread. -/
def crewIndex (tm : Team) (j gid lane : Nat) : Nat := 32 * (gid - tm.crewBase j) + lane

/-- Changes a crew of a team. -/
def State.updCrew (s : State) (team j : Nat) (f : Crew → Crew) : State :=
  s.updTeam team (fun tm => { tm with crews := tm.crews.mapIdx (fun i c => if i == j then f c else c) })
/-- Changes a tile of a crew. -/
def State.updTile (s : State) (team j t : Nat) (f : Tile → Tile) : State :=
  s.updCrew team j (fun c => { c with tiles := c.tiles.mapIdx (fun i x => if i == t then f x else x) })
/-- A crew of a team. -/
def State.crew (s : State) (team j : Nat) : Option Crew := (s.teams.get team).bind (fun tm => tm.crews[j]?)
/-- A tile of a crew. -/
def State.tile (s : State) (team j t : Nat) : Option Tile := (s.crew team j).bind (fun c => c.tiles[t]?)

/-! ### Arrival (R290 to R293, R300) -/

/-- Trap 0x08 with its reason (R292). -/
def collTrap (reason : Nat) (payload : List Byte := []) : Trap := { code := 0x08, detail := reason, payload := payload, coll := true }

/-- Reasons 2 to 5 of R292, the lowest first; `narrow` is reason 3. -/
def collReason (s : State) (e : Env) (t : Thread) (addr : Nat) (narrow : Nat → Bool) (tile : Option Nat) : Option Nat :=
  match s.teams.get e.team with
  | none => some 2
  | some tm =>
    match tm.crewOf e.gid with
    | none => some 2
    | some j =>
      let cr := tm.crews.getD j {}
      if narrow tm.pkt.crew then some 3
      else if cr.colls.any (fun c => c.k == t.ncoll && c.addr != addr && !c.arr.isEmpty) then some 4
      else
        match tile with
        | none => none
        | some n =>
          match cr.tiles[n]? with
          | some x => if x.held then none else some 5
          | none => some 5

/-- A thread arrives at its next collection; its registers in `dsts` stay pending until the collective completes for
it. An arrival that would open a fifth collection parks the thread at the word (R288, R291). -/
def collArrive (s : State) (e : Env) (t : Thread) (addr : Nat) (kind : CollKind) (tile off slot b : Nat) (dsts : List (Nat × Nat)) : Res :=
  match (s.teams.get e.team).bind (fun tm => (tm.crewOf e.gid).map (fun j => (tm.crews.getD j {}, j))) with
  | none => .ok s
  | some (cr, j) =>
    let k := t.ncoll
    let known := cr.colls.any (fun c => c.k == k)
    if !known && 4 ≤ cr.colls.length then
      .ok ((s.putThread e { t with st := .resume s.runWix false, collPark := true }).leaveIssue s.cur e.pl)
    else
      let op := s.serial
      let s1 := (s.putThread e { t with ncoll := k + 1 })
      let mk := fun (s : State) (d : Nat × Nat) => s.addOp
        { kind := .coll e.team j k, th := e.pl, ths := [e.pl], grps := [placeGroup e.pl], slot := some slot, batch := b, dst := d.1, nd := d.2 }
      let s2 := dsts.foldl mk s1
      let a : Arrival := { th := e.pl, off := off, op := op, kind := kind, word := s.runWix }
      .ok (s2.updCrew e.team j (fun c =>
        if known then
          { c with colls := c.colls.map (fun x =>
              if x.k != k then x
              else if x.arr.isEmpty then { x with addr := addr, kind := kind, tile := tile, arr := [a] }
              else { x with arr := x.arr ++ [a] }) }
        else { c with colls := c.colls ++ [{ k := k, addr := addr, kind := kind, tile := tile, arr := [a] }] }))

/-- Whether a thread's next arrival at a crew collective finds a collection (R288, R291). Log 31: DEDUCED, safe. -/
def collFree (s : State) (t : Thread) (gid : Nat) : Bool :=
  match (s.teams.get t.team).bind (fun tm => (tm.crewOf gid).map (fun j => tm.crews.getD j {})) with
  | some cr => cr.colls.length < 4 || cr.colls.any (fun c => c.k == t.ncoll)
  | none => true

/-- A thread counts as arrived by a skip reply (R292, R348): it supplies nothing. A collection that no thread has
issued yet records no address and no kind. -/
def skipArrive (s : State) (pl : Nat) : State :=
  match s.threads.get pl with
  | none => s
  | some t =>
    match (s.teams.get t.team).bind (fun tm => tm.crewOf t.gid) with
    | none => s
    | some j =>
      let k := t.ncoll
      (s.setThread pl { t with ncoll := k + 1 }).updCrew t.team j (fun c =>
        if c.colls.any (fun x => x.k == k) then
          { c with colls := c.colls.map (fun x => if x.k == k then { x with skip := pl :: x.skip } else x) }
        else { c with colls := c.colls ++ [{ k := k, addr := 0, kind := .mxpod, tile := 0, skip := [pl] }] })

/-- Threads that a collective suspended: a skip reply counts them as arrived (R348). -/
def markColl (s0 : State) (s : State) : State :=
  match s0.issues.get s0.cur with
  | none => s
  | some x => x.lanes.foldl (fun s pl => s.updThread pl (fun t => { t with susp := t.susp.map (fun u => { u with coll := true }) })) s

/-- A collective over the issue group: mixed guards trap every thread that meets no earlier defect of its own (R292,
reason 1), else each guard-true thread makes its own checks and arrives. -/
def execColl (i : Instr) (slot : Nat) (own : State → Env → Thread → Option Trap) (reason : State → Env → Thread → Option Nat)
    (act : State → Env → Thread → Res) (s : State) : State :=
  let gs := barGates i s
  let good := match i.info with
    | some f => f.enc && (match f.feat with | some b => s.feature b | none => true)
    | none => false
  let fresh := match s.issues.get s.cur with | some x => x.served.isEmpty | none => true
  if fresh && good && gs.any (fun g => g.2 == .skip) && gs.any (fun g => g.2 != .skip) then
    let mask := gs.foldl (fun m g => if g.2 != .skip then m + 2 ^ placeLane g.1 else m) 0
    let tr := collTrap 1 (bytesOf mask 4)
    let s1 := execLanes i s (fun s e t => .trap s ((own s e t).getD tr))
    markColl s (gs.foldl (fun s g => if g.2 == .skip then s.trapAt g.1 tr else s) s1)
  else
    markColl s <| execSlot i s slot (fun s e t =>
      match own s e t with
      | some tr => .trap s tr
      | none =>
        match reason s e t with
        | some n => .trap s (collTrap n)
        | none => act s e t)

/-- The address of the instruction being issued. -/
def State.runAddr (s : State) : Nat := s.runHdr + 4 * (s.runWix + 1)

/-- Poison of a span of registers: its first poisoned register. -/
def spanPois (t : Thread) (c n : Nat) : Pois := (upto n).foldl (fun p i => p.or (t.v.getD (c + i) {}).pois) .clean

/-- Poisoned operands of MXOP: its fragments, then its block offset (R300, R340). -/
def mxopOwn (i : Instr) (x : ExtE) (s : State) (e : Env) (t : Thread) : Option Trap :=
  let (a, b) := fragments s i e
  let p := ((spanPois t (a.headD 0) a.length).or (spanPois t (b.headD 0) b.length)).or (rd e t x.c.toNat).2
  if p.isBad then some (poisonTrap t p 5) else none

/-- MXOP (R300). -/
def execMxop (w : W1) (x : ExtE) (s : State) : Out :=
  let i := Instr.mxop w x
  let b := s.batch
  let shape := x.fn.toNat % 16
  let addr := s.runAddr
  let tile := x.imm.toNat % 16
  .next (execColl i x.slot.toNat (mxopOwn i x)
    (fun s e t => collReason s e t addr (fun c => (fragRegs shape c).isNone) (some tile))
    (fun s e t =>
      let (off, _) := rd e t x.c.toNat
      let crew := match s.teams.get e.team with | some tm => tm.pkt.crew | none => 0
      let (na, nb) := (fragRegs shape crew).getD (0, 0)
      collArrive s e t addr (.mxop shape (x.fn.toNat / 16) w.a.toNat w.b.toNat (x.imm.toNat.testBit 4)) tile off x.slot.toNat b
        [(w.a.toNat, na), (w.b.toNat, nb)]) s)

/-- A poisoned block offset in `A` (R340). -/
def offOwn (w : W1) (_ : State) (e : Env) (t : Thread) : Option Trap :=
  let (_, p) := rd e t w.a.toNat
  if p.isBad then some (poisonTrap t p 5) else none

/-- MXDRAIN of a function (R303). -/
def execDrain (i : Instr) (w : W1) (x : ExtE) (fn : Nat) (s : State) : State :=
  let b := s.batch
  let addr := s.runAddr
  let tile := x.imm.toNat % 16
  execColl i x.slot.toNat (offOwn w) (fun s e t => collReason s e t addr (fun _ => false) (some tile))
    (fun s e t =>
      collArrive s e t addr (.drain fn w.d.toNat) tile (rd e t w.a.toNat).1 x.slot.toNat b [(w.d.toNat, if fn == 0 then 32 else 0)]) s

/-- MXDRAIN REGS (R303). -/
def execMxdrainRegs (w : W1) (x : ExtE) (s : State) : Out := .next (execDrain (.mxdrainRegs w x) w x 0 s)
/-- MXDRAIN SCRATCH (R303). -/
def execMxdrainScratch (w : W1) (x : ExtE) (s : State) : Out := .next (execDrain (.mxdrainScratch w x) w x 1 s)
/-- MXDRAIN PEER (R303). -/
def execMxdrainPeer (w : W1) (x : ExtE) (s : State) : Out := .next (execDrain (.mxdrainPeer w x) w x 2 s)
/-- MXDRAIN PEERORD (R303). -/
def execMxdrainPeerord (w : W1) (x : ExtE) (s : State) : Out := .next (execDrain (.mxdrainPeerord w x) w x 3 s)

/-- MXREL (R308). -/
def execMxrel (i : Instr) (x : ExtE) (all : Bool) (s : State) : State :=
  let b := s.batch
  let addr := s.runAddr
  let tile := x.imm.toNat % 16
  execColl i x.slot.toNat (fun _ _ _ => none) (fun s e t => collReason s e t addr (fun _ => false) (if all then none else some tile))
    (fun s e t => collArrive s e t addr (.mxrel all) tile 0 x.slot.toNat b [(120, 0)]) s

/-- MXREL ONE (R308). -/
def execMxrelOne (w : W1) (x : ExtE) (s : State) : Out := .next (execMxrel (.mxrelOne w x) x false s)
/-- MXREL ALL (R308). -/
def execMxrelAll (w : W1) (x : ExtE) (s : State) : Out := .next (execMxrel (.mxrelAll w x) x true s)

/-! ### Completion of a collection (R290, R293, R294) -/

/-- Ends a collective for every member. -/
def endCollective (s : State) (team j k : Nat) : State :=
  (s.ops.find (fun _ o => o.kind == .coll team j k)).foldl (fun s e => s.endOp e.1) s

/-- The elected thread: lowest lane of the lowest group among the arrivals still live (R293). -/
def electOf (s : State) (tm : Team) (j : Nat) (c : Coll) : Option Arrival :=
  (tm.crewPlaces j).findSome? (fun pl => if s.live pl then c.arr.find? (fun a => a.th == pl) else none)

/-- Whether every live thread of a crew has arrived at a collection. -/
def collFull (s : State) (tm : Team) (j : Nat) (c : Coll) : Bool :=
  (tm.crewPlaces j).all (fun pl => !s.live pl || c.arr.any (fun a => a.th == pl) || c.skip.contains pl)

/-- MXREL: it reads no block, and its wait needs no reservation entry. -/
def CollKind.isRel : CollKind → Bool
  | .mxrel _ => true
  | _ => false

/-- Size of a parameter block. -/
def CollKind.blkSize : CollKind → Nat
  | .mxop _ _ _ _ _ => 16
  | .drain _ _ => 32
  | _ => 64

/-- Offset of `STATE` in a block (R301, R304, R321). -/
def CollKind.stateAt : CollKind → Nat
  | .mxpod => 0x1E
  | _ => 0x0C

/-- The check of an MXOP block (R301). -/
def mxopCheck (s : State) (shape budc : Nat) (b : List Byte) (released : Bool) : Option Nat :=
  let sreg := fieldAt b 1 1 % 128
  let f2 := fieldAt b 2 1
  let scope := fieldAt b 0 1
  if fieldAt b 1 1 / 128 != 0 || f2 / 128 != 0 || !zeroAt b 3 12 || !zeroAt b 0x0E 0x10 || (shape != 0 && f2 % 16 != 0)
      || (shape != 3 && f2 / 16 % 8 != 0) || scope == 0 || 4 < scope then some 1
  else if (shape != 0 && sreg != 120) || (shape == 0 && sreg != 120 && (111 < sreg || budc ≤ sreg)) then some 2
  else if scope == 3 && !s.feature 2 then some 3
  else if released then some 4
  else none

/-- The check of a drain block (R304). -/
def drainCheck (s : State) (tm : Team) (fn : Nat) (b : List Byte) (released : Bool) : Option Nat :=
  let row0 := fieldAt b 8 1 % 128
  let nrows := fieldAt b 9 1
  let ak := fieldAt b 0x0A 1
  let scope := fieldAt b 0x0B 1
  let offs := fieldAt b 0 4
  let cmap := fieldAt b 4 4
  let mapEnd := cmap + 4 * ((nrows + 31) / 32)
  let peer := fn == 2 || fn == 3
  if ak / 4 != 0 || !zeroAt b 0x0E 0x10 || fieldAt b 0x19 1 / 16 != 0 || !zeroAt b 0x1C 0x20 || (fn != 3 && fieldAt b 0x1B 1 != 0)
      || scope == 0 || 4 < scope then some 1
  else if nrows == 0 || 128 < row0 + nrows || (fn == 0 && (nrows != 8 * tm.pkt.crew || row0 % (8 * tm.pkt.crew) != 0)) then some 2
  else if fn == 1 && (offs % 512 != 0 || tm.bound < offs + 512 * nrows
      || (cmap != 0xFFFFFFFF && (cmap % 4 != 0 || tm.bound < mapEnd || (cmap < offs + 512 * nrows && offs < mapEnd)))) then some 3
  else if peer && tm.pkt.gang ≤ 1 then some 4
  else if peer && (ak == 3 || (fn == 3 && (fieldAt b 0x1B 1 == 0 || 64 < fieldAt b 0x1B 1 || fieldAt b 0x1B 1 ≤ fieldAt b 0x1A 1))) then some 5
  else if scope == 3 && !s.feature 2 then some 6
  else if released then some 7
  else none

/-- The check of a pod block (R322). -/
def podCheck (s : State) (tm : Team) (off : Nat) (b : List Byte) (released : Bool) : Option Nat :=
  let slen := fieldAt b 8 4
  let act := fieldAt b 0x0C 4
  let astr := fieldAt b 0x10 2
  let klen := fieldAt b 0x12 2 % 4096
  let vtab := fieldAt b 0x14 4
  let nval := fieldAt b 0x18 1
  let nrows := fieldAt b 0x19 1
  let row0 := fieldAt b 0x1A 1 % 128
  let col0 := fieldAt b 0x1B 1 % 128
  let batch := fieldAt b 0x1C 1 % 128
  let scope := fieldAt b 0x1D 1
  let span := (klen - 1) * astr + 2 * batch
  let bad := fun (o n : Nat) => tm.bound < o + n || (o < off + 64 && off < o + n)
  if fieldAt b 0x12 2 / 4096 != 0 || fieldAt b 0x1B 1 / 128 != 0 || fieldAt b 0x1C 1 / 128 != 0 || !zeroAt b 0x28 0x40
      || scope == 0 || 4 < scope then some 1
  else if slen < 2 || 1048576 < slen || slen % 2 != 0 || klen == 0 || 2048 < klen || nval == 0 || 64 < nval || nrows == 0 || 128 < nrows
      || batch == 0 || 64 < batch || 128 < row0 + nrows || 128 < col0 + batch then some 2
  else if fieldAt b 0 8 % 2 != 0 || act % 4 != 0 || vtab % 4 != 0 || astr % 4 != 0 || astr < 4 || 256 < astr || astr < 2 * batch then some 3
  else if bad act span || bad vtab (2 * nval) then some 4
  else if scope == 3 && !s.feature 2 then some 5
  else if released then some 6
  else none

/-- Whether the tile of collection `id` is no longer held, or an earlier MXREL of the crew is about to release it (R294, R308). -/
def tileGone (s : State) (id team j t : Nat) : Bool :=
  (match s.tile team j t with | some x => !x.held | none => true) ||
    s.passes.any (fun e => e.1 < id && e.2.team == team && e.2.crew == j && (match e.2.kind with | .mxrel all => all || e.2.tile == t | _ => false))

/-- The scale bytes that an S0 operation reads when its collection completes (R299): strips by row, the square scale,
and whether one was poisoned. Threads that have exited or were skipped give code 127 (R298). Log 75: DEDUCED, unsafe. -/
def readScales (s : State) (tm : Team) (j : Nat) (arr : List Arrival) (elected sreg sabyte sbbyte : Nat) : List Nat × Nat × Bool × FRec :=
  let reg := fun (pl : Nat) => match s.threads.get pl with | some t => t.v.getD sreg {} | none => {}
  let here := fun (pl : Nat) => arr.any (fun a => a.th == pl)
  let rows := (tm.crewPlaces j).take 128
  let byte := fun (r : Reg) (n : Nat) => r.val.toNat / 2 ^ (8 * n) % 256
  let badAt := (rows.filter (fun pl => here pl && (reg pl).pois.isBad)) ++ (if (reg elected).pois.isBad then [elected] else [])
  (rows.map (fun pl => if here pl then byte (reg pl) sabyte else 127), byte (reg elected) sbbyte, !badAt.isEmpty,
    match badAt with
    | pl :: _ => (match s.threads.get pl with
      | some t => let (r, lost) := t.recOf (reg pl).pois; if lost then { cause := 0x05 } else r
      | none => { cause := 0x05 })
    | [] => { cause := 0x05 })

/-- Adds a pass; it is posted when the engine has a reservation entry for it. -/
def addPass (s : State) (p : Pass) : State := { s with passes := s.passes.put s.serial p, serial := s.serial + 1 }

/-- A collection completes (R290, R293): its elected thread is fixed, and its pass is made, whose block is still to be read (R294). -/
def completeColl (s : State) (team j : Nat) (tm : Team) (c : Coll) : State :=
  let s0 := s.updCrew team j (fun x => { x with colls := x.colls.filter (fun y => y.k != c.k) })
  let base : Pass := { cluster := clusterOf tm.core, team := team, crew := j, k := c.k, kind := c.kind, tile := c.tile, blkOff := 0, blk := [],
                       elected := 0, arr := c.arr.filter (fun a => s.live a.th), cls := tm.pkt.prio, core := tm.core }
  match c.kind with
  | .mxrel all =>
    let gone := match s.crew team j with
      | some cr => if all then cr.tiles.all (fun t => !t.held) else (match cr.tiles[c.tile]? with | some t => !t.held | none => true)
      | none => true
    if gone then endCollective s0 team j c.k else addPass s0 base
  | _ =>
    match electOf s tm j c with
    | none => endCollective s0 team j c.k
    | some el => addPass s0 { base with blkOff := el.off, elected := el.th, raw := true }

/-- The engine reads and checks the block of a complete collection, with what else it reads then (R294). -/
def readBlock (s : State) (id : Nat) (p : Pass) (tm : Team) : State :=
  let (team, j, off, n) := (p.team, p.crew, p.blkOff, p.kind.blkSize)
  let ends := fun (s : State) => endCollective { s with passes := s.passes.del id } team j p.k
  let word := match p.arr.find? (fun a => a.th == p.elected) with | some a => a.word | none => 0
  let bad := fun (cause : Nat) => (ends s).faultOf (unitEngine p.cluster) p.elected team word
    (faultRec s (teamWho s team p.elected) (scratchBase + off) 6 cause)
  if off % n != 0 then bad 0x10
  else if tm.bound < off + n then bad 0x13
  else
    let b := scratchBytes s team off n
    let gone := tileGone s id team j p.tile
    let check := match p.kind with
      | .mxop shape _ _ _ _ => mxopCheck s shape tm.pkt.budc b gone
      | .drain fn _ => drainCheck s tm fn b gone
      | _ => podCheck s tm off b gone
    match check with
    | some cause => ends (scratchWrite s team (off + p.kind.stateAt) (bytesOf (4 + 256 * cause) 2))
    | none =>
      let put := fun (s : State) (p : Pass) => { s with passes := s.passes.put id { p with blk := b, raw := false } }
      match p.kind with
      | .mxop shape _ _ _ _ =>
        let sreg := fieldAt b 1 1 % 128
        if shape == 0 && sreg != 120 then
          let arr := p.arr.filter (fun a => s.live a.th)
          let (st, sq, pz, r) := readScales s tm j arr p.elected sreg (fieldAt b 2 1 % 4) (fieldAt b 2 1 / 4 % 4)
          -- `SREG` is pending in every member until the operation completes (R299)
          let s1 := (tm.crewPlaces j).foldl (fun s pl =>
            if !s.live pl then s
            else
              match (s.ops.find (fun _ o => o.kind == .coll team j p.k && o.th == pl)).head? with
              | some (_, o) => s.addOp { o with dst := sreg, nd := 1 }
              | none => s.addOp { kind := .coll team j p.k, th := pl, ths := [pl], grps := [], slot := none, batch := 0, dst := sreg, nd := 1 }) s
          put s1 { p with strips := st, square := sq, spois := pz, book := { record := r } }
        else if shape == 3 then put s { p with book := tm.books.getD (fieldAt b 2 1 / 16 % 8) {} }
        else put s { p with strips := List.replicate 128 127 }
      | .drain _ _ => put (scratchWrite s team (off + 0x0C) (bytesOf 1 1)) p
      | _ => put s p

/-- Whether the engine may not read a pass's block yet: an earlier release, acquire or store of a thread that issued it goes first (R246). Log 23: DEDUCED, safe. -/
def passHeld (s : State) (p : Pass) : Bool := p.arr.any (fun a => s.live a.th && engineHeld s a.op a.th)

/-- The engines read the blocks that nothing holds back, in the order of the collections. -/
def blockSettle (s : State) : State :=
  s.passes.foldl (fun s e =>
    match s.passes.get e.1 with
    | some p => if p.raw && !passHeld s p then (match s.teams.get p.team with | some tm => readBlock s e.1 p tm | none => s) else s
    | none => s) s

/-- Completes the collections of a crew in order (R290), at most `fuel` of them. -/
def crewSettle (team j : Nat) : Nat → State → State
  | 0, s => s
  | n + 1, s =>
    match s.teams.get team with
    | none => s
    | some tm =>
      match (tm.crews.getD j {}).colls with
      | c :: _ => if collFull s tm j c then crewSettle team j n (completeColl s team j tm c) else s
      | [] => s

/-- Lock entries that a pass registers once its block has been checked (R247, R305, R323). -/
def passLocks (s : State) (p : Pass) (id : Nat) : List Lock :=
  let b := p.blk
  if p.raw then []
  else
  match p.kind, p.add with
  | .drain 1 _, none =>
    [{ cmd := id, pass := true, dest := true, order := 0,
       ranges := [{ scratch := true, owner := p.team, base := fieldAt b 0 4, len := 512 * fieldAt b 9 1 }] }]
  | .mxpod, none =>
    let klen := fieldAt b 0x12 2 % 4096
    let stream := lockRange s (teamWho s p.team p.elected) (fieldAt b 0 8, fieldAt b 8 4)
    [{ cmd := id, pass := true, dest := false, order := 0,
       ranges := [stream, { scratch := true, owner := p.team, base := fieldAt b 0x14 4, len := 2 * fieldAt b 0x18 1 },
         { scratch := true, owner := p.team, base := fieldAt b 0x0C 4,
           len := (klen - 1) * fieldAt b 0x10 2 + 2 * (fieldAt b 0x1C 1 % 128) }] }]
  | _, _ => []

/-- Reservation entries of an engine in use (R288). -/
def engineUsed (s : State) (cluster : Nat) : Nat :=
  (s.passes.find (fun _ p => p.cluster == cluster && p.posted.isSome && !p.granted)).length

/-- A pass's team runs, or comes to a stop. -/
def Pass.runs (s : State) (p : Pass) : Bool := match s.teams.get p.team with | some tm => tm.st == .running || tm.st == .stopping | none => false

/-- A pass has registered its locks (R247). -/
def locksHeld (s : State) (id : Nat) : Bool := s.mem.locks.any (fun e => e.2.cmd == id && e.2.pass)

/-- Passes register their locks, in the order of their collections, as far as the tables have entries (R247, R323). -/
def lockPasses (s : State) : State :=
  s.passes.foldl (fun s e =>
    let ls := passLocks s e.2 e.1
    if ls.isEmpty || locksHeld s e.1 || e.2.granted || !e.2.runs s || 4096 < locksUsed s (dieOf e.2.core) + ls.length then s
    else addLocks s (dieOf e.2.core) ls) s

/-- Posts the passes that wait for a reservation entry or for lock entries (R288), in order, each with the class of its team (R309). -/
def postPasses (s : State) : State :=
  s.passes.foldl (fun s e =>
    match s.passes.get e.1 with
    | none => s
    | some p =>
      if p.kind.isRel || p.raw || p.posted.isSome || p.granted || !p.runs s || 32 ≤ engineUsed s p.cluster
          || (!(passLocks s p e.1).isEmpty && !locksHeld s e.1) then s
      else
        let cls := match s.teams.get p.team with | some tm => tm.pkt.prio | none => p.cls
        { s with passes := s.passes.put e.1 { p with posted := some s.mod.now, cls := cls, passed := 0 } }) s

/-- Completes what collections can complete, reads their blocks, registers locks, and posts passes. -/
def collSettle (s : State) : State :=
  let s1 := s.teams.foldl (fun s e => (upto e.2.crews.length).foldl (fun s j => crewSettle e.1 j 8 s) s) s
  postPasses (lockPasses (blockSettle s1))

/-! ### Grants (R309) -/

/-- A pass whose rows have been sent no longer keeps later passes of its crew from its source tile; an ordered drain
does until it is applied (R306, R307). -/
def Pass.holdsTile (p : Pass) : Bool :=
  match p.kind with
  | .drain 2 _ => p.rows.isNone
  | _ => p.add.isNone

/-- Whether an earlier pass of the crew on the tile has not ended (R294). -/
def tileBusy (s : State) (id : Nat) (p : Pass) : Bool :=
  s.passes.any (fun e => e.1 < id && e.2.team == p.team && e.2.crew == p.crew && e.2.tile == p.tile && e.2.holdsTile && !e.2.kind.isRel)

/-- An unordered peer add of a tile. -/
def Pass.addsTo (p : Pass) : Option (Nat × Nat × Nat) :=
  match p.kind, p.add with
  | .drain 2 _, some (team, crew, tile, _) => some (team, crew, tile)
  | _, _ => none

/-- An unordered peer add that arrived at the tile earlier is still to be made: PEER adds are made in arrival order (R89, R306). -/
def addBehind (s : State) (id : Nat) (p : Pass) : Bool :=
  p.addsTo.isSome && s.passes.any (fun e => e.1 < id && e.2.addsTo == p.addsTo)

/-- ENGINE_GRANT (R309): highest class, then oldest, then lower core; those passed over 64 times rise. A pass behind
another on its tile is not granted before that has ended (R310), nor a peer add before one that arrived earlier (R89). -/
def execEngineGrant (cluster : Nat) (s : State) : Out :=
  let waiting := s.passes.find (fun _ p => p.cluster == cluster && p.posted.isSome && !p.granted)
  let ready := waiting.filter (fun e => if e.2.add.isSome then !addBehind s e.1 e.2 else !tileBusy s e.1 e.2)
  let key := fun (e : Nat × Pass) => (3 - e.2.cls) * 2 ^ 128 + (e.2.posted.getD 0) * 2 ^ 8 + e.2.core
  match minBy key ready with
  | none => .next s
  | some (id, _) =>
    .next { s with passes := s.passes.map (fun e =>
      if e.1 == id then (e.1, { e.2 with granted := true })
      else if waiting.any (fun x => x.1 == e.1) then
        (e.1, if e.2.passed + 1 == 64 then { e.2 with passed := 0, cls := min 3 (e.2.cls + 1) } else { e.2 with passed := e.2.passed + 1 })
      else e) }

/-- Ends a pass: its locks are given back, and its collective completes for every member. -/
def endPass (s : State) (id : Nat) (p : Pass) : State :=
  endCollective (dropLocks { s with passes := s.passes.del id } id true) p.team p.crew p.k

/-- Writes `STATE`, and `CAUSE` where it is given, in a pass's block. -/
def passState (s : State) (p : Pass) (st : Nat) (cause : Option Nat) : State :=
  scratchWrite s p.team (p.blkOff + p.kind.stateAt) (match cause with | some c => bytesOf (st + 256 * c) 2 | none => bytesOf st 1)

/-! ### Tiles as words (R288) -/

/-- The words from `i` on of a tile, `n` of them, unlisted ones zero. -/
def expandTile (t : Tab Word) (i : Nat) : Nat → List Word
  | 0 => []
  | n + 1 =>
    match t with
    | (k, v) :: r => if k == i then v :: expandTile r (i + 1) n else 0 :: expandTile t (i + 1) n
    | [] => 0 :: expandTile [] (i + 1) n

/-- The table of a list of words that begins at word `i`. -/
def packTile (i : Nat) : List Word → Tab Word
  | [] => []
  | w :: r => if w == 0 then packTile (i + 1) r else (i, w) :: packTile (i + 1) r

/-- Every word of a tile. -/
def Tile.all (t : Tile) : List Word := expandTile t.words 0 16384
/-- Words of a word row. -/
def Tile.row (t : Tile) (i : Nat) : Tab Word := t.words.find (fun k _ => k / 128 == i)

/-- Poisons a tile with a record, where one is held. -/
def Tile.poison (t : Tile) (r : Option FRec) : Tile := { t with pois := true, record := if t.pois then t.record else r }

/-! ### MXOP (R86 to R88, R295, R302) -/

/-- Element e of a fragment, by bits of an element (R295). -/
def fragElem (words : List Nat) (bits e : Nat) : Nat :=
  if bits == 64 then words.getD (2 * e) 0 + 2 ^ 32 * words.getD (2 * e + 1) 0
  else
    let per := 32 / bits
    words.getD (e / per) 0 / 2 ^ (bits * (e % per)) % 2 ^ bits

/-- Registers of a span, of a thread. -/
def spanWords (s : State) (pl c n : Nat) : List Nat :=
  match s.threads.get pl with
  | some t => (upto n).map (fun i => (t.v.getD (c + i) {}).val.toNat)
  | none => []

/-- The rows of an operand: row m from the fragments of the threads with u mod M = m, in ascending k; a thread that did
not arrive or has exited gives zero elements, which `absent` stands for (R295, R298). -/
def operandRows (s : State) (tm : Team) (j : Nat) (arr : List Arrival) (M K bits absent : Nat) (base : Arrival → Nat) (nregs : Nat) : List (List Nat) :=
  let H := 32 * tm.pkt.crew / M
  let frags := (tm.crewPlaces j).map (fun pl =>
    match arr.find? (fun a => a.th == pl) with
    | some a => some (spanWords s pl (base a) nregs)
    | none => none)
  (upto M).map (fun m =>
    ((upto H).map (fun h =>
      match frags.getD (h * M + m) none with
      | some ws => (upto (K / H)).map (fun e => fragElem ws bits e)
      | none => List.replicate (K / H) absent)).flatten)

/-- The exact sum of products. -/
def dotFV (fa fb : Nat → FV) (a b : List Nat) : FV :=
  match (a.zip b).map (fun p => FV.mul (fa p.1) (fb p.2)) with
  | [] => .fin false 0 0
  | x :: r => r.foldl (FV.add 0) x

/-- Sublists of n elements. -/
def chunksOf {α : Type} (n : Nat) (l : List α) : Nat → List (List α)
  | 0 => []
  | k + 1 => l.take n :: chunksOf n (l.drop n) k

/-- One S0 chunk added to an accumulator word (R86). -/
def s0Elem (fa fb : FFmt) (sa sb : Nat) (a b : List Nat) (acc : Nat) : Nat :=
  let d := dotFV fa.dec fb.dec a b
  if d == .nan || sa == 0xFF || sb == 0xFF then fF32.qnan
  else
    let t := fF32.rnd 0 d
    let t := fF32.rnd 0 (FV.scale (fF32.dec t) ((sa + sb : Int) - 254))
    fF32.rnd 0 (FV.add 0 (fF32.dec acc) (fF32.dec t))

/-- INT8 products summed exactly, added modulo 2^32 (R86). -/
def s1Elem (a b : List Nat) (acc : Nat) : Nat :=
  wrapInt 32 ((acc : Int) + (a.zip b).foldl (fun m p => m + toSigned 8 p.1 * toSigned 8 p.2) 0)

/-- Chunks of 16 positions, each rounded once and added (R87). -/
def s2Elem (fa fb : Nat → FV) (a b : List Nat) (acc : Nat) : Nat :=
  (chunksOf 16 (a.zip b) 4).foldl (fun acc c =>
    let t := fF32.rnd 0 (dotFV fa fb (c.map (·.1)) (c.map (·.2)))
    fF32.rnd 0 (FV.add 0 (fF32.dec acc) (fF32.dec t))) acc

/-- One FMA for each position (R88). -/
def s4Elem (a b : List Nat) (acc : Nat) : Nat :=
  (a.zip b).foldl (fun acc p => fF64.rnd 0 (FV.add 0 (FV.mul (fF64.dec p.1) (fF64.dec p.2)) (fF64.dec acc))) acc

/-- The value of a C4 code; 16 stands for a zero element, whatever the codebook holds (R77, R298). -/
def c4Elem (c : Codebook) (code : Nat) : FV := if code == 16 then .fin false 0 0 else fBF16.dec (bookEntry c code)

/-- The words of a tile after an MXOP pass (R302). -/
def mxopWords (s : State) (tm : Team) (p : Pass) (shape fmt : Nat) (old : List Word) : List Word :=
  let (na, nb) := (fragRegs shape tm.pkt.crew).getD (0, 0)
  let M := if shape == 4 then 64 else 128
  let K := match shape with | 0 | 1 => 128 | 2 | 3 => 64 | _ => 16
  let abits := match shape with | 0 | 1 => 8 | 2 | 3 => 16 | _ => 64
  let bbits := if shape == 3 then 4 else abits
  let aBase := fun (x : Arrival) => match x.kind with | .mxop _ _ a _ _ => a | _ => 0
  let bBase := fun (x : Arrival) => match x.kind with | .mxop _ _ _ b _ => b | _ => 0
  -- a thread that has exited by now gives zero elements (R298)
  let arr := p.arr.filter (fun a => s.live a.th)
  let A := operandRows s tm p.crew arr M K abits 0 aBase na
  let B := operandRows s tm p.crew arr M K bbits (if shape == 3 then 16 else 0) bBase nb
  let f8 := fun (b : Bool) => if b then fF8B else fF8A
  let half := if fmt.testBit 0 then fF16 else fBF16
  if shape == 4 then
    let acc := (old.take 8192).map (·.toNat)
    let rows := (A.zip (chunksOf 128 acc 64)).map (fun r =>
      ((B.zip (chunksOf 2 r.2 64)).map (fun c =>
        let v := s4Elem r.1 c.1 (c.2.getD 0 0 + 2 ^ 32 * c.2.getD 1 0)
        [BitVec.ofNat 32 v, BitVec.ofNat 32 (v / 2 ^ 32)])).flatten)
    rows.flatten ++ old.drop 8192
  else
    let elem := fun (m : Nat) (a b : List Nat) (acc : Nat) =>
      match shape with
      | 0 => s0Elem (f8 (fmt.testBit 0)) (f8 (fmt.testBit 1)) (p.strips.getD m 127) p.square a b acc
      | 1 => s1Elem a b acc
      | 2 => s2Elem half.dec half.dec a b acc
      | _ => s2Elem fBF16.dec (c4Elem p.book) a b acc
    ((A.zipIdx.zip (chunksOf 128 old 128)).map (fun r =>
      (B.zip r.2).map (fun c => BitVec.ofNat 32 (elem r.1.2 r.1.1 c.1 c.2.toNat)))).flatten

/-- ENGINE_PASS_COMPLETE (R302): a granted MXOP pass updates its tile and writes `STATE` 2. -/
def execEnginePassComplete (id : Nat) (s : State) : Out :=
  match s.passes.get id with
  | none => .next s
  | some p =>
    match p.kind, s.teams.get p.team, s.tile p.team p.crew p.tile with
    | .mxop shape fmt _ _ zero, some tm, some t =>
      if !p.granted || p.add.isSome || tileBusy s id p then .next s
      else
        let t0 := if zero then { t with words := [], pois := false, record := none } else t
        let t1 := { t0 with words := packTile 0 (mxopWords s tm p shape fmt t0.all) }
        let t2 := if p.spois || (shape == 3 && p.book.pois) then t1.poison (some p.book.record) else t1
        .next (endPass (passState (s.updTile p.team p.crew p.tile (fun _ => t2)) p 2 none) id p)
    | _, _, _ => .next s

/-! ### Drains (R305 to R307) -/

/-- Clears the drained rows where `CLRA` asks for it; the poison bit where every row is drained (R305). -/
def clearRows (t : Tile) (b : List Byte) : Tile :=
  if fieldAt b 8 1 / 128 == 0 then t
  else
    let r0 := fieldAt b 8 1 % 128
    let n := fieldAt b 9 1
    let t1 := { t with words := t.words.find (fun k _ => !(r0 ≤ k / 128 && k / 128 < r0 + n)) }
    if n == 128 then { t1 with pois := false, record := none } else t1

/-- The registers that a REGS drain gives a thread (R305). -/
def drainRegs (s : State) (t : Tile) (row0 u d pl : Nat) : State :=
  s.updThread pl (fun th =>
    if th.st == .exited then th
    else
      let (th1, q) := if t.pois then th.newRec (t.record.getD { cause := 0x05 }) false else (th, .clean)
      let at0 := 128 * (row0 + u / 4) + 32 * (u % 4)
      (upto 32).foldl (fun th r => wr th (d + r) (t.words.getD (at0 + r) 0).toNat q) th1)

/-- Where a peer drain's target stands (R306). -/
inductive PeerTarget where
  | wait
  | fail (cause : Nat)
  | found (team : Nat)
  deriving DecidableEq, Repr, Inhabited

/-- Finds the target of a peer drain (R306). Rows that are on their way still reach a team that is stopping. -/
def peerTarget (s : State) (p : Pass) (sent : Bool) : PeerTarget :=
  match s.teams.get p.team with
  | none => .fail 2
  | some tm =>
    let ix := fieldAt p.blk 0x10 8
    match s.teams.find (fun _ x => x.grid == tm.grid && x.index == ix && !x.ended) with
    | (k, x) :: _ =>
      if x.st == .stopped || (x.st == .stopping && !sent) then .wait
      else
        match s.tile k (fieldAt p.blk 0x18 1) (fieldAt p.blk 0x19 1 % 16) with
        | none => .fail 1
        | some t => if t.held then .found k else .fail 2
    | [] =>
      match s.grids.get tm.grid with
      | some g => if (g.savedAt ix).isSome then .wait else .fail 2
      | none => .fail 2

/-- The team of a drain is stopped: a drain that waits stays waiting (R310). -/
def Pass.halted (s : State) (p : Pass) : Bool := match s.teams.get p.team with | some tm => tm.st == .stopped | none => false

/-- DRAIN_PASS_COMPLETE (R305): registers or scratchpad chunks are written, or the rows of a peer drain are read to be
sent; then `CLRA`, and `STATE` where the drain is done. -/
def execDrainPassComplete (id : Nat) (s : State) : Out :=
  match s.passes.get id with
  | none => .next s
  | some p =>
    match p.kind, s.teams.get p.team, s.tile p.team p.crew p.tile with
    | .drain fn _, some tm, some t =>
      if !p.granted || p.add.isSome || p.rows.isSome || tileBusy s id p || p.halted s then .next s
      else
        let b := p.blk
        let row0 := fieldAt b 8 1 % 128
        let n := fieldAt b 9 1
        let clr := fun (s : State) => s.updTile p.team p.crew p.tile (fun t => clearRows t b)
        match fn with
        | 0 =>
          let s1 := (tm.crewPlaces p.crew).zipIdx.foldl (fun s x =>
            match p.arr.find? (fun a => a.th == x.1) with
            | some { kind := .drain _ d, .. } => drainRegs s t row0 x.2 d x.1
            | _ => s) s
          .next (endPass (passState (clr s1) p 2 none) id p)
        | 1 =>
          let offs := fieldAt b 0 4
          let cmap := fieldAt b 4 4
          if (passLocks s p id).any (fun l => l.ranges.any (fun r => lockedBefore s (dieOf p.core) id true r)) then .next s
          else
            let s1 := (upto n).foldl (fun s c =>
              let bytes := ((expandTile (t.row (row0 + c)) (128 * (row0 + c)) 128).map (fun w => bytesOf w.toNat 4)).flatten
              let s1 := scratchWrite s p.team (offs + 512 * c) bytes (if t.pois then some 0x05 else none)
              mapGwct (mapBit s1 p.team cmap c true) p.team cmap c { t := s.mod.now }) s
            .next (endPass (passState (clr s1) p 2 none) id p)
        | 3 =>
          -- an ordered drain waits at its engine and holds the tile: its rows are read when it is applied (R307)
          let p1 := { p with rows := some [], sentAt := s.serial }
          .next { s with passes := s.passes.put id p1, serial := s.serial + 1 }
        | _ =>
          if peerTarget s p false == .wait then .next s
          else
            let rows := (upto n).map (fun c => t.row (row0 + c))
            let p1 := { p with rows := some rows, srcPois := t.pois, sentAt := s.serial }
            .next (clr { s with passes := s.passes.put id p1, serial := s.serial + 1 })
    | _, _, _ => .next s

/-- Adds the sent rows into a tile with the arithmetic of `AKIND` (R306). -/
def addRows (t : Tile) (b : List Byte) (rows : List (Tab Word)) (pois : Bool) : Tile :=
  let row0 := fieldAt b 8 1 % 128
  let ak := fieldAt b 0x0A 1 % 4
  let f32 := fun (x y : Nat) => fF32.rnd 0 (FV.add 0 (fF32.dec x) (fF32.dec y))
  let f64 := fun (x y : Nat) => fF64.rnd 0 (FV.add 0 (fF64.dec x) (fF64.dec y))
  let new := rows.zipIdx.foldl (fun ws r =>
    let i := row0 + r.2
    let old := expandTile (ws.find (fun k _ => k / 128 == i)) (128 * i) 128
    let src := expandTile r.1 (128 * i) 128
    let out := match ak with
      | 0 => (old.zip src).map (fun x => BitVec.ofNat 32 (f32 x.1.toNat x.2.toNat))
      | 1 => (old.zip src).map (fun x => x.1 + x.2)
      | _ => ((chunksOf 2 (old.zip src) 64).map (fun x =>
          let v := f64 ((x.getD 0 default).1.toNat + 2 ^ 32 * (x.getD 1 default).1.toNat) ((x.getD 0 default).2.toNat + 2 ^ 32 * (x.getD 1 default).2.toNat)
          [BitVec.ofNat 32 v, BitVec.ofNat 32 (v / 2 ^ 32)])).flatten
    ws.find (fun k _ => k / 128 < i) ++ packTile (128 * i) out ++ ws.find (fun k _ => i < k / 128)) t.words
  let t1 := { t with words := new }
  if pois then t1.poison none else t1

/-- A peer drain fails: `STATE` 3 with its cause (R306, R307). -/
def peerFail (s : State) (id : Nat) (p : Pass) (cause : Nat) : State := endPass (passState s p 3 (some cause)) id p

/-- Posts the add of a peer drain at the engine of its target team, with the priority class of the issuer's team, where a reservation entry
is free (R306). -/
def postAdd (s : State) (id : Nat) (p : Pass) (target : Nat) (rows : List (Tab Word)) (pois : Bool) : Option State :=
  match s.teams.get target with
  | none => none
  | some tm =>
    if 32 ≤ engineUsed s (clusterOf tm.core) then none
    else
      let cls := match s.teams.get p.team with | some x => x.pkt.prio | none => p.cls
      let add : Pass := { p with cluster := clusterOf tm.core, posted := some s.mod.now, granted := false, passed := 0, cls := cls, rows := some rows,
                                 srcPois := pois, add := some (target, fieldAt p.blk 0x18 1, fieldAt p.blk 0x19 1 % 16, id) }
      some (addPass { s with passes := s.passes.put id { p with sent := true } } add)

/-! ### Ordered drains (R307) -/

/-- An ordered drain that waits at its issuing engine, or whose add has been posted. -/
def Pass.ordered (p : Pass) : Bool :=
  p.add.isNone && p.rows.isSome && (match p.kind with | .drain 3 _ => true | _ => false)

/-- The rank and the expected count of an ordered drain. -/
def Pass.rank (p : Pass) : Nat := fieldAt p.blk 0x1A 1
def Pass.expects (p : Pass) : Nat := fieldAt p.blk 0x1B 1

/-- An ordered drain of equal rank for the same tile arrived earlier: it goes first, in an earlier round. -/
def ordBehind (s : State) (p : Pass) (k : Nat) : Bool :=
  s.passes.any (fun e => e.2.ordered && e.2.sentAt < p.sentAt && peerTarget s e.2 false == .found k && fieldAt e.2.blk 0x18 1 == fieldAt p.blk 0x18 1
    && fieldAt e.2.blk 0x19 1 % 16 == fieldAt p.blk 0x19 1 % 16 && e.2.rank == p.rank)

/-- An ordered drain of this round whose expected count is not that of a drain already applied in it. -/
def ordDiffers (s : State) (p : Pass) (k : Nat) (t : Tile) : Bool :=
  t.next ≤ p.rank && !ordBehind s p k && (match t.expect with | some e => e != p.expects | none => false)

/-- An ordered drain whose turn it is. -/
def ordTurn (s : State) (p : Pass) (k : Nat) (t : Tile) : Bool := t.next == p.rank && !ordBehind s p k && !ordDiffers s p k t

/-- PEER_ADD_ARRIVE (R306): the sent rows post a pass at the target's engine, or the drain fails. The rows of an ordered drain are read and sent
when its turn has come (R307). -/
def execPeerAddArrive (id : Nat) (s : State) : Out :=
  match s.passes.get id with
  | none => .next s
  | some p =>
    if p.sent || p.add.isSome || p.halted s then .next s
    else
      match p.kind, p.rows with
      | .drain 2 _, some rows =>
        (match peerTarget s p true with
          | .wait => .next s
          | .fail c => .next (peerFail s id p c)
          | .found k => .next ((postAdd s id p k rows p.srcPois).getD s))
      | .drain 3 _, some _ =>
        (match peerTarget s p false, s.tile p.team p.crew p.tile with
          | .found k, some src =>
            let turn := match s.tile k (fieldAt p.blk 0x18 1) (fieldAt p.blk 0x19 1 % 16) with
              | some t => ordTurn s p k t
              | none => false
            let rows := (upto (fieldAt p.blk 9 1)).map (fun c => src.row (fieldAt p.blk 8 1 % 128 + c))
            if !turn then .next s
            else .next (((postAdd s id p k rows src.pois).map (fun s => s.updTile p.team p.crew p.tile (fun t => clearRows t p.blk))).getD s)
          | _, _ => .next s)
      | _, _ => .next s

/-- PEER_ADD_PASS_COMPLETE (R89, R306): the rows are added in one step, those that arrived first before, and the drain writes `STATE` 2. -/
def execPeerAddPassComplete (id : Nat) (s : State) : Out :=
  match s.passes.get id with
  | none => .next s
  | some p =>
    match p.add, p.rows with
    | some (team, crew, tile, src), some rows =>
      if !p.granted || addBehind s id p then .next s
      else
        let s1 := { s with passes := s.passes.del id }
        match s.passes.get src with
        | none => .next s1
        | some d =>
          -- the add of an ordered drain is PEERORD_APPLY
          if d.ordered then .next s
          else
          match s.tile team crew tile, s.teams.get team with
          | some t, some tm =>
            if !t.held || tm.ended then .next (peerFail s1 src d 2)
            else
              let s2 := s1.updTile team crew tile (fun t => addRows t p.blk rows p.srcPois)
              .next (endPass (passState s2 d 2 none) src d)
          | _, _ => .next (peerFail s1 src d 2)
    | _, _ => .next s

/-- PEERORD_APPLY (R307): the add of an ordered drain, granted at the target's engine, is applied in one step and `NEXT` advances; a drain that
waits fails where it has no target or its expected count is not the round's. -/
def execPeerordApply (id : Nat) (s : State) : Out :=
  match s.passes.get id with
  | none => .next s
  | some p =>
    if !p.ordered || p.halted s then .next s
    else if !p.sent then
      match peerTarget s p false with
      | .wait => .next s
      | .fail c => .next (peerFail s id p c)
      | .found k =>
        match s.tile k (fieldAt p.blk 0x18 1) (fieldAt p.blk 0x19 1 % 16) with
        | none => .next s
        | some t => if ordDiffers s p k t then .next (peerFail s id p 3) else .next s
    else
      match s.passes.find (fun _ a => a.granted && (match a.add with | some (_, _, _, src) => src == id | none => false)) with
      | [] => .next s
      | (aid, a) :: _ =>
        let s1 := { s with passes := s.passes.del aid }
        match a.add, a.rows with
        | some (k, crew, tile, _), some rows =>
          (match s.tile k crew tile, s.teams.get k with
            | some t, some tm =>
              if !t.held || tm.ended then .next (peerFail s1 id p 2)
              else
                let next := if t.next + 1 == p.expects then 0 else t.next + 1
                let s2 := s1.updTile k crew tile (fun t =>
                  { addRows t p.blk rows a.srcPois with next := next, expect := if next == 0 then none else some p.expects })
                .next (endPass (passState s2 p 2 none) id p)
            | _, _ => .next (peerFail s1 id p 2))
        | _, _ => .next s1

/-! ### Release of tiles (R308) -/

/-- MXREL_RELEASE (R308): after every earlier pass of the crew on the named tiles, they return to the engine. -/
def execMxrelRelease (team crew coll : Nat) (s : State) : Out :=
  match s.passes.find (fun _ p => p.team == team && p.crew == crew && p.k == coll && p.kind.isRel) with
  | [] => .next s
  | (id, p) :: _ =>
    let all := match p.kind with | .mxrel a => a | _ => false
    let busy := s.passes.any (fun e => e.1 < id && e.2.team == team && e.2.crew == crew && (all || e.2.tile == p.tile)
      && e.2.add.isNone && !e.2.kind.isRel && e.2.holdsTile)
    if busy then .next s
    else
      let s1 := s.updCrew team crew (fun c => { c with tiles := c.tiles.mapIdx (fun i t =>
        if all || i == p.tile then { t with held := false, words := [] } else t) })
      .next (endPass s1 id p)

end Sys2Proof.Machine
end

