-- ==== Sys2Proof/Machine/Pods.lean ====
section
/-! DEFINITION. Pod-format rows: MXPOD, its pass, and trap 0x12 (R312 to R325). -/

namespace Sys2Proof.Machine

/-- MXPOD (R320). -/
def execMxpod (w : W1) (x : ExtE) (s : State) : Out :=
  let b := s.batch
  let addr := s.runAddr
  let tile := x.imm.toNat % 16
  .next (execColl (.mxpod w x) x.slot.toNat (offOwn w) (fun s e t => collReason s e t addr (fun _ => false) (some tile))
    (fun s e t => collArrive s e t addr .mxpod tile (rd e t w.a.toNat).1 x.slot.toNat b [(120, 0)]) s)

/-- How the reading of a stream ends: its rows of tokens, a malformed token with its index, value, reason and row, a
fault, or poison at an address (R315, R323). -/
inductive PodEnd where
  | rows (l : List (List Nat))
  | bad (ix tok reason row : Nat)
  | fault (r : FRec)
  | poison (va : Nat)
  deriving DecidableEq, Repr, Inhabited

/-- Where the reader stands: row, whether a pod is open, whether it holds a position, value and position tokens of the
row, tokens of the row (last first), and rows done (last first). -/
structure PodPos where
  row : Nat := 0
  isOpen : Bool := false
  hasPos : Bool := false
  vals : Nat := 0
  poss : Nat := 0
  cur : List Nat := []
  out : List (List Nat) := []
  deriving DecidableEq, Repr, Inhabited

/-- The lowest-numbered reason that a token meets, 0 for none (R315). -/
def podReason (klen nval : Nat) (p : PodPos) (x : Nat) : Nat :=
  if x < 0x800 then
    if klen ≤ x then 2 else if !p.isOpen then 3 else if 2048 ≤ p.poss then 9 else 0
  else if 0x8000 ≤ x && x ≤ 0x803F then
    if p.isOpen then 4 else if nval ≤ x - 0x8000 then 7 else if 64 ≤ p.vals then 8 else 0
  else if x == 0xC000 then (if !p.isOpen || !p.hasPos then 5 else 0)
  else if x == 0xFFFF then (if p.isOpen then 6 else 0)
  else 1

/-- A legal token moves the reader on. -/
def podStep (p : PodPos) (x : Nat) : PodPos :=
  if x < 0x800 then { p with hasPos := true, poss := p.poss + 1, cur := x :: p.cur }
  else if x == 0xC000 then { p with isOpen := false, cur := x :: p.cur }
  else if x == 0xFFFF then { row := p.row + 1, out := p.cur.reverse :: p.out }
  else { p with isOpen := true, hasPos := false, vals := p.vals + 1, cur := x :: p.cur }

/-- Reads a stream token by token, up to the row end of the last row (R313): `n` tokens are left of the stream, the list holds those that the
engine has read, each with its poison, and `fault` what ended its reading; `pois` is where the first poison lay. That the stream is malformed
goes before poison, and both before a fault that ends the reading; a poisoned token is judged as it stands (R323, log 103). The answer is `none`
where the engine has not read far enough. -/
def podRead (fault : Option FRec) (addr : Nat → Nat) (klen nval nrows : Nat) :
    Nat → List (Nat × Bool) → Nat → Option Nat → PodPos → Option PodEnd
  | 0, _, ix, _, p => some (.bad ix 0 10 p.row)
  | _ + 1, [], _, pois, _ => fault.map (fun f => match pois with | some va => .poison va | none => .fault f)
  | n + 1, (x, bad) :: l, ix, pois, p =>
    let pois := pois.orElse (fun _ => if bad then some (addr ix) else none)
    match podReason klen nval p x with
    | 0 =>
      let q := podStep p x
      if q.row == nrows then some (match pois with | some va => .poison va | none => .rows q.out.reverse)
      else podRead fault addr klen nval nrows n l (ix + 1) pois q
    | r => some (.bad ix x r p.row)

/-- One batch column of a row: its tokens in stream order (R319). -/
def podColumn (value : Nat → FV) (act : Nat → FV) (toks : List Nat) (out : Nat) : Nat :=
  (toks.foldl (fun (out, v, s) x =>
    if x < 0x800 then (out, v, fF32.rnd 0 (FV.add 0 (fF32.dec s) (act x)))
    else if x == 0xC000 then (fF32.rnd 0 (FV.add 0 (FV.mul v (fF32.dec s)) (fF32.dec out)), v, s)
    else (out, value (x - 0x8000), 0)) (out, FV.fin false 0 0, 0)).1

/-- A number of two bytes in the team's scratchpad. -/
def scratchHalf (s : State) (team o : Nat) : Nat := leNat (scratchBytes s team o 2)

/-- The words of a tile after the rows of a pod pass (R319). -/
def podWords (s : State) (p : Pass) (rows : List (List Nat)) (words : Tab Word) : Tab Word :=
  let b := p.blk
  let act := fieldAt b 0x0C 4
  let astr := fieldAt b 0x10 2
  let vtab := fieldAt b 0x14 4
  let row0 := fieldAt b 0x1A 1 % 128
  let col0 := fieldAt b 0x1B 1 % 128
  let batch := fieldAt b 0x1C 1 % 128
  rows.zipIdx.foldl (fun ws r =>
    let i := row0 + r.2
    let old := expandTile (ws.find (fun k _ => k / 128 == i)) (128 * i) 128
    let new := old.zipIdx.map (fun c =>
      if col0 ≤ c.2 && c.2 < col0 + batch then
        BitVec.ofNat 32 (podColumn (fun v => fBF16.dec (scratchHalf s p.team (vtab + 2 * v)))
          (fun x => fBF16.dec (scratchHalf s p.team (act + x * astr + 2 * (c.2 - col0)))) r.1 c.1.toNat)
      else c.1)
    ws.find (fun k _ => k / 128 < i) ++ packTile (128 * i) new ++ ws.find (fun k _ => i < k / 128)) words

/-- Whether some value entry or activation that the rows read is poisoned (R323). -/
def podPoisoned (s : State) (p : Pass) (rows : List (List Nat)) : Bool :=
  let b := p.blk
  let batch := fieldAt b 0x1C 1 % 128
  rows.any (fun r => r.any (fun x =>
    if x < 0x800 then (scratchPois s p.team (fieldAt b 0x0C 4 + x * fieldAt b 0x10 2) (2 * batch)).isSome
    else x != 0xC000 && (scratchPois s p.team (fieldAt b 0x14 4 + 2 * (x - 0x8000)) 2).isSome))

/-- The payload of a record of trap 0x12 (R344). -/
def PodTrap.payload (x : PodTrap) : List Byte := bytesOf x.tokix 4 ++ bytesOf x.tokv 2 ++ bytesOf x.reason 1 ++ bytesOf x.brow 1

/-- Trap 0x12 as an event, where the elected thread has exited (R324). -/
def podEvent (s : State) (th team : Nat) (x : PodTrap) : State :=
  let asid := match s.teams.get team with | some tm => tm.pkt.asid | none => 0
  s.eventOf (unitEngine (clusterOf (placeCore th))) th team x.word { code := 0x12, detail := x.blk, asid := asid, payload := x.payload }

/-- Whether a pod pass may touch memory now: granted, first on its tile, and behind no lock (R247, R294). -/
def podMoves (s : State) (id : Nat) (p : Pass) : Bool :=
  p.granted && p.add.isNone && !tileBusy s id p
    && !(passLocks s p id).any (fun l => l.ranges.any (fun r => lockedBefore s (dieOf p.core) id true r))

/-- Tokens of a stream from index `ix` on, up to the first that cannot be read. -/
def readToks (s : State) (w : Who) (src ix : Nat) : Nat → List (Nat × Bool) × Option FRec
  | 0 => ([], none)
  | n + 1 =>
    match readRange s w (src + 2 * ix) 2 6 with
    | .error f => ([], some f)
    | .ok bs =>
      let (l, f) := readToks s w src (ix + 1) n
      ((leNat (plain bs), anyPois bs) :: l, f)

/-- The engine issues the reads of the next 512-byte chunk of a pod stream: it is translated and read (R204, R323), in both its pages where it
straddles one. Log 100: DEDUCED, unsafe. -/
def podChunk (s : State) (id c : Nat) : State :=
  match s.passes.get id with
  | none => s
  | some p =>
    let left := fieldAt p.blk 8 4 / 2 - p.toks.length
    if p.kind != .mxpod || !podMoves s id p || p.tokBad.isSome || p.toks.length != 256 * c
        || rangeHeld s (teamWho s p.team p.elected) (fieldAt p.blk 0 8 + 2 * p.toks.length) (2 * min 256 left) then s
    else
      let (l, f) := readToks s (teamWho s p.team p.elected) (fieldAt p.blk 0 8) p.toks.length (min 256 left)
      { s with passes := s.passes.put id { p with toks := p.toks ++ l, tokBad := f } }

/-- POD_PASS_COMPLETE (R323): the rows run into the tile, or the pass fails with the tile unchanged. -/
def execPodPassComplete (id : Nat) (s : State) : Out :=
  match s.passes.get id with
  | none => .next s
  | some p =>
    match p.kind, s.teams.get p.team, s.tile p.team p.crew p.tile with
    | .mxpod, some _, some t =>
      let b := p.blk
      let w := teamWho s p.team p.elected
      let src := fieldAt b 0 8
      let unit := unitEngine p.cluster
      let word := match p.arr.find? (fun a => a.th == p.elected) with | some a => a.word | none => 0
      if !podMoves s id p then .next s
      else
        let fail := fun (s : State) (cause : Nat) => endPass (passState s p 3 (some cause)) id p
        match podRead p.tokBad (fun ix => src + 2 * ix) (fieldAt b 0x12 2 % 4096) (fieldAt b 0x18 1) (fieldAt b 0x19 1) (fieldAt b 8 4 / 2) p.toks 0 none {} with
        | none => .next s
        | some (.fault f) => .next ((fail s f.cause).faultOf unit p.elected p.team word f)
        | some (.poison va) => .next ((fail s 0x05).faultOf unit p.elected p.team word (poisonRec s w va 6))
        | some (.bad ix tok reason row) =>
          let x : PodTrap := { blk := p.blkOff, tokix := ix, tokv := tok, reason := reason, brow := row, word := word }
          let s1 := fail (scratchWrite s p.team (p.blkOff + 0x20) x.payload) 0x12
          (match s1.threads.get p.elected with
            | some th =>
              if th.st == .exited then .next (podEvent s1 p.elected p.team x)
              else .next (s1.setThread p.elected { th with podTraps := th.podTraps ++ [{ x with late := th.st == .susp }] })
            | none => .next (podEvent s1 p.elected p.team x))
        | some (.rows rows) =>
          let t0 := if fieldAt b 0x1A 1 / 128 == 1 then { t with words := [], pois := false, record := none } else t
          let t1 := { t0 with words := podWords s p rows t0.words }
          let t2 := if podPoisoned s p rows then t1.poison none else t1
          .next (endPass (passState (s.updTile p.team p.crew p.tile (fun _ => t2)) p 2 none) id p)
    | _, _, _ => .next s

end Sys2Proof.Machine
end

