-- ==== Sys2Proof/Machine/Regroup.lean ====
section
/-! DEFINITION. Regrouping entries and unfiled sets (R24, R139, R144, R145), how a thread comes to stand at a run header or exits (R158), the
walk of a run (R60, R61), and which threads are eligible (R31, R141). -/

namespace Sys2Proof.Machine

/-- The header that an entry caches; a word that cannot be fetched stands as 0, and the choice finds the defect.
Log 67: DESIGN CHOICE, safe. -/
def headerAt (s : State) (asid va : Nat) : Word :=
  match fetchWord s asid va with
  | .ok w => w
  | .error _ => 0

/-- Whether an entry has a key. -/
def Entry.keyIs (x : Entry) (core team role addr : Nat) : Bool := x.core == core && x.team == team && x.role == role && x.addr == addr

/-- Filed entries of a core in use. -/
def filedCount (s : State) (core : Nat) : Nat := (s.entries.filter (fun x => x.core == core && x.slot.isNone)).length

/-- Launch class of a thread's candidate (R142). -/
def launchClass (s : State) (team : Nat) : Nat := match s.teams.get team with | some tm => tm.pkt.prio | none => 0

/-- Files a thread at its run header: into the entry of its key, a free entry, or the unfiled set of its slot (R144). -/
def fileThread (s : State) (pl : Nat) : State :=
  match s.threads.get pl with
  | none => s
  | some t =>
    let e := envOf s pl t
    let addr := t.pc.toNat
    let here := fun (x : Entry) => x.keyIs e.core e.team e.role addr
    let join := fun (p : Entry → Bool) => { s with entries := s.entries.map (fun x => if p x then { x with members := x.members ++ [pl] } else x) }
    let new : Entry := { core := e.core, team := e.team, role := e.role, addr := addr, slot := none, members := [pl],
                         hdr := headerAt s e.asid addr, cls := launchClass s e.team }
    if s.entries.any (fun x => here x && x.slot.isNone) then join (fun x => here x && x.slot.isNone)
    else if filedCount s e.core < 48 then { s with entries := s.entries ++ [new] }
    else if s.entries.any (fun x => here x && x.slot == some e.gslot) then join (fun x => here x && x.slot == some e.gslot)
    else { s with entries := s.entries ++ [{ new with slot := some e.gslot }] }

/-- The earlier of two ready times: that of the first thread (R141). -/
def earlierReady : Option Nat → Option Nat → Option Nat
  | some a, some b => some (min a b)
  | some a, none => some a
  | none, b => b

/-- A filed entry takes the threads of an unfiled set, with their ready time; a new one, with their class (R141, R142, R144). -/
def Entry.takes (y x : Entry) (fresh : Bool) : Entry :=
  { y with ready := earlierReady y.ready x.ready, cls := if fresh then x.cls else y.cls, passed := if fresh then x.passed else y.passed }

/-- At each choice, the unfiled threads of a core are filed first, as far as entries are free (R144): the set made first goes first, whole, and the
threads of one ended run are filed in rising home lane. A thread that goes on alone in its run has an entry of its own, marked 64 + its place.
Log 93: DESIGN CHOICE, unsafe. -/
def refile (s : State) (core : Nat) : State :=
  s.entries.foldl (fun s x =>
    let here := fun (y : Entry) => y.keyIs x.core x.team x.role x.addr
    let known := s.entries.any (fun y => here y && y.slot.isNone)
    if x.core != core || x.slot.isNone || 48 ≤ x.slot.getD 0 then s
    else if filedCount s core < 48 || known then
      let s1 := x.members.foldl fileThread { s with entries := s.entries.filter (fun y => !(here y && y.slot == x.slot)) }
      { s1 with entries := s1.entries.map (fun y => if here y && y.slot.isNone then y.takes x (!known) else y) }
    else s) s

/-- A thread stands at a run header, waiting from now on (R24). -/
def standAt (s : State) (pl : Nat) (t : Thread) : State :=
  fileThread { s.setThread pl { t with st := .ready, since := s.serial } with serial := s.serial + 1 } pl

/-- A thread exits (R158): traps 0x12 that wait for it become events (R324), and records of its own traps are
withdrawn. -/
def exitThread (s : State) (pl : Nat) : State :=
  match s.threads.get pl with
  | none => s
  | some t =>
    if t.st == .exited then s
    else
      let s1 := unfile (t.podTraps.foldl (fun s x => podEvent s pl t.team x) s) pl
      let t1 := { t with st := .exited, next := none, exiting := false, waits := [], newWaits := [], wake := 0, bar := none,
                         park := false, collPark := false, susp := none, podTraps := [], abort := none }
      let s2 := s1.setThread pl t1
      { s2 with
        mail := s2.mail.filter (fun e => !(e.2.th == some pl && e.2.mrec.kind == 0))
        posts := s2.posts.filter (fun e => !(e.2.th == some pl && e.2.mrec.kind == 0)) }

/-! ### The walk of a run (R60, R61) -/

/-- How the walk of a run ends. -/
inductive Walk where
  | good (h : Header) (body : List Word)
  /-- malformed: trap 0x03 -/
  | malformed
  /-- a SYS run for a user group: trap 0x15 -/
  | privileged
  /-- a word cannot be fetched -/
  | fault (r : FRec)
  deriving Repr

/-- Whether a word may stand at an index of a body of a class (R60): `left` words are left, itself included. -/
def wordOk (cls left : Nat) (w : Word) : Bool :=
  let op := opOf w
  w != 0 && op != 0x7C && op != 0x7D && wordsOf w ≤ left && !(opFlowEnd op && wordsOf w != left) && runHolds cls (opClass op)

/-- Walks the body words from an address on; `ext` marks an extension word. -/
def walkBody (fetch : Nat → Except FRec Word) (cls addr : Nat) (ext : Bool) : Nat → List Word → Except (Option FRec) (List Word)
  | 0, acc => .ok acc.reverse
  | n + 1, acc =>
    match fetch addr with
    | .error f => .error (some f)
    | .ok w =>
      if ext then walkBody fetch cls (addr + 4) false n (w :: acc)
      else if !wordOk cls (n + 1) w then .error none
      else walkBody fetch cls (addr + 4) (wordsOf w == 2) n (w :: acc)

/-- Walks the run at an address (R60, R61). An address outside the windows that is not a multiple of 4 is malformed before any word is fetched.
Log 6: DEDUCED, unsafe. Log 84: DESIGN CHOICE, unsafe. -/
def walkRun (s : State) (asid va : Nat) (sup : Bool) : Walk :=
  if windowOf va == 0 && va % 4 != 0 then .malformed
  else
    match fetchWord s asid va with
    | .error f => .fault f
    | .ok w =>
      match headerOf w with
      | none => .malformed
      | some h =>
        match walkBody (fun a => fetchWord s asid (a % 2 ^ 64)) h.cls (va + 4) false h.count [] with
        | .error (some f) => .fault f
        | .error none => .malformed
        | .ok body => if h.cls == 5 && !sup then .privileged else .good h body

/-- The trap that a run's defect raises at the boundary of a thread (R60, R61); the record of a fetch is the thread's own (R202). -/
def walkTrap (s : State) (pl : Nat) (t : Thread) : Walk → Trap
  | .fault f => { Trap.ofRec (faultRec s (envOf s pl t).who f.va 3 f.cause) with fetch := true }
  | .privileged => { code := 0x15, fetch := true }
  | _ => { code := 0x03, payload := bytesOf t.pc.toNat 8 ++ bytesOf t.prod.toNat 8, fetch := true }

/-! ### Eligible threads (R31, R141) -/

/-- Slots named in a mask read zero for a thread's home group (R31). -/
def slotsZero (s : State) (pl mask : Nat) : Bool :=
  match s.groups.get (placeGroup pl) with
  | some g => (upto 8).all (fun n => !mask.testBit n || g.sb.getD n 0 == 0)
  | none => true

/-- `WAIT` of a cached header; a header that is none waits for nothing, and the walk finds the defect. -/
def waitOf (hdr : Word) : Nat := match headerOf hdr with | some h => h.wait | none => 0

/-- Whether fetching and walking the run at which a thread stands traps at the boundary (R60, R61). -/
def runTraps (s : State) (pl : Nat) (t : Thread) : Bool :=
  let e := envOf s pl t
  match walkRun s e.asid t.pc.toNat e.sup with
  | .good _ _ => false
  | _ => true

/-- A thread of a team is parked within a run at a collective: it is not saved there, so the team's other threads are still chosen until its
collective is free (R291, R349). Log 106: DEDUCED, unsafe. -/
def collStuck (s : State) (team : Nat) : Bool := s.threads.any (fun e => e.2.team == team && !isSup e.1 && e.2.collPark)

/-- A team's threads are chosen while it runs; one that stops lets threads finish their runs, and take the traps of their boundary, which come
before pre-emption (R349, R352). -/
def teamRuns (s : State) (pl : Nat) (t : Thread) (midRun : Bool) : Bool :=
  isSup pl || (match s.teams.get t.team with
    | some tm => tm.st == .running || (tm.st == .stopping && (midRun || collStuck s t.team || runTraps s pl t))
    | none => false)

/-- Whether a thread is eligible (R141), or may go on alone in its run (R348). One that parks at a collective after another trap's reply keeps a
trap 0x12 for its next boundary (R324). -/
def eligible (s : State) (x : Entry) (pl : Nat) : Bool :=
  match s.threads.get pl with
  | none => false
  | some t =>
    match t.st with
    | .ready =>
      t.waits.isEmpty && !t.asleep s && t.bar.isNone && !t.park && t.podTraps.isEmpty && t.abort.isNone && teamRuns s pl t false
        && slotsZero s pl (waitOf x.hdr)
    | .resume _ _ => (!t.collPark || (collFree s t t.gid && t.podTraps.all (·.late))) && teamRuns s pl t true
    | _ => false

/-! ### Traps that end a park (R26, R280, R324, R354) -/

/-- Run header and word at which a thread that is parked within a run goes on: at a collective, behind a range lock, or in an issue group that
holds at a word (R26, R280); a thread that has done the held word goes on after it. -/
def State.parkedAt (s : State) (pl : Nat) (t : Thread) : Option (Nat × Nat) :=
  match t.st with
  | .resume w _ => if t.collPark then some (t.pc.toNat, w) else none
  | .lockwait => t.susp.bind (·.pos)
  | .issuing q =>
    (match s.issues.get q with
      | some x =>
        if x.stall then some (x.hdr, if x.served.contains pl then x.wix + wordsOf (x.body.getD x.wix 0) else x.wix) else none
      | none => none)
  | _ => none

/-- A thread that stands at a boundary, waits or is parked takes a trap, and leaves its park or wait. -/
def State.unpark (s : State) (pl : Nat) (t : Thread) (tr : Trap) : State :=
  let pos := s.parkedAt pl t
  let skip := match t.st with | .resume _ k => k | _ => false
  let s1 := match t.st with | .issuing q => s.leaveIssue q pl | _ => s
  let t1 := if pos.isSome then { t with collPark := false }
    else { t with waits := [], newWaits := [], wake := 0, bar := none, park := false }
  ((unfile s1 pl).setThread pl t1).suspend pl { tr with coll := skip } pos

/-- The trap 0x12 that a thread takes now: at a boundary the first that waits for it; parked within a run, the first that met it there or waiting,
and not suspended in another trap (R324). -/
def State.podTrapNow (s : State) (th : Nat) (t : Thread) : Option PodTrap :=
  if t.st == .ready then t.podTraps.head?
  else if (s.parkedAt th t).isSome then t.podTraps.find? (fun x => !x.late)
  else none

/-- A thread takes the trap 0x12 that it can take, leaving its park or wait (R324). -/
def podDeliver (s : State) (th : Nat) (t : Thread) : State :=
  match s.podTrapNow th t with
  | some x => s.unpark th { t with podTraps := t.podTraps.erase x } { code := 0x12, detail := x.blk, payload := x.payload }
  | none => s

/-- POD_TRAP_DELIVER (R324): the elected thread takes trap 0x12 at its next boundary; where it was parked or waiting when the pass failed, at
once, leaving the park or wait. -/
def execPodTrapDeliver (th : Nat) (s : State) : Out :=
  match s.threads.get th with
  | none => .next s
  | some t => .next (podDeliver s th t)

/-- Threads parked within a run take their traps 0x12 at once: they do not go on in it (R324). -/
def podSettle (s : State) : State :=
  s.threads.foldl (fun s e => match s.threads.get e.1 with
    | some t => if t.podTraps.isEmpty || !(s.parkedAt e.1 t).isSome then s else podDeliver s e.1 t
    | none => s) s

end Sys2Proof.Machine
end

