-- ==== Sys2Proof/Machine/MapUpkeep.lean ====
section
/-! DEFINITION. Keeping translation equal to the map: MAPSYNC, REFIT and the refitter (R188 to R199, R391). -/

namespace Sys2Proof.Machine

/-! ### Places of exception entries (R189, R191, R198, R391) -/

/-- The lowest key from `i` on that a table with rising keys leaves free. -/
def lowestFree {α : Type} (i : Nat) : Tab α → Nat
  | [] => i
  | (k, _) :: r => if k < i then lowestFree i r else if k == i then lowestFree (i + 1) r else i

/-- The bucket of a spilled entry (R198). -/
def spillBucket (x : Xl) (asid vpn : Nat) : Nat := ((vpn ^^^ (vpn / 2 ^ 17)) ^^^ asid) % 2 ^ x.xspn

/-- The lowest free slot of a bucket. -/
def spillSlot (x : Xl) (b : Nat) : Option Nat :=
  (upto 8).findSome? (fun j => if x.spill.has (8 * b + j) then none else some (8 * b + j))

/-- Puts an entry at the place its page has, at the lowest free index, or in its bucket (R391). -/
def placeExc (x : Xl) (e : Exc) : Option Xl :=
  match excOf x e.asid e.vpn with
  | some (2, k, _) => some { x with exc := x.exc.put k e }
  | some (_, k, _) => some { x with spill := x.spill.put k e }
  | none =>
    let k := lowestFree 0 x.exc
    if k < 32768 then some { x with exc := x.exc.put k e }
    else
      match spillSlot x (spillBucket x e.asid e.vpn) with
      | some j => some { x with spill := x.spill.put j e }
      | none => none

/-- Places entries in order, all or none. -/
def placeAll (x : Xl) : List Exc → Option Xl
  | [] => some x
  | e :: r => match placeExc x e with | some y => placeAll y r | none => none

/-- An exception entry for what the map says of a page. -/
def Leaf.exc (l : Leaf) (asid vpn gen : Nat) : Exc :=
  match l with
  | .page p a => { vpn := vpn, asid := asid, ppn := p, attr := a, ev := true, igen := gen }
  | _ => { vpn := vpn, asid := asid, ppn := 0, attr := { perm := 0, kind := 0, cpol := 0, tow := false }, ev := false, igen := gen }

/-- The 32 bytes of a spilled entry (R189). -/
def Exc.bytes (e : Exc) : List Byte :=
  bytesOf (e.vpn + e.asid * 2 ^ 40 + 2 ^ 63) 8
    ++ bytesOf (e.ppn + e.attr.perm * 2 ^ 36 + e.attr.kind * 2 ^ 40 + e.attr.cpol * 2 ^ 42 + e.attr.tow.toNat * 2 ^ 44 + e.ev.toNat * 2 ^ 45) 8
    ++ bytesOf e.igen 4 ++ zeros 12

/-- A write of the V9 into device memory; memory that does not exist takes nothing. -/
def deviceWrite (s : State) (pa : Nat) (bs : List Byte) : State :=
  if pa + bs.length ≤ 0x6000000000 then (writeLoc s {} (.phys (physOf 0 pa)) (cleanBytes bs) 0 false).1 else s

/-- Writes the slots of the spill list that differ from what it held (R189). -/
def writeSpill (s : State) (old : Tab Exc) : State :=
  let keys := dedup (old.map (·.1) ++ s.xl.spill.map (·.1))
  keys.foldl (fun s k =>
    if Tab.get old k == s.xl.spill.get k then s
    else deviceWrite s (s.xl.xspb + 32 * k) (match s.xl.spill.get k with | some e => e.bytes | none => zeros 32)) s

/-- Event 0x20 when `XOCC` rises to the threshold (R198). -/
def pressure (s : State) (before : Nat) : State :=
  if s.xl.xthr != 0 && before < s.xl.xthr && s.xl.xthr ≤ s.xl.xocc then
    s.postEvent 0 unitRefit { kind := 2, code := 0x20, detail := s.xl.xocc, core := 0 }
  else s

/-- Installs translation state and a space of an ASID, with what the V9 keeps of them in memory. -/
def installXl (s : State) (asid : Nat) (x : Xl) (sp : Space) : State :=
  let s1 := { s with xl := { x with spaces := x.spaces.put asid sp } }
  let s2 := writeSpill s1 s.xl.spill
  let s3 := deviceWrite s2 (s.xl.xasb + 64 * asid + 0x18) (bytesOf sp.gen 4 ++ bytesOf sp.segs.length 4)
  pressure s3 s.xl.xocc

/-! ### MAPSYNC and REFIT (R192, R197) -/

/-- The operands of MAPSYNC and REFIT, then the operation with its system-scope release. -/
def mapIssue (i : Instr) (mk : Nat → Nat → Nat → OpKind) (w : W1) (x : ExtE) (s : State) : State :=
  let b := s.batch
  execSlot i s x.slot.toNat (fun s e t =>
    let (va, p) := rdN e t w.a.toNat 2
    let (n, q) := rd e t w.b.toNat
    let (c, r) := rd e t x.c.toNat
    if p.isBad then .trap s (poisonTrap t p 2)
    else if (q.or r).isBad then .trap s (poisonTrap t (q.or r) 7)
    else
      .ok (s.addOp { kind := mk va n c, th := e.pl, ths := [e.pl], grps := [placeGroup e.pl], slot := some x.slot.toNat, batch := b,
                     dst := w.d.toNat, nd := 1, rel := some 4 }))

/-- MAPSYNC (R192). -/
def execMapsync (w : W1) (x : ExtE) (s : State) : Out :=
  .next (mapIssue (.mapsync w x) (fun va n c => .mapsync va n c 0 0 none) w x s)

/-- REFIT (R197). -/
def execRefit (w : W1) (x : ExtE) (s : State) : Out :=
  .next (mapIssue (.refit w x) (fun va n c => .refit va n c 0 none) w x s)

/-- Statuses 1 and 2 (R192). -/
def mapStatus (sp : Space) (va n : Nat) : Nat :=
  if !sp.valid then 1 else if n == 0 || 65536 < n || 2 ^ 40 < va / 2 ^ 16 + n then 2 else 0

/-- MAPSYNC after its release: the leaves are read and the exceptions installed in one step (R192). -/
def mapsyncInstall (s : State) (op : Nat) (o : Op) (va n asid : Nat) : State :=
  let setOp := fun (s : State) (status pages : Nat) (gen : Option Nat) =>
    s.updOp op (fun _ => { o with kind := .mapsync va n asid status pages gen, relDone := true })
  let st := mapStatus (readSpace s asid) va n
  if st != 0 then setOp s st 0 none
  else
    let s1 := loadSpace s asid
    let sp := s1.xl.spaces.getD asid {}
    let vpn := va / 2 ^ 16
    let ls := (upto n).map (fun i => (vpn + i, leafOf s1 sp (vpn + i)))
    if ls.any (fun l => l.2 == .poison) then setOp s1 4 0 none
    else
      let c := ls.filter (fun l => l.2 != currentLeaf s1 asid l.1)
      let gen := (sp.gen + 1) % 2 ^ 32
      match placeAll s1.xl (c.map (fun l => l.2.exc asid l.1 gen)) with
      | none => setOp s1 3 0 none
      | some x =>
        if c.isEmpty then setOp s1 0 0 (some sp.gen)
        else
          let s2 := installXl s1 asid x { sp with gen := gen }
          let req : RefitReq := { asid := asid, first := vpn, last := vpn + n - 1, op := none }
          let s3 := { s2 with xl := { s2.xl with refits := s2.xl.refits.put s2.serial req }, serial := s2.serial + 1 }
          setOp s3 0 c.length (some gen)

/-- Whether an operation holds an access of an ASID in flight, translated in a generation below `gen` (R193). -/
def Op.inFlight (o : Op) (asid gen : Nat) : Bool :=
  let old := fun (a : Acc) => a.asid == asid && a.gen < gen && (match a.loc with | .phys _ => true | _ => false)
  match o.kind with
  | .load a _ none => old a
  | .store a _ => old a
  | .atomic a _ _ _ _ _ done => old a && !done
  | .cbload _ (some a) _ => old a
  | .launch _ _ src _ => src.any old
  | .pref (some a) => old a
  | .cflush _ _ i g => i == asid && g < gen
  | _ => false

/-- Whether some access of an ASID translated in a generation below `gen` is in flight: a thread's, or a chunk of a Ferry command (R193, R204). -/
def oldFlight (s : State) (asid gen : Nat) : Bool :=
  s.ops.any (fun e => e.2.inFlight asid gen) ||
    s.cmds.any (fun e => (teamWho s e.2.team e.2.th).asid == asid && e.2.flight.any (fun f =>
      f.gen < gen && f.writes.any (fun x => match x.loc with | .phys _ => true | _ => false)))

/-- MAPSYNC_COMPLETE (R192, R193): once no access of an older generation is in flight, the status is written. -/
def execMapsyncComplete (op : Nat) (s : State) : Out :=
  match s.ops.get op with
  | none => .next s
  | some o =>
    match o.kind with
    | .mapsync _ _ asid status pages gen =>
      let busy := match gen with
        | some g => oldFlight s asid g
        | none => false
      if !o.relDone || busy then .next s
      else .next ((s.deliver o.th o.dst 1 (status * 2 ^ 28 + pages) .clean).endOp op)
    | _ => .next s

/-- Ends a REFIT with its status word. -/
def endRefit (s : State) (op status n : Nat) : State :=
  match s.ops.get op with
  | some o => (s.deliver o.th o.dst 1 (status * 2 ^ 28 + n) .clean).endOp op
  | none => s

/-- Exceptions of a range of pages (R197). -/
def excCount (s : State) (asid first last : Nat) : Nat :=
  let inRange := fun (x : Nat × Exc) => x.2.asid == asid && first ≤ x.2.vpn && x.2.vpn ≤ last
  (s.xl.exc.filter inRange).length + (s.xl.spill.filter inRange).length

/-- REFIT after its release: a bad range ends it, and so does a pass over its range that read the map after it issued and has been published; else
its range waits for a pass (R197). -/
def refitQueue (s : State) (op : Nat) (o : Op) (va n asid : Nat) : State :=
  let s1 := s.updOp op (fun _ => { o with relDone := true })
  let st := mapStatus (readSpace s asid) va n
  if st != 0 then endRefit s1 op st 0
  else if (match o.kind with | .refit _ _ _ _ done => done.isSome | _ => false) then
    endRefit s1 op 0 (excCount s1 asid (va / 2 ^ 16) (va / 2 ^ 16 + n - 1))
  else
    let req : RefitReq := { asid := asid, first := va / 2 ^ 16, last := va / 2 ^ 16 + n - 1, op := some op }
    { s1 with xl := { s1.xl with refits := s1.xl.refits.put s1.serial req }, serial := s1.serial + 1 }

/-! ### A refit pass (R195, R196) -/

/-- The length of the line from page `v` with step `d`, already `n` pages long (R195). -/
def lineLen (lf : Nat → Leaf) (last v p : Nat) (a : Attr) (d : Int) : Nat → Nat → Nat
  | 0, n => n
  | k + 1, n =>
    if last < v + n || 16777215 ≤ n then n
    else
      match lf (v + n) with
      | .page q b => if b == a && (q : Int) == (p : Int) + d * n then lineLen lf last v p a d k (n + 1) else n
      | _ => n

/-- The segments of a pass (R195): `kept` counts the segments outside it, `fuel` the pages left. -/
def fitPass (lf : Nat → Leaf) (last kept : Nat) : Nat → Nat → List Seg → List Seg
  | 0, _, out => out
  | k + 1, v, out =>
    if last < v then out
    else
      match lf v, lf (v + 1) with
      | .page p a, .page q b =>
        let d : Int := (q : Int) - p
        if v + 1 ≤ last && b == a && -128 ≤ d && d ≤ 127 && (d != 0 || !a.perm.testBit 1) && kept + out.length < 8192 then
          let n := lineLen lf last v p a d (last - v) 2
          fitPass lf last kept k (v + n) (out ++ [{ vbase := v, len := n, pbase := p, slope := d, attr := a }])
        else fitPass lf last kept k (v + 1) out
      | _, _ => fitPass lf last kept k (v + 1) out

/-- Moves spilled entries into free indices, oldest `IGEN` first, those of one `IGEN` by their slot (R196). Log 94: DESIGN CHOICE, unsafe. -/
def unspill (x : Xl) : Xl :=
  (sortBy (fun (e : Nat × Exc) => e.2.igen) x.spill).foldl (fun (x : Xl) e =>
    let k := lowestFree 0 x.exc
    if k < 32768 then { x with exc := x.exc.put k e.2, spill := x.spill.del e.1 } else x) x

/-- Whether a pass removes an exception (R196). -/
def excGoes (lf : Nat → Leaf) (segs : List Seg) (lo hi gen : Nat) (e : Exc) : Bool :=
  lo ≤ e.vpn && e.vpn ≤ hi && e.igen ≤ gen &&
    (match segFind e.vpn segs 0 with
      | some (_, g) => e.ev && g.ppn e.vpn == e.ppn && g.attr == e.attr
      | none => !e.ev && lf e.vpn == .unmapped)

/-- The refitter reads the map for a range (R195, R196). Status 1 is a descriptor not valid, 4 poison in a table. -/
def readPass (s : State) (key : Nat) (r : RefitReq) : State × RefitPass :=
  let p : RefitPass := { key := key, req := r, at0 := s.serial }
  if !(readSpace s r.asid).valid then (s, { p with status := 1 })
  else
    let s := loadSpace s r.asid
    let sp := s.xl.spaces.getD r.asid {}
    let meets := fun (g : Seg) => g.vbase ≤ r.last && r.first < g.vbase + g.len
    let lo := (sp.segs.filter meets).foldl (fun m g => min m g.vbase) r.first
    let hi := (sp.segs.filter meets).foldl (fun m g => max m (g.vbase + g.len - 1)) r.last
    let lf := fun (v : Nat) => leafOf s sp v
    let leaves := (upto (hi + 1 - lo)).map (fun i => (lo + i, lf (lo + i)))
    if leaves.any (fun l => l.2 == .poison) then (s, { p with status := 4, lo := lo, hi := hi })
    else
      let kept := sp.segs.filter (fun g => !meets g)
      (s, { p with
        gen := sp.gen, lo := lo, hi := hi, segs := fitPass lf hi kept.length (hi + 1 - lo) lo [],
        leaves := leaves.map (fun l => (l.1, match l.2 with | .page q a => some (q, a) | _ => none)) })

/-- What a pass read of a page. -/
def RefitPass.leaf (p : RefitPass) (v : Nat) : Leaf :=
  match p.leaves.find? (fun l => l.1 == v) with
  | some (_, some (q, a)) => .page q a
  | _ => .unmapped

/-- Publishes what a pass has read, in one step (R196): new exceptions take their places first, then spilled ones move into what is free. The
answer is the status: 0 done, 3 no room, or that of the read. Log 94: DESIGN CHOICE, unsafe. -/
def publishPass (s : State) (p : RefitPass) : State × Nat :=
  if p.status != 0 then (s, p.status)
  else
    let asid := p.req.asid
    let sp := s.xl.spaces.getD asid {}
    let kept := sp.segs.filter (fun g => !(g.vbase ≤ p.hi && p.lo < g.vbase + g.len))
    let segs := sortBy (fun (g : Seg) => g.vbase) (kept ++ p.segs)
    let gen := (sp.gen + 1) % 2 ^ 32
    let stays := fun (e : Nat × Exc) => !(e.2.asid == asid && excGoes p.leaf p.segs p.lo p.hi p.gen e.2)
    let x := { s.xl with exc := s.xl.exc.filter stays, spill := s.xl.spill.filter stays }
    let adds := p.leaves.filterMap (fun l =>
      match l.2 with
      | some (q, a) =>
        if (segFind l.1 p.segs 0).isNone && (excOf x asid l.1).isNone then some ((Leaf.page q a).exc asid l.1 gen) else none
      | none => none)
    match placeAll x adds with
    | none => (s, 3)
    | some y =>
      let s1 := deviceWrite s sp.fit ((segs.map (segBytes asid)).flatten)
      (installXl s1 asid (unspill y) { sp with gen := gen, segs := segs }, 0)

/-- The range that the refitter serves next: a REFIT's first, else the oldest (R196). -/
def nextRefit (s : State) (refit : Nat) (r : RefitReq) : Bool :=
  !s.xl.refits.any (fun e => (e.1 < refit && (e.2.op.isSome || r.op.isNone)) || (e.2.op.isSome && r.op.isNone))

/-- A MAPSYNC or REFIT is outstanding, or a supervisor thread issues or may be chosen. -/
def supActive (s : State) : Bool :=
  s.ops.any (fun e => match e.2.kind with | .mapsync _ _ _ _ _ _ | .refit _ _ _ _ _ => true | _ => false)
    || s.issues.any (fun e => e.2.sup) || s.entries.any (fun x => x.members.any (fun pl => isSup pl && eligible s x pl))

/-- The refitter begins a pass: it reads the map for the range that is next (R196). It works in the background: a range that no REFIT asks for waits
while a supervisor thread is at work, so that a REFIT that follows a MAPSYNC at once is served by the one pass of R392. Log 107: DEDUCED, unsafe. -/
def startPass (s : State) (refit : Nat) : State :=
  match s.xl.refits.get refit, s.xl.pass with
  | some r, none =>
    if nextRefit s refit r && (r.op.isSome || !supActive s) then
      let (s1, p) := readPass s refit r
      { s1 with xl := { s1.xl with pass := some p }, serial := s1.serial + 1 }
    else s
  | _, _ => s

/-- Whether a pass serves a pending range: its own, or one that lies within it and that was pending, or whose REFIT had issued, when it read the
map (R197). -/
def RefitPass.serves (p : RefitPass) (key : Nat) (r : RefitReq) : Bool :=
  key == p.key || (r.asid == p.req.asid && p.status == 0 && p.lo ≤ r.first && r.last ≤ p.hi &&
    (match r.op with | some op => op < p.at0 | none => key < p.at0))

/-- REFITs whose release is still to end are served by a pass over their range that read the map after they issued (R197). -/
def serveEarly (s : State) (p : RefitPass) : State :=
  { s with ops := s.ops.map (fun e =>
      match e.2.kind with
      | .refit va n asid st none =>
        if !e.2.relDone && p.serves 0 { asid := asid, first := va / 2 ^ 16, last := va / 2 ^ 16 + n - 1, op := some e.1 } then
          (e.1, { e.2 with kind := .refit va n asid st (some 0) })
        else e
      | _ => e) }

/-- REFIT_PASS_PUBLISH (R196, R197): the pass that has read the map publishes its result. Every REFIT that it serves completes with the number
of exceptions that remain in its range. A range that no REFIT asks for is dropped with a pass that fails. Log 40: DEDUCED, safe. Log 95: DESIGN
CHOICE, unsafe. -/
def execRefitPassPublish (refit : Nat) (s : State) : Out :=
  match s.xl.pass with
  | none => .next s
  | some p =>
    if p.key != refit then .next s
    else
      let (s1, st) := publishPass { s with xl := { s.xl with pass := none } } p
      let served := s1.xl.refits.filter (fun e => if st == 0 then p.serves e.1 e.2 else e.1 == p.key)
      let s2 := { s1 with xl := { s1.xl with refits := s1.xl.refits.filter (fun e => !served.any (fun x => x.1 == e.1)) } }
      let s2 := if st == 0 then serveEarly s2 p else s2
      .next (served.foldl (fun s e =>
        match e.2.op with
        | none => s
        | some op =>
          endRefit s op st (if st == 0 then excCount s e.2.asid e.2.first e.2.last else 0)) s2)

end Sys2Proof.Machine
end

