-- ==== Sys2Proof/Machine/Towline.lean ====
section
/-! DEFINITION. Towline: the six instructions, their serving, and the arrival of a push (R326 to R337, R401). -/

namespace Sys2Proof.Machine

/-- The mould of the six instructions (R335): the lowest guard-true lane acts, and the operands of the others are not read; `opc` is 0 TOWREC,
1 TOWITER, 2 TOWPLAY, 3 TOWSTOP, 4 TOWSTAT, 5 TOWDROP, and `nd` counts the destination registers. -/
def towIssue (i : Instr) (opc nd : Nat) (w : W1) (x : ExtE) (s : State) : State :=
  let ps := ledParticipants i s
  let b := s.batch
  let sys := match s.issues.get s.cur with | some y => y.sup && y.cls == 5 | none => false
  execLed i s x.slot.toNat (fun s e t =>
    let (m, p) := rd e t w.a.toNat
    let (n, q) := rd e t w.b.toNat
    if (p.or q).isBad then .trap s (poisonTrap t (p.or q) 7)
    else
      .ok (s.addOp { kind := .tow opc (x.imm.toNat % 16) m n sys, th := e.pl, ths := ps.map (·.1.pl),
                     grps := dedup (ps.map (fun y => placeGroup y.1.pl)), slot := some x.slot.toNat, batch := b, dst := w.d.toNat, nd := nd }))

/-- TOWREC (R336). -/
def execTowrec (w : W1) (x : ExtE) (s : State) : Out := .next (towIssue (.towrec w x) 0 1 w x s)
/-- TOWITER (R336). -/
def execTowiter (w : W1) (x : ExtE) (s : State) : Out := .next (towIssue (.towiter w x) 1 0 w x s)
/-- TOWPLAY (R336). -/
def execTowplay (w : W1) (x : ExtE) (s : State) : Out := .next (towIssue (.towplay w x) 2 1 w x s)
/-- TOWSTOP (R336). -/
def execTowstop (w : W1) (x : ExtE) (s : State) : Out := .next (towIssue (.towstop w x) 3 1 w x s)
/-- TOWSTAT (R337). -/
def execTowstat (w : W1) (x : ExtE) (s : State) : Out := .next (towIssue (.towstat w x) 4 4 w x s)
/-- TOWDROP (R336). -/
def execTowdrop (w : W1) (x : ExtE) (s : State) : Out := .next (towIssue (.towdrop w x) 5 1 w x s)

/-! ### States of a recording (R329, R330) -/

/-- The value of a state (R329). -/
def TowState.code : TowState → Nat
  | .free => 0
  | .armed => 1
  | .recording => 2
  | .recorded => 3
  | .playing => 4
  | .departed => 5

/-- What follows from the participants: the end of recording once every live one has ended its recorded iteration,
and, once TOWPLAY has been served, the advance of `ITER` once every live one has executed TOWITER (R330, R333, R334, R401). -/
def Recd.follow (r : Recd) : Recd :=
  if r.st == .recording && r.parts.all (fun p => !p.live || !p.inRec) then { r with st := .recorded }
  else if r.played && r.parts.any (·.seen) && r.parts.all (fun p => !p.live || p.seen) then
    { r with iter := r.iter + 1, unused := 0, uncov := 0, covered := [], frozen := r.frozen || r.st == .departed,
             parts := r.parts.map (fun p => { p with seen := false }) }
  else r

/-- A participant's team has ended (R330). -/
def Recd.endPart (r : Recd) (asid name : Nat) : Recd :=
  if r.owner != asid then r
  else
    let ps := r.parts.map (fun (p : TowPart) => if p.name == name then { p with live := false, inRec := false } else p)
    { r with parts := ps }.follow

/-- TOWITER by a team of the owner, at a moment `at0` that names the participant's iteration; a team that has ended meanwhile is no live participant
(R330, R332 to R334). -/
def Recd.iterate (r : Recd) (name at0 : Nat) (live : Bool) : Recd :=
  if r.parts.any (fun p => p.name == name) then
    let ps := r.parts.map (fun (p : TowPart) =>
      if p.name == name then { p with inRec := false, iters := at0, push := r.st == .playing, seen := p.seen || r.played } else p)
    { r with parts := ps }.follow
  else if (r.st == .armed || r.st == .recording) && r.parts.length < r.npart then
    ({ r with st := .recording, parts := r.parts ++ [{ name := name, iters := at0, inRec := live, live := live }] } : Recd).follow
  else r

/-- The status word (R335). -/
def towStatus (status : Nat) (r : Recd) : Nat := status + 16 * r.st.code

/-- The quad of TOWSTAT (R337). -/
def towStat (r : Recd) : Nat :=
  (r.st.code + r.trunc.toNat * 8 + (if r.st == .free then 0xFFFF else r.owner) * 2 ^ 16) + r.ents.length % 2 ^ 32 * 2 ^ 32
    + (r.unused + r.uncov * 2 ^ 16) * 2 ^ 64 + (r.parts.length + r.iter % 65536 * 2 ^ 16) * 2 ^ 96

/-- TOWDROP discards the tags for an id; copies and pushes of the recording are plain fills from now on (R336). -/
def towDetach (s : State) (id : Nat) : State :=
  { s with
    pushes := s.pushes.map (fun e => if e.2.id == id then (e.1, { e.2 with id := 16 }) else e)
    mem := { s.mem with
      rdc := s.mem.rdc.map (fun e => if e.2.pushed == some id then (e.1, { e.2 with pushed := none }) else e)
      l2 := s.mem.l2.map (fun e => (e.1, { e.2 with marks := e.2.marks.find (fun _ x => x != id) }))
      tags := (s.mem.tags.map (fun e => (e.1, { e.2 with ids := e.2.ids.filter (fun x => x.id != id) }))).filter (fun e => !e.2.ids.isEmpty) } }

/-- One request: its effect and the value of `D` (R335 to R337). In a SYS run the supervisor group may stop, read and drop any id.
Log 42: DEDUCED, safe. -/
def towServe (s : State) (opc id a b : Nat) (asid team name : Nat) (sys : Bool) : State × Nat :=
  let r := s.recs.getD id {}
  let put := fun (s : State) (r : Recd) => { s with recs := s.recs.put id r }
  let owned := r.st != .free && r.owner != asid && !(sys && 3 ≤ opc)
  if opc == 1 then
    let s1 := s.updTeam team (fun tm => { tm with rcnt := 0 })
    let live := match s.teams.get team with | some tm => !tm.ended | none => false
    if s.teams.has team && r.st != .free && r.owner == asid then ({ put s1 (r.iterate name s.serial live) with serial := s.serial + 1 }, 0)
    else (s1, 0)
  else if owned then (s, if opc == 4 then 0x17 else towStatus 1 r)
  else
    match opc with
    | 0 =>
      if b == 0 || 4096 < b then (s, towStatus 3 r)
      else if r.st == .armed then (s, towStatus 2 r)
      else (put s { st := .armed, owner := asid, thrUnused := a % 2 ^ 16, thrUncov := a / 2 ^ 16 % 2 ^ 16, npart := b }, towStatus 0 r)
    | 2 =>
      if r.st != .recorded then (s, towStatus 2 r)
      else
        (put s { r with st := .playing, iter := 0, unused := 0, uncov := 0, covered := [], frozen := false, played := true,
                        parts := r.parts.map (fun p => { p with seen := false, push := false }) }, towStatus 0 r)
    | 3 =>
      if r.st == .armed || r.st == .recording || r.st == .playing then (put s { r with st := .recorded }, towStatus 0 r)
      else (s, towStatus 2 r)
    | 4 => (s, towStat r)
    | _ => if r.st == .free then (s, towStatus 2 r) else (put (towDetach s id) {}, towStatus 0 r)

/-- TOWLINE_REQUEST_SERVED (R335): the Towline control serves requests in order of arrival. -/
def execTowlineRequestServed (op : Nat) (s : State) : Out :=
  match s.ops.get op with
  | none => .next s
  | some o =>
    match o.kind with
    | .tow opc id a b sys =>
      if s.ops.any (fun e => e.1 < op && (match e.2.kind with | .tow _ _ _ _ _ => true | _ => false)) then .next s
      else
        match s.threads.get o.th with
        | none => .next (s.endOp op)
        | some t =>
          let e := envOf s o.th t
          let (s1, v) := towServe s opc id a b e.asid e.team (match s.teams.get e.team with | some tm => tm.name | none => 0) sys
          .next ((o.ths.foldl (fun s pl => s.deliver pl o.dst o.nd v .clean) s1).endOp op)
    | _ => .next s

/-- PUSH_INSTALL (R332): a valid copy absorbs the push as used; else an RDC takes the home's data with a lease and the
read count, and the home slice takes the sector. A die in a time fault takes no lease, and drops the push (R233), as does a full RDC none of whose
lines may go (log 91). -/
def execPushInstall (push : Nat) (s : State) : Out :=
  match s.pushes.get push with
  | none => .next s
  | some p =>
    let s1 := { s with pushes := s.pushes.del push }
    let a := p.ent.sector * 64
    let line := a / 256
    if p.ent.die == homeDie a then
      if l2Holds s1.mem a then .next s1
      else
        let s2 := l2Add s1 a false
        let m := if p.id < 16 then { s2.mem with l2 := s2.mem.l2.upd line (fun x => { x with marks := x.marks.put (a / 64 % 4) p.id }) } else s2.mem
        .next (s2.setMem (if s1.mem.l2.has line then m else countFill m 300 a p.ent.reads))
    else
      let k := copyKey p.ent.die a
      let held := match s1.mem.rdc.get k with | some c => c.leased s1.mod | none => false
      if held || !leased s1 p.ent.die then .next s1
      else
        let s2 := fillRdc s1 { core := 48 * p.ent.die, rc := p.ent.reads } p.ent.die a (homeBytes s1.mem a 64) (homePois s1.mem a)
        .next (s2.setMem { s2.mem with rdc := s2.mem.rdc.upd k (fun c => { c with pushed := if p.id < 16 then some p.id else none }) })

end Sys2Proof.Machine
end

