-- ==== Sys2Proof/Machine/Supervisor.lean ====
section
/-! DEFINITION. The mailbox, replies and system registers: MBXRD, MBXWR, SRMOV, and the completion of releases (R179, R224,
R240, R341 to R349, R355, R361, R403). -/

namespace Sys2Proof.Machine

/-! ### Posting (R342) -/

/-- Key of a mailbox entry. -/
def mailKey (core e : Nat) : Nat := core * 64 + e

/-- The lowest free entry of a range of a core's mailbox. Log 34: DESIGN CHOICE, unsafe. -/
def freeEntry (s : State) (core lo hi : Nat) : Option Nat :=
  (upto (hi - lo)).findSome? (fun i => if s.mail.has (mailKey core (lo + i)) then none else some (lo + i))

/-- MAILBOX_POST (R342): a record takes the lowest free entry of its kind; the posting of a thread's record is a
device-scope release. Entries promised to SVCs are left to them (R164). -/
def execMailboxPost (post : Nat) (s : State) : Out :=
  match s.posts.get post with
  | none => .next s
  | some p =>
    let put := fun (s : State) (e : Nat) =>
      { s with mail := s.mail.put (mailKey p.core e) { mrec := p.mrec, order := s.serial, th := p.th, op := p.op },
               posts := s.posts.del post, serial := s.serial + 1 }
    match p.th with
    | none =>
      (match freeEntry s p.core 56 64 with
        | some e => .next (put s e)
        | none => .next s)
    | some th =>
      let k := p.op.getD s.serial
      if !releasedAt s k th 2 || (!p.resv && freeRequests s p.core == 0) then .next s
      else
        match freeEntry s p.core 0 56 with
        | none => .next s
        | some e => .next (put (releaseClocks (completeRelease s th 2 false).1 th 2) e)

/-! ### MBXRD (R347) -/

/-- MBXRD. -/
def execMbxrd (w : W1) (x : ExtE) (s : State) : Out :=
  let b := s.batch
  .next (execSlot (.mbxrd w x) s x.slot.toNat (fun s e t =>
    let (va, p) := rdN e t w.a.toNat 2
    if p.isBad then .trap s (poisonTrap t p 2)
    else
      .ok (s.addOp { kind := .mbxrd va, th := e.pl, ths := [e.pl], grps := [placeGroup e.pl], slot := some x.slot.toNat, batch := b,
                     dst := w.d.toNat, nd := 1, acq := some 2 })))

/-- Unread entries of a core. Log 35: DEDUCED, unsafe. -/
def unread (s : State) (core : Nat) : Tab MEnt := s.mail.find (fun k m => k / 64 == core && !m.read)

/-- MBXRD_COMPLETE (R347): the oldest unread record is copied with plain stores and `D` written. -/
def execMbxrdComplete (op : Nat) (s : State) : Out :=
  match s.ops.get op with
  | none => .next s
  | some o =>
    match o.kind, s.threads.get o.th with
    | .mbxrd va, some t =>
      let core := placeCore o.th
      (match minBy (fun (e : Nat × MEnt) => e.2.order) (unread s core) with
        | none => .next s
        | some (k, m) =>
          let e := envOf s o.th t
          if blocked s op o || (va % 64 == 0 && rangeHeld s e.who va 64) then .next s
          else
            let r := if va % 64 != 0 then Except.error (faultRec s e.who va 1 0x10)
              else writeRange s e.who va (cleanBytes (m.mrec.bytes (k % 64))) 1 (some core)
            match r with
            | .error f =>
              .next ((s.updThread o.th (fun t => if t.st == .exited then t else let (t1, q) := t.newRec f false; wrN t1 o.dst 0 q 1)).endOp op)
            | .ok (s1, g) =>
              let s2 := acquireClocks (s1.updThread o.th (fun t => t.raise g)) o.th 2
              let mail := if 56 ≤ k % 64 then s2.mail.del k else s2.mail.put k { m with read := true }
              let s3 := { s2 with mail := mail }
              let v := k % 64 + m.mrec.kind * 64 + m.mrec.code * 256 + (unread s3 core).length * 65536
              .next ((s3.deliver o.th o.dst 1 v .clean).endOp op))
    | _, _ => .next s

/-! ### MBXWR (R348) -/

/-- MBXWR: the reply is applied once its device-scope release has completed. -/
def execMbxwr (w : W1) (x : ExtE) (s : State) : Out :=
  let b := s.batch
  .next (execSlot (.mbxwr w x) s x.slot.toNat (fun s e t =>
    let (a, p) := rd e t w.a.toNat
    let (r, q) := rd e t w.b.toNat
    let (c, u) := rdN e t x.c.toNat 2
    let bad := (p.or q).or u
    if bad.isBad then .trap s (poisonTrap t bad 7)
    else
      .ok (s.addOp { kind := .mbxwr (a % 64) r c, th := e.pl, ths := [e.pl], grps := [placeGroup e.pl], slot := some x.slot.toNat,
                     batch := b, dst := w.d.toNat, nd := 1, rel := some 2 })))

/-- Whether a reply word is valid for a record. -/
def replyValid (m : MRec) (word : Nat) : Bool :=
  let action := word % 8
  word / 32 == 0 && action ≤ 4 && !(word.testBit 3 && (action != 2 || m.kind != 0 || m.code != 0x0A)) && !(word.testBit 4 && action != 4)

/-- The actions that a record takes (R344, R348); `fetch` marks a fetch or malformed-run trap. -/
def replyAllowed (m : MRec) (fetch : Bool) (action : Nat) : Bool :=
  if m.kind == 1 then action == 3 || action == 4
  else
    match m.code with
    | 0x18 => action == 3
    | 0x12 => action == 0 || action == 1 || action == 3
    | _ => if fetch || m.code == 0x03 || m.code == 0x15 then action == 0 || action == 2 || action == 3 else action ≤ 3

/-- Ends a thread that was told to end at its next boundary, else lets it stand there (R164). Log 36: DEDUCED, unsafe. -/
def standOrEnd (s : State) (pl : Nat) (t : Thread) : State :=
  if t.exiting then exitThread (s.setThread pl t) pl else standAt s pl t

/-- Applies an action to a suspended thread (R348). A thread that took trap 0x12 while it was parked at a word goes on at that word on SKIP.
Log 89: DEDUCED, unsafe. -/
def replyTrap (s : State) (pl : Nat) (t : Thread) (sp : Susp) (action : Nat) (lockwait : Bool) (target : Nat) : State :=
  let t0 := { t with susp := none }
  match action with
  | 0 => standOrEnd s pl { t0 with pc := BitVec.ofNat 64 target, prod := t.pc, k := cleanRegs 8, waits := t.newWaits.map (·.from s t.team), newWaits := [] }
  | 1 =>
    (match sp.pos with
      | some (_, w) =>
        if sp.code == 0x12 then s.setThread pl { t0 with st := .resume w sp.coll, collPark := sp.coll }
        else
          -- a fifth collection would open: the thread parks at the word, and counts as arrived later (R288)
          let full := sp.coll && !collFree s t t.gid
          let s1 := if sp.coll && !full then skipArrive s pl else s
          s1.updThread pl (fun t => { t with susp := none, st := .resume w true, collPark := full })
      | none => standOrEnd s pl t0)
  | 2 =>
    if lockwait then s.setThread pl { t with st := .lockwait }
    else
      (match sp.pos with
        | some (_, w) => s.setThread pl { t0 with st := .resume w false }
        | none => standOrEnd s pl { t0 with waits := sp.waits.map (fun c => { off := c.1, mask := c.2, promise := none }) })
  | _ => exitThread s pl

/-- A reply of TERMINATE to a service: the thread ends at its next boundary, at once where it stands at one (R164). -/
def endAtBoundary (s : State) (pl : Nat) : State :=
  match s.threads.get pl with
  | none => s
  | some t =>
    let inRun := match t.st, t.susp with
      | .issuing _, _ => true
      | .resume _ _, _ => true
      | .lockwait, _ => true
      | .susp, some sp => sp.pos.isSome
      | _, _ => false
    if inRun then s.setThread pl { t with exiting := true } else exitThread s pl

/-- A reply: the status, and its effect where that is 0 (R348). -/
def reply (s : State) (core entry word target : Nat) : State × Nat :=
  let k := mailKey core entry
  match s.mail.get k with
  | none => (s, 1)
  | some m =>
    match m.th with
    | none => (s, 1)
    | some pl =>
      let t := (s.threads.get pl).getD { team := 0, gid := 0, st := .exited }
      let fetch := match t.susp with | some sp => sp.fetch | none => false
      if 56 ≤ entry then (s, 1)
      else if !replyValid m.mrec word then (s, 3)
      else if !replyAllowed m.mrec fetch (word % 8) then (s, 2)
      else
        -- the replied thread goes on as an agent that has acquired from the reply (R245, R348)
        let s1 := acquireClocks { s with mail := s.mail.del k } pl 2
        if m.mrec.kind == 1 then
          let op := m.op.getD 0
          let o := (s.ops.get op).getD default
          if word % 8 == 4 then
            let s2 := s1.updThread pl (fun t =>
              if t.st == .exited then t
              else if word.testBit 4 then
                let (t1, q) := t.newRec { cause := 0x05 } false
                wrN t1 o.dst target q o.nd
              else wrN t o.dst target .clean o.nd)
            (s2.endOp op, 0)
          else (endAtBoundary (s1.endOp op) pl, 0)
        else
          match t.susp with
          | none => (s1, 0)
          | some sp => (replyTrap s1 pl (t.acquire s pl 2) sp (word % 8) (word.testBit 3) target, 0)

/-- LOCKWAIT_RETRY (R348): no lock covers the trapping access any more, and the thread retries alone. -/
def execLockwaitRetry (th : Nat) (s : State) : Out :=
  match s.threads.get th with
  | none => .next s
  | some t =>
    match t.st, t.susp with
    | .lockwait, some { pos := some (_, w), acc := some (owner, a, n, sc, wr), .. } =>
      if (lockHit s sc owner a n wr).isSome then .next s
      else .next (s.setThread th { t with st := .resume w false, susp := none })
    | _, _ => .next s

/-! ### System registers (R355) -/

/-- `TSTAT` (R224). -/
def tstat (s : State) : Nat :=
  (upto 4).foldl (fun v d => v + (s.mod.timeFault.getD d false).toNat * 2 ^ d) (s.mod.desync.toNat * 16) + wrapInt 32 s.mod.ptp * 2 ^ 32

/-- The value of a link state (R363). -/
def LinkState.code : LinkState → Nat
  | .down => 0
  | .detect => 1
  | .equalize => 2
  | .ident => 3
  | .timesync => 4
  | .active => 5
  | .degraded => 6

/-- `GLST` of a link (R361). -/
def glst (k : Link) : Nat := k.st.code + k.lanes % 16 * 8 + k.peer % 2 ^ 16 * 2 ^ 16 + k.rtt % 2 ^ 32 * 2 ^ 32

/-- The offered feature words (R359). -/
def featOffer (w : Nat) : Nat := if w == 0 then 0xFF else 0

/-- `MBXS` of a core (R355). -/
def mbxs (s : State) (core : Nat) : Nat :=
  let all := s.mail.find (fun k _ => k / 64 == core)
  let u := (unread s core).length
  u + (all.length - u) * 2 ^ 8 + (64 - all.length) * 2 ^ 16

/-- Reads a system register for a thread of a core (R179, R224, R355, R361). -/
def sysRead (s : State) (core r : Nat) : Nat :=
  if 0x200 ≤ r && r < 0x300 then
    let q := s.queues.getD ((r - 0x200) / 4) {}
    match r % 4 with
    | 0 => q.base
    | 1 => q.log2 + q.isOpen.toNat * 2 ^ 8
    | 2 => q.head
    | _ => q.tail
  else if 0x310 ≤ r && r ≤ 0x321 then glst (s.mod.links.getD (r - 0x310) {})
  else if r == 0x330 || r == 0x331 then
    let p := s.mod.ports.getD (r - 0x330) {}
    p.up.toNat + p.lost % 2 ^ 16 * 2 ^ 16
  else if 0x300 ≤ r && r < 0x304 then featOffer (r - 0x300)
  else if 0x304 ≤ r && r < 0x308 then s.mod.fen.getD (r - 0x304) 0
  else
    match r with
    | 0x000 => core
    | 0x001 => mbxs s core
    | 0x002 => s.svflt.getD core 0
    | 0x100 => s.xl.xasb
    | 0x101 => s.xl.xspb
    | 0x102 => s.xl.xspn
    | 0x103 => s.xl.xocc
    | 0x104 => s.xl.xspc
    | 0x105 => s.xl.xthr
    | 0x110 => s.mod.lsl1
    | 0x111 => s.mod.lsrdc
    | 0x112 => s.mod.fwin
    | 0x113 => tstat s
    | 0x308 => s.mod.fack
    | 0x30A => s.mod.devid
    | 0x340 => s.mod.rasce
    | 0x341 => s.mod.rasue
    | _ => 0

/-- A value in a range, a multiple of a unit (R224). -/
def inRange (v lo hi unit : Nat) : Bool := lo ≤ v && v ≤ hi && v % unit == 0

/-- Writes a system register: read-only fields and values out of range are ignored (R179, R224, R355, R360).
Log 9: DESIGN CHOICE, safe. Log 44: DEDUCED, unsafe. Log 53: DEDUCED, unsafe. Log 54: DEDUCED, unsafe. -/
def sysWrite (s : State) (r v : Nat) : State :=
  if 0x200 ≤ r && r < 0x300 then
    let i := (r - 0x200) / 4
    let q := s.queues.getD i {}
    let put := fun (q : Queue) => { s with queues := s.queues.put i q }
    match r % 4 with
    | 0 =>
      let b := v / 128 * 128
      put { q with base := b, host := 0x6000000000 ≤ b || Config.ringHost b }
    -- launch queues open at step 8 of start-up (R366)
    | 1 =>
      let n := v % 16
      if 1 ≤ n && n ≤ 12 then
        let opens := v.testBit 8 && 8 ≤ s.mod.boot.step
        let ix := fun (i : Nat) => if opens then i % 2 ^ n else i
        put { q with log2 := n, isOpen := opens, head := ix q.head, tail := ix q.tail }
      else s
    | 2 => s
    -- the one write by which the supervisor sets both indices of a closed queue (log 53)
    | _ => if q.isOpen then s else put { q with head := v % 4096, tail := v % 4096 }
  else if 0x304 ≤ r && r < 0x308 then
    if s.mod.fack == 2 then s else s.setMod { s.mod with fen := s.mod.fen.set (r - 0x304) v }
  else
    match r with
    | 0x100 => { s with xl := { s.xl with xasb := v / 2 ^ 18 * 2 ^ 18 } }
    | 0x101 => if s.xl.xspc != 0 then s else { s with xl := { s.xl with xspb := v / 256 * 256 } }
    | 0x102 => if s.xl.xspc != 0 || 20 < v % 32 then s else { s with xl := { s.xl with xspn := v % 32 } }
    | 0x105 => if 32768 < v % 65536 then s else { s with xl := { s.xl with xthr := v % 65536 } }
    | 0x110 => if inRange v 64 4096 16 then s.setMod { s.mod with lsl1 := v } else s
    | 0x111 => if inRange v 128 8192 16 then s.setMod { s.mod with lsrdc := v } else s
    | 0x112 =>
      if inRange v 1024 8192 64 && !s.mod.links.any (fun k => k.st == .active) then s.setMod { s.mod with fwin := v } else s
    | 0x308 => if s.mod.fack != 2 && v % 4 == 1 then s.setMod { s.mod with fack := 1 } else s
    | _ => s

/-- SRMOV READ (R355): `D` is pending until the register has been read (R346). -/
def execSrmovRead (w : W1) (x : ExtE) (s : State) : Out :=
  let b := s.batch
  .next (execSlot (.srmovRead w x) s x.slot.toNat (fun s e _ =>
    .ok (s.addOp { kind := .srmovR x.imm.toNat, th := e.pl, ths := [e.pl], grps := [placeGroup e.pl], slot := some x.slot.toNat, batch := b,
                   dst := w.d.toNat, nd := 2 })))

/-- The end of an SRMOV READ, which reads the register, or of a CTX whose status is known: `D` is written (R346). -/
def finishOp (s : State) (op : Nat) : State :=
  match s.ops.get op with
  | some o =>
    (match o.kind with
      | .srmovR r => (s.deliver o.th o.dst o.nd (sysRead s (placeCore o.th) r) .clean).endOp op
      | .status v => (s.deliver o.th o.dst o.nd v .clean).endOp op
      | _ => s)
  | none => s

/-- SRMOV WRITE (R355): performed once its device-scope release has completed. -/
def execSrmovWrite (w : W1) (x : ExtE) (s : State) : Out :=
  let b := s.batch
  .next (execSlot (.srmovWrite w x) s x.slot.toNat (fun s e t =>
    let (v, p) := rdN e t w.a.toNat 2
    if p.isBad then .trap s (poisonTrap t p 7)
    else
      .ok (s.addOp { kind := .srmovW x.imm.toNat (BitVec.ofNat 64 v), th := e.pl, ths := [], grps := [placeGroup e.pl],
                     slot := some x.slot.toNat, batch := b, rel := some 2 })))

/-! ### Releases (R240) -/

/-- RELEASE_COMPLETE (R240): every earlier access of the thread is visible in the scope. The release takes its ordinal
(R328), and what waited for it goes on. -/
def execReleaseComplete (op : Nat) (s : State) : Out :=
  match s.ops.get op with
  | none => .next s
  | some o =>
    match o.rel with
    | none => .next s
    | some sc =>
      if !releaseReady s op o || blocked s op o then .next s
      else
        let hasStore := o.writes
        let (s1, ords) := o.threads.foldl (fun (acc : State × List (Option Nat)) th =>
          let (s2, k) := completeRelease acc.1 th sc hasStore
          (releaseClocks s2 th sc, acc.2 ++ [k])) (s, [])
        -- the lanes of a merged atomic take ordinals in ascending home lane (R328)
        let kind := match o.kind with
          | .atomic a pl cas aop ty ps d => .atomic a pl cas aop ty ((ps.zip ords).map (fun x => { x.1 with ord := x.2 })) d
          | x => x
        let o1 := { o with relDone := true, kind := kind, ord := ords.getLast?.getD none }
        let s2 := s1.updOp op (fun _ => o1)
        match o.kind with
        | .mapsync va n asid _ _ _ => .next (mapsyncInstall s2 op o1 va n asid)
        | .refit va n asid _ _ => .next (refitQueue s2 op o1 va n asid)
        | .srmovW r v => .next ((sysWrite s2 r v.toNat).endOp op)
        | .mbxwr e word target =>
          let (s3, st) := reply s2 (placeCore o.th) e word target
          .next ((s3.deliver o.th o.dst 1 st .clean).endOp op)
        | .barRel key => .next ((arriveAt s2 o.th key).endOp op)
        | _ => .next s2

end Sys2Proof.Machine
end

