-- ==== Sys2Proof/Machine/Launch.lean ====
section
/-! DEFINITION. Launches: claims by the host, taking and checking packets, dependence words, placement, team start and grid
completion (R12 to R21, R146 to R155). -/

namespace Sys2Proof.Machine

/-! ### Packets (R151, R152) -/

/-- A packet from the 128 bytes of its entry (R151). -/
def Packet.ofBytes (b : List Byte) : Packet :=
  { code := fieldAt b 0 8, gx := fieldAt b 8 4, gy := fieldAt b 0x0C 2, gz := fieldAt b 0x0E 2, groups := fieldAt b 0x10 1,
    prod := fieldAt b 0x11 1, crew := fieldAt b 0x12 1, gang := fieldAt b 0x13 1, budp := fieldAt b 0x14 1, budc := fieldAt b 0x15 1,
    scru := fieldAt b 0x16 1, tiles := fieldAt b 0x17 1, prio := fieldAt b 0x18 1, asid := fieldAt b 0x1A 2, args := fieldAt b 0x20 8,
    save := fieldAt b 0x28 8, feat := (upto 4).map (fun i => fieldAt b (0x30 + 8 * i) 8), depa := fieldAt b 0x50 8, depv := fieldAt b 0x58 8,
    done := fieldAt b 0x60 8,
    mbz := fieldAt b 0x19 1 != 0 || fieldAt b 0x1C 4 != 0 || !zeroAt b 0x68 0x78 || !zeroAt b 0x79 0x80 }

/-- Bytes 0x00 to 0x77 of a packet (R151). -/
def Packet.bytes (p : Packet) : List Byte :=
  bytesOf p.code 8 ++ bytesOf p.gx 4 ++ bytesOf p.gy 2 ++ bytesOf p.gz 2 ++ bytesOf p.groups 1 ++ bytesOf p.prod 1 ++ bytesOf p.crew 1
    ++ bytesOf p.gang 1 ++ bytesOf p.budp 1 ++ bytesOf p.budc 1 ++ bytesOf p.scru 1 ++ bytesOf p.tiles 1 ++ bytesOf p.prio 1 ++ zeros 1
    ++ bytesOf p.asid 2 ++ zeros 4 ++ bytesOf p.args 8 ++ bytesOf p.save 8 ++ (p.feat.map (fun w => bytesOf w 8)).flatten
    ++ bytesOf p.depa 8 ++ bytesOf p.depv 8 ++ bytesOf p.done 8 ++ zeros 16

/-- Teams of a grid (R14). -/
def Packet.teams (p : Packet) : Nat := p.gx * p.gy * p.gz

/-- Whether a team shape keeps R12, R14, R15, R17 and R18. -/
def Packet.shapeOk (p : Packet) : Bool :=
  2 ≤ p.groups && p.groups ≤ 16 && (p.prod == 1 || p.prod == 2) && p.prod < p.groups
    && (p.crew == 0 || p.crew == 2 || p.crew == 4 || p.crew == 8) && p.crew ≤ p.groups - p.prod
    && 1 ≤ p.gang && p.gang ≤ 4 && p.gx != 0 && p.gy != 0 && p.gz != 0 && p.teams % p.gang == 0

def budgetOk (b : Nat) : Bool := 8 ≤ b && b ≤ 112 && b % 8 == 0

/-- Whether an ASID can be launched into (R177). -/
def asidOk (s : State) (asid : Nat) : Bool := asid != 0 && asid < 4096 && (readSpace s asid).valid

/-- The first cause that rejects a packet (R152). -/
def packetCause (s : State) (p : Packet) : Option Nat :=
  let fen := fun (w : Nat) => if s.mod.fack == 2 then s.mod.fen.getD w 0 else 0
  if !p.shapeOk then some 1
  else if !budgetOk p.budp || !budgetOk p.budc then some 2
  else if 128 < p.scru || 16 < p.crews * p.tiles || (p.tiles != 0 && p.crew == 0) then some 3
  else if 3 < p.prio || p.mbz then some 4
  else if p.code % 4 != 0 || 2 ^ 56 ≤ p.code then some 5
  else if !asidOk s p.asid then some 6
  else if (upto 4).any (fun w => p.feat.getD w 0 ||| fen w != fen w) then some 7
  else none

/-! ### Queues (R147 to R149) -/

/-- LQCLAIM (R147): a host read of the claim register. -/
def execLqclaim (q : Nat) (s : State) : Out :=
  if !(s.mod.ports.getD 0 {}).up then .next s
  else
  match claimEntry s q with
  | some (s1, k) => .next (s1.setMod { s1.mod with reply := .claim (BitVec.ofNat 64 k) })
  | none => .next (s.setMod { s.mod with reply := .claim (BitVec.ofNat 64 (2 ^ 64 - 1)) })

/-- The queue moves on to its next packet. -/
def advanceHead (s : State) (q : Nat) : State :=
  { s with queues := s.queues.upd q (fun d => { d with head := (d.head + 1) % 2 ^ d.log2 }) }

/-- PACKET_TAKE (R149): the head packet is taken once its `STATE` reads 1, and checked at once. Log 50: DEDUCED, unsafe. -/
def execPacketTake (q : Nat) (s : State) : Out :=
  match s.queues.get q with
  | none => .next s
  | some d =>
    let busy := s.grids.any (fun e => e.2.queue == q && e.2.phase != .placed)
    let a := ringAt d d.head 0
    if !d.isOpen || busy || entryState s d d.head != 1 || (spaceOf a == 2 && (hostPort s a).isNone) then .next s
    else
      let p := Packet.ofBytes (homeBytes s.mem a 128)
      let s1 := setEntryState s q d.head 2
      match packetCause s1 p with
      | some c => .next (advanceHead (setEntryState s1 q d.head (0x80 + c)) q)
      | none =>
        let g : Grid := { queue := q, entry := d.head, pkt := p, phase := if p.depa == 0 then .placing else .waiting }
        let s2 := if p.depa == 0 then setEntryState s1 q d.head 3 else s1
        .next { s2 with grids := s2.grids.put s2.serial g, serial := s2.serial + 1 }

/-- Posts a launch fault to the lowest working core of the module (R153). -/
def launchFault (s : State) (r : FRec) : State :=
  match s.workingCore 0 192 with
  | some c => s.postFault c unitLaunch r
  | none => s

/-- The maker of a launch's own accesses: a private address in `DEPA` or `DONE` lies in the private memory of number 0 of the packet's ASID. Log 87:
DESIGN CHOICE, unsafe. -/
def Packet.who (p : Packet) : Who := { asid := p.asid, team := 0, bound := 0, privNo := 0 }

/-- DEPENDENCE_READ (R153): the packet proceeds once the word holds and what its writers wrote before is visible to the grid's first instructions
(R245). A packet whose address space is no longer valid is rejected instead (R152). Log 50: DEDUCED, unsafe. Log 113: DESIGN CHOICE, unsafe. -/
def execDependenceRead (grid : Nat) (s : State) : Out :=
  match s.grids.get grid with
  | none => .next s
  | some g =>
    if g.phase != .waiting || g.aborted then .next s
    else
      let w := g.pkt.who
      if !asidOk s g.pkt.asid then
        .next (advanceHead (setEntryState { s with grids := s.grids.del grid } g.queue g.entry 0x86) g.queue)
      else
      let fail := fun (r : FRec) =>
        .next (advanceHead (launchFault (setEntryState { s with grids := s.grids.del grid } g.queue g.entry 0x88) r) g.queue)
      match checkAcc s w g.pkt.depa 8 0 9 8 0 0 with
      | .error f => fail f
      | .ok a =>
        match a.loc with
        | .scratch _ _ => .next s
        | .phys y =>
          if a.kind == 1 then fail (faultRec s w g.pkt.depa 9 0x0F)
          else
            match homeValue s y 8 with
            | (_, some _) => fail (poisonRec s w g.pkt.depa 9)
            | (bs, none) =>
              if leNat bs < g.pkt.depv || depWaits s y then .next s
              else
                let wins := (depWrites s y).map (fun w => w.clk.bind (·.win))
                let s1 := s.setMod { s.mod with relWin := wins.foldl laterWin s.mod.relWin }
                .next (setEntryState { s1 with grids := s1.grids.put grid { g with phase := .placing } } g.queue g.entry 3)

/-! ### Placement (R20, R139, R154, R155) -/

/-- User slots of a core that are occupied. -/
def slotsUsed (s : State) (core : Nat) : List Nat := (upto 47).filter (fun k => s.groups.has (core * 48 + k))

/-- The slot that one group takes: the lowest free user slot of the scheduler with the fewest occupied slots (R139). -/
def slotFor (used : List Nat) : Option Nat :=
  let count := fun (q : Nat) => (used.filter (fun k => k / 12 == q)).length + (if q == 3 then 1 else 0)
  match minBy count [0, 1, 2, 3] with
  | some q => (upto 12).findSome? (fun i => let k := 12 * q + i; if k == 47 || used.contains k then none else some k)
  | none => none

/-- Slots for `n` groups in order. -/
def slotsFor (used : List Nat) : Nat → List Nat
  | 0 => []
  | n + 1 => match slotFor used with | some k => k :: slotsFor (k :: used) n | none => []

/-- Tiles of a cluster's engine that no crew holds (R20, R308). -/
def tilesFree (s : State) (cluster : Nat) : Nat :=
  16 - (s.teams.find (fun _ t => clusterOf t.core == cluster && !t.ended)).foldl
    (fun n e => n + (e.2.crews.map (fun c => (c.tiles.filter (·.held)).length)).sum) 0

/-- Whether a core can hold a team of a packet, tiles apart (R20). A fenced core holds none (R354). -/
def coreFits (s : State) (p : Packet) (core : Nat) : Bool :=
  !s.mod.fenced.contains core && p.groups ≤ 47 - (slotsUsed s core).length && p.scru ≤ (unitsLent s core).length

/-- The lent units of a core, those that hold no line first: the units that a team takes (R155, R205). -/
def unitsInOrder (s : State) (core : Nat) : List Nat :=
  let lent := unitsLent s core
  let empty := fun (u : Nat) => (unitLines s core u).isEmpty
  lent.filter empty ++ lent.filter (fun u => !empty u)

/-- Units to reclaim for a team on a core: those that hold lines beyond the ones that hold none (R154, R155). -/
def reclaimUnits (s : State) (p : Packet) (core : Nat) : Nat :=
  p.scru - ((unitsLent s core).filter (fun u => (unitLines s core u).isEmpty)).length

/-- Reclaims units of a core: their lines go, but for those with a write-through on its way, which stay until it is performed (R155, R238). -/
def reclaim (s : State) (core : Nat) (units : List Nat) : State :=
  units.foldl (fun s u => (unitLines s core u).foldl (fun s l => dropL1Line s core l) s) s

/-- Cores of a cluster for `n` teams, the best first (R154). -/
def coresIn (s : State) (p : Packet) (cluster n : Nat) : Option (List Nat) :=
  let cs := ((upto 4).map (fun i => 4 * cluster + i)).filter (coreFits s p)
  if cs.length < n || tilesFree s cluster < n * p.crews * p.tiles then none
  else some ((sortBy (fun c => reclaimUnits s p c * 256 + c) cs).take n)

/-- The cores that the teams of a gang are placed on: of the clusters that can hold every member, the one with the fewest units to reclaim in all,
ties to the lower first core; its members in that order, on its cores by units to reclaim and then by number. For one team this is the order of R154.
Log 86: DESIGN CHOICE, unsafe. -/
def chooseCores (s : State) (p : Packet) : Option (List Nat) :=
  let cost := fun (cs : List Nat) => (cs.map (fun c => reclaimUnits s p c)).sum * 2 ^ 8 + cs.headD 0
  minBy cost ((upto 48).filterMap (fun k => coresIn s p k p.gang))

/-- A group slot that has been given back. -/
def noSlot : Nat := 2 ^ 20

/-- Makes a team resident on a core, its groups not yet started. -/
def placeTeam (s : State) (grid index : Nat) (p : Packet) (core : Nat) (st : CtxState) : State × Nat :=
  let k := s.serial
  let slots := slotsFor (slotsUsed s core) p.groups
  let crews : List Crew := List.replicate p.crews { tiles := List.replicate p.tiles {} }
  let units := (unitsInOrder s core).take p.scru
  let tm : Team := { grid := grid, index := index, core := core, slots := slots, pkt := p, st := st, crews := crews, units := units }
  let gs := slots.zipIdx.foldl (fun (gs : Tab Group) x => gs.put (core * 48 + x.1) { team := k, gid := x.2 }) s.groups
  (reclaim { s with teams := s.teams.put k tm, groups := gs, serial := k + 1 } core units, k)

/-- The team's scratchpad units hold no line any more: it can start (R155). -/
def Team.reclaimed (s : State) (tm : Team) : Bool := tm.units.all (fun u => (unitLines s tm.core u).isEmpty)

/-- TEAM_PLACE (R154): the next team or gang of a grid is placed. The queue may have been closed since its head was taken. Log 88: DEDUCED, unsafe. -/
def execTeamPlace (grid : Nat) (s : State) : Out :=
  match s.grids.get grid with
  | none => .next s
  | some g =>
    if g.phase != .placing || g.aborted || !s.mod.boot.supLoaded then .next s
    else if !asidOk s g.pkt.asid then
      if g.placed != 0 then .next s
      else .next (advanceHead (setEntryState { s with grids := s.grids.del grid } g.queue g.entry 0x86) g.queue)
    else
      match chooseCores s g.pkt with
      | none => .next s
      | some cs =>
        let s1 := loadSpace s g.pkt.asid
        let s2 := cs.zipIdx.foldl (fun s c => (placeTeam s grid (g.placed + c.2) g.pkt c.1 .placed).1) s1
        let n := g.placed + g.pkt.gang
        let last := n == g.pkt.teams
        let s3 := { s2 with grids := s2.grids.put grid { g with placed := n, phase := if last then .placed else .placing } }
        let s4 := setEntryState s3 g.queue g.entry (if last then 4 else 3)
        .next (if last then advanceHead s4 g.queue else s4)

/-- Teams of the gang of a team that are resident (R18). -/
def gangMembers (s : State) (tm : Team) : Tab Team :=
  s.teams.find (fun _ t => t.grid == tm.grid && t.index / tm.pkt.gang == tm.index / tm.pkt.gang)

/-- Starts the threads of a team at the packet's code, as agents that have acquired from what released the grid; its scratchpad and tiles read zero
(R20, R93, R206, R245, R288). -/
def startTeam (s : State) (k : Nat) : State :=
  match s.teams.get k with
  | none => s
  | some tm =>
    let blank := fun (c : Crew) => { c with tiles := c.tiles.map (fun x => { x with words := [], pois := false, record := none }) }
    let s1 := s.updTeam k (fun tm => { tm with st := .running, scratch := [], spois := [], crews := tm.crews.map blank })
    let s2 := (upto (32 * tm.pkt.groups)).foldl (fun s tid =>
      s.setThread (tm.placeOf tid)
        { Thread.fresh k (tid / 32) (tm.budget (tid / 32)) (BitVec.ofNat 64 tm.pkt.code) s1.serial with pwin := s.mod.relWin }) s1
    (upto (32 * tm.pkt.groups)).foldl (fun s tid => fileThread s (tm.placeOf tid)) { s2 with serial := s2.serial + 1 }

/-- TEAM_START (R20, R155): once their units hold no line, all the groups of a team start their first run; the teams of a gang start together. -/
def execTeamStart (team : Nat) (s : State) : Out :=
  match s.teams.get team with
  | none => .next s
  | some tm =>
    let ms := gangMembers s tm
    if tm.st != .placed || ms.length < tm.pkt.gang || ms.any (fun e => e.2.st != .placed) then .next s
    else
      let s1 := ms.foldl (fun s e => reclaim s e.2.core e.2.units) s
      if ms.all (fun e => e.2.reclaimed s1) then .next (ms.foldl (fun s e => startTeam s e.1) s1) else .next s1

/-! ### Grid completion (R21, R153, R354) -/

/-- An operation that a release of system scope waits for (R240). -/
def Op.holdsSystem (o : Op) : Bool := o.writes || (match o.kind with | .cflush _ _ _ _ => true | _ => false)

/-- Whether the writes and flushes of a grid's teams that still have operations are all visible (R153, R240). Log 49: DEDUCED, safe. -/
def gridVisible (s : State) (grid : Nat) (g : Grid) : Bool :=
  let mine := fun (th : Nat) => match s.threads.get th with
    | some t => (match s.teams.get t.team with | some tm => tm.grid == grid | none => false)
    | none => false
  g.clock.passed s && !s.ops.any (fun e => e.2.holdsSystem && e.2.threads.any mine) && s.threads.all (fun e => !mine e.1 || e.2.clk.passed s)

/-- The increment of the completion word as an AtomicOp (R153, R264): one that the host does not complete successfully has no promised effect. -/
def bumpHost (s : State) (w : Who) (y done : Nat) : State × Except FRec WClock :=
  let s1 := (upto 4).foldl (fun s j => dropRdc (dropAllL1 s (y / 256 * 4 + j)) (homeDie y) (y / 256 * 4 + j)) s
  if hostGone s y then (s, .error (faultRec s w done 2 0x19))
  else if (s1.mem.pois.get (y / 64)).isSome then (s1, .error (poisonRec s w done 2))
  else
    let fail := Config.freeBit s.tick
    let v := leNat (Memory.read s1.mem.cells y 8) + (if !fail || Config.freeBit (s.tick + 1) then 1 else 0)
    let s2 := { s1.setMem { s1.mem with cells := Memory.write s1.mem.cells y (bytesOf v 8) } with tick := s.tick + 2 }
    (s2, if fail then .error (faultRec s w done 2 0x0F) else .ok {})

/-- The increment of the completion word: the state after it, and its GWCTs or its fault record, with cause 0x19 for a lost host line (R153). Log 113:
DESIGN CHOICE, unsafe. -/
def bumpDone (s : State) (p : Packet) : State × Except FRec WClock :=
  let w := p.who
  match checkAcc s w p.done 8 3 2 8 0 0 with
  | .error f => (s, .error f)
  | .ok a =>
    match a.loc, atomPlace s a.kind 4 false 0 1 with
    | .phys y, some .pcie => bumpHost s w y p.done
    | .phys y, some _ =>
      (match homeValue s y 8 with
        | (_, some c) => (s, .error { poisonRec s w p.done 2 with cause := if c == 0x19 then 0x19 else 0x05 })
        | (bs, none) =>
          let (s1, c) := writeLoc s { nc := a.kind == 3 } (.phys y) (cleanBytes (bytesOf (leNat bs + 1) 8)) 0 false
          (s1, .ok c))
    | _, _ => (s, .error (faultRec s w p.done 2 0x0F))

/-- A grid's entry takes its last `STATE`, and the grid ends. -/
def endGrid (s : State) (grid : Nat) (g : Grid) (st : Nat) : State :=
  setEntryState { s with grids := s.grids.del grid } g.queue g.entry st

/-- GRID_COMPLETE (R153): the last team has given back its scratchpad; the completion word rises and, once that write is visible, `STATE` becomes 5
(R148); or 6 where it cannot rise. An aborted grid ends with `STATE` 0x8F and no increment (R354); where not every team of it
was placed the queue moves on then (R149). Log 111: DESIGN CHOICE, unsafe. -/
def execGridComplete (grid : Nat) (s : State) : Out :=
  match s.grids.get grid with
  | none => .next s
  | some g =>
    match g.fin with
    | some v => if g.clock.passed s then .next (endGrid s grid g v) else .next s
    | none =>
      if g.ended != g.placed || !g.saved.isEmpty || (g.phase != .placed && !g.aborted) || !gridVisible s grid g then .next s
      else if g.aborted then
        let s1 := endGrid s grid g 0x8F
        .next (if g.phase == .placed then s1 else advanceHead s1 g.queue)
      else if g.pkt.done == 0 then .next (endGrid s grid g 5)
      else
        match bumpDone s g.pkt with
        | (s1, .ok c) => .next { s1 with grids := s1.grids.put grid { g with fin := some 5, clock := g.clock.join c } }
        | (s1, .error f) => .next (endGrid (launchFault s1 f) grid g 6)

end Sys2Proof.Machine
end

