-- ==== Sys2Proof/Machine/Teams.lean ====
section
/-! DEFINITION. How teams end: giving back groups, scratchpad and tiles, gang aborts and core faults (R18, R21, R283, R311,
R344, R354). -/

namespace Sys2Proof.Machine

/-- Places of the threads of a team that are in the table. -/
def teamThreads (s : State) (k : Nat) : List Nat := (s.threads.find (fun pl t => t.team == k && !isSup pl)).map (·.1)

/-- Whether a place belongs to a thread of a team. -/
def ofTeam (s : State) (k pl : Nat) : Bool :=
  match s.threads.get pl with
  | some t => t.team == k && !isSup pl
  | none => false

/-! ### Giving back (R21) -/

/-- Whether a group can be given back: its 32 threads have exited and its slots read zero. -/
def groupOver (s : State) (g : Nat) (x : Group) : Bool :=
  x.team != 0 && x.sb.all (· == 0) &&
    (upto 32).all (fun l => match s.threads.get (g * 32 + l) with | some t => t.st == .exited && t.team == x.team | none => false)

/-- Gives back one group slot. The writes of its threads count for their grid's completion; their peer windows for the threads that the grid's
completion releases (R153, R242). -/
def freeGroup (s : State) (g : Nat) (x : Group) : State :=
  let mine := (upto 32).map (fun l => g * 32 + l)
  let ts := mine.filterMap s.threads.get
  let clock := ts.foldl (fun (c : WClock) t => c.join t.clk) {}
  let grid := match s.teams.get x.team with | some tm => tm.grid | none => 0
  { s with
    groups := s.groups.del g
    threads := s.threads.filter (fun e => e.1 / 32 != g)
    ops := s.ops.filter (fun e => !(mine.contains e.2.th && e.2.slot.isNone))
    teams := s.teams.upd x.team (fun tm => { tm with slots := tm.slots.mapIdx (fun i k => if i == x.gid then noSlot else k) })
    grids := s.grids.upd grid (fun d => { d with clock := d.clock.join clock })
    mod := { s.mod with relWin := ts.foldl (fun w t => laterWin w t.pwin) s.mod.relWin } }

/-- Gives back every group slot that can be. -/
def freeGroups (s : State) : State := s.groups.foldl (fun s e => if groupOver s e.1 e.2 then freeGroup s e.1 e.2 else s) s

/-- A participant's team has ended (R330). -/
def towTeamEnds (s : State) (asid name : Nat) : State :=
  { s with recs := s.recs.map (fun e =>
      if e.2.owner == asid && e.2.parts.any (fun p => p.name == name && p.live) then (e.1, e.2.endPart asid name) else e) }

/-- An ordered drain waits for its rank: neither has its turn come nor does it fail (R21, R307). -/
def ordWaits (s : State) (p : Pass) : Bool :=
  p.ordered && !p.sent && (match peerTarget s p false with
    | .found k =>
      (match s.tile k (fieldAt p.blk 0x18 1) (fieldAt p.blk 0x19 1 % 16) with
        | some t => !ordTurn s p k t && !ordDiffers s p k t
        | none => false)
    | _ => false)

/-- Operations of a team that still bring Ferry commands: FERRYs not accepted, and LMARKs that still walk their schedule (R280, R286). -/
def bringsCmds (s : State) (k : Nat) (o : Op) : Bool :=
  ofTeam s k o.th && (match o.kind with | .ferry _ _ _ _ _ | .lmark _ => true | _ => false)

/-- Ends a team whose threads have all exited: an ordered drain that still waits for its rank ends with `STATE` 5; once its commands and
passes are over, scratchpad and tiles are given back (R21). -/
def endTeam (s : State) (k : Nat) (tm : Team) : State :=
  if tm.ended || tm.st == .placed || tm.st == .stopped || !(teamThreads s k).all (fun pl => !s.live pl) then s
  else
    let s1 := towTeamEnds s tm.pkt.asid tm.name
    let waiting := s1.passes.find (fun _ p => p.team == k && ordWaits s1 p)
    let s2 := waiting.foldl (fun s e => endPass (passState s e.2 5 none) e.1 e.2) s1
    if s2.cmds.any (fun e => e.2.team == k) || s2.ops.any (fun e => bringsCmds s2 k e.2) || s2.passes.any (fun e => e.2.team == k && e.2.add.isNone)
        || tm.crews.any (fun c => !c.colls.isEmpty) then s2
    else
      let wrote := match s2.teams.get k with | some x => x.wrote | none => {}
      { s2 with
        teams := s2.teams.upd k (fun t => { t with ended := true })
        grids := s2.grids.upd tm.grid (fun g => { g with ended := g.ended + 1, clock := g.clock.join wrote }) }

/-- Gives back what ended teams hold; a team whose groups are all given back is gone. PREEMPT of a team that has ended
finds none. -/
def teamSettle (s : State) : State :=
  let s1 := s.teams.foldl (fun s e => match s.teams.get e.1 with | some tm => endTeam s e.1 tm | none => s) s
  let s2 := freeGroups s1
  let gone := s2.teams.filter (fun e => e.2.ended && !s2.groups.any (fun g => g.2.team == e.1))
  let s3 := { s2 with teams := s2.teams.filter (fun e => !gone.any (fun x => x.1 == e.1)) }
  (s3.ops.find (fun _ o => match o.kind with
    | .ctx 2 _ _ _ k => (match s3.teams.get k with | some tm => tm.ended | none => true)
    | _ => false)).foldl (fun s e => (s.deliver e.2.th e.2.dst 1 1 .clean).endOp e.1) s3

/-! ### Aborts (R311, R354) -/

/-- The target tile of a peer drain is poisoned, whether its team is resident or saved (R311). -/
def poisonTarget (s : State) (p : Pass) : State :=
  match p.kind, s.teams.get p.team with
  | .drain fn _, some tm =>
    if fn < 2 then s
    else
      let ix := fieldAt p.blk 0x10 8
      let crew := fieldAt p.blk 0x18 1
      let tile := fieldAt p.blk 0x19 1 % 16
      match s.teams.find (fun _ x => x.grid == tm.grid && x.index == ix && !x.ended) with
      | (k, _) :: _ => s.updTile k crew tile (fun t => t.poison none)
      | [] =>
        let mark := fun (c : Crew) => { c with tiles := c.tiles.mapIdx (fun i t => if i == tile then t.poison none else t) }
        { s with grids := s.grids.upd tm.grid (fun g => { g with saved := g.saved.map (fun x =>
            if x.index == ix then { x with team := { x.team with crews := x.team.crews.mapIdx (fun i c => if i == crew then mark c else c) } }
            else x) }) }
  | _, _ => s

/-- Whether an abort cancels a pass: one not granted, or a peer drain that has not written `STATE` 2. -/
def Pass.cancels (p : Pass) : Bool :=
  match p.kind with
  | .drain 2 _ | .drain 3 _ => true
  | _ => !p.granted

/-- The engine state of an aborted team (R311). -/
def abortEngine (s : State) (k : Nat) : State :=
  let mine := s.passes.find (fun _ p => p.team == k && p.add.isNone && p.cancels)
  let s1 := mine.foldl (fun s e =>
    let s := poisonTarget s e.2
    -- a block that has not been read yet has no pass and takes no `STATE`
    let s := if e.2.kind.isRel || e.2.raw then s else passState s e.2 5 none
    endPass s e.1 e.2) s
  let s2 := { s1 with passes := s1.passes.filter (fun e => match e.2.add with | some (_, _, _, src) => !mine.has src | none => true) }
  let s3 := match s2.teams.get k with
    | some tm => (upto tm.crews.length).foldl (fun s j =>
        (tm.crews.getD j {}).colls.foldl (fun s (c : Coll) => endCollective s k j c.k) s) s2
    | none => s2
  s3.updTeam k (fun tm => { tm with crews := tm.crews.map (fun (c : Crew) => { c with colls := [] }) })

/-- Records of a team's threads leave the mailboxes (R354). -/
def dropRecords (s : State) (k : Nat) : State :=
  let mine := fun (th : Option Nat) => match th with | some pl => ofTeam s k pl | none => false
  { s with mail := s.mail.filter (fun e => !mine e.2.th), posts := s.posts.filter (fun e => !mine e.2.th) }

/-- Takes a team off the module at once: nothing of it runs any more. A claim of a LAUNCH that was under way is
cancelled. Log 47: DEDUCED, unsafe. -/
def dropTeam (s : State) (k : Nat) : State :=
  match s.teams.get k with
  | none => s
  | some tm =>
    let mine := ofTeam s k
    let launches := s.ops.find (fun _ o => mine o.th && (match o.kind with | .launch _ _ _ _ => true | _ => false))
    let s1 := launches.foldl (fun s e => match e.2.kind with | .launch q i _ _ => setEntryState s q i 0x80 | _ => s) s
    let s2 := (s1.passes.find (fun _ p => p.team == k)).foldl (fun s e => if e.2.add.isNone then poisonTarget s e.2 else s) (dropRecords s1 k)
    let s3 := (s2.passes.find (fun _ p => p.team == k)).foldl (fun s e => dropLocks { s with passes := s.passes.del e.1 } e.1 true) s2
    -- a failed core's Ferry writes nothing that it cannot send now
    let s4 := (s3.cmds.find (fun _ c => c.team == k)).foldl (fun s e => endCmd (cancelCmd s e.1 e.2) e.1) s3
    let s5 := towTeamEnds s4 tm.pkt.asid tm.name
    { s5 with
      ops := s5.ops.filter (fun e => !mine e.2.th)
      entries := s5.entries.filter (fun x => x.team != k)
      issues := (s5.issues.map (fun e => (e.1, { e.2 with lanes := e.2.lanes.filter (fun pl => !mine pl) }))).filter (fun e => !e.2.lanes.isEmpty)
      threads := s5.threads.filter (fun e => !mine e.1)
      groups := s5.groups.filter (fun e => e.2.team != k)
      teams := s5.teams.del k
      grids := if tm.ended then s5.grids else s5.grids.upd tm.grid (fun g => { g with ended := g.ended + 1, aborted := true }) }

/-- PREEMPTs of a team that is aborted end with status 2. Log 46: DEDUCED, unsafe. -/
def failPreempt (s : State) (k : Nat) : State :=
  (s.ops.find (fun _ o => match o.kind with | .ctx 2 _ _ _ j => j == k | _ => false)).foldl
    (fun s e => (s.deliver e.2.th e.2.dst 1 2 .clean).endOp e.1) s

/-- What an aborted team's commands and collectives come to: they are cancelled, also those that its threads still issue on their way to the next
boundary (R283, R311, R354). -/
def abortWork (s : State) (k : Nat) : State :=
  let s1 := (s.cmds.find (fun _ c => c.team == k)).foldl (fun s e => cancelCmd s e.1 e.2) s
  let s2 := (s1.ops.find (fun _ o => bringsCmds s1 k o)).foldl (fun s e => s.endOp e.1) s1
  abortEngine s2 k

/-- A gang abort ends a team: its commands and collectives are cancelled and its records withdrawn, and trap 0x18 waits for
each of its threads (R354). -/
def abortTeam (s : State) (k core : Nat) : State :=
  match s.teams.get k with
  | none => s
  | some tm =>
    if tm.ended then s
    else if tm.st == .placed then dropTeam s k
    else
      let s2 := dropRecords (abortWork (failPreempt s k) k) k
      let stuck := s2.ops.find (fun _ o => ofTeam s2 k o.th && (match o.kind with | .svc _ => true | _ => false))
      let s3 := stuck.foldl (fun s e => s.endOp e.1) s2
      { s3 with
        threads := s3.threads.map (fun e => if e.2.team == k && !isSup e.1 && e.2.st != .exited then (e.1, { e.2 with abort := some core }) else e)
        teams := s3.teams.upd k (fun tm => { tm with st := .running, aborted := true, held := [] })
        grids := s3.grids.upd tm.grid (fun g => { g with aborted := true }) }

/-- Trap 0x18 is taken at a boundary, or at once where a thread is suspended or parked, in an issue group that holds at a word too (R280, R349,
R354). -/
def deliverAbort (s : State) (pl : Nat) (t : Thread) : State :=
  match t.abort with
  | none => s
  | some core =>
    if t.st == .ready || t.st == .susp || (s.parkedAt pl t).isSome then s.unpark pl { t with abort := none } { code := 0x18, detail := core }
    else s

/-- Cancels what aborted teams have issued, and delivers every trap 0x18 that can be taken. -/
def abortSettle (s : State) : State :=
  let s1 := s.teams.foldl (fun s e => if e.2.aborted && !e.2.ended then abortWork s e.1 else s) s
  s1.threads.foldl (fun s e => match s.threads.get e.1 with | some t => deliverAbort s e.1 t | none => s) s1

/-- CORE_FAULT (R354): the core is fenced, its teams end, and the gangs of its teams are aborted. Log 48: DEDUCED, unsafe. -/
def execCoreFault (core : Nat) (s : State) : Out :=
  if 192 ≤ core || s.mod.fenced.contains core then .next s
  else
    let on := s.teams.find (fun _ tm => tm.core == core && !tm.ended)
    let gangs := dedup (on.map (fun e => e.2.grid * 2 ^ 128 + e.2.index / e.2.pkt.gang))
    let members := on.foldl (fun (l : List Nat) e => l ++ (gangMembers s e.2).map (·.1)) []
    let others := dedup (members.filter (fun k => !on.has k))
    let s1 := others.foldl (fun s k => abortTeam s k core) s
    let s2 := (s1.teams.find (fun _ tm => tm.core == core)).foldl (fun s e => dropTeam s e.1) s1
    let s3 : State := { s2 with
      threads := s2.threads.filter (fun e => placeCore e.1 != core)
      groups := s2.groups.filter (fun e => e.1 / 48 != core)
      ops := s2.ops.filter (fun e => placeCore e.2.th != core)
      issues := s2.issues.filter (fun e => e.1 / 4 != core)
      entries := s2.entries.filter (fun x => x.core != core)
      mail := s2.mail.filter (fun e => e.1 / 64 != core)
      posts := s2.posts.filter (fun e => e.2.core != core)
      mem := { s2.mem with
        l1 := s2.mem.l1.filter (fun e => keyCache e.1 != core)
        l1at := s2.mem.l1at.filter (fun e => e.1 / 2 ^ 54 != core)
        counts := s2.mem.counts.filter (fun e => e.1 / 2 ^ 54 != core) }
      mod := { s2.mod with fenced := core :: s2.mod.fenced, rasue := (s2.mod.rasue + 1) % 2 ^ 64 } }
    let die := dieOf core
    match s3.workingCore (48 * die) (48 * die + 48) with
    | some c => .next (s3.postEvent c (unitCore core) { kind := 2, code := 0x18, detail := core, core := core, payload := bytesOf gangs.length 8 })
    | none => .next s3

end Sys2Proof.Machine
end

