-- ==== Sys2Proof/Machine/CtxBytes.lean ====
section
/-! DEFINITION. The context of a team as bytes of its save area, and back (R353). The bytes hold what R353 names, and a collection's record, whose
layout the spec leaves open; what the layout has no field for stays with the part, in `Kept` (log 8). -/

namespace Sys2Proof.Machine

/-! ### Poison (R339) -/

/-- Poison as four bits: poison, tag, lost. -/
def Pois.code : Pois → Nat
  | .clean => 0
  | .bad tag lost => 1 + 2 * tag.toNat + 8 * lost.toNat

/-- Poison from its four bits. -/
def poisOf (n : Nat) : Pois := if n % 2 == 0 then .clean else .bad (BitVec.ofNat 2 (n / 2)) (n.testBit 3)

/-- Codes of several registers as one number. -/
def poisBits (rs : List Pois) : Nat := rs.zipIdx.foldl (fun n r => n + r.1.code * 16 ^ r.2) 0

/-- A list of bytes of exactly `n`. -/
def padTo (n : Nat) (bs : List Byte) : List Byte := (bs ++ zeros n).take n

/-- A mask of numbers. -/
def maskOf (l : List Nat) : Nat := (dedup l).foldl (fun m i => m + 2 ^ i) 0
/-- The numbers below `n` of a mask. -/
def maskList (n m : Nat) : List Nat := (upto n).filter (m.testBit ·)

/-! ### Threads (R353) -/

/-- Bytes of the poison section of a budget. -/
def poisLen (b : Nat) : Nat := (b + 31) / 32 * 16
/-- Bytes of a thread's record. -/
def threadLen (b : Nat) : Nat := 512 + 4 * b + poisLen b

/-- `TSTATE` and `TWORD`. -/
def Thread.ctxState (t : Thread) : Nat × Nat :=
  match t.st with
  | .exited => (1, 0)
  | .susp | .lockwait => (2, match t.susp with | some { pos := some (_, w), .. } => w | _ => 0)
  | .resume w _ => (2, w)
  | _ => (0, 0)

/-- The FWAIT conditions that a thread's record holds: those it waits for, those of its run, or those of its trap 0x0B. -/
def Thread.ctxWaits (t : Thread) : List FWaitC :=
  if !t.waits.isEmpty then t.waits
  else if !t.newWaits.isEmpty then t.newWaits
  else match t.susp with | some sp => sp.waits.map (fun c => { off := c.1, mask := c.2, promise := none }) | none => []

/-- The record of a thread; `trec` is its withdrawn mailbox record. `PWIN` of a thread without peer stores is all ones. Log 8: DESIGN CHOICE,
unsafe. -/
def Thread.ctxBytes (t : Thread) (b : Nat) (trec : Option MRec) : List Byte :=
  let (ts, w) := t.ctxState
  let kp := (upto 8).foldl (fun n i => n + (t.k.getD i {}).pois.isBad.toNat * 2 ^ i) 0
  let ws := t.ctxWaits
  bytesOf t.pc.toNat 8 ++ bytesOf t.clk.latest 8 ++ bytesOf t.wake 8 ++ bytesOf (t.pwin.getD (2 ^ 64 - 1)) 8
    ++ bytesOf (predBits t + predPois t * 2 ^ 16) 4 ++ bytesOf (ts + w % 32 * 4 + kp * 2 ^ 7) 4 ++ bytesOf t.ncoll 4 ++ zeros 4
    ++ ((t.k.take 8).map (fun r => bytesOf r.val.toNat 4)).flatten ++ bytesOf (min ws.length 12) 1 ++ zeros 15
    ++ padTo 192 ((ws.take 12).map (fun c => bytesOf c.off 4 ++ bytesOf c.mask 4 ++ bytesOf (c.promise.getD (2 ^ 64 - 1)) 8)).flatten
    ++ padTo 96 (t.ring.map (fun r => r.record.bytes)).flatten
    ++ (match trec with | some r => r.bytes 0 | none => zeros 64) ++ zeros 64
    ++ padTo (4 * b) ((t.v.take b).map (fun r => bytesOf r.val.toNat 4)).flatten
    ++ bytesOf (poisBits ((t.v.take b).map (·.pois))) (poisLen b)

/-- Poison whose bit and tag the record gives; the lost mark, and a tag that the record has no bits for, are those kept. -/
def poisLike (kept : Pois) (n : Nat) : Pois := if kept.code % 8 == n % 8 then kept else poisOf (n % 8)
def poisBit (kept : Pois) (bad : Bool) : Pois := if kept.isBad == bad then kept else poisOf bad.toNat

/-- What a thread does, by `TSTATE` and `TWORD`: as kept where the record agrees. -/
def statOf (kept : Thread) (ts word : Nat) (trapped : Bool) : TStat :=
  match ts with
  | 1 => .exited
  | 2 =>
    (match kept.st with
      | .resume _ k => if trapped then .susp else .resume word k
      | .lockwait => .lockwait
      | _ => if trapped then .susp else .resume word false)
  | _ => .ready

/-- A thread as its record says, and for what the record has no field, as it was kept; and its withdrawn mailbox record. Log 8: DESIGN CHOICE,
unsafe. -/
def threadOf (r : List Byte) (kept : Thread) (team gid b now : Nat) : Thread × Option MRec :=
  let f := fun (i n : Nat) => fieldAt r i n
  let st := f 0x24 4
  let word := st / 4 % 32
  let m := MRec.ofBytes ((r.drop 0x180).take 64)
  let has := st % 4 == 2 && m.code != 0
  let ws : List FWaitC := (upto (min (f 0x50 1) 12)).map (fun i =>
    { off := f (0x60 + 16 * i) 4, mask := f (0x64 + 16 * i) 4,
      promise := let p := f (0x68 + 16 * i) 8; if p == 2 ^ 64 - 1 then none else some p })
  let was := kept.susp.getD { code := 0, detail := 0, payload := [], pos := none, fetch := false, acc := none, coll := false, waits := [] }
  let atWord := st % 4 == 2 && (!has || was.pos.isSome)
  let sp : Susp :=
    { was with
      code := m.code, detail := m.detail, payload := m.payload, pos := was.pos.map (fun _ => (f 0 8, word)),
      acc := was.acc.map (fun a => if a.2.2.2.1 then (team, a.2) else a), waits := if atWord then [] else ws.map (fun c => (c.off, c.mask)) }
  let vp := f (0x200 + 4 * b) (poisLen b)
  let pwin := f 0x18 8
  ({ kept with
     team := team, gid := gid, st := statOf kept (st % 4) word has, pc := BitVec.ofNat 64 (f 0 8),
     v := (upto b).map (fun i => { val := BitVec.ofNat 32 (f (0x200 + 4 * i) 4), pois := poisLike (kept.v.getD i {}).pois (vp / 16 ^ i) }),
     k := (upto 8).map (fun i => { val := BitVec.ofNat 32 (f (0x30 + 4 * i) 4), pois := poisBit (kept.k.getD i {}).pois (st.testBit (7 + i)) }),
     p := (upto 12).map (fun i => { val := (f 0x20 4).testBit i, pois := poisBit (kept.p.getD i {}).pois ((f 0x20 4).testBit (16 + i)) }),
     ring := (upto 4).map (fun i => { record := FRec.ofBytes ((r.drop (0x120 + 24 * i)).take 24), lost := (kept.ring.getD i {}).lost }),
     wake := f 0x10 8, waits := if st % 4 == 0 then ws else [], newWaits := if atWord then ws else [],
     rclk := timeNear now (f 8 8), provs := [], pwin := if pwin == 2 ^ 64 - 1 then none else some pwin, fenceAt := max kept.fenceAt (now + 1), ncoll := f 0x28 4,
     susp := if has || (st % 4 == 2 && kept.st == .lockwait) then some (if has then sp else { sp with code := was.code, detail := was.detail, payload := was.payload })
             else none },
   if has then some m else none)

/-! ### Crews (R310, R353) -/

/-- Kind, function, format and bases of a collective, as bytes. -/
def CollKind.bytes : CollKind → List Nat
  | .mxop shape fmt a b zero => [0, shape, fmt, a, b, zero.toNat]
  | .drain fn d => [1, fn, 0, d, 0, 0]
  | .mxpod => [2, 0, 0, 0, 0, 0]
  | .mxrel all => [3, all.toNat, 0, 0, 0, 0]

/-- A kind from its bytes. -/
def CollKind.ofBytes (l : List Nat) : CollKind :=
  match l.getD 0 0 with
  | 0 => .mxop (l.getD 1 0) (l.getD 2 0) (l.getD 3 0) (l.getD 4 0) (l.getD 5 0 != 0)
  | 1 => .drain (l.getD 1 0) (l.getD 3 0)
  | 2 => .mxpod
  | _ => .mxrel (l.getD 1 0 != 0)

/-- The 512 bytes of a collection's record. Log 8: DESIGN CHOICE, unsafe. -/
def CollRec.bytes (c : CollRec) : List Byte :=
  padTo 512 (bytesOf c.st 1 ++ (c.kind.bytes.map (fun x => bytesOf x 1)).flatten ++ bytesOf c.tile 1 ++ bytesOf c.addr 8 ++ bytesOf c.k 4
    ++ bytesOf c.off 4 ++ bytesOf c.elected 2 ++ bytesOf c.slot 1 ++ bytesOf c.square 1 ++ bytesOf c.spois.toNat 1 ++ bytesOf c.book.pois.toNat 1
    ++ zeros 2 ++ bytesOf (maskOf c.arr) 32 ++ bytesOf (maskOf c.skip) 32 ++ padTo 64 c.blk
    ++ padTo 128 (c.strips.map (fun x => BitVec.ofNat 8 x)) ++ padTo 32 (c.book.ents.map (fun x => bytesOf x.toNat 2)).flatten
    ++ c.book.record.bytes)

/-- A collection record from its bytes; `n` is the number of threads of the crew. -/
def collRecOf (r : List Byte) (n : Nat) : CollRec :=
  let f := fun (i k : Nat) => fieldAt r i k
  { st := f 0 1, kind := CollKind.ofBytes ((upto 6).map (fun i => f (1 + i) 1)), tile := f 7 1, addr := f 8 8, k := f 16 4, off := f 20 4,
    elected := f 24 2, slot := f 26 1, square := f 27 1, spois := f 28 1 != 0, arr := maskList n (f 32 32), skip := maskList n (f 64 32),
    blk := (r.drop 96).take 64, strips := (upto 128).map (fun i => f (160 + i) 1),
    book := { ents := (upto 16).map (fun i => BitVec.ofNat 16 (f (288 + 2 * i) 2)), pois := f 29 1 != 0,
              record := FRec.ofBytes ((r.drop 320).take 24) } }

/-- The slot that a thread's collective counts on. -/
def collSlot (s : State) (team j k : Nat) : Nat :=
  match (s.ops.find (fun _ o => o.kind == .coll team j k && o.slot.isSome)).head? with
  | some (_, o) => o.slot.getD 0
  | none => 0

/-- The collections of a crew that a context holds, in order. -/
def crewRecs (s : State) (team : Nat) (tm : Team) (j : Nat) : List CollRec :=
  let ix := fun (pl : Nat) => (tm.crewPlaces j).idxOf pl
  let offs := fun (l : List Arrival) => l.foldl (fun (t : Tab (Nat × Nat)) a => t.put (ix a.th) (a.off, a.word)) []
  let cr := tm.crews.getD j {}
  let done := (s.passes.find (fun _ p => p.team == team && p.crew == j && p.add.isNone)).map (fun e =>
    let p := e.2
    { st := if p.granted then 3 else 2, k := p.k, kind := p.kind, tile := p.tile, slot := collSlot s team j p.k, elected := ix p.elected,
      off := p.blkOff, arr := p.arr.map (fun a => ix a.th), offs := offs p.arr, sentAt := p.sentAt, rows := p.rows, srcPois := p.srcPois,
      blk := p.blk, strips := p.strips,
      square := p.square, spois := p.spois, book := p.book, ord := e.1 : CollRec })
  let opened := cr.colls.map (fun c =>
    { st := 1, k := c.k, addr := c.addr, kind := c.kind, tile := c.tile, slot := collSlot s team j c.k,
      off := match electOf s tm j c with | some a => a.off | none => 0, arr := c.arr.map (fun a => ix a.th), offs := offs c.arr,
      skip := c.skip.map ix : CollRec })
  done ++ opened

/-- The collections that a crew takes back: the four of the area, each with what was kept of it beside its record, and those kept beyond four
(R310). -/
def collsOf (area kept : List CollRec) : List CollRec :=
  (area.filter (fun c => c.st != 0)).map (fun c =>
    match kept.find? (fun x => x.k == c.k) with
    | some x => { c with offs := x.offs, sentAt := x.sentAt, rows := x.rows, srcPois := x.srcPois, ord := x.ord }
    | none => c) ++ kept.drop 4

/-- The 65,600 bytes of a tile. -/
def Tile.ctxBytes (t : Tile) : List Byte :=
  (t.all.map (fun w => bytesOf w.toNat 4)).flatten ++ bytesOf t.pois.toNat 1 ++ bytesOf t.next 1 ++ zeros 62

/-- A tile from its bytes; a peer drain may have poisoned it since it was saved (R311). -/
def tileOf (r : List Byte) (kept : Tile) : Tile :=
  { kept with
    words := packTile 0 ((upto 16384).map (fun i => BitVec.ofNat 32 (fieldAt r (4 * i) 4))), pois := fieldAt r 65536 1 != 0 || kept.pois,
    next := fieldAt r 65537 1 }

/-! ### Commands (R353) -/

/-- The 128 bytes of a saved Ferry command; its progress is the number of chunks done. Log 8: DESIGN CHOICE, unsafe. -/
def Cmd.ctxBytes (c : Cmd) : List Byte :=
  padTo 128 (padTo 64 c.blk ++ bytesOf c.q 1 ++ zeros 7 ++ bytesOf c.promise 8 ++ bytesOf c.chunks.length 4)

/-- A command from its bytes, and what was kept of it: which chunks were done, where their number is the one saved. Log 8: DESIGN CHOICE, unsafe. -/
def ctxCmdOf (r : List Byte) (kept : Cmd) (team core : Nat) (placeAt : Nat → Nat) : Cmd :=
  { kept with
    team := team, core := core, th := placeAt kept.th, q := fieldAt r 64 1, blk := r.take 64, promise := fieldAt r 72 8,
    chunks := if kept.chunks.length == fieldAt r 80 4 then kept.chunks else (upto (fieldAt r 80 4)).reverse }

/-! ### The whole context (R353) -/

/-- Bytes of a group's record. -/
def groupLen (b : Nat) : Nat := 64 + 32 * threadLen b

/-- Bytes of each section: groups, barriers, scratchpad, codebooks, crews, and the commands. -/
def ctxGroups (p : Packet) : Nat := p.prod * groupLen p.budp + (p.groups - p.prod) * groupLen p.budc
def ctxCrews (p : Packet) : Nat := p.crews * (p.tiles * 65600 + 4 * 512)
/-- `SIZE` of a context, in units of 256 bytes. -/
def ctxSize (p : Packet) (ncmd : Nat) : Nat :=
  (256 + ctxGroups p + 12800 + p.scru * 4096 + 512 + ctxCrews p + 128 * ncmd + 255) / 256

/-- The 256 bytes of the header. -/
def ctxHeader (tm : Team) (ncmd : Nat) : List Byte :=
  let ti := match tm.tier with | some t => (t.sched, t.nent, t.cur, t.look) | none => (0, 0, 0, 0)
  padTo 256 (bytesOf 1 4 ++ bytesOf (ctxSize tm.pkt ncmd) 4 ++ bytesOf tm.index 8 ++ padTo 128 tm.pkt.bytes ++ bytesOf tm.rcnt 2
    ++ bytesOf ncmd 1 ++ zeros 5 ++ bytesOf ti.1 8 ++ bytesOf ti.2.1 4 ++ bytesOf ti.2.2.1 4 ++ bytesOf ti.2.2.2 1)

/-- A barrier instance's 80 bytes. -/
def Barrier.bytes (b : Barrier) : List Byte := bytesOf b.phase 8 ++ bytesOf (maskOf b.arrived) 64 ++ bytesOf b.owed 4 ++ zeros 4

/-- A codebook slot's 64 bytes. -/
def Codebook.bytes (c : Codebook) : List Byte :=
  padTo 32 (c.ents.map (fun x => bytesOf x.toNat 2)).flatten ++ bytesOf c.pois.toNat 1 ++ zeros 7 ++ c.record.bytes

/-- The context of a stopped team: its bytes, the scratchpad's with their poison. -/
def teamCtx (s : State) (k : Nat) (tm : Team) : List PByte :=
  let p := tm.pkt
  let group := fun (g : Nat) =>
    let sb := match (s.groups.find (fun _ x => x.team == k && x.gid == g)).head? with | some (_, x) => x.sb | none => List.replicate 8 0
    (sb.map (fun n => bytesOf (n % 64) 1)).flatten ++ zeros 56
      ++ ((upto 32).map (fun l =>
        let tid := 32 * g + l
        let t := (s.threads.get (tm.placeOf tid)).getD { team := k, gid := g, st := .exited, ring := emptyRing }
        t.ctxBytes (tm.budget g) ((tm.held.find? (fun h => h.1 == tid)).map (·.2)))).flatten
  let cmds := (s.cmds.find (fun _ c => c.team == k)).map (·.2)
  let front := ctxHeader tm cmds.length ++ ((upto p.groups).map group).flatten
    ++ ((upto 160).map (fun i => (tm.bars.getD (i / 10 * 16 + i % 10) {}).bytes)).flatten
  let back := (tm.books.map Codebook.bytes).flatten
    ++ ((upto p.crews).map (fun j =>
      ((tm.crews.getD j {}).tiles.map Tile.ctxBytes).flatten ++ padTo 2048 ((crewRecs s k tm j).map CollRec.bytes).flatten)).flatten
    ++ (cmds.map Cmd.ctxBytes).flatten
  let all := cleanBytes front ++ locBytes s (.scratch k 0) (p.scru * 4096) ++ cleanBytes back
  all ++ cleanBytes (zeros (256 * ctxSize p cmds.length - all.length))

/-- What a saved team has that its area has no field for. -/
def keptOf (s : State) (k : Nat) (tm : Team) (asid save : Nat) : Kept :=
  let bare := fun (c : Crew) => { c with tiles := c.tiles.map (fun t => { t with words := [] }), colls := [] }
  let now := fun (c : WClock) => ({ t := c.latest, win := c.win } : WClock)
  let tid := fun (pl : Nat) => match s.threads.get pl with | some t => 32 * t.gid + placeLane pl | none => 0
  { index := tm.index, asid := asid, save := save,
    team := { tm with scratch := [], spois := [], books := [], bars := [], crews := tm.crews.map bare, rel := now tm.rel, wrote := now tm.wrote,
                      gws := tm.gws.map (fun e => (e.1, now e.2)), states := tm.states.map (fun e => (e.1, now e.2)), held := [] },
    threads := (s.threads.find (fun pl _ => ofTeam s k pl)).foldl (fun (t : Tab Thread) e => t.put (tid e.1) { e.2 with seen := now e.2.seen }) []
    colls := (upto tm.pkt.crews).map (crewRecs s k tm)
    cmds := (s.cmds.find (fun _ c => c.team == k)).map (fun e => { e.2 with th := tid e.2.th, clk := now e.2.clk }) }

/-! ### Loading -/

/-- The registers that a collective keeps pending in a member (R291, R305). -/
def CollKind.dests (crew : Nat) : CollKind → List (Nat × Nat)
  | .mxop shape _ a b _ => let (na, nb) := (fragRegs shape crew).getD (0, 0); [(a, na), (b, nb)]
  | .drain 0 d => [(d, 32)]
  | _ => [(120, 0)]

/-- A saved collection is open again, or its pass waits to be posted again (R310); each member counts on its slot. -/
def loadColl (s : State) (team j : Nat) (tm : Team) (c : CollRec) : State :=
  let places := tm.crewPlaces j
  let at0 := fun (i : Nat) => places.getD i 0
  let b := s.serial
  let mk := fun (s : State) (pl : Nat) (d : Nat × Nat) (slot : Option Nat) =>
    s.addOp { kind := .coll team j c.k, th := pl, ths := [pl], grps := if slot.isSome then [placeGroup pl] else [], slot := slot, batch := b,
              dst := d.1, nd := d.2 }
  let s0 := { s with serial := b + 1 }
  let s1 := c.arr.foldl (fun s i => (c.kind.dests tm.pkt.crew).foldl (fun s d => mk s (at0 i) d (some c.slot)) s) s0
  let arr : List Arrival := c.arr.map (fun i =>
    let x := c.offs.getD i (c.off, 0)
    { th := at0 i, off := x.1, op := 0, kind := c.kind, word := x.2 })
  if c.st == 1 then
    s1.updCrew team j (fun x => { x with colls := x.colls ++ [{ k := c.k, addr := c.addr, kind := c.kind, tile := c.tile, arr := arr, skip := c.skip.map at0 }] })
  else
    let sreg := fieldAt c.blk 1 1 % 128
    let s2 := match c.kind with
      | .mxop 0 _ _ _ _ =>
        if sreg == 120 then s1
        else places.zipIdx.foldl (fun s x => if s.live x.1 then mk s x.1 (sreg, 1) (if c.arr.contains x.2 then some c.slot else none) else s) s1
      | _ => s1
    addPass s2 { cluster := clusterOf tm.core, team := team, crew := j, k := c.k, kind := c.kind, tile := c.tile, blkOff := c.off,
                 blk := c.blk.take c.kind.blkSize, elected := at0 c.elected, arr := arr, book := c.book, strips := c.strips, square := c.square,
                 spois := c.spois, cls := tm.pkt.prio, core := tm.core, granted := c.st == 3,
                 rows := c.rows, srcPois := c.srcPois, sentAt := if c.sentAt == 0 then s2.serial else c.sentAt }

/-- Fills a team that has been placed with the context that its save area holds, and with what was kept. -/
def loadTeam (s : State) (k : Nat) (kept : Kept) (bs : List PByte) : State :=
  match s.teams.get k with
  | none => s
  | some tm =>
    let p := tm.pkt
    let b := plain bs
    let look := fieldAt b 0xA8 1
    let gAt := fun (g : Nat) => 256 + (min g p.prod) * groupLen p.budp + (g - p.prod) * groupLen p.budc
    let barAt := 256 + ctxGroups p
    let scrAt := barAt + 12800
    let bookAt := scrAt + p.scru * 4096
    let crewAt := bookAt + 512
    let cmdAt := crewAt + ctxCrews p
    let slice := fun (i n : Nat) => (b.drop i).take n
    let crewLen := p.tiles * 65600 + 2048
    let bars : Tab Barrier := (upto 160).foldl (fun t i =>
      let r := slice (barAt + 80 * i) 80
      let x : Barrier := { phase := fieldAt r 0 8, arrived := maskList 512 (fieldAt r 8 64), owed := fieldAt r 72 4 }
      if x == {} then t else Tab.put t (i / 10 * 16 + i % 10) x) []
    let books := (upto 8).map (fun i =>
      let r := slice (bookAt + 64 * i) 64
      ({ ents := (upto 16).map (fun j => BitVec.ofNat 16 (fieldAt r (2 * j) 2)), pois := fieldAt r 32 1 != 0,
         record := FRec.ofBytes ((r.drop 40).take 24) } : Codebook))
    let crews := (upto p.crews).map (fun j =>
      ({ tiles := (upto p.tiles).map (fun t => tileOf (slice (crewAt + j * crewLen + t * 65600) 65600) ((kept.team.crews.getD j {}).tiles.getD t {})) } : Crew))
    let spois := (upto (p.scru * 64)).foldl (fun (t : Tab Nat) i =>
      if anyPois ((bs.drop (scrAt + 64 * i)).take 64) then Tab.put t i 0x05 else t) []
    let threads := ((upto (32 * p.groups)).map (fun tid =>
      let g := tid / 32
      let bud := tm.budget g
      let was := kept.threads.getD tid { team := k, gid := g, ring := emptyRing }
      let x := threadOf (slice (gAt g + 64 + (tid % 32) * threadLen bud) (threadLen bud)) was k g bud s.mod.now
      (tid, { x.1 with since := s.serial }, x.2)))
    let held := threads.filterMap (fun x => x.2.2.map (fun m => (x.1, m)))
    let tm1 := { kept.team with
      grid := tm.grid, index := tm.index, core := tm.core, slots := tm.slots, pkt := p, st := tm.st, units := tm.units,
      scratch := Memory.write [] 0 (slice scrAt (p.scru * 4096)), spois := spois, books := books, bars := bars, crews := crews,
      tier := if look == 0 then none else some ⟨fieldAt b 0x98 8, fieldAt b 0xA0 4, fieldAt b 0xA4 4, look⟩,
      rcnt := fieldAt b 0x90 2, held := held }
    let s1 := { s with teams := s.teams.put k tm1, serial := s.serial + 1 }
    let s2 := threads.foldl (fun s x => s.setThread (tm1.placeOf x.1) { x.2.1 with waits := x.2.1.waits.map (·.from s1 k) }) s1
    let s3 := (upto (32 * p.groups)).foldl (fun s tid =>
      match s.threads.get (tm1.placeOf tid) with
      | some t => if t.st == .ready then fileThread s (tm1.placeOf tid) else s
      | none => s) s2
    let colls : List (Nat × CollRec) := ((upto p.crews).map (fun j =>
      let area := (upto 4).map (fun i => collRecOf (slice (crewAt + j * crewLen + p.tiles * 65600 + 512 * i) 512) (32 * p.crew))
      (collsOf area (kept.colls.getD j [])).map (fun c => (j, c)))).flatten
    -- the complete ones of all crews in their original order, then the open ones (R310)
    let s4 := (sortBy (fun x => if x.2.st == 1 then 2 ^ 200 + x.2.k else x.2.ord) colls).foldl (fun s x => loadColl s k x.1 tm1 x.2) s3
    (upto (fieldAt b 0x92 1)).foldl (fun s i =>
      match kept.cmds[i]? with
      | some c =>
        { s with cmds := s.cmds.put s.serial (ctxCmdOf (slice (cmdAt + 128 * i) 128) c k tm1.core tm1.placeOf), serial := s.serial + 1 }
      | none => s) s4

end Sys2Proof.Machine
end

