-- ==== Sys2Proof/Machine/Context.lean ====
section
/-! DEFINITION. CTX: pre-emption, saving, loading, resuming and aborting of teams (R18, R310, R349 to R354). -/

namespace Sys2Proof.Machine

/-! ### Issue (R351) -/

/-- The team that a target word names: core in [7:0], any of its group slots in [13:8]. -/
def ctxTeam (s : State) (b : Nat) : Option (Nat × Team) :=
  let core := b % 256
  let slot := b / 256 % 64
  if 192 ≤ core || 47 ≤ slot then none
  else
    match s.groups.get (core * 48 + slot) with
    | none => none
    | some g => (s.teams.get g.team).map (fun tm => (g.team, tm))

/-- The operands of a CTX, then its function: the team named, its save area's ASID and address. -/
def ctxIssue (i : Instr) (w : W1) (x : ExtE)
    (f : State → Env → Thread → Option (Nat × Team) → Nat → Nat → Nat → Res) (s : State) : State :=
  execSlot i s x.slot.toNat (fun s e t =>
    let (b, q) := rd e t w.b.toNat
    let (a, p) := rdN e t w.a.toNat 2
    if (p.or q).isBad then .trap s (poisonTrap t (p.or q) 7)
    else
      let tm := ctxTeam s b
      let (asid, save) := if w.a.toNat != 120 then (0, a) else match tm with | some (_, tm) => (tm.pkt.asid, tm.pkt.save) | none => (0, 0)
      f s e t tm (b % 256) asid save)

/-- A CTX, which counts on its slot and keeps `D` pending until it ends (R346). -/
def ctxOp (s : State) (w : W1) (x : ExtE) (e : Env) (b : Nat) (k : OpKind) : Res :=
  .ok (s.addOp { kind := k, th := e.pl, ths := [e.pl], grps := [placeGroup e.pl], slot := some x.slot.toNat, batch := b, dst := w.d.toNat, nd := 1 })

/-- A CTX whose status is known at issue. -/
def ctxNow (s : State) (w : W1) (x : ExtE) (e : Env) (b st : Nat) : Res := ctxOp s w x e b (.status st)

/-- CTX SAVE (R351). -/
def execCtxSave (w : W1) (x : ExtE) (s : State) : Out :=
  let b := s.batch
  .next (ctxIssue (.ctxSave w x) w x (fun s e _ tm core asid save =>
    match tm with
    | none => ctxNow s w x e b 1
    | some (k, tm) => if tm.st != .stopped || tm.ended then ctxNow s w x e b 2 else ctxOp s w x e b (.ctx 0 save asid core k)) s)

/-- CTX LOAD (R351): it names no team, so its `A` of 120 stands for address 0 (log 62). Log 62: DESIGN CHOICE, unsafe. -/
def execCtxLoad (w : W1) (x : ExtE) (s : State) : Out :=
  let b := s.batch
  .next (ctxIssue (.ctxLoad w x) w x (fun s e _ _ core asid save =>
    let (asid, save) := if w.a.toNat == 120 then (0, 0) else (asid, save)
    if 192 ≤ core then ctxNow s w x e b 3 else ctxOp s w x e b (.ctx 1 save asid core 0)) s)

/-- The members of a gang stop together (R18, R350). -/
def stopGang (s : State) (tm : Team) : State :=
  (gangMembers s tm).foldl (fun s m => s.updTeam m.1 (fun t => if t.st == .running && !t.ended then { t with st := .stopping } else t)) s

/-- CTX PREEMPT (R351). -/
def execCtxPreempt (w : W1) (x : ExtE) (s : State) : Out :=
  let b := s.batch
  .next (ctxIssue (.ctxPreempt w x) w x (fun s e _ tm core _ _ =>
    match tm with
    | none => ctxNow s w x e b 1
    | some (k, tm) =>
      if tm.st != .running || tm.ended || tm.aborted then ctxNow s w x e b 2 else ctxOp (stopGang s tm) w x e b (.ctx 2 0 0 core k)) s)

/-! ### RESUME and ABORT (R351, R352, R354) -/

/-- Members of a gang that have not ended. -/
def gangLive (s : State) (tm : Team) : Tab Team := (gangMembers s tm).find (fun _ t => !t.ended)

/-- Whether a gang can be resumed: no member saved, every member STOPPED, on distinct cores of one cluster. -/
def gangStopped (s : State) (tm : Team) : Bool :=
  let ms := gangLive s tm
  let saved := match s.grids.get tm.grid with | some g => g.saved.any (fun k => k.index / tm.pkt.gang == tm.index / tm.pkt.gang) | none => false
  !saved && ms.all (fun m => m.2.st == .stopped && clusterOf m.2.core == clusterOf tm.core)
    && (dedup (ms.map (fun m => m.2.core))).length == ms.length

/-- A team runs again: its commands lock their ranges again, and its withdrawn records are posted again (R352). -/
def resumeTeam (s : State) (ms : Tab Team) (k : Nat) (tm : Team) : State :=
  let at0 := fun (i : Nat) => match ms.find (fun _ t => t.index % tm.pkt.gang == i) with | (j, _) :: _ => [j] | [] => []
  let s1 := s.updTeam k (fun t => { t with st := .running, held := [] })
  let s2 := (s1.cmds.find (fun _ c => c.team == k)).foldl (fun s e =>
    let c := { e.2 with targets := (e.2.targets.map at0).flatten, core := tm.core }
    addLocks { s with cmds := s.cmds.put e.1 c } (dieOf tm.core) (c.locks s e.1)) s1
  tm.held.foldl (fun s h =>
    let pl := tm.placeOf h.1
    s.post { core := tm.core, mrec := { h.2 with core := tm.core, gslot := placeSlot pl, lane := placeLane pl }, th := some pl }) s2

/-- Lock entries that the commands of stopped members need, for each die. -/
def resumeRoom (s : State) (ms : Tab Team) : Bool :=
  let need := ms.foldl (fun n m => n + (s.cmds.find (fun _ c => c.team == m.1)).foldl (fun n e => n + (e.2.locks s e.1).length) 0) 0
  ms.all (fun m => need + locksUsed s (dieOf m.2.core) ≤ 4096)

/-- CTX RESUME (R351). -/
def execCtxResume (w : W1) (x : ExtE) (s : State) : Out :=
  let b := s.batch
  .next (ctxIssue (.ctxResume w x) w x (fun s e _ tm _ _ _ =>
    match tm with
    | none => ctxNow s w x e b 1
    | some (_, tm) =>
      let ms := gangLive s tm
      if tm.ended || !gangStopped s tm then ctxNow s w x e b 2
      else if !resumeRoom s ms then ctxNow s w x e b 3
      else ctxNow (ms.foldl (fun s m => resumeTeam s ms m.1 m.2) s) w x e b 0) s)

/-- CTX ABORT (R351, R354): the gang of the named team is aborted. -/
def execCtxAbort (w : W1) (x : ExtE) (s : State) : Out :=
  let b := s.batch
  .next (ctxIssue (.ctxAbort w x) w x (fun s e _ tm core _ _ =>
    match tm with
    | none => ctxNow s w x e b 1
    | some (_, tm) =>
      if tm.ended then ctxNow s w x e b 2 else ctxNow ((gangMembers s tm).foldl (fun s m => abortTeam s m.1 core) s) w x e b 0) s)

/-! ### TEAM_STOPPED (R310, R352) -/

/-- Whether a thread of a stopping team has come to rest: at a run boundary, suspended or exited, with no trap that it takes there still to come
(R349, R352). -/
def Thread.rests (s : State) (pl : Nat) (t : Thread) : Bool :=
  match t.st with
  | .exited | .susp => true
  | .ready =>
    t.podTraps.isEmpty && t.abort.isNone && t.waits.all (fun c => !c.missed)
      && !s.entries.any (fun x => x.members.contains pl && eligible s x pl)
  | _ => false

/-- A command stands at a chunk boundary: no chunk is on its way (R352). -/
def Cmd.atBoundary (c : Cmd) : Bool := c.flight.isEmpty && c.bad.isNone

/-- Whether a pass of a stopping team keeps it from being stopped: granted, and not a peer drain that waits (R306, R307). -/
def Pass.moving (s : State) (p : Pass) : Bool :=
  p.granted &&
    (match p.kind with
      | .drain 2 _ => peerTarget s p p.rows.isSome != .wait
      | .drain 3 _ => p.rows.isNone
      | _ => true)

/-- Whether everything of a stopping team has come to rest (R352). Log 51: DEDUCED, safe. -/
def teamRests (s : State) (k : Nat) : Bool :=
  (teamThreads s k).all (fun pl => match s.threads.get pl with | some t => t.rests s pl | none => true)
    && !s.ops.any (fun e => ofTeam s k e.2.th && (match e.2.kind with | .coll _ _ _ => false | _ => true))
    && s.cmds.all (fun e => !(e.2.team == k || e.2.targets.contains k) || e.2.atBoundary)
    && s.passes.all (fun e =>
      let p := e.2
      let toMe := match p.add with | some (t, _, _, _) => t == k | none => false
      let rowsToMe := match p.kind, p.rows with
        | .drain 2 _, some _ => (match peerTarget s p true with | .found t => t == k | _ => false)
        | _, _ => false
      !toMe && !rowsToMe && !(p.team == k && (p.add.isSome || p.moving s)))

/-- Withdraws the trap records of a team's threads from the mailbox (R352). -/
def withdraw (s : State) (k : Nat) : State :=
  let trap := fun (th : Option Nat) (m : MRec) => match th with | some pl => m.kind == 0 && ofTeam s k pl | none => false
  let tid := fun (th : Option Nat) => match th with | some pl => (match s.threads.get pl with | some t => tidOf pl t | none => 0) | none => 0
  let got := (s.mail.find (fun _ m => trap m.th m.mrec)).map (fun e => (tid e.2.th, e.2.mrec))
    ++ (s.posts.find (fun _ p => trap p.th p.mrec)).map (fun e => (tid e.2.th, e.2.mrec))
  let s1 := s.updTeam k (fun t => { t with held := t.held ++ got })
  { s1 with mail := s1.mail.filter (fun e => !trap e.2.th e.2.mrec), posts := s1.posts.filter (fun e => !trap e.2.th e.2.mrec) }

/-- TEAM_STOPPED (R352): reservation entries and range locks are given back, records withdrawn, and PREEMPT completes. -/
def execTeamStopped (team : Nat) (s : State) : Out :=
  match s.teams.get team with
  | none => .next s
  | some tm =>
    if tm.st != .stopping || tm.ended || !teamRests s team then .next s
    else
      let place := fun (k : Nat) => match s.teams.get k with | some t => [t.index % tm.pkt.gang] | none => []
      let s1 := (s.passes.find (fun _ p => p.team == team)).foldl (fun s e =>
        dropLocks { s with passes := s.passes.put e.1 { e.2 with posted := none } } e.1 true) s
      let s2 := (s1.cmds.find (fun _ c => c.team == team)).foldl (fun s e =>
        dropLocks { s with cmds := s.cmds.put e.1 { e.2 with targets := (e.2.targets.map place).flatten } } e.1 false) s1
      let s3 := (withdraw s2 team).updTeam team (fun t => { t with st := .stopped })
      .next ((s3.ops.find (fun _ o => match o.kind with | .ctx 2 _ _ _ k => k == team | _ => false)).foldl
        (fun s e => (s.deliver e.2.th e.2.dst 1 0 .clean).endOp e.1) s3)

/-! ### SAVE and LOAD (R351 to R353) -/

/-- Who makes the accesses of a CTX to its save area. Log 45: DEDUCED, unsafe. -/
def ctxWho (s : State) (th asid : Nat) : Who :=
  if asid == 0 then
    match s.threads.get th with
    | some t => (envOf s th t).who
    | none => { asid := 0, team := 0, bound := 0, privNo := 0 }
  else { asid := asid, team := 0, bound := 0, privNo := 0 }

/-- Ends a CTX with its status word. -/
def ctxEnd (s : State) (op : Nat) (o : Op) (v : Nat) : State := (s.deliver o.th o.dst 1 v .clean).endOp op

/-- A save area that faults: the record is posted as an event, and the status is 4 (R351). -/
def ctxFault (s : State) (op : Nat) (o : Op) (r : FRec) : State := ctxEnd (s.faultOf (unitCtx (placeCore o.th)) o.th 0 o.word r) op o 4

/-- Takes a team that has been saved off its core: slots, scratchpad units and tiles are given back (R21, R351), and what its area has no field for
is kept. -/
def unplaceTeam (s : State) (k : Nat) (tm : Team) (kept : Kept) : State :=
  let mine := ofTeam s k
  let ts := (teamThreads s k).filterMap s.threads.get
  let clock := ts.foldl (fun (c : WClock) t => c.join t.clk) {}
  { s with
    ops := s.ops.filter (fun e => !mine e.2.th)
    passes := s.passes.filter (fun e => e.2.team != k)
    cmds := s.cmds.filter (fun e => e.2.team != k)
    entries := s.entries.filter (fun x => x.team != k)
    threads := s.threads.filter (fun e => !mine e.1)
    groups := s.groups.filter (fun e => e.2.team != k)
    teams := s.teams.del k
    grids := s.grids.upd tm.grid (fun g => { g with saved := g.saved ++ [kept], clock := g.clock.join clock })
    mod := { s.mod with relWin := ts.foldl (fun w t => laterWin w t.pwin) s.mod.relWin } }

/-- CONTEXT_SAVE_COMPLETE (R351, R353). -/
def execContextSaveComplete (op : Nat) (s : State) : Out :=
  match s.ops.get op with
  | none => .next s
  | some o =>
    match o.kind with
    | .ctx 0 save asid _ k =>
      (match s.teams.get k with
        | none => .next (ctxEnd s op o 1)
        | some tm =>
          let w := ctxWho s o.th asid
          let bs := teamCtx s k tm
          if tm.st != .stopped || tm.ended then .next (ctxEnd s op o 2)
          else if save % 256 == 0 && rangeHeld s w save bs.length then .next s
          else
            let r := if save % 256 != 0 then Except.error (faultRec s w save 1 0x10) else writeRange s w save bs 1 (some (placeCore o.th))
            match r with
            | .error f => .next (ctxFault s op o f)
            | .ok (s1, g) =>
              let s2 := s1.updThread o.th (fun t => t.raise g)
              .next (ctxEnd (unplaceTeam s2 k tm (keptOf s k tm asid save)) op o (bs.length / 256 % 2 ^ 24 * 256)))
    | _ => .next s

/-- Where the scratchpad section of a context lies, whose poison travels with it. -/
def scratchSpan (p : Packet) : Nat × Nat := (256 + ctxGroups p + 12800, p.scru * 4096)

/-- Ferry commands of a context fit the queues of a core (R274). -/
def cmdsFit (s : State) (p : Packet) (b : List Byte) (core : Nat) : Bool :=
  let (lo, n) := scratchSpan p
  let at0 := lo + n + 512 + ctxCrews p
  let qs := (upto (fieldAt b 0x92 1)).map (fun i => fieldAt b (at0 + 128 * i + 64) 1)
  (dedup qs).all (fun q => queueUsed s core q + (qs.filter (· == q)).length ≤ 64)

/-- Whether a core and its cluster can hold a saved team beside the other members of its gang (R20, R351). -/
def loadFits (s : State) (p : Packet) (grid index core : Nat) : Bool :=
  let others := s.teams.find (fun _ t => t.grid == grid && t.index / p.gang == index / p.gang && !t.ended)
  coreFits s p core && p.crews * p.tiles ≤ tilesFree s (clusterOf core)
    && others.all (fun m => m.2.core != core && clusterOf m.2.core == clusterOf core)

/-- The saved team that an area's packet and team index name: one saved to this area, else the one saved first; its grid, and what was kept.
Log 8: DESIGN CHOICE, unsafe. -/
def keptFor (s : State) (p : Packet) (index asid save : Nat) : Option (Nat × Grid × Kept) :=
  let all := (s.grids.map (fun e => if e.2.pkt == p then (e.2.saved.filter (fun k => k.index == index)).map (fun k => (e.1, e.2, k)) else [])).flatten
  match all.find? (fun x => x.2.2.asid == asid && x.2.2.save == save) with
  | some x => some x
  | none => all.head?

/-- CONTEXT_LOAD_COMPLETE (R351, R353): the core's scratchpad units are reclaimed first (R155). -/
def execContextLoadComplete (op : Nat) (s : State) : Out :=
  match s.ops.get op with
  | none => .next s
  | some o =>
    match o.kind with
    | .ctx 1 save asid core _ =>
      let w := ctxWho s o.th asid
      let head := if save % 256 != 0 then Except.error (faultRec s w save 0 0x10) else readRange s w save 256 0
      if save % 256 == 0 && rangeHeld s w save 256 then .next s
      else
      (match head with
        | .error f => .next (ctxFault s op o f)
        | .ok hd =>
          let h := plain hd
          let p := Packet.ofBytes ((h.drop 0x10).take 0x78)
          let ncmd := fieldAt h 0x92 1
          let size := ctxSize p ncmd
          let index := fieldAt h 8 8
          if anyPois hd then .next (ctxFault s op o (poisonRec s w save 0))
          else if fieldAt h 0 4 != 1 || (packetCause s p).isSome || fieldAt h 4 4 != size || 128 < ncmd then .next (ctxEnd s op o 5)
          else
            if rangeHeld s w save (256 * size) then .next s
            else
            match readRange s w save (256 * size) 0 with
            | .error f => .next (ctxFault s op o f)
            | .ok bs =>
              let (lo, n) := scratchSpan p
              if anyPois (bs.take lo) || anyPois (bs.drop (lo + n)) then .next (ctxFault s op o (poisonRec s w save 0))
              else
                match keptFor s p index asid save with
                | none => .next (ctxEnd s op o 2)
                | some (grid, g, kept) =>
                  if !loadFits s p grid index core || !cmdsFit s p (plain bs) core then .next (ctxEnd s op o 3)
                  else
                    let units := (unitsInOrder s core).take p.scru
                    let s0 := reclaim s core units
                    if units.any (fun u => !(unitLines s0 core u).isEmpty) then .next s0
                    else
                      let (s1, k) := placeTeam (loadSpace s0 p.asid) grid index g.pkt core .stopped
                      let s2 := loadTeam s1 k kept bs
                      let s3 := { s2 with grids := s2.grids.upd grid (fun g => { g with saved := g.saved.erase kept }) }
                      .next (ctxEnd s3 op o (size % 2 ^ 24 * 256)))
    | _ => .next s

end Sys2Proof.Machine
end

