-- ==== Sys2Proof/Machine/Caches.lean ====
section
/-! DEFINITION. What caches, leases and clocks do by themselves (R205, R225, R226, R233 to R236, R333). -/

namespace Sys2Proof.Machine

/-- A sector whose RDC copy holds a lease: one of device memory (R225). -/
def leasedSector (sector : Nat) : Bool := spaceOf (sector * 64) == 0

/-- LEASE_EXPIRE (R225, R333): a copy past its expiry serves no more loads; a pushed copy that nobody has read counts.
Log 52: DEDUCED, unsafe. -/
def execLeaseExpire (lvl key : Nat) (s : State) : Out :=
  if lvl != 1 then .next s
  else
    match s.mem.rdc.get key with
    | some c =>
      if s.mod.now < c.exp then .next s
      else
        match c.pushed with
        | some id => .next (towUnused (s.setMem { s.mem with rdc := s.mem.rdc.put key { c with pushed := none } }) id)
        | none => .next s
    | none => .next s

/-- SCRUB_VISIT (R235): the scrubber drops a copy whose lease has expired; any other has been visited. -/
def execScrubVisit (lvl key : Nat) (s : State) : Out :=
  match lvl with
  | 0 =>
    (match s.mem.l1.get key with
      | some c =>
        if s.mod.now < c.exp || pinned s (keyCache key) (keySector key) then
          .next (s.setMem { s.mem with l1 := s.mem.l1.upd key (fun c =>
            { c with seen := s.mod.now, exp := if s.mod.now < c.exp then c.exp else lapsed s.mod.now }) })
        else .next (s.setMem (dropL1 s.mem (keyCache key) (keySector key)))
      | none => .next s)
  | 1 =>
    (match s.mem.rdc.get key with
      | some c =>
        if s.mod.now < c.exp || !leasedSector (keySector key) then
          .next (s.setMem { s.mem with rdc := s.mem.rdc.upd key (fun c => { c with seen := s.mod.now }) })
        else .next (dropRdc s (keyCache key) (keySector key))
      | none => .next s)
  | _ => .next s

/-- Writes the dirty sectors of a die's RDC to the host; they stay, clean. -/
def cleanDirty (s : State) (die : Nat) : State :=
  (s.mem.rdc.find (fun k c => k / 2 ^ 56 == die && c.dirty)).foldl (fun s e =>
    let sector := e.1 % 2 ^ 56
    s.setMem { s.mem with
      cells := Memory.write s.mem.cells (sector * 64) e.2.data, pois := setOpt s.mem.pois sector e.2.pois,
      rdc := s.mem.rdc.put e.1 { e.2 with dirty := false } }) s

/-- Drops every leased copy of a die's RDC. -/
def dropLeased (s : State) (die : Nat) : State :=
  (s.mem.rdc.find (fun k _ => k / 2 ^ 56 == die && leasedSector (k % 2 ^ 56))).foldl (fun s e => dropRdc s die (e.1 % 2 ^ 56)) s

/-- CACHE_WAKE (R236): after a sleep of more than 134,217,728 ns a cache writes its dirty sectors back and drops every leased
copy; level 0 the L1 of a core, 1 the RDC of a die. -/
def execCacheWake (lvl place slept : Nat) (s : State) : Out :=
  if slept ≤ 134217728 then .next s
  else
    match lvl with
    | 0 => .next ((s.mem.l1.find (fun k _ => keyCache k == place)).foldl (fun s e => killL1 s place (keySector e.1)) s)
    | 1 => .next (dropLeased (cleanDirty s place) place)
    | _ => .next s

/-! ### Time faults (R233) -/

/-- An event of a die is posted to its first core. -/
def dieEvent (s : State) (die code : Nat) : State :=
  s.postEvent (48 * die) (unitTime die) { kind := 2, code := code, detail := die, core := 48 * die }

/-- The copies of a die's L1s go; a line with an unacknowledged write-through stays without a lease (R238). -/
def dropDieCopies (s : State) (die : Nat) : State :=
  (s.mem.l1.find (fun k _ => dieOf (keyCache k) == die)).foldl (fun s e => killL1 s (keyCache e.1) (keySector e.1)) s

/-- Revocations under way no longer wait for a die: its leases count up to their expiry plus 64 ns (R233). -/
def dropRevs (s : State) (die : Nat) : State :=
  let mine := fun (h : Nat) => (if h < 192 then dieOf h else h - 192) == die
  (s.mem.revs.find (fun _ r => r.left.any mine)).foldl (fun s e => settleRev s e.1 (e.2.e + 64)) s

/-- TIME_FAULT_START (R233). -/
def execTimeFaultStart (die : Nat) (s : State) : Out :=
  if 4 ≤ die || s.mod.timeFault.getD die false then .next s
  else
    let dir := s.mem.dir
    let s1 := dropDieCopies (dropLeased (cleanDirty s die) die) die
    let s2 := s1.setMem { s1.mem with dir := dir }
    let s3 := dropRevs (s2.setMod { s2.mod with timeFault := s2.mod.timeFault.set die true }) die
    .next (dieEvent s3 die 0x21)

/-- TIME_FAULT_END (R233). -/
def execTimeFaultEnd (die : Nat) (s : State) : Out :=
  if 4 ≤ die || !s.mod.timeFault.getD die false then .next s
  else .next (dieEvent (s.setMod { s.mod with timeFault := s.mod.timeFault.set die false }) die 0x22)

/-! ### 1588 time (R232, R234) -/

/-- When the window ends, on a clock, that lies `ahead` windows after that of a device time, in whole units of a stamp (R231, R232). -/
def windowEnd (m : Mod) (at0 ahead : Nat) : Nat :=
  let n := (max 0 ((at0 : Int) + m.ptp)).toNat / m.fwin + ahead
  (((n * m.fwin : Nat) : Int) - m.ptp).toNat / 16 * 16

/-- Copies of some sectors granted by a time serve loads no longer than up to another. -/
def capCopies (s : State) (secs : List Nat) (granted at0 : Nat) : State :=
  let cap := fun (t : Tab Copy) => t.map (fun e =>
    if secs.contains (keySector e.1) && e.2.granted ≤ granted then (e.1, { e.2 with exp := min e.2.exp at0 }) else e)
  s.setMem { s.mem with l1 := cap s.mem.l1, rdc := cap s.mem.rdc }

/-- Whether an offset lies within the guard band of 64 ns (R224). -/
def inBand (offset : Int) : Bool := offset.natAbs ≤ 64

/-- DESYNCHRONISE (R234): the offset measured lies outside the guard band. -/
def execDesynchronise (offset : Int) (s : State) : Out :=
  if inBand offset then .next s else .next (s.setMod { s.mod with ptp := offset, desync := true })

/-- The 1588 clock takes an offset within the band: older copies of what peers have written end by the windows that the corrected clock gives
(R232, R234, R260). -/
def setClock (s : State) (offset : Int) (m : Mod) : State :=
  m.peerCaps.foldl (fun s c => capCopies s [c.sector] c.at0 (windowEnd s.mod c.at0 c.ahead)) (s.setMod { m with ptp := offset })

/-- RESYNCHRONISE (R234): the offset is back within the band. -/
def execResynchronise (offset : Int) (s : State) : Out :=
  if inBand offset then .next (setClock s offset { s.mod with desync := false }) else .next s

end Sys2Proof.Machine
end

