-- ==== Sys2Proof/Machine/Attach.lean ====
section
/-! DEFINITION. The host and the links: CXL.mem, CXL.cache and CXL.io, feature negotiation, ports, Glokar Links and requests of
peers (R147, R229 to R231, R270, R356 to R365). -/

namespace Sys2Proof.Machine

/-- Whether some CXL port is up. -/
def hostUp (s : State) : Bool := s.mod.ports.any (·.up)

/-- Device memory ends at 384 GiB (R6): the model stops at a host or peer access past its end. Log 120: DESIGN CHOICE, safe. -/
def deviceEnd : Nat := 0x6000000000

/-- Sets what the host or a peer is answered. -/
def State.answer (s : State) (r : BusReply) : State := s.setMod { s.mod with reply := r }

/-- The bytes of device memory as their homes hold them, with whether some of them is poisoned: in one event, however many (R215). Log 105:
DEDUCED, unsafe. -/
def homeAnswer (s : State) (y n : Nat) : BusReply :=
  .data (homeBytes s.mem y n) ((pieces y n).any (fun p => (homePois s.mem p.2.1).isSome))

/-! ### CXL.mem (R357) -/

/-- HOST_MEM_READ (R357): an access of an agent of system scope at the home slice. -/
def execHostMemRead (pa size : Nat) (s : State) : Out :=
  if deviceEnd < pa + size then .fault .physicalHole
  else if !hostUp s then .next s
  else .next (s.answer (homeAnswer s (physOf 0 pa) size))

/-- HOST_MEM_WRITE (R357): performed at the home with its revocations; the acknowledgement waits for its GWCT. Log 73: DEDUCED, unsafe. -/
def execHostMemWrite (pa : Nat) (bytes : List Byte) (s : State) : Out :=
  if deviceEnd < pa + bytes.length then .fault .physicalHole
  else if !hostUp s then .next s
  else
    let (s1, c) := perform s {} (physOf 0 pa) bytes none
    .next (s1.setMod { s1.mod with reply := .none, hostWait := s1.mod.hostWait ++ [c] })

/-- Host writes whose GWCT has passed are acknowledged. -/
def hostSettle (s : State) : State :=
  if s.mod.hostWait.any (·.passed s) then
    s.setMod { s.mod with reply := .ack, hostWait := s.mod.hostWait.filter (fun c => !c.passed s) }
  else s

/-- HOST_ATOMICOP_REQUEST (R357): completed as an Unsupported Request; nothing changes. -/
def execHostAtomicopRequest (_ : Nat) (s : State) : Out := if hostUp s then .next (s.answer .unsupported) else .next s

/-! ### CXL.cache (R229) -/

/-- HOST_SNOOP (R229): the proxy RDC revokes the L1 copies of the sectors named, answers with their data and gives them up; then the host's own store,
if it makes one, is performed. An L1 line with an unacknowledged write-through stays there without a lease (R238), and its write is performed after
the answer. Sectors held as host-noncoherent are not snooped: the host's access is to its own memory, and the copies stay (R230). Log 60: DESIGN
CHOICE, safe. Log 61: DESIGN CHOICE, unsafe. -/
def execHostSnoop (hpa : Nat) (bytes : List Byte) (s : State) : Out :=
  let y := physOf 2 (hpa % 2 ^ 52)
  let n := max bytes.length 1
  let all := (pieces y n).map (fun p => p.2.1 / 64)
  let nc := fun (x : Nat) => match proxyCopy s.mem (x * 64) with | some c => c.nc | none => false
  let secs := all.filter (fun x => !nc x)
  if (hostPort s y).isNone then .next s
  else
    let data := fun (x : Nat) => if nc x then Memory.read s.mem.cells (x * 64) 64 else homeBytes s.mem (x * 64) 64
    let pois := fun (x : Nat) => if nc x then s.mem.pois.get x else homePois s.mem (x * 64)
    let answer := BusReply.data (all.map data).flatten (all.any (fun x => (pois x).isSome))
    let s1 := secs.foldl (fun s x => dropRdc (dropAllL1 s x) (homeDie (x * 64)) x) s
    let s2 := (pieces y bytes.length).foldl (fun s p =>
      s.setMem { s.mem with
        cells := Memory.write s.mem.cells p.2.1 ((bytes.drop p.1).take p.2.2)
        pois := setOpt s.mem.pois (p.2.1 / 64) (newPois (s.mem.pois.get (p.2.1 / 64)) (p.2.2 == 64) none) }) s1
    .next (s2.answer answer)

/-! ### CXL.io and negotiation (R360) -/

/-- FEATURE_NEGOTIATION (R360): `FACK` 1 is answered with 2, or with 3 and no feature enabled. It is step 7 of start-up, which stops there until the
driver's retry succeeds (R366). -/
def execFeatureNegotiation (s : State) : Out :=
  if s.mod.fack != 1 then .next s
  else
    let subset := (upto 4).all (fun w => s.mod.fen.getD w 0 ||| featOffer w == featOffer w)
    let fabric := (s.mod.fen.getD 0 0).testBit 2
    let peers := s.mod.links.all (fun k => k.st != .active || k.peerFabric)
    if subset && (!fabric || peers) then
      let b := s.mod.boot
      let b := if b.step == 7 then { b with step := 8, failed := 0, cause := 0 } else b
      .next (s.setMod { s.mod with fack := 2, boot := b })
    else
      let b := s.mod.boot
      let b := if b.step == 7 then { b with failed := 7, cause := 1 } else b
      .next (s.setMod { s.mod with fack := 3, fen := [0, 0, 0, 0], boot := b })

/-- CXLIO_REGISTER_WRITE (R360): the negotiation registers take what they show; `LQCLAIM` takes nothing; any other register
keeps the value. Log 70: DESIGN CHOICE, safe. -/
def execCxlioRegisterWrite (off : Nat) (v : BitVec 64) (s : State) : Out :=
  if !(s.mod.ports.getD 0 {}).up then .next s
  else if 0x1000 ≤ off && off < 0x1200 then .next s
  else
    match Config.cxlioReg off with
    | some r => if 0x300 ≤ r && r ≤ 0x308 then .next (sysWrite s r v.toNat) else .next { s with mod := { s.mod with cxlio := s.mod.cxlio.put off v } }
    | none => .next { s with mod := { s.mod with cxlio := s.mod.cxlio.put off v } }

/-! ### Ports (R356, R365) -/

/-- An s-scope atomic on host memory is outstanding when the link goes down: its effect is unknown, and it ends with cause 0x19 (R273). -/
def Op.losesHost (o : Op) : Op :=
  match o.kind with
  | .atomic _ .proxySys _ _ _ _ _ | .atomic _ .pcie _ _ _ _ _ => { o with lost := some 0x19 }
  | _ => o

/-- Every host line loses its port: dirty sectors are poisoned 0x19 in the proxy RDC and in the L1s, clean copies go; of an L1 line with a
write-through on its way, the lease (R238). -/
def loseHost (s : State) : State :=
  let host := fun (k : Nat) => spaceOf (keySector k * 64) == 2
  let dirty := fun (x : Nat) => match proxyCopy s.mem (x * 64) with | some c => c.dirty | none => false
  let s1 := (s.mem.l1.find (fun k _ => host k)).foldl (fun s e =>
    if dirty (keySector e.1) then s.setMem { s.mem with l1 := s.mem.l1.upd e.1 (fun c => { c with pois := some 0x19 }) }
    else killL1 s (keyCache e.1) (keySector e.1)) s
  let s2 := (s1.mem.rdc.find (fun k _ => host k)).foldl (fun s e =>
    if e.2.dirty then s.setMem { s.mem with rdc := s.mem.rdc.upd e.1 (fun c => { c with pois := some 0x19 }) }
    else dropRdc s (keyCache e.1) (keySector e.1)) s1
  { s2 with ops := s2.ops.map (fun e => (e.1, e.2.losesHost)) }

/-- Lines of the host with a dirty sector. -/
def dirtyLines (s : State) : List Nat :=
  dedup ((s.mem.rdc.find (fun k c => spaceOf (keySector k * 64) == 2 && c.dirty)).map (fun e => keySector e.1 / 4))

/-- CXL_PORT_DOWN (R365). -/
def execCxlPortDown (port : Nat) (s : State) : Out :=
  if !(s.mod.ports.getD port {}).up then .next s
  else
    let s1 := s.setMod { s.mod with ports := s.mod.ports.mapIdx (fun i p => if i == port then { p with up := false, lost := 0 } else p) }
    if hostUp s1 then .next s1
    else
      let n := (dirtyLines s).length
      let s2 := (loseHost s1).setMod { s1.mod with ports := s1.mod.ports.mapIdx (fun i p => if i == port then { p with lost := n % 65536 } else p) }
      .next ((upto 192).foldl (fun s c =>
        if s.mod.fenced.contains c then s
        else s.postEvent c (unitPort port) { kind := 2, code := 0x19, detail := port, core := c, payload := bytesOf n 8 }) s2)

/-- The poisoned lines go to the host as CXL poison, and are invalidated. -/
def returnPoison (s : State) : State :=
  (s.mem.rdc.find (fun k c => spaceOf (keySector k * 64) == 2 && c.pois == some 0x19)).foldl (fun s e =>
    let x := keySector e.1
    dropRdc ((dropAllL1 s x).setMem { (dropAllL1 s x).mem with
      rdc := s.mem.rdc.put e.1 { e.2 with pois := some 0x05, dirty := true } }) (keyCache e.1) x) s

/-- CXL_PORT_UP (R365, R366). The first port that trains lets start-up go on: the links that the record enables begin to
train. -/
def execCxlPortUp (port : Nat) (s : State) : Out :=
  if 2 ≤ port || (s.mod.ports.getD port {}).up || s.mod.boot.step < 4 || s.mod.boot.failed != 0 && s.mod.boot.step < 6 then .next s
  else
    let s1 := returnPoison (s.setMod { s.mod with ports := s.mod.ports.mapIdx (fun i p => if i == port then { p with up := true } else p) })
    if s1.mod.boot.step == 4 then
      let b := s1.mod.boot
      .next (s1.setMod { s1.mod with
        boot := { b with step := 6 }
        links := s1.mod.links.mapIdx (fun i k => if s1.mod.cfg.enables.getD i false then { k with st := .detect } else k) })
    else .next s1

/-! ### Glokar Links (R362, R363) -/

/-- A link of the module. -/
def State.link (s : State) (l : Nat) : Link := s.mod.links.getD l {}

/-- Changes a link. -/
def State.updLink (s : State) (l : Nat) (f : Link → Link) : State :=
  s.setMod { s.mod with links := s.mod.links.mapIdx (fun i k => if i == l then f k else k) }

/-- LINK_PARTNER_DETECT (R363): a link in DETECT sees a partner; one that the record enables first leaves DOWN for DETECT, once start-up has come
to the links. Log 56: DEDUCED, safe. -/
def execLinkPartnerDetect (link lanes : Nat) (s : State) : Out :=
  let k := s.link link
  if 18 ≤ link then .next s
  else if k.st == .down && s.mod.cfg.enables.getD link false && 5 < s.mod.boot.step then .next (s.updLink link (fun k => { k with st := .detect, lanes := 0 }))
  else if k.st != .detect || lanes < 2 || 8 < lanes then .next s
  else .next (s.updLink link (fun k => { k with st := .equalize, lanes := lanes }))

/-- LINK_EQUALIZED (R362, R363): a round trip of more than 300 ns keeps the link in EQUALIZE. -/
def execLinkEqualized (link rtt : Nat) (s : State) : Out :=
  if (s.link link).st != .equalize || 300 < rtt then .next s
  else .next (s.updLink link (fun k => { k with st := .ident, rtt := rtt }))

/-- LINK_IDENT (R363). Log 55: DEDUCED, unsafe. -/
def execLinkIdent (link peer fwin : Nat) (feat : BitVec 64) (roleOk : Bool) (s : State) : Out :=
  if (s.link link).st != .ident then .next s
  else
    let fabric := feat.toNat.testBit 2
    let agree := s.mod.devid != peer && s.mod.devid != 0x1FFF && peer != 0x1FFF && fwin == s.mod.fwin
      && fabric == (s.mod.fen.getD 0 0).testBit 2 && roleOk
    .next (s.updLink link (fun k => { k with st := if agree then .timesync else .down, peer := peer, peerFabric := fabric }))

/-- Lanes that a link runs on when some have failed: 4, 2 or 1 (R363). Log 57: DEDUCED, unsafe. -/
def lanesLeft (n : Nat) : Nat := if 4 ≤ n then 4 else if 2 ≤ n then 2 else n

/-- LINK_TIMESYNC (R363): ACTIVE with 8 lanes, DEGRADED with fewer. -/
def execLinkTimesync (link : Nat) (offset : Int) (s : State) : Out :=
  if (s.link link).st != .timesync || !inBand offset then .next s
  else
    let s1 := s.updLink link (fun k =>
      if k.lanes == 8 then { k with st := .active, offset := offset } else { k with st := .degraded, lanes := lanesLeft k.lanes, offset := offset })
    .next (setClock s1 offset s1.mod)

/-- LINK_LANE_FAIL (R363): of a link that still trains, fewer lanes are up. -/
def execLinkLaneFail (link lanes : Nat) (s : State) : Out :=
  let k := s.link link
  if k.lanes ≤ lanes then .next s
  else
    match k.st with
    | .active | .degraded => .next (s.updLink link (fun k => { k with st := .degraded, lanes := lanesLeft lanes }))
    | .equalize | .ident | .timesync => .next (s.updLink link (fun k => { k with lanes := lanes }))
    | _ => .next s

/-- Accesses to peers on their way: where a route has been lost, their effect is unknown, and they end with cause 0x1A; the next fabric-scope release
of a thread with such a store traps (R364). -/
def loseRoutes (before after : State) : State :=
  let gone := fun (y : Nat) => spaceOf y == 1 && routed before (peerOf y) && !routed after (peerOf y)
  let hit := fun (o : Op) => o.accs.any (fun a => match a.loc with | .phys y => gone y | _ => false)
  let stores := (after.ops.find (fun _ o => (match o.kind with | .store _ _ => true | _ => false) && hit o)).map (fun e => e.2.th)
  { after with
    ops := after.ops.map (fun e => if hit e.2 then (e.1, { e.2 with lost := some 0x1A }) else e)
    threads := after.threads.map (fun e => if stores.contains e.1 then (e.1, { e.2 with routeLost := true }) else e) }

/-- LINK_RETRAINED (R363). -/
def execLinkRetrained (link : Nat) (s : State) : Out :=
  if (s.link link).st != .degraded then .next s else .next (s.updLink link (fun k => { k with st := .active, lanes := 8 }))

/-- LINK_TIMEOUT (R363): no lane has been up for 1,000 ns. -/
def execLinkTimeout (link : Nat) (s : State) : Out :=
  let k := s.link link
  if 18 ≤ link || k.lanes != 0 || k.st == .down then .next s else .next (loseRoutes s (s.updLink link (fun k => { k with st := .down })))

/-- Changes a virtual lane of a link. -/
def State.updLane (s : State) (l vl : Nat) (f : VLane → VLane) : State :=
  s.updLink l (fun k => { k with vls := k.vls.mapIdx (fun i x => if i == vl then f x else x) })

/-- Bytes of one measured round trip at line rate, 212 GB/s (R362). Log 59: DEDUCED, unsafe. -/
def roundTrip (k : Link) : Nat := 212 * k.rtt

/-- FLIT_RECEIVE (R362): 256 bytes fill the lane; below one round trip's bytes a pause flit is sent. -/
def execFlitReceive (link vl : Nat) (s : State) : Out :=
  let k := s.link link
  let x := k.vls.getD vl {}
  if 18 ≤ link || 3 ≤ vl || k.st == .down || x.free < 256 then .next s
  else .next (s.updLane link vl (fun x => { x with free := x.free - 256, pauseSent := x.pauseSent || x.free - 256 < roundTrip k }))

/-- RESUME_FLIT_SEND (R362): the free space has risen to twice a round trip's bytes, and a resume flit is sent; a lane that cannot hold as much never
reaches it. Log 58: DESIGN CHOICE, unsafe. -/
def execResumeFlitSend (link vl : Nat) (s : State) : Out :=
  let k := s.link link
  let x := k.vls.getD vl {}
  if 18 ≤ link || 3 ≤ vl || k.st == .down || !(x.pauseSent || x.free < 256) then .next s
  else .next (s.updLane link vl (fun x => { x with free := min 65536 (max x.free (max 256 (2 * roundTrip k))), pauseSent := x.pauseSent && 65536 < 2 * roundTrip k }))

/-- PAUSE_FLIT (R362): nothing more is sent on the lane. -/
def execPauseFlit (link vl : Nat) (s : State) : Out := .next (s.updLane link vl (fun x => { x with paused := true }))

/-- RESUME_FLIT (R362): sending goes on. -/
def execResumeFlit (link vl : Nat) (s : State) : Out := .next (s.updLane link vl (fun x => { x with paused := false }))

/-! ### Requests of peers (R231, R270) -/

/-- Device bytes that a request touches. -/
def reqSpan : PeerReq → Nat × Nat
  | .load pa n => (pa, n)
  | .store pa bs => (pa, bs.length)
  | .atomic pa _ ty _ => (pa, 4 * typeRegs ty)
  | .cas pa ty _ _ => (pa, 4 * typeRegs ty)

/-- No lease on some sectors runs past a time. -/
def capLeases (s : State) (secs : List Nat) (at0 : Nat) : State :=
  let dir := s.mem.dir.map (fun e =>
    if secs.contains e.1 then (e.1, { e.2 with holders := e.2.holders.map (fun h => (h.1, min h.2 at0)), lost := min e.2.lost at0 }) else e)
  capCopies (s.setMem { s.mem with dir := dir }) secs s.mod.now at0

/-- A peer's write is performed at the home slice here. It issued in window N, this one or the one before, and is visible to every agent by the start
of window N + 2: leases of older copies end by then (R232, R260). While the clock is out of the band no window is known, and a window that has not
passed is found anew when the clock is corrected (R234). Log 104: DESIGN CHOICE, unsafe. -/
def peerPerform (s : State) (y : Nat) (bs : List Byte) : State :=
  let s1 := (perform s {} y bs none).1
  let secs := (pieces y bs.length).map (fun p => p.2.1 / 64)
  let ahead := if Config.freeBit s1.tick then 1 else 2
  let kept := s.mod.peerCaps.filter (fun c => s.mod.desync || s.mod.now < windowEnd s.mod c.at0 c.ahead)
  let s2 := { s1 with tick := s1.tick + 1 }.setMod { s1.mod with peerCaps := kept ++ secs.map (fun x => ({ sector := x, at0 := s.mod.now, ahead := ahead } : PeerCap)) }
  if s.mod.desync then s2 else capLeases s2 secs (windowEnd s.mod s.mod.now ahead)

/-- An atomic of a peer at its home: the old value is answered; a poisoned sector is not written (R266, R270). -/
def peerAtomic (s : State) (y n : Nat) (f : Nat → Option Nat) : State :=
  match homePois s.mem y with
  | some _ => s.answer (homeAnswer s y n)
  | none =>
    let old := homeNat s.mem y n
    let s1 := match f old with
      | some v => peerPerform s y (bytesOf v n)
      | none => s
    s1.answer (.data (bytesOf old n) false)

/-- One half of a peer's packed atomic at its home: the value read there (R268). -/
def peerHalfStep (s : State) (y aop ty opnd h : Nat) : State × Nat :=
  let old := homeNat s.mem (y + 2 * h) 2
  (peerPerform s (y + 2 * h) (bytesOf (halfOp aop ty old (opnd / 2 ^ (16 * h) % 2 ^ 16)) 2), old)

/-- A peer's ADD, MIN or MAX on F16X2 or BF16X2 performs one half, either, and leaves the other to another event (R268). -/
def peerPacked (s : State) (link y aop ty opnd : Nat) : State :=
  match homePois s.mem y with
  | some _ => s.answer (homeAnswer s y 4)
  | none =>
    let h := (Config.freeBit s.tick).toNat
    let (s1, v) := peerHalfStep { s with tick := s.tick + 1 } y aop ty opnd h
    s1.setMod { s1.mod with peerHalves := s1.mod.peerHalves ++ [{ link := link, pa := y, aop := aop, ty := ty, opnd := opnd, half := h, old := v }] }

/-- The second half of a peer's packed atomic, and the answer with what both halves read (R268), where the lane of responses is not paused (R362). -/
def peerSecond (s : State) : State :=
  match s.mod.peerHalves.find? (fun x => !((s.link x.link).vls.getD 1 {}).paused) with
  | none => s
  | some x =>
    let s := s.setMod { s.mod with peerHalves := s.mod.peerHalves.erase x }
    match homePois s.mem x.pa with
    | some _ => s.answer (homeAnswer s x.pa 4)
    | none =>
      let (s1, v) := peerHalfStep s x.pa x.aop x.ty x.opnd (1 - x.half)
      s1.answer (.data (bytesOf (x.old * 2 ^ (16 * x.half) + v * 2 ^ (16 * (1 - x.half))) 4) false)

/-- A write that another module makes to its own memory, within a sector: this module's next access at that home sees it (R231, R260). Log 104: DESIGN
CHOICE, safe. -/
def peerStore (s : State) (a : Nat) (bs : List Byte) : State :=
  if spaceOf a != 1 || bs.isEmpty || a / 64 != (a + bs.length - 1) / 64 then s else homeWrite s a bs

/-- PEER_REQUEST (R231, R270): a peer's access is performed at the home slice here. While the peer has paused the lane of responses, nothing is
answered (R362). Log 105: DEDUCED, unsafe. -/
def execPeerRequest (link : Nat) (req : PeerReq) (s : State) : Out :=
  let (pa, n) := reqSpan req
  let k := s.link link
  if deviceEnd < pa + n then .fault .physicalHole
  else if !(k.st == .active || k.st == .degraded) || (k.vls.getD 1 {}).paused then .next s
  else
    let y := physOf 0 pa
    match req with
    | .load _ _ => .next (s.answer (homeAnswer s y n))
    | .store _ bs => .next ((peerPerform s y bs).answer .ack)
    | .atomic _ aop ty b =>
      let s1 := turnUnit s (192 + link) 0 y n
      if twoHalves false aop ty then .next (peerPacked s1 link y aop ty (leNat b))
      else .next (peerAtomic s1 y n (fun old => atomNew false aop ty old (leNat b) 0))
    | .cas _ ty new cmp => .next (peerAtomic (turnUnit s (192 + link) 0 y n) y n (fun old => atomNew true 0 ty old (leNat new) (leNat cmp)))

end Sys2Proof.Machine
end

