-- ==== Sys2Proof/Machine/Startup.lean ====
section
/-! DEFINITION. Start-up, firmware, errors and power (R338, R366 to R368). -/

namespace Sys2Proof.Machine

/-- RESET (R366): the machine starts again with the record in flash; step 1 verifies the firmware, step 2 the record, step 3
trains the memory. A step that fails stops start-up there. Host and peer memory are not the module's; what device memory
holds after training is that of reset (log 2). Log 2: DESIGN CHOICE, unsafe. -/
def execReset (fw cfg : Bool) (badChannels : List Nat) (s : State) : Out :=
  let rec0 := s.mod.nextCfg
  let z := State.reset
  let boot : Boot :=
    if !fw then { step := 1, failed := 1, cause := 1, recovery := true }
    else if !cfg then { step := 2, failed := 2, cause := 1, recovery := true }
    else if !badChannels.isEmpty then { step := 3, failed := 3, cause := 1, badChannels := badChannels }
    else { step := 4 }
  let m : Mod := { z.mod with nextCfg := rec0, boot := boot }
  let m := if fw && cfg then { m with cfg := rec0, devid := rec0.devid % 8192, lsl1 := rec0.lsl1, lsrdc := rec0.lsrdc, fwin := rec0.fwin } else m
  .next { z with mod := m, mem := { z.mem with cells := s.mem.cells.filter (fun c => 2 ^ 56 ≤ c.1) }, due := s.due, tick := s.tick }

/-- The supervisor group of a core starts at an address (R345). -/
def startSup (s : State) (core : Nat) (entry : DWord) : State :=
  let g := core * 48 + 47
  let s1 := { s with groups := s.groups.put g { team := 0, gid := 0 } }
  let s2 := (upto 32).foldl (fun s l => s.setThread (g * 32 + l) (Thread.fresh 0 0 112 entry s1.serial)) s1
  (upto 32).foldl (fun s l => fileThread s (g * 32 + l)) { s2 with serial := s2.serial + 1 }

/-- SUPERVISOR_LOAD (R366): the image is verified, and slot 47 starts on every core; a failure places no team. Step 7 is over where the driver has
negotiated already. The descriptor of ASID 0 is read here. Log 101: DEDUCED, unsafe. -/
def execSupervisorLoad (entry : BitVec 64) (ok : Bool) (s : State) : Out :=
  let b := s.mod.boot
  if b.step != 6 || b.supLoaded then .next s
  else if !ok then .next (s.setMod { s.mod with boot := { b with failed := 6, cause := 1 } })
  else
    let s1 := loadSpace s 0
    let s2 := ((upto 192).filter (fun c => !s.mod.fenced.contains c)).foldl (fun s c => startSup s c entry) s1
    let step := if s2.mod.fack == 2 then 8 else 7
    .next (s2.setMod { s2.mod with boot := { b with step := step, failed := 0, cause := 0, supLoaded := true } })

/-- SIGNED_FIRMWARE_UPDATE (R366): accepted in recovery mode only; start-up is then to be run again from reset. Log 65: DEDUCED, safe. -/
def execSignedFirmwareUpdate (ok : Bool) (s : State) : Out :=
  if !s.mod.boot.recovery || !ok then .next s
  else .next (s.setMod { s.mod with boot := {} })

/-- SOFT_ERROR_CORRECTED (R368). -/
def execSoftErrorCorrected (s : State) : Out := .next (s.setMod { s.mod with rasce := (s.mod.rasce + 1) % 2 ^ 64 })

/-- POWER_LIMIT_REACHED (R368): the arithmetic clock is lowered, which changes timing only. -/
def execPowerLimitReached (s : State) : Out := .next (s.setMod { s.mod with clockLow := true })

/-- UNCORRECTABLE_SOFT_ERROR (R338, R368): the sector is poisoned in memory, or where it stands at its proxy RDC.
Log 64: DEDUCED, unsafe. -/
def execUncorrectableSoftError (space sector : Nat) (s : State) : Out :=
  let y := physOf space (sector * 64)
  let s1 := s.setMod { s.mod with rasue := (s.mod.rasue + 1) % 2 ^ 64 }
  if space == 0 && sector * 64 < deviceEnd then .next (s1.setMem { s1.mem with pois := s1.mem.pois.put sector 0x05 })
  else if space == 2 && sector * 64 < 2 ^ 52 then
    .next (s1.setMem { s1.mem with rdc := s1.mem.rdc.upd (copyKey (homeDie y) y) (fun c => { c with pois := some 0x05 }) })
  else .next s

end Sys2Proof.Machine
end

