-- ==== Sys2Proof/Machine/Issue.lean ====
section
/-! DEFINITION. Choosing and issuing runs: candidates, the words of an issue group one by one, and run ends (R22 to R26, R30, R62, R94, R139 to
R145, R348). -/

namespace Sys2Proof.Machine

/-! ### Issue groups and candidates (R24, R142, R145) -/

/-- Of two threads of one lane, the one that began to wait first, then the lower gid (R24). -/
def goesFirst (s : State) (a b : Nat) : Bool :=
  match s.threads.get a, s.threads.get b with
  | some t, some u => t.since < u.since || (t.since == u.since && t.gid < u.gid)
  | _, _ => false

/-- Puts a thread into an issue group in the making, one for each home lane, in rising lane. -/
def joinLane (s : State) (pl : Nat) : List Nat → List Nat
  | [] => [pl]
  | q :: r =>
    if placeLane pl < placeLane q then pl :: q :: r
    else if placeLane pl == placeLane q then (if goesFirst s pl q then pl :: r else q :: r)
    else q :: joinLane s pl r

/-- The issue group that an entry can form now (R145). -/
def issueGroup (s : State) (x : Entry) : List Nat := (x.members.filter (eligible s x)).foldl (fun g pl => joinLane s pl g) []

/-- Slot of the thread with the lowest gid of a group (R140). -/
def leadSlot (s : State) (g : List Nat) : Nat :=
  let gid := fun (pl : Nat) => match s.threads.get pl with | some t => t.gid | none => 0
  match minBy gid g with
  | some pl => placeSlot pl
  | none => 48

/-- A candidate: its entry and the issue group that it forms. -/
structure Cand where
  entry : Entry
  group : List Nat
  slot : Nat
  deriving Repr

/-- Some of an entry's run lies at a peer to which every request lane is paused: it is not fetched now (R362). -/
def runHeld (s : State) (x : Entry) : Bool :=
  let asid := match s.teams.get x.team with | some tm => tm.pkt.asid | none => 0
  let n := match headerOf (headerAt s asid x.addr) with | some h => h.count + 1 | none => 1
  rangeHeld s { asid := asid, team := 0, bound := 0, privNo := 0 } x.addr (4 * n)

/-- The candidates of a scheduler: those whose leading slot it owns (R142). Log 66: DEDUCED, unsafe. -/
def candidates (s : State) (sched : Nat) : List Cand :=
  (s.entries.filter (fun x => x.core == sched / 4)).filterMap (fun x =>
    let g := issueGroup s x
    let c : Cand := { entry := x, group := g, slot := leadSlot s g }
    if !g.isEmpty && c.slot / 12 == sched % 4 && !runHeld s x then some c else none)

/-- Whether a candidate is one of the supervisor group. -/
def Cand.sup (c : Cand) : Bool := c.entry.team == 0

/-- Order of user candidates: class, ready time, leading slot from the pointer on (R142). -/
def candKey (s : State) (ptr : Nat) (c : Cand) : Nat :=
  (3 - c.entry.cls) * 2 ^ 128 + (c.entry.ready.getD s.mod.now) * 2 ^ 4 + (c.slot + 12 - ptr) % 12

/-- The candidate that a scheduler chooses (R142). Among candidates of the supervisor group the earliest ready time goes first, and candidates that
the rules do not tell apart go in the order of their entries. Log 85: DESIGN CHOICE, unsafe. -/
def chosen (s : State) (sc : Sched) (cs : List Cand) : Option Cand :=
  let users := cs.filter (fun c => !c.sup)
  let pick := minBy (candKey s sc.ptr) users
  if sc.sups < 15 || users.isEmpty then
    match minBy (fun c => c.entry.ready.getD s.mod.now) (cs.filter (·.sup)) with
    | some c => some c
    | none => pick
  else pick

/-! ### CHOOSE_RUN (R142, R145) -/

/-- The other eligible user candidates of the scheduler are passed over (R142). -/
def passOver (passed : List Cand) (x : Entry) : Entry :=
  if passed.any (fun c => c.entry.keyIs x.core x.team x.role x.addr && c.entry.slot == x.slot) then
    if x.passed + 1 == 64 then { x with passed := 0, cls := min 3 (x.cls + 1) } else { x with passed := x.passed + 1 }
  else x

/-- The chosen entry keeps the threads left behind, from now on and at its launch class (R142, R145). -/
def entryIssues (s : State) (c : Cand) (x : Entry) : Entry :=
  if c.entry.keyIs x.core x.team x.role x.addr && c.entry.slot == x.slot then
    { x with members := x.members.filter (fun pl => !c.group.contains pl), ready := some s.mod.now, cls := launchClass s x.team, passed := 0 }
  else x

/-- An issue group starts its run: at the first word with k0 to k7 zero (R94), or, for a thread that goes on alone, at the
word that its reply gave. One that parked at a collective that it skips counts as arrived there now (R291, R348). -/
def startRun (s : State) (sched : Nat) (g : List Nat) (hdr : Nat) (h : Header) (body : List Word) (sup : Bool) : State :=
  let (wix, skip) := match (g.head?.bind s.threads.get).map (·.st) with
    | some (.resume w k) => (w, k)
    | _ => (0, false)
  let alone := match (g.head?.bind s.threads.get).map (·.st) with | some (.resume _ _) => true | _ => false
  let s0 := g.foldl (fun s pl =>
    match s.threads.get pl with
    | some t => if t.collPark && skip then skipArrive s pl else s
    | none => s) s
  let s1 := g.foldl (fun s pl => s.updThread pl (fun t =>
    let t1 := { t with st := .issuing sched, next := none, collPark := false }
    if alone then t1 else { t1 with k := cleanRegs 8, newWaits := [] })) s0
  { s1 with issues := s1.issues.put sched { lanes := g, hdr := hdr, count := h.count, cls := h.cls, park := h.park, sup := sup, body := body,
                                            wix := wix, skip := skip } }

/-- CHOOSE_RUN (R142): a scheduler without a run picks a candidate, whose run is walked and issued to the issue group. -/
def execChooseRun (sched : Nat) (s : State) : Out :=
  if 768 ≤ sched || s.issues.has sched then .next s
  else
    let s0 := refile s (sched / 4)
    let cs := candidates s0 sched
    let sc := s0.scheds.getD sched {}
    match chosen s0 sc cs with
    | none => .next s0
    | some c =>
      let passed := cs.filter (fun d => !d.sup && !(d.entry.keyIs c.entry.core c.entry.team c.entry.role c.entry.addr && d.entry.slot == c.entry.slot))
      let entries := ((s0.entries.map (passOver passed)).map (entryIssues s0 c)).filter (fun x => !x.members.isEmpty)
      let sc1 : Sched := { ptr := (sc.ptr + 1) % 12, sups := if c.sup then min 15 (sc.sups + 1) else 0 }
      let s1 := { s0 with entries := entries, scheds := s0.scheds.put sched sc1 }
      let asid := match s1.teams.get c.entry.team with | some tm => tm.pkt.asid | none => 0
      match walkRun s1 asid c.entry.addr c.sup with
      | .good h body => .next (startRun s1 sched c.group c.entry.addr h body c.sup)
      | bad => .next (c.group.foldl (fun s pl =>
          match s.threads.get pl with
          | some t => s.trapBoundary pl (walkTrap s pl t bad)
          | none => s) s1)

/-! ### Issuing a word (R62, R140) -/

/-- What a scheduler is to issue. -/
inductive Todo where
  | nothing
  /-- a word that a reply skips: its length in words -/
  | skip (len : Nat)
  | run (i : Instr) (len : Nat)
  /-- a reserved opcode (0x01) or an illegal minor function (0x02), with the words of the trap -/
  | bad (code : Nat) (payload : List Byte) (len : Nat)
  deriving Repr

/-- The word that a run has come to. -/
def todoOf (x : Issue) : Todo :=
  match x.body[x.wix]? with
  | none => .nothing
  | some w =>
    let len := wordsOf w
    if x.skip then .skip len
    else
      match decodeWords w x.body[x.wix + 1]? with
      | .ok i => .run i len
      | .error .reserved => .bad 0x01 (bytesOf w.toNat 4) len
      | .error _ => .bad 0x02 (bytesOf w.toNat 4 ++ (match x.body[x.wix + 1]? with | some e => bytesOf e.toNat 4 | none => [])) len

/-- A scheduler turns to its next word: it becomes the current one, and a fresh word gets its number. The clock is read when the word issues: while
the issue group holds with no lane done, it has not (R95). -/
def prepare (s : State) (sched : Nat) : State × Todo :=
  match s.issues.get sched with
  | none => (s, .nothing)
  | some x =>
    let b := if x.batch == 0 then s.serial else x.batch
    ({ s with cur := sched, serial := if x.batch == 0 then s.serial + 1 else s.serial,
              issues := s.issues.put sched { x with stall := false, batch := b, clk := if x.served.isEmpty then s.mod.now else x.clk } }, todoOf x)

/-- A word without a meaning traps every thread whose guard is true (R62); a guard code of 13 to 15 traps 0x02. -/
def badWord (s : State) (code g : Nat) (payload : List Byte) : State :=
  match s.issues.get s.cur with
  | none => s
  | some x => x.lanes.foldl (fun s pl =>
      match s.threads.get pl with
      | none => s
      | some t =>
        let p := t.p.getD g {}
        if g < 12 && p.pois.isBad then s.trapAt pl (poisonTrap t p.pois 3)
        else if 12 < g then s.trapAt pl { code := 0x02, payload := payload }
        else if g < 12 && !p.val then s
        else s.trapAt pl { code := code, payload := payload }) s

/-! ### Run ends (R22, R144, R158) -/

/-- A thread comes to the end of its run: it exits, or stands at its next header. `last` is the address of the run's last
instruction. -/
def endThread (s : State) (x : Issue) (last pl : Nat) : State :=
  match s.threads.get pl with
  | none => s
  | some t =>
    if t.exiting then exitThread s pl
    else
      let t1 := { t with
        pc := t.next.getD (BitVec.ofNat 64 (fallThrough x.hdr x.count)), prod := BitVec.ofNat 64 (if t.next.isSome then last else x.hdr),
        next := none, k := cleanRegs 8, waits := t.waits ++ t.newWaits.map (·.from s t.team), newWaits := [], park := x.park, st := .ready, since := s.serial }
      fileThread (s.setThread pl t1) pl

/-- The run of a scheduler ends for its issue group. -/
def endRun (s : State) (sched : Nat) (x : Issue) : State :=
  let s1 := { s with issues := s.issues.del sched }
  let s2 := x.lanes.foldl (fun s pl => endThread s x (x.hdr + 4 * (x.wix + 1)) pl) s1
  { s2 with serial := s2.serial + 1 }

/-- After a word of `len` words: it is issued again, or the scheduler comes to the next one, or to the run's end. -/
def afterWord (s : State) (sched len : Nat) : State :=
  match s.issues.get sched with
  | none => s
  | some x =>
    if x.lanes.isEmpty then { s with issues := s.issues.del sched }
    else if x.stall then s
    else if x.count ≤ x.wix + len then endRun s sched x
    else { s with issues := s.issues.put sched { x with wix := x.wix + len, served := [], holds := [], batch := 0, skip := false } }

end Sys2Proof.Machine
end

