-- ==== Sys2Proof/Machine/Settle.lean ====
section
/-! DEFINITION. What follows at once from the state after a turn, and the passing of time: ends of waits and parks, barrier
phases and mismatches, collections, aborts, teams that are over, and ready times (R21, R100, R141, R160, R162, R244, R287). -/

namespace Sys2Proof.Machine

/-- Anchors end when their word has been done. -/
def anchorSettle (s : State) : State :=
  (s.ops.find (fun _ o => o.kind == .anchor && !s.issues.any (fun x => x.2.batch == o.batch && !x.2.lanes.isEmpty))).foldl
    (fun s e => s.endOp e.1) s

/-- FWAIT conditions that all hold release their thread, which acquires the chunks they name (R254, R287). Log 25: DEDUCED, unsafe. -/
def waitSettle (s : State) : State :=
  s.threads.foldl (fun s e =>
    if e.2.st == .ready && !e.2.waits.isEmpty && e.2.waits.all (fun c => !c.missed && mapHolds s e.2.team c.off c.mask) then
      s.setThread e.1 { e.2.waits.foldl (fun t c => mapAcquire s e.1 t c.off c.mask) e.2 with waits := [] }
    else s) s

/-- Threads parked by `PARK` go on once every slot of their group reads zero (R30). -/
def parkSettle (s : State) : State :=
  { s with threads := s.threads.map (fun e => if e.2.park && e.2.st == .ready && slotsZero s e.1 255 then (e.1, { e.2 with park := false }) else e) }

/-- A fabric sc fence whose release and acquire have completed waits for the next window (R244). -/
def fenceSettle (s : State) : State :=
  { s with ops := s.ops.map (fun e =>
      match e.2.kind with
      | .fence 0 3 0 => if e.2.relDone && !fenceLoads s e.1 e.2 then (e.1, { e.2 with kind := .fence 0 3 (s.window + 1) }) else e
      | _ => e) }

/-! ### Barriers (R159 to R162) -/

/-- The live threads of a barrier instance, as numbers in the team. -/
def expectedSet (s : State) (tm : Team) (key : Nat) : List Nat :=
  (barPlaces tm key).filterMap (fun pl => match s.threads.get pl with | some t => if t.st == .exited then none else some (tidOf pl t) | none => none)

/-- Whether the open phase of an instance completes (R160, R284). -/
def phaseDone (s : State) (tm : Team) (key : Nat) (b : Barrier) : Bool :=
  let ex := expectedSet s tm key
  b.owed == 0 && ex.any (fun i => b.arrived.contains i) && ex.all (fun i => b.arrived.contains i)

/-- Completes the phases that can be completed. -/
def phaseSettle (s : State) : State :=
  { s with teams := s.teams.map (fun e =>
      (e.1, { e.2 with bars := e.2.bars.map (fun b =>
        if phaseDone s e.2 b.1 b.2 then (b.1, { b.2 with phase := b.2.phase + 1, arrived := [] }) else b) })) }

/-- Threads whose phase has passed go on and have acquired at team scope; those that waited before arriving arrive (R160). -/
def barSettle (s : State) : State :=
  s.threads.foldl (fun s e =>
    match s.threads.get e.1 with
    | some t =>
      (match t.bar with
        | some b =>
          if t.st != .ready || (if b.first then hasArrived s e.1 t b.inst else barWaits s e.1 t b.inst) then s
          else if !b.first then s.setThread e.1 { t.acquire s e.1 1 with bar := none }
          else startArrival (s.setThread e.1 { t with bar := if b.form == 0 then some { b with first := false } else none }) e.1 b.inst 0
        | none => s)
    | none => s) s

/-- A thread that waits at a barrier of an instance's scope, and nothing else (R162). -/
def waitsAt (s : State) (k : Nat) (t : Thread) : Option Nat :=
  match t.bar with
  | some b => if t.st == .ready && t.waits.isEmpty && !t.asleep s && b.inst % 16 == k then some b.id else none
  | none => none

/-- The threads of a scope that trap 0x07 because they wait at different ids (R162). -/
def mismatched (s : State) (tm : Team) (k : Nat) : List Nat :=
  let live := (barPlaces tm k).filter s.live
  let ids := live.map (fun pl => (s.threads.get pl).bind (waitsAt s k))
  let busy := s.ops.any (fun e => live.contains e.2.th && (match e.2.kind with | .barRel _ => true | _ => false))
  if !live.isEmpty && ids.all (·.isSome) && 2 ≤ (dedup (ids.filterMap id)).length && !busy then live else []

/-- Trap 0x07 at a thread's BAR, its arrival withdrawn with its token (R162). -/
def mismatchTrap (s : State) (pl : Nat) : State :=
  match s.threads.get pl with
  | none => s
  | some t =>
    match t.bar with
    | none => s
    | some b =>
      let s1 := if b.form == 0 && !b.first then
          s.updTeam t.team (fun tm =>
            let x := tm.bars.getD b.inst {}
            { tm with bars := tm.bars.put b.inst { x with arrived := x.arrived.filter (· != tidOf pl t) } })
        else s
      let toks := if b.form == 0 && !b.first then setOpt t.toks b.id b.was else t.toks
      let s2 := (unfile s1 pl).setThread pl { t with bar := none, toks := toks, pc := BitVec.ofNat 64 b.hdr, k := cleanRegs 8 }
      s2.suspend pl { code := 0x07, detail := b.id + 16 * b.scope } (some (b.hdr, b.word))

/-- Takes every trap 0x07 of R162. -/
def mismatchSettle (s : State) : State :=
  s.teams.foldl (fun s e => (upto 10).foldl (fun s k => (mismatched s e.2 k).foldl mismatchTrap s) s) s

/-- Barrier phases and what follows from them. -/
def barriersSettle : Nat → State → State
  | 0, s => mismatchSettle s
  | n + 1, s =>
    if s.threads.any (fun e => e.2.bar.isSome) || s.teams.any (fun e => e.2.bars.any (fun b => !b.2.arrived.isEmpty)) then
      barriersSettle n (barSettle (phaseSettle s))
    else s

/-! ### Candidates (R141, R348) -/

/-- A thread that goes on alone in its run is a candidate of its own. -/
def resumeSettle (s : State) : State :=
  s.threads.foldl (fun s e =>
    match e.2.st with
    | .resume _ _ =>
      if s.entries.any (fun x => x.members.contains e.1) then s
      else
        let v := envOf s e.1 e.2
        { s with entries := s.entries ++ [{ core := v.core, team := v.team, role := v.role, addr := e.2.pc.toNat, slot := some (64 + e.1),
                                            members := [e.1], hdr := headerAt s v.asid e.2.pc.toNat, cls := launchClass s v.team }] }
    | _ => s) s

/-- Ready times: when the first thread of a candidate became eligible. An entry that is no candidate now has been passed over at no choice, and has
its launch class (R142). -/
def readySettle (s : State) : State :=
  { s with entries := s.entries.map (fun x =>
      if x.members.any (eligible s x) then { x with ready := some (x.ready.getD s.mod.now) }
      else { x with ready := none, passed := 0, cls := launchClass s x.team }) }

/-! ### Launches (R358) -/

/-- The entries of a queue from head to tail: all of them where the queue is full. -/
def claimed (s : State) (q : Queue) : List Nat :=
  let n := (q.tail + 2 ^ q.log2 - q.head) % 2 ^ q.log2
  let n := if n == 0 && !entryFree (entryState s q q.tail) then 2 ^ q.log2 else n
  (upto n).map (fun i => (q.head + i) % 2 ^ q.log2)

/-- The V9 holds the `STATE` line of every entry of a host ring from head to tail, under CXL.cache, whatever the kind of the page through which
it came (R358). -/
def ringSettle (s : State) : State :=
  (s.queues.find (fun _ q => q.host)).foldl (fun s e =>
    (claimed s e.2).foldl (fun s k =>
      let y := ringAt e.2 k 0x78
      if hostGone s y then s
      else
        match proxyCopy s.mem y with
        | none => fillProxy s { core := 0 } y
        | some c => if c.nc then s.setMem { s.mem with rdc := s.mem.rdc.put (copyKey (homeDie y) y) { c with nc := false } } else s) s) s

/-- Everything that follows at once. -/
def settle (s : State) : State :=
  readySettle (resumeSettle (hostSettle (ringSettle (teamSettle (abortSettle (collSettle (podSettle (cmdSettle (barriersSettle 4 (fenceSettle
    (parkSettle (waitSettle (anchorSettle (wroteSettle s))))))))))))))

/-! ### Time (R223) -/

/-- The longest time between two visits of the scrubber to a tag (R235). -/
def scrubTime : Nat := 33554432

/-- The start of window N + 2, by which a store or atomic that issued to a peer in window N is performed while the route to it is ACTIVE: one that
nothing holds back (R232). -/
def peerDeadline (s : State) (k : Nat) (o : Op) : Option Nat :=
  match o.win with
  | some n =>
    let waits := blocked s k o || (o.rel.isSome && !o.relDone) || o.lost.isSome || s.mod.desync
      || o.accs.any (fun a => match a.loc with | .phys y => !routed s (peerOf y) || sendHeld s (peerOf y) | _ => false)
      || (match o.kind with | .atomic _ _ _ _ _ _ done => done | _ => false)
    if waits then none else some (((n + 2) * s.mod.fwin : Int) - s.mod.ptp).toNat
  | none => none

/-- The start of the window at which a fabric sc fence completes (R244). -/
def fenceDeadline (s : State) (o : Op) : Option Nat :=
  match o.kind with
  | .fence 0 3 n => if n == 0 || s.mod.desync then none else some ((n * s.mod.fwin : Int) - s.mod.ptp).toNat
  | _ => none

/-- The wake time of a sleeping thread, from which on it is ready (R141, R222). -/
def Thread.wakesAt (t : Thread) (s : State) : Option Nat := if t.asleep s then some (s.mod.now + (t.wake - time64 s.mod.now)) else none

/-- Device times that must be met: leases of pushed copies nobody has read, visits of the scrubber, stores to peers, fabric sc fences, and wake
times. -/
def deadlines (s : State) : List Nat :=
  s.mem.rdc.filterMap (fun e => if e.2.pushed.isSome then some e.2.exp else none)
    ++ (s.mem.l1 ++ s.mem.rdc).map (fun e => e.2.seen + scrubTime) ++ s.ops.filterMap (fun e => peerDeadline s e.1 e.2)
    ++ s.ops.filterMap (fun e => fenceDeadline s e.2) ++ s.threads.filterMap (fun e => e.2.wakesAt s)

/-- Device time advances, but not past a deadline that has not been met; it may pass the promises of FWAITs (R287). -/
def elapse (s : State) (ns : Nat) : State :=
  let now := (deadlines s).foldl (fun m d => min m (max d s.mod.now)) (s.mod.now + ns)
  { s.setMod { s.mod with now := now } with
    threads := s.threads.map (fun e => (e.1, { e.2 with waits := e.2.waits.map (·.pass s e.2.team now) })) }

/-! ### Fetching for the next step -/

/-- A scheduler issues the next word of its run, by the meaning that an instruction is given. -/
def issueWith (exec : Instr → State → Out) (sched : Nat) (s : State) : Out :=
  match prepare s sched with
  | (s1, .run i len) =>
    (match exec i s1 with
      | .next s2 => .next (settle (afterWord s2 sched len))
      | r => r)
  | (s1, .bad code payload len) =>
    let g := match s1.issues.get sched with | some x => fld (x.body.getD x.wix 0).toNat 21 4 | none => 0
    .next (settle (afterWord (badWord s1 code g payload) sched len))
  | (s1, .skip len) => .next (settle (afterWord s1 sched len))
  | (s1, .nothing) => .next (settle (afterWord s1 sched 1))

/-- One turn of the machine. -/
def turnWith (exec : Instr → State → Out) (t : Turn) (s : State) : Out :=
  match t with
  | .issue sched => issueWith exec sched s
  | .ev i =>
    if i.isEvent then
      match exec i s with
      | .next s1 => .next (settle s1)
      | r => r
    else .next s
  | .elapse n => .next (settle (elapse s n))
  | .evict l k => .next (settle (evictCopy s l k))
  | .send op => .next (settle (sendStore s op))
  | .chunk pass id c => .next (settle (if pass then podChunk s id c else startChunk s id c))
  | .readMap r => .next (settle (startPass s r))
  | .finish op => .next (settle (finishOp s op))
  | .peerStore a bs => .next (settle (peerStore s a bs))
  | .peerHalf => .next (settle (peerSecond s))
  | .idle => .next s

/-- The turn that comes next: the first that is due, else the schedule's choice. Log 3: DESIGN CHOICE, safe. -/
def nextTurn (s : State) : Turn × State :=
  match s.due with
  | t :: r => (t, { s with due := r })
  | [] => (Config.choose s.tick, { s with tick := s.tick + 1 })

end Sys2Proof.Machine
end

