-- ==== Sys2Proof/Machine/Dispatch.lean ====
section
/-! DEFINITION. One arm for each constructor of `Instr`: the meaning of each instruction and event. -/

namespace Sys2Proof.Machine

def exec (i : Instr) (s : State) : Host.Outcome State Fault Refusal :=
  match i with
  | .chooseRun sched => Sys2Proof.Machine.execChooseRun sched s
  | .nop w => Sys2Proof.Machine.execNop w s
  | .iadd w => Sys2Proof.Machine.execIadd w s
  | .isub w => Sys2Proof.Machine.execIsub w s
  | .imul w => Sys2Proof.Machine.execImul w s
  | .imulh w => Sys2Proof.Machine.execImulh w s
  | .imulhu w => Sys2Proof.Machine.execImulhu w s
  | .imad w x => Sys2Proof.Machine.execImad w x s
  | .imin w => Sys2Proof.Machine.execImin w s
  | .imax w => Sys2Proof.Machine.execImax w s
  | .iminu w => Sys2Proof.Machine.execIminu w s
  | .imaxu w => Sys2Proof.Machine.execImaxu w s
  | .and w => Sys2Proof.Machine.execAnd w s
  | .or w => Sys2Proof.Machine.execOr w s
  | .xor w => Sys2Proof.Machine.execXor w s
  | .shl w => Sys2Proof.Machine.execShl w s
  | .shr w => Sys2Proof.Machine.execShr w s
  | .sar w => Sys2Proof.Machine.execSar w s
  | .iadd64 w => Sys2Proof.Machine.execIadd64 w s
  | .isub64 w => Sys2Proof.Machine.execIsub64 w s
  | .imadw w x => Sys2Proof.Machine.execImadw w x s
  | .sel w x => Sys2Proof.Machine.execSel w x s
  | .movi w imm => Sys2Proof.Machine.execMovi w imm s
  | .iaddi w imm => Sys2Proof.Machine.execIaddi w imm s
  | .icmp w x => Sys2Proof.Machine.execIcmp w x s
  | .bool3 w x => Sys2Proof.Machine.execBool3 w x s
  | .dsh w x => Sys2Proof.Machine.execDsh w x s
  | .bitf w => Sys2Proof.Machine.execBitf w s
  | .pbool w x => Sys2Proof.Machine.execPbool w x s
  | .v2p w => Sys2Proof.Machine.execV2p w s
  | .p2v w => Sys2Proof.Machine.execP2v w s
  | .mov w => Sys2Proof.Machine.execMov w s
  | .rdsp w => Sys2Proof.Machine.execRdsp w s
  | .faddF32 w => Sys2Proof.Machine.execFaddF32 w s
  | .fsubF32 w => Sys2Proof.Machine.execFsubF32 w s
  | .fmulF32 w => Sys2Proof.Machine.execFmulF32 w s
  | .ffmaF32 w x => Sys2Proof.Machine.execFfmaF32 w x s
  | .fminF32 w => Sys2Proof.Machine.execFminF32 w s
  | .fmaxF32 w => Sys2Proof.Machine.execFmaxF32 w s
  | .fcmpF32 w x => Sys2Proof.Machine.execFcmpF32 w x s
  | .funaF32 w => Sys2Proof.Machine.execFunaF32 w s
  | .faddF64 w => Sys2Proof.Machine.execFaddF64 w s
  | .fsubF64 w => Sys2Proof.Machine.execFsubF64 w s
  | .fmulF64 w => Sys2Proof.Machine.execFmulF64 w s
  | .ffmaF64 w x => Sys2Proof.Machine.execFfmaF64 w x s
  | .fminF64 w => Sys2Proof.Machine.execFminF64 w s
  | .fmaxF64 w => Sys2Proof.Machine.execFmaxF64 w s
  | .fcmpF64 w x => Sys2Proof.Machine.execFcmpF64 w x s
  | .funaF64 w => Sys2Proof.Machine.execFunaF64 w s
  | .pkadd w x => Sys2Proof.Machine.execPkadd w x s
  | .pkmul w x => Sys2Proof.Machine.execPkmul w x s
  | .pkfma w x => Sys2Proof.Machine.execPkfma w x s
  | .pkmin w x => Sys2Proof.Machine.execPkmin w x s
  | .pkmax w x => Sys2Proof.Machine.execPkmax w x s
  | .pkcmp w x => Sys2Proof.Machine.execPkcmp w x s
  | .sfu w x => Sys2Proof.Machine.execSfu w x s
  | .fdiv w x => Sys2Proof.Machine.execFdiv w x s
  | .fsqrt w x => Sys2Proof.Machine.execFsqrt w x s
  | .sfuComplete op => Sys2Proof.Machine.execSfuComplete op s
  | .cvt w x => Sys2Proof.Machine.execCvt w x s
  | .cvtn w x => Sys2Proof.Machine.execCvtn w x s
  | .cvtw w x => Sys2Proof.Machine.execCvtw w x s
  | .cbload w x => Sys2Proof.Machine.execCbload w x s
  | .cbloadComplete op => Sys2Proof.Machine.execCbloadComplete op s
  | .cblu w x => Sys2Proof.Machine.execCblu w x s
  | .dot2 w x => Sys2Proof.Machine.execDot2 w x s
  | .shfl w x => Sys2Proof.Machine.execShfl w x s
  | .xgath w x => Sys2Proof.Machine.execXgath w x s
  | .vote w x => Sys2Proof.Machine.execVote w x s
  | .matchLanes w x => Sys2Proof.Machine.execMatch w x s
  | .compact w x => Sys2Proof.Machine.execCompact w x s
  | .redx w x => Sys2Proof.Machine.execRedx w x s
  | .scanx w x => Sys2Proof.Machine.execScanx w x s
  | .ld w x => Sys2Proof.Machine.execLd w x s
  | .homeRead op => Sys2Proof.Machine.execHomeRead op s
  | .loadComplete op => Sys2Proof.Machine.execLoadComplete op s
  | .st w x => Sys2Proof.Machine.execSt w x s
  | .storePerform op => Sys2Proof.Machine.execStorePerform op s
  | .revocationReceive rev holder => Sys2Proof.Machine.execRevocationReceive rev holder s
  | .revocationAck rev => Sys2Proof.Machine.execRevocationAck rev s
  | .releaseComplete op => Sys2Proof.Machine.execReleaseComplete op s
  | .lds w x => Sys2Proof.Machine.execLds w x s
  | .sts w x => Sys2Proof.Machine.execSts w x s
  | .ldln w x => Sys2Proof.Machine.execLdln w x s
  | .atom w x => Sys2Proof.Machine.execAtom w x s
  | .cas w x => Sys2Proof.Machine.execCas w x s
  | .red w x => Sys2Proof.Machine.execRed1 w x s
  | .atomicPerform op => Sys2Proof.Machine.execAtomicPerform op s
  | .atomicComplete op => Sys2Proof.Machine.execAtomicComplete op s
  | .atomicopCompletion op ok => Sys2Proof.Machine.execAtomicopCompletion op ok s
  | .fence w x => Sys2Proof.Machine.execFence w x s
  | .fenceComplete op => Sys2Proof.Machine.execFenceComplete op s
  | .pref w x => Sys2Proof.Machine.execPref w x s
  | .cflush w x => Sys2Proof.Machine.execCflush w x s
  | .cflushComplete op => Sys2Proof.Machine.execCflushComplete op s
  | .sleept w => Sys2Proof.Machine.execSleept w s
  | .sleepWake th => Sys2Proof.Machine.execSleepWake th s
  | .ferryCopy w x => Sys2Proof.Machine.execFerryCopy w x s
  | .ferryMcast w x => Sys2Proof.Machine.execFerryMcast w x s
  | .ferryGather w x => Sys2Proof.Machine.execFerryGather w x s
  | .ferryScatter w x => Sys2Proof.Machine.execFerryScatter w x s
  | .ferryExp24 w x => Sys2Proof.Machine.execFerryExp24 w x s
  | .ferryCmp24 w x => Sys2Proof.Machine.execFerryCmp24 w x s
  | .ferryTier w x => Sys2Proof.Machine.execFerryTier w x s
  | .ferryAccept op => Sys2Proof.Machine.execFerryAccept op s
  | .ferryChunkComplete cmd chunk => Sys2Proof.Machine.execFerryChunkComplete cmd chunk s
  | .ferryChunkFault cmd chunk => Sys2Proof.Machine.execFerryChunkFault cmd chunk s
  | .fwaitTest w x => Sys2Proof.Machine.execFwaitTest w x s
  | .fwaitWait w x => Sys2Proof.Machine.execFwaitWait w x s
  | .fwaitWaitp w x => Sys2Proof.Machine.execFwaitWaitp w x s
  | .fwaitPromiseMissed th => Sys2Proof.Machine.execFwaitPromiseMissed th s
  | .lmark w x => Sys2Proof.Machine.execLmark w x s
  | .mxop w x => Sys2Proof.Machine.execMxop w x s
  | .mxdrainRegs w x => Sys2Proof.Machine.execMxdrainRegs w x s
  | .mxdrainScratch w x => Sys2Proof.Machine.execMxdrainScratch w x s
  | .mxdrainPeer w x => Sys2Proof.Machine.execMxdrainPeer w x s
  | .mxdrainPeerord w x => Sys2Proof.Machine.execMxdrainPeerord w x s
  | .mxpod w x => Sys2Proof.Machine.execMxpod w x s
  | .mxrelOne w x => Sys2Proof.Machine.execMxrelOne w x s
  | .mxrelAll w x => Sys2Proof.Machine.execMxrelAll w x s
  | .engineGrant cluster => Sys2Proof.Machine.execEngineGrant cluster s
  | .enginePassComplete pass => Sys2Proof.Machine.execEnginePassComplete pass s
  | .drainPassComplete pass => Sys2Proof.Machine.execDrainPassComplete pass s
  | .podPassComplete pass => Sys2Proof.Machine.execPodPassComplete pass s
  | .podTrapDeliver th => Sys2Proof.Machine.execPodTrapDeliver th s
  | .peerAddArrive pass => Sys2Proof.Machine.execPeerAddArrive pass s
  | .peerordApply pass => Sys2Proof.Machine.execPeerordApply pass s
  | .mxrelRelease team crew coll => Sys2Proof.Machine.execMxrelRelease team crew coll s
  | .bra w imm => Sys2Proof.Machine.execBra w imm s
  | .brx w => Sys2Proof.Machine.execBrx w s
  | .call w imm => Sys2Proof.Machine.execCall w imm s
  | .callx w => Sys2Proof.Machine.execCallx w s
  | .ret w => Sys2Proof.Machine.execRet w s
  | .exit w => Sys2Proof.Machine.execExit w s
  | .barSync w x => Sys2Proof.Machine.execBarSync w x s
  | .barArrive w x => Sys2Proof.Machine.execBarArrive w x s
  | .barWait w x => Sys2Proof.Machine.execBarWait w x s
  | .launch w x => Sys2Proof.Machine.execLaunch w x s
  | .launchComplete op => Sys2Proof.Machine.execLaunchComplete op s
  | .svc w x => Sys2Proof.Machine.execSvc w x s
  | .trap w x => Sys2Proof.Machine.execTrap w x s
  | .mailboxPost post => Sys2Proof.Machine.execMailboxPost post s
  | .towrec w x => Sys2Proof.Machine.execTowrec w x s
  | .towiter w x => Sys2Proof.Machine.execTowiter w x s
  | .towplay w x => Sys2Proof.Machine.execTowplay w x s
  | .towstop w x => Sys2Proof.Machine.execTowstop w x s
  | .towstat w x => Sys2Proof.Machine.execTowstat w x s
  | .towdrop w x => Sys2Proof.Machine.execTowdrop w x s
  | .pushInstall push => Sys2Proof.Machine.execPushInstall push s
  | .mapsync w x => Sys2Proof.Machine.execMapsync w x s
  | .mapsyncComplete op => Sys2Proof.Machine.execMapsyncComplete op s
  | .refit w x => Sys2Proof.Machine.execRefit w x s
  | .refitPassPublish refit => Sys2Proof.Machine.execRefitPassPublish refit s
  | .xlq w x => Sys2Proof.Machine.execXlq w x s
  | .mbxrd w x => Sys2Proof.Machine.execMbxrd w x s
  | .mbxrdComplete op => Sys2Proof.Machine.execMbxrdComplete op s
  | .mbxwr w x => Sys2Proof.Machine.execMbxwr w x s
  | .lockwaitRetry th => Sys2Proof.Machine.execLockwaitRetry th s
  | .ctxSave w x => Sys2Proof.Machine.execCtxSave w x s
  | .ctxLoad w x => Sys2Proof.Machine.execCtxLoad w x s
  | .ctxPreempt w x => Sys2Proof.Machine.execCtxPreempt w x s
  | .ctxResume w x => Sys2Proof.Machine.execCtxResume w x s
  | .ctxAbort w x => Sys2Proof.Machine.execCtxAbort w x s
  | .teamStopped team => Sys2Proof.Machine.execTeamStopped team s
  | .srmovRead w x => Sys2Proof.Machine.execSrmovRead w x s
  | .srmovWrite w x => Sys2Proof.Machine.execSrmovWrite w x s
  | .lqclaim q => Sys2Proof.Machine.execLqclaim q s
  | .packetTake q => Sys2Proof.Machine.execPacketTake q s
  | .dependenceRead grid => Sys2Proof.Machine.execDependenceRead grid s
  | .teamPlace grid => Sys2Proof.Machine.execTeamPlace grid s
  | .teamStart team => Sys2Proof.Machine.execTeamStart team s
  | .gridComplete grid => Sys2Proof.Machine.execGridComplete grid s
  | .leaseExpire lvl key => Sys2Proof.Machine.execLeaseExpire lvl key s
  | .scrubVisit lvl key => Sys2Proof.Machine.execScrubVisit lvl key s
  | .cacheWake lvl place slept => Sys2Proof.Machine.execCacheWake lvl place slept s
  | .timeFaultStart die => Sys2Proof.Machine.execTimeFaultStart die s
  | .timeFaultEnd die => Sys2Proof.Machine.execTimeFaultEnd die s
  | .desynchronise offset => Sys2Proof.Machine.execDesynchronise offset s
  | .resynchronise offset => Sys2Proof.Machine.execResynchronise offset s
  | .hostMemRead pa size => Sys2Proof.Machine.execHostMemRead pa size s
  | .hostMemWrite pa bytes => Sys2Proof.Machine.execHostMemWrite pa bytes s
  | .hostAtomicopRequest pa => Sys2Proof.Machine.execHostAtomicopRequest pa s
  | .hostSnoop hpa bytes => Sys2Proof.Machine.execHostSnoop hpa bytes s
  | .featureNegotiation => Sys2Proof.Machine.execFeatureNegotiation s
  | .cxlioRegisterWrite off v => Sys2Proof.Machine.execCxlioRegisterWrite off v s
  | .cxlPortDown port => Sys2Proof.Machine.execCxlPortDown port s
  | .cxlPortUp port => Sys2Proof.Machine.execCxlPortUp port s
  | .linkPartnerDetect link lanes => Sys2Proof.Machine.execLinkPartnerDetect link lanes s
  | .linkEqualized link rtt => Sys2Proof.Machine.execLinkEqualized link rtt s
  | .linkIdent link peer fwin feat roleOk => Sys2Proof.Machine.execLinkIdent link peer fwin feat roleOk s
  | .linkTimesync link offset => Sys2Proof.Machine.execLinkTimesync link offset s
  | .linkLaneFail link lanes => Sys2Proof.Machine.execLinkLaneFail link lanes s
  | .linkRetrained link => Sys2Proof.Machine.execLinkRetrained link s
  | .linkTimeout link => Sys2Proof.Machine.execLinkTimeout link s
  | .flitReceive link vl => Sys2Proof.Machine.execFlitReceive link vl s
  | .pauseFlit link vl => Sys2Proof.Machine.execPauseFlit link vl s
  | .resumeFlit link vl => Sys2Proof.Machine.execResumeFlit link vl s
  | .peerRequest link req => Sys2Proof.Machine.execPeerRequest link req s
  | .reset fw cfg badChannels => Sys2Proof.Machine.execReset fw cfg badChannels s
  | .supervisorLoad entry ok => Sys2Proof.Machine.execSupervisorLoad entry ok s
  | .coreFault core => Sys2Proof.Machine.execCoreFault core s
  | .softErrorCorrected => Sys2Proof.Machine.execSoftErrorCorrected s
  | .powerLimitReached => Sys2Proof.Machine.execPowerLimitReached s
  | .uncorrectableSoftError space sector => Sys2Proof.Machine.execUncorrectableSoftError space sector s
  | .xlqComplete op => Sys2Proof.Machine.execXlqComplete op s
  | .towlineRequestServed op => Sys2Proof.Machine.execTowlineRequestServed op s
  | .contextSaveComplete op => Sys2Proof.Machine.execContextSaveComplete op s
  | .contextLoadComplete op => Sys2Proof.Machine.execContextLoadComplete op s
  | .prefComplete op => Sys2Proof.Machine.execPrefComplete op s
  | .peerAddPassComplete pass => Sys2Proof.Machine.execPeerAddPassComplete pass s
  | .resumeFlitSend link vl => Sys2Proof.Machine.execResumeFlitSend link vl s
  | .signedFirmwareUpdate ok => Sys2Proof.Machine.execSignedFirmwareUpdate ok s

end Sys2Proof.Machine
end

