-- ==== Sys2Proof/Machine/Step.lean ====
section
/-! DEFINITION. One step of the machine: the next turn, and what follows from it at once. A step issues one word of a
scheduler's run, performs one event, lets time pass, or replaces a cache line (log 3). -/

namespace Sys2Proof.Machine

/-- One step. -/
def step (s : State) : Host.Outcome State Fault Refusal :=
  let n := nextTurn s
  turnWith exec n.1 n.2

/-- The words of an instruction as `decodeTableWord` numbers its bits. -/
def fetchWords (nbits w : Nat) : List Word :=
  let a := BitVec.ofNat 32 (w % 2 ^ nbits)
  let b := BitVec.ofNat 32 (w % 2 ^ nbits / 2 ^ 32)
  if wordsOf a == 2 then [a, b] else [a]

/-- A thread that can issue for a scheduler, where it has no issue group: lane 0 of its first group slot, with a team of its own. -/
def withThread (s : State) : State :=
  let core := s.cur / 4
  let slot := 12 * (s.cur % 4)
  let k := s.serial
  let tm : Team := { grid := 0, index := 0, core := core, slots := [slot, slot + 1], pkt := { budp := 112, budc := 112, scru := 128 }, st := .running }
  let t : Thread := { Thread.fresh k 0 112 0 k with st := .issuing s.cur }
  { s with
    teams := s.teams.put k tm
    groups := s.groups.put (core * 48 + slot) { team := k, gid := 0 }
    threads := s.threads.put (place core slot 0) t
    issues := s.issues.put s.cur { lanes := [place core slot 0], hdr := 0, count := 1, cls := 5, park := false, sup := false, body := [] }
    serial := k + 1 }

/-- The machine with an instruction as the next word of the current scheduler's run. Log 5: DESIGN CHOICE, safe. -/
def State.withFetchWord (s : State) (nbits w : Nat) : State :=
  let ws := fetchWords nbits w
  let s1 := if s.issues.has s.cur then s else withThread s
  { s1 with
    issues := s1.issues.upd s.cur (fun x => { x with body := ws, count := ws.length, wix := 0, served := [], holds := [], batch := 0, stall := false,
                                                     skip := false })
    due := .issue s.cur :: s1.due }

end Sys2Proof.Machine
end

