-- ==== Sys2Proof/Safety.lean ====
section
/-! DEFINITION. What counts as a safe run: it never stops with a fault. -/

namespace Sys2Proof

/-- A run of `n` steps that does not stop with a fault. -/
def SafeRun (n : Nat) (s : Machine.State) : Prop := ∀ f, Host.Core.run Sys2Proof.core n s ≠ .fault f

/-- What a step gives when it goes on. -/
def Steps (s s' : Machine.State) : Prop := Machine.step s = .next s'

end Sys2Proof
end

