-- ==== Sys2Proof/Certificates/Slice0/Obligations.lean ====
section
/-! DEFINITION. What is claimed of the machine: one proposition for each obligation, and the words they are stated in. -/

namespace Sys2Proof.Spec

open Sys2Proof.Machine

/-! ### A word that a scheduler issues -/

/-- Instruction `i` is the word that the current scheduler issues to the threads of `x`: none of them has done it yet, and the
scheduler waits for nothing. -/
structure AtWord (s : State) (i : Instr) (f : Info) (x : Issue) : Prop where
  info : i.info = some f
  issue : s.issues.get s.cur = some x
  free : s.holding x = false
  fresh : x.served = []
  go : x.stall = false
  nodup : x.lanes.Nodup

/-- The thread at a place of the issue group executes the instruction: its guard is true and no check of R62 fails
(`Obligations.GuardAndChecks` says when). -/
def Runs (s : State) (i : Instr) (f : Info) (x : Issue) (pl : Nat) (t : Thread) : Prop :=
  pl ∈ x.lanes ∧ s.threads.get pl = some t ∧ gate s i f (envOf s pl t) t = .run

/-- No thread of the issue group traps before the instruction's own effect: each one executes it or has a false guard. -/
def NoTrap (s : State) (i : Instr) (f : Info) (x : Issue) : Prop :=
  ∀ pl ∈ x.lanes, ∀ t, s.threads.get pl = some t → ∀ tr, gate s i f (envOf s pl t) t ≠ .trap tr

/-- The instruction completes in its issue and touches the threads that execute it and nothing else: each becomes what `g` says,
every other thread and every other part of the state stays. `ok` says on which operands, where not on all. -/
def LaneOp (i : Instr) (ok : State → Env → Thread → Prop) (g : State → Env → Thread → Thread) : Prop :=
  ∀ (s : State) (f : Info) (x : Issue), AtWord s i f x → NoTrap s i f x → (∀ pl t, Runs s i f x pl t → ok s (envOf s pl t) t) →
    ∃ s', exec i s = .next s' ∧ s' = { s with threads := s'.threads } ∧
      (∀ pl t, Runs s i f x pl t → s'.threads.get pl = some (g s (envOf s pl t) t)) ∧
      (∀ pl, (∀ t, ¬ Runs s i f x pl t) → s'.threads.get pl = s.threads.get pl)

/-- Trap `tr` has suspended a thread, `t` before it, at the word being issued: the thread keeps its registers, is out of the issue group, and its
record is posted (R25, R341, R343). -/
def Trapped (s s' : State) (x : Issue) (pl : Nat) (t : Thread) (tr : Trap) : Prop :=
  s'.threads.get pl = some { t with
    st := .susp, next := none
    susp := some { code := tr.code, detail := tr.detail, payload := tr.payload, pos := some (x.hdr, x.wix), fetch := tr.fetch,
                   acc := tr.acc, coll := tr.coll, waits := tr.waits } } ∧
  (∃ y, s'.issues.get s.cur = some y ∧ pl ∉ y.lanes) ∧
  ∃ k p, s'.posts.get k = some p ∧ p.core = placeCore pl ∧ p.th = some pl ∧ p.mrec.kind = 0 ∧ p.mrec.code = tr.code ∧
    p.mrec.detail = tr.detail ∧ p.mrec.pc = x.hdr + 4 * (x.wix + 1) ∧ p.mrec.hdr = x.hdr ∧ p.mrec.word = x.wix ∧
    p.mrec.gslot = placeSlot pl ∧ p.mrec.lane = placeLane pl ∧ p.mrec.payload = tr.payload

/-- The instruction completes its issue for a user group of which any threads trap and any others do not: a thread that fails a check of R62 takes
that trap; one that executes the instruction takes the trap that `bad` gives, found as the second part says, or `go` holds of it; one whose guard
is false stays as it is. No memory changes, no team and no earlier operation. `room` is what the issue needs. -/
def MayTrap (i : Instr) (room : State → Info → Issue → Prop) (bad : State → Env → Thread → Option (Trap × Thread))
    (go : State → State → Env → Thread → Prop) : Prop :=
  ∀ (s : State) (f : Info) (x : Issue), AtWord s i f x → room s f x → (∀ pl ∈ x.lanes, isSup pl = false) →
    ∃ s', exec i s = .next s' ∧ s'.mem = s.mem ∧ s'.teams = s.teams ∧ (∀ k, k < s.serial → s'.ops.get k = s.ops.get k) ∧
      (∀ pl, pl ∉ x.lanes → s'.threads.get pl = s.threads.get pl) ∧
      ∀ pl ∈ x.lanes, ∀ t, s.threads.get pl = some t →
        match gate s i f (envOf s pl t) t with
        | .skip => s'.threads.get pl = some t
        | .trap tr => Trapped s s' x pl t tr
        | .run => match bad s (envOf s pl t) t with
          | some (tr, u) => Trapped s s' x pl u tr
          | none => (∃ y, s'.issues.get s.cur = some y ∧ pl ∈ y.lanes) ∧ go s s' (envOf s pl t) t

/-- A trap that finds the thread as it is. -/
def asIs (t : Thread) (tr : Trap) : Option (Trap × Thread) := some (tr, t)

/-- A table lists every key once, keys rising; `Obligations.TablesTidyKept` says that the machine keeps its tables so. -/
def Rising {α : Type} (t : Tab α) : Prop := (t.map (·.1)).Pairwise (· < ·)

/-- On every operand. -/
def always (_ : State) (_ : Env) (_ : Thread) : Prop := True

/-! ### Operands -/

/-- Value and poison of a 32-bit source (R40). -/
def srcW (e : Env) (t : Thread) (c : BitVec 7) : Word := BitVec.ofNat 32 (rd e t c.toNat).1
def srcP (e : Env) (t : Thread) (c : BitVec 7) : Pois := (rd e t c.toNat).2
/-- Value and poison of a pair (R41, R68). -/
def srcD (e : Env) (t : Thread) (c : BitVec 7) : DWord := BitVec.ofNat 64 (rdN e t c.toNat 2).1
def srcDP (e : Env) (t : Thread) (c : BitVec 7) : Pois := (rdN e t c.toNat 2).2
/-- Writes a register or a pair with its poison; `Sys2Proof.Spec.RegisterWrite` says what that leaves. -/
def putW (t : Thread) (d : BitVec 7) (v : Word) (p : Pois) : Thread := wrN t d.toNat v.toNat p 1
def putD (t : Thread) (d : BitVec 7) (v : DWord) (p : Pois) : Thread := wrN t d.toNat v.toNat p 2

/-- `D` := f(`A`, `B`) on 32 bits, with the poison of both (R103). -/
def bin (w : W1) (f : Word → Word → Word) (_ : State) (e : Env) (t : Thread) : Thread :=
  putW t w.d (f (srcW e t w.a) (srcW e t w.b)) ((srcP e t w.a).or (srcP e t w.b))
/-- The same on pairs (R104, R121). -/
def binD (w : W1) (f : DWord → DWord → DWord) (_ : State) (e : Env) (t : Thread) : Thread :=
  putD t w.d (f (srcD e t w.a) (srcD e t w.b)) ((srcDP e t w.a).or (srcDP e t w.b))
/-- Three 32-bit operands. -/
def ter (w : W1) (c : BitVec 7) (f : Word → Word → Word → Word) (_ : State) (e : Env) (t : Thread) : Thread :=
  putW t w.d (f (srcW e t w.a) (srcW e t w.b) (srcW e t c)) (((srcP e t w.a).or (srcP e t w.b)).or (srcP e t c))
/-- Two 32-bit operands that give a predicate pair (R43, R114). -/
def cmpW (w : W1) (f : Word → Word → Bool) (_ : State) (e : Env) (t : Thread) : Thread :=
  wrPair t w.d.toNat (f (srcW e t w.a) (srcW e t w.b)) ((srcP e t w.a).or (srcP e t w.b))
/-- Two pairs that give a predicate pair. -/
def cmpD (w : W1) (f : DWord → DWord → Bool) (_ : State) (e : Env) (t : Thread) : Thread :=
  wrPair t w.d.toNat (f (srcD e t w.a) (srcD e t w.b)) ((srcDP e t w.a).or (srcDP e t w.b))

/-- The high words of the 64-bit products (R103). -/
def mulHigh (a b : Word) : Word := ((a.signExtend 64 * b.signExtend 64) >>> 32).setWidth 32
def mulHighU (a b : Word) : Word := ((a.setWidth 64 * b.setWidth 64) >>> 32).setWidth 32

/-- The conditions of R45 on n-bit values: EQ, NE, LT, LE, GT, GE signed, then LTU, LEU, GTU, GEU. -/
def condition {n : Nat} (c : BitVec 4) (a b : BitVec n) : Bool :=
  match c.toNat with
  | 0 => a == b
  | 1 => a != b
  | 2 => a.slt b
  | 3 => a.sle b
  | 4 => b.slt a
  | 5 => b.sle a
  | 6 => a.ult b
  | 7 => a.ule b
  | 8 => b.ult a
  | _ => b.ule a

/-- X of DSH: `A` over `C` (R112), and its four results. -/
def funnel (fn : BitVec 8) (a b c : Word) : Word :=
  let x : DWord := a ++ c
  let n := b.toNat % 64
  match fn.toNat with
  | 0 => (x <<< n >>> 32).setWidth 32
  | 1 => (x >>> n).setWidth 32
  | 2 => (x.sshiftRight n).setWidth 32
  | _ => ((x.rotateLeft n) >>> 32).setWidth 32

/-- A bitwise function by its truth table, `A` the least significant index bit (R111). -/
def byTable (tt : BitVec 8) (a b c : Word) : Word :=
  BitVec.ofBoolListLE ((List.range 32).map (fun j => tt.toNat.testBit
    ((a.toNat.testBit j).toNat + 2 * (b.toNat.testBit j).toNat + 4 * (c.toNat.testBit j).toNat))) |>.setWidth 32

/-- Set bits, leading and trailing zeros of an n-bit value (R51). -/
def popCount {n : Nat} (a : BitVec n) : Nat := ((List.range n).filter (fun j => a.getLsbD j)).length
def leadZeros {n : Nat} (a : BitVec n) : Nat := n - (((List.range n).filter (fun j => a.getLsbD j)).map (· + 1)).foldl max 0
def trailZeros {n : Nat} (a : BitVec n) : Nat := ((List.range n).find? (fun j => a.getLsbD j)).getD n
/-- The bytes of a word in reverse (R51, BSWAP). -/
def byteSwap (a : Word) : Word := a.extractLsb' 0 8 ++ a.extractLsb' 8 8 ++ a.extractLsb' 16 8 ++ a.extractLsb' 24 8

/-- The results of BITF on a 32-bit operand and on a pair (R51). -/
def bitField (f : BitVec 7) (a : Word) : Word :=
  match f.toNat with
  | 0 => BitVec.ofNat 32 (popCount a)
  | 1 => BitVec.ofNat 32 (leadZeros a)
  | 2 => BitVec.ofNat 32 (trailZeros a)
  | 3 => a.reverse
  | _ => byteSwap a
def bitFieldD (f : BitVec 7) (a : DWord) : Word :=
  match f.toNat with
  | 5 => BitVec.ofNat 32 (popCount a)
  | 6 => BitVec.ofNat 32 (leadZeros a)
  | _ => BitVec.ofNat 32 (trailZeros a)

end Sys2Proof.Spec

open Sys2Proof Sys2Proof.Machine Sys2Proof.Spec

/-! ### Encodings (R30 to R38, R46, R60) -/

/-- Words that the spec writes out decode to the instructions they stand for: NOP (R110), ICMP and BOOL3 (R117's table), SLEEPT
(R222), LD, ST and STS (R222's table), DSH (R112), FDIV (R129). -/
def Obligations.SpecWordsDecode : Prop :=
  decodeWords 0x019E3C78 none = .ok (.nop ⟨12, 120, 120, 120⟩) ∧
  decodeWords 0x2F804205 (some 0xF0002000) = .ok (.icmp ⟨12, 1, 4, 5⟩ ⟨120, 0, 0, 0, false, false, 2, 0, false, 0⟩) ∧
  decodeWords 0x31824082 (some 0x060000D8) = .ok (.bool3 ⟨12, 9, 1, 2⟩ ⟨3, 0, 0, 0, false, false, 0, 0, false, 0xD8⟩) ∧
  decodeWords 0x2B80FC78 (some 0x000000FF) = .ok (.movi ⟨12, 3, 120, 120⟩ 0xFF) ∧
  decodeWords 0xA79E0378 none = .ok (.sleept ⟨12, 120, 6, 120⟩) ∧
  decodeWords 0x91820109 (some 0x00001009) = .ok (.ld ⟨12, 8, 2, 9⟩ ⟨0, 2, 0, 0, 1, 1⟩) ∧
  decodeWords 0x939E010A (some 0x00011490) = .ok (.st ⟨12, 120, 2, 10⟩ ⟨4, 2, 2, 2, 2, 0⟩) ∧
  decodeWords 0x979E0085 (some 0x00401018) = .ok (.sts ⟨12, 120, 1, 5⟩ ⟨256, 2, 0, 0, 3, 0⟩) ∧
  decodeWords 0x3381C286 (some 0x08000000) = .ok (.dsh ⟨12, 7, 5, 6⟩ ⟨4, 0, 0, 0, false, false, 0, 0, false, 0⟩) ∧
  decodeWords 0x6F850082 (some 0xF0000700) = .ok (.fdiv ⟨12, 20, 1, 2⟩ ⟨120, 0, 0, 0, false, false, 0, 3, true, 0⟩) ∧
  decodeWords 0xC01E3C78 (some 0) = .ok (.bra ⟨0, 120, 120, 120⟩ 0)

/-- Every well-formed instruction, with every value of every operand, is read back from its own words, whatever follows them. -/
def Obligations.DecodeOfEncode : Prop :=
  ∀ i : Instr, i.wf = true → i.isEvent = false → ∀ rest : List Byte,
    decodeBytes ((encode i).flatMap (fun w => bytesOf w.toNat 4) ++ rest) = .ok (i, rest)

/-- No bit of an instruction is lost: whatever words decode, the instruction they give encodes to exactly those words (one, or two
with the extension that the opcode asks for), and its opcode is neither reserved nor a header's (R33, R46). -/
def Obligations.EncodeOfDecode : Prop :=
  ∀ (w : Word) (next : Option Word) (i : Instr), decodeWords w next = .ok i →
    encode i = w :: (if wordsOf w = 2 then next.toList else []) ∧ i.isEvent = false ∧
      opReserved (opOf w) = false ∧ opOf w ≠ 0x7C ∧ opOf w ≠ 0x7D

/-- A header word is read exactly where R30 and R60 allow it: `HDR` 0b111110, `COUNT` 1 to 24, `CLASS` 0 to 5 and bits [8:0] zero;
and the fields read encode to the same word. -/
def Sys2Proof.Spec.HeaderFields : Prop :=
  (∀ w : Word, (headerOf w).isSome = true ↔
    w.extractLsb' 26 6 = 0b111110#6 ∧ 1 ≤ (w.extractLsb' 21 5).toNat ∧ (w.extractLsb' 21 5).toNat ≤ 24 ∧
      (w.extractLsb' 18 3).toNat ≤ 5 ∧ w.extractLsb' 0 9 = 0#9) ∧
  (∀ (w : Word) (h : Header), headerOf w = some h → encHeader h = w ∧ h.count = (w.extractLsb' 21 5).toNat ∧
    h.cls = (w.extractLsb' 18 3).toNat ∧ h.wait = (w.extractLsb' 10 8).toNat ∧ h.park = w.getLsbD 9)

/-! ### Steps, runs and checks (R25, R60 to R62, R142) -/

/-- A step issues the decoded instruction: with a scheduler's turn due, the word that its run has come to is decoded and executed by
`exec` in the state in which the scheduler is the current one and the word has its number and its sample of the clock, taken anew while no lane has done its part (R95); then the word is over (`afterWord`) and
what follows at once happens (`settle`). An event's turn executes the event.
The model's own choice here: the order of turns within a step (log 3). -/
def Obligations.StepRunsTheInstruction : Prop :=
  (∀ (s : State) (rest : List Turn) (sched : Nat) (x : Issue) (w : Word) (i : Instr),
    s.due = .issue sched :: rest → s.issues.get sched = some x → x.skip = false → x.body[x.wix]? = some w →
    decodeWords w x.body[x.wix + 1]? = .ok i →
    step s =
      match exec i { s with
          due := rest, cur := sched, serial := if x.batch = 0 then s.serial + 1 else s.serial
          issues := s.issues.put sched { x with
            stall := false, batch := if x.batch = 0 then s.serial else x.batch, clk := if x.served = [] then s.mod.now else x.clk } } with
      | .next s2 => .next (settle (afterWord s2 sched (wordsOf w)))
      | r => r) ∧
  (∀ (s : State) (rest : List Turn) (i : Instr), s.due = .ev i :: rest → i.isEvent = true →
    step s = match exec i { s with due := rest } with | .next s2 => .next (settle s2) | r => r)

/-- The words of a run are those of memory: a run that the walk finds good begins with a header at a multiple of 4 and holds `COUNT`
body words fetched from the addresses that follow it, and a SYS run is the supervisor group's (R30, R60).
The model's own choice here: that the words are fetched when the run is chosen (log 6). -/
def Sys2Proof.Spec.RunIsItsMemory : Prop :=
  ∀ (s : State) (asid va : Nat) (sup : Bool) (h : Header) (body : List Word), walkRun s asid va sup = .good h body →
    va % 4 = 0 ∧ (∃ w, fetchWord s asid va = .ok w ∧ headerOf w = some h) ∧ body.length = h.count ∧
      (∀ j w, body[j]? = some w → fetchWord s asid ((va + 4 + 4 * j) % 2 ^ 64) = .ok w) ∧ (h.cls = 5 → sup = true)

/-- CHOOSE_RUN: a free scheduler that chooses a candidate whose run is good issues that run, from its first word, to the candidate's
issue group, with k0 to k7 of its threads zero (R94, R142). Every other user candidate of the scheduler is passed over: with the 64th time its class rises
by one. No other entry changes, no other thread, and no memory.
The model's own choice here: that the words are fetched when the run is chosen (log 6). -/
def Sys2Proof.Spec.ChooseRunIssues : Prop :=
  ∀ (s : State) (sched : Nat) (c : Cand) (h : Header) (body : List Word) (t : Thread),
    let s0 := refile s (sched / 4)
    let cs := candidates s0 sched
    let asid := match s0.teams.get c.entry.team with | some tm => tm.pkt.asid | none => 0
    sched < 768 → s.issues.get sched = none → chosen s0 (s0.scheds.getD sched {}) cs = some c →
    walkRun s0 asid c.entry.addr c.sup = .good h body →
    c.group.Nodup → c.group.head?.bind s0.threads.get = some t → t.st = .ready →
    ∃ s', exec (.chooseRun sched) s = .next s' ∧
      s'.issues.get sched = some { lanes := c.group, hdr := c.entry.addr, count := h.count, cls := h.cls, park := h.park, sup := c.sup,
                                   body := body } ∧
      (∀ pl ∈ c.group, s'.threads.get pl = (s0.threads.get pl).map (fun t =>
        { t with st := .issuing sched, next := none, collPark := false, k := List.replicate 8 {}, newWaits := [] })) ∧
      (∀ pl, pl ∉ c.group → s'.threads.get pl = s0.threads.get pl) ∧ s'.mem = s0.mem ∧ s'.mod = s0.mod ∧
      let same := fun (a b : Entry) => a.keyIs b.core b.team b.role b.addr && a.slot == b.slot
      ∀ x ∈ s0.entries, x.members ≠ [] → same x c.entry = false →
        (if cs.any (fun d => !d.sup && same d.entry x)
          then (if x.passed + 1 = 64 then { x with passed := 0, cls := min 3 (x.cls + 1) } else { x with passed := x.passed + 1 })
          else x) ∈ s'.entries

/-- The checks of an issuing instruction in their order (R62, R98): a thread executes it exactly where its guard holds, no feature
is missing, the encoding is legal and legal for the thread that issues it, every register lies below its budget (the fragments of a collective the
consumers') and none is pending; a clean false guard skips it and meets no check; and the first defect names the trap.
The model's own choice here: which register traps 0x14 and 0x04 name where several are at fault (log 12, 13). -/
def Obligations.GuardAndChecks : Prop :=
  ∀ (s : State) (i : Instr) (f : Info) (e : Env) (t : Thread),
    let g := f.w.g.toNat
    let p := t.p.getD g {}
    let open_ := g = 12 ∨ (g < 12 ∧ p.pois.isBad = false ∧ p.val = true)
    let gated := ∃ b, f.feat = some b ∧ s.feature b = false
    let legal := f.enc = true ∧ illegalFor s i e = false
    let frags := (fragments s i e).1 ++ (fragments s i e).2
    let budc := match s.teams.get e.team with | some tm => tm.pkt.budc | none => e.budget
    let beyond := (∃ c ∈ frags, budc ≤ c) ∨ ∃ c ∈ infoRegs f, c < 112 ∧ e.budget ≤ c
    let busy := ∃ c ∈ frags ++ infoRegs f, t.pending c = true
    (gate s i f e t = .run ↔ open_ ∧ ¬ gated ∧ legal ∧ ¬ beyond ∧ ¬ busy) ∧
    (gate s i f e t = .skip ↔ g < 12 ∧ p.pois.isBad = false ∧ p.val = false) ∧
    (g < 12 → p.pois.isBad = true → ∃ tr, gate s i f e t = .trap tr ∧ tr.code = 0x05) ∧
    (12 < g → ∃ tr, gate s i f e t = .trap tr ∧ tr.code = 0x02) ∧
    (open_ → gated → ∃ tr, gate s i f e t = .trap tr ∧ tr.code = 0x16) ∧
    (open_ → ¬ gated → ¬ legal → ∃ tr, gate s i f e t = .trap tr ∧ tr.code = 0x02) ∧
    (open_ → ¬ gated → legal → beyond → ∃ tr, gate s i f e t = .trap tr ∧ tr.code = 0x14) ∧
    (open_ → ¬ gated → legal → ¬ beyond → busy → ∃ tr, gate s i f e t = .trap tr ∧ tr.code = 0x04)

/-- Writing a register, a pair or a quad (R40, R41, R97): the registers named take the value, lowest word first, with the poison;
code 120 discards it; every other register reads as before and nothing else of the thread changes. -/
def Sys2Proof.Spec.RegisterWrite : Prop :=
  ∀ (e : Env) (t : Thread) (c n x : Nat) (q : Pois), t.k.length = 8 → (n = 1 ∨ n = 2 ∨ n = 4) →
    (wrN t 120 x q n = t) ∧
    (c + n ≤ t.v.length ∧ t.v.length ≤ 112 ∨ 112 ≤ c ∧ c + n ≤ 120 →
      rdN e (wrN t c x q n) c n = (x % 2 ^ (32 * n), q) ∧
      (∀ c', c' < c ∨ c + n ≤ c' → rd e (wrN t c x q n) c' = rd e t c') ∧
      (∀ r, (wrN t c x q n).pending r = t.pending r) ∧
      { wrN t c x q n with v := t.v, k := t.k } = t)

/-- A thread that meets a defect of R62 takes its trap there and leaves the issue group; its registers keep their values (R25, R341).
For every arithmetic, move, predicate and cross-lane instruction, whichever threads of the group trap there and whichever execute it. -/
def Sys2Proof.Spec.DefectsTrap : Prop :=
  ∀ (s : State) (i : Instr) (f : Info) (x : Issue), AtWord s i f x → f.op < 0x47 → f.op ≠ 0x36 → f.op ≠ 0x37 → f.op ≠ 0x38 → f.op ≠ 0x3C →
    (∀ pl ∈ x.lanes, isSup pl = false) →
    ∃ s', exec i s = .next s' ∧ s'.mem = s.mem ∧ s'.teams = s.teams ∧ s'.ops = s.ops ∧
      (∀ pl, pl ∉ x.lanes → s'.threads.get pl = s.threads.get pl) ∧
      ∀ pl ∈ x.lanes, ∀ t, s.threads.get pl = some t →
        (gate s i f (envOf s pl t) t = .skip → s'.threads.get pl = some t) ∧
        ∀ tr, gate s i f (envOf s pl t) t = .trap tr → Trapped s s' x pl t tr

/-- R25, R30, R60: header words, and the words of a run. -/
def Obligations.RunsAndHeaders : Prop := HeaderFields ∧ RunIsItsMemory
/-! ### Integer, move and predicate instructions (R102 to R117) -/

namespace Sys2Proof.Spec

/-- An instruction is `n` words long, the first with opcode `op`; it names `nd` registers by `D`, `na` by `A`, `nb` by `B` and `nc` by `C`. -/
def HasForm (i : Instr) (w : W1) (n op nd na nb nc : Nat) : Prop :=
  (encode i).length = n ∧ (∃ v, (encode i).head? = some v ∧ opOf v = op) ∧
    ∃ f, i.info = some f ∧ f.w = w ∧ f.nd = nd ∧ f.na = na ∧ f.nb = nb ∧ f.nc = nc

end Sys2Proof.Spec

/-- R103: the fifteen two-operand instructions of the table: one word each, with its opcode, three 32-bit operands, the function, and
the poison. -/
def Obligations.IntegerTwoOperand : Prop := ∀ w : W1,
  (∀ p ∈ [(Instr.iadd w, 0x01), (.isub w, 0x02), (.imul w, 0x03), (.imulh w, 0x04), (.imulhu w, 0x05), (.imin w, 0x07), (.imax w, 0x08),
      (.iminu w, 0x09), (.imaxu w, 0x0A), (.and w, 0x0B), (.or w, 0x0C), (.xor w, 0x0D), (.shl w, 0x0E), (.shr w, 0x0F), (.sar w, 0x10)],
    HasForm p.1 w 1 p.2 1 1 1 0) ∧
  LaneOp (.iadd w) always (bin w (· + ·)) ∧
  LaneOp (.isub w) always (bin w (· - ·)) ∧
  LaneOp (.imul w) always (bin w (· * ·)) ∧
  LaneOp (.imulh w) always (bin w mulHigh) ∧
  LaneOp (.imulhu w) always (bin w mulHighU) ∧
  LaneOp (.imin w) always (bin w (fun a b => if a.sle b then a else b)) ∧
  LaneOp (.imax w) always (bin w (fun a b => if a.sle b then b else a)) ∧
  LaneOp (.iminu w) always (bin w (fun a b => if a ≤ b then a else b)) ∧
  LaneOp (.imaxu w) always (bin w (fun a b => if a ≤ b then b else a)) ∧
  LaneOp (.and w) always (bin w (· &&& ·)) ∧
  LaneOp (.or w) always (bin w (· ||| ·)) ∧
  LaneOp (.xor w) always (bin w (· ^^^ ·)) ∧
  LaneOp (.shl w) always (bin w (fun a b => a <<< b.toNat)) ∧
  LaneOp (.shr w) always (bin w (fun a b => a >>> b.toNat)) ∧
  LaneOp (.sar w) always (bin w (fun a b => a.sshiftRight b.toNat))

/-- R104: IADD64 and ISUB64: one word long, three pair operands, the sum and the difference modulo 2^64, and the poison of all four source
registers in both destination registers. -/
def Obligations.PairSums : Prop := ∀ w : W1,
  HasForm (.iadd64 w) w 1 0x11 2 2 2 0 ∧ HasForm (.isub64 w) w 1 0x12 2 2 2 0 ∧
  LaneOp (.iadd64 w) always (binD w (· + ·)) ∧
  LaneOp (.isub64 w) always (binD w (· - ·)) ∧
  (∀ (e : Env) (t : Thread) (c : BitVec 7), c.toNat % 2 = 0 → c.toNat < 120 →
    srcDP e t c = (rd e t c.toNat).2.or (rd e t (c.toNat + 1)).2)

/-- R105: IMAD: two words, four registers, the product of the negated or plain operands and the sum, and the poison of the three sources;
its `FN` must be 0. -/
def Obligations.MultiplyAdd : Prop := ∀ (w : W1) (x : ExtA),
  HasForm (.imad w x) w 2 0x06 1 1 1 1 ∧ (∀ f, (Instr.imad w x).info = some f → f.enc = true → x.fn = 0) ∧
  LaneOp (.imad w x) always (ter w x.c (fun a b c => (if x.na then -a else a) * b + (if x.nc then -c else c)))

/-- R106, R112: the wide multiply-add and the funnel shift. -/
def Sys2Proof.Spec.IntegerWide : Prop := ∀ (w : W1) (x : ExtA),
  LaneOp (.imadw w x) always (fun _ e t =>
    let ext := fun (v : Word) => if x.fn = 0 then v.signExtend 64 else v.setWidth 64
    let a := ext (srcW e t w.a)
    let c := srcD e t x.c
    putD t w.d ((if x.na then -a else a) * ext (srcW e t w.b) + (if x.nc then -c else c))
      (((srcP e t w.a).or (srcP e t w.b)).or (srcDP e t x.c))) ∧
  LaneOp (.dsh w x) always (ter w x.c (funnel x.fn))

/-- R107 to R111, R113: immediates, moves, SEL, BOOL3, BITF and NOP. -/
def Sys2Proof.Spec.MovesAndSelection : Prop := ∀ (w : W1) (x : ExtA) (imm : Word),
  LaneOp (.nop w) always (fun _ _ t => t) ∧
  LaneOp (.movi w imm) always (fun _ _ t => putW t w.d imm .clean) ∧
  LaneOp (.iaddi w imm) always (fun _ e t => putW t w.d (srcW e t w.a + imm) (srcP e t w.a)) ∧
  LaneOp (.mov w) always (fun _ e t => putW t w.d (srcW e t w.a) (srcP e t w.a)) ∧
  LaneOp (.sel w x) always (fun _ e t =>
    let c := if (rdPred t x.cnd.toNat).1 then w.a else w.b
    let q := (rdPred t x.cnd.toNat).2
    if x.fn = 1 then putD t w.d (srcD e t c) ((srcDP e t c).or q) else putW t w.d (srcW e t c) ((srcP e t c).or q)) ∧
  LaneOp (.bool3 w x) always (ter w x.c (byTable x.fn)) ∧
  (w.b.toNat ≤ 4 → LaneOp (.bitf w) always (fun _ e t => putW t w.d (bitField w.b (srcW e t w.a)) (srcP e t w.a))) ∧
  (5 ≤ w.b.toNat → w.b.toNat ≤ 7 → LaneOp (.bitf w) always (fun _ e t => putW t w.d (bitFieldD w.b (srcD e t w.a)) (srcDP e t w.a))) ∧
  (w.b.toNat = 8 → LaneOp (.bitf w) always (fun _ e t => putD t w.d (srcD e t w.a).reverse (srcDP e t w.a)))

/-- R114 to R116: compares write a predicate pair with one poison, PBOOL by its truth table, V2P under its mask, P2V all twelve. -/
def Obligations.PredicateResults : Prop := ∀ (w : W1) (x : ExtA),
  (x.fn = 0 → LaneOp (.icmp w x) always (cmpW w (condition x.cnd))) ∧
  (x.fn = 1 → LaneOp (.icmp w x) always (cmpD w (condition x.cnd))) ∧
  LaneOp (.pbool w x) always (fun _ _ t =>
    let a := rdPred t w.a.toNat
    let b := rdPred t w.b.toNat
    let c := rdPred t x.c.toNat
    wrPair t w.d.toNat (x.fn.toNat.testBit (a.1.toNat + 2 * b.1.toNat + 4 * c.1.toNat)) ((a.2.or b.2).or c.2)) ∧
  LaneOp (.v2p w) always (fun _ e t =>
    { t with p := t.p.mapIdx (fun k y =>
        if k < 12 ∧ (srcW e t w.b).getLsbD k then { val := (srcW e t w.a).getLsbD k, pois := (srcP e t w.a).or (srcP e t w.b) } else y) }) ∧
  LaneOp (.p2v w) always (fun _ _ t =>
    putW t w.d (BitVec.ofNat 32 ((List.range 12).map (fun k => (t.p.getD k {}).val.toNat * 2 ^ k)).sum)
      (t.p.foldl (fun q y => q.or y.pois) .clean))


/-- R106 to R113: the wide multiply-add and the funnel shift; immediates, moves, SEL, BOOL3, BITF and NOP. -/
def Obligations.WideAndMoves : Prop := IntegerWide ∧ MovesAndSelection

/-! ### Floating point (R69 to R91, R119 to R138) -/

namespace Sys2Proof.Spec
open Sys2Proof.Machine

/-- A function of bit patterns, on words and on pairs. -/
def on32 (f : Nat → Nat → Nat) (a b : Word) : Word := BitVec.ofNat 32 (f a.toNat b.toNat)
def on64 (f : Nat → Nat → Nat) (a b : DWord) : DWord := BitVec.ofNat 64 (f a.toNat b.toNat)

/-- Three pairs. -/
def terD (w : W1) (c : BitVec 7) (f : Nat → Nat → Nat → Nat) (_ : State) (e : Env) (t : Thread) : Thread :=
  putD t w.d (BitVec.ofNat 64 (f (srcD e t w.a).toNat (srcD e t w.b).toNat (srcD e t c).toNat))
    (((srcDP e t w.a).or (srcDP e t w.b)).or (srcDP e t c))

/-- The halves of a word, element 0 in bits [15:0] (R68). -/
def half (j : Nat) (a : Word) : Nat := (a.extractLsb' (16 * j) 16).toNat

/-- A packed-half result from a function of halves, where neither half traps. -/
def halves (g : Nat → Nat → Nat → Option Nat) (a b c : Word) : Option Word := do
  let l ← g (half 0 a) (half 0 b) (half 0 c)
  let h ← g (half 1 a) (half 1 b) (half 1 c)
  return BitVec.ofNat 16 h ++ BitVec.ofNat 16 l

/-- The operands of a packed-half instruction overflow under no `TRAP` policy. -/
def halvesOk (w : W1) (c : BitVec 7) (g : Nat → Nat → Nat → Option Nat) (_ : State) (e : Env) (t : Thread) : Prop :=
  (halves g (srcW e t w.a) (srcW e t w.b) (srcW e t c)).isSome = true
/-- The result of a packed-half instruction. -/
def pack (w : W1) (c : BitVec 7) (g : Nat → Nat → Nat → Option Nat) : State → Env → Thread → Thread :=
  ter w c (fun a b c => (halves g a b c).getD 0)

/-- The functions of a half (R126). -/
def halfAdd (x : ExtA) (a b _c : Nat) : Option Nat :=
  let f := halfFmt x.fn.toNat
  f.round x.rnd.toNat (.pol x.ovf.toNat) (FV.add x.rnd.toNat (negIf x.na (f.dec a)) (f.dec b))
def halfMul (x : ExtA) (a b _c : Nat) : Option Nat :=
  let f := halfFmt x.fn.toNat
  f.round x.rnd.toNat (.pol x.ovf.toNat) (FV.mul (negIf x.na (f.dec a)) (f.dec b))
def halfFma (x : ExtA) (a b c : Nat) : Option Nat :=
  let f := halfFmt x.fn.toNat
  f.round x.rnd.toNat (.pol x.ovf.toNat) (FV.add x.rnd.toNat (FV.mul (negIf x.na (f.dec a)) (f.dec b)) (negIf x.nc (f.dec c)))
/-- PKCMP's test (R127). -/
def halfCmp (x : ExtA) (a b : Word) : Bool :=
  let f := halfFmt x.fn.toNat
  let t := fun j => f.cmp x.cnd.toNat (half j a) (half j b)
  match x.fn.toNat / 2 with
  | 0 => t 0
  | 1 => t 1
  | 2 => t 0 && t 1
  | _ => t 0 || t 1

/-- A thread for which an element overflows under TRAP traps 0x11 with `FN` and its operand `A`, and keeps its registers and predicates (R82, R344);
the other threads of the group take their results. -/
def OverflowTraps (i : Instr) (x : ExtA) (room : State → Info → Issue → Prop) (src : Env → Thread → Nat × Pois)
    (fits : State → Env → Thread → Bool) (g : State → Env → Thread → Thread) : Prop :=
  MayTrap i room
    (fun s e t => if fits s e t then none else asIs t { code := 0x11, detail := x.fn.toNat, payload := bytesOf (src e t).1 8 })
    (fun s s' e t => s'.threads.get e.pl = some (g s e t))
/-- The issue needs nothing. -/
def noRoom (_ : State) (_ : Info) (_ : Issue) : Prop := True
/-- The halves of a packed instruction overflow under no TRAP policy. -/
def halvesFit (w : W1) (c : BitVec 7) (g : Nat → Nat → Nat → Option Nat) (_ : State) (e : Env) (t : Thread) : Bool :=
  (halves g (srcW e t w.a) (srcW e t w.b) (srcW e t c)).isSome

end Sys2Proof.Spec

/-- R121, R123: sums, differences, products and fused products of the F32 and F64 formats, each the exact result rounded once (to
nearest even, or in `RND` for FFMA), with the poison of every operand.
The model's own choice here: the sign of an exact zero sum (log 32). -/
def Sys2Proof.Spec.FloatArithmetic : Prop := ∀ (w : W1) (x : ExtA),
  LaneOp (.faddF32 w) always (bin w (on32 (fun a b => fF32.rnd 0 (FV.add 0 (fF32.dec a) (fF32.dec b))))) ∧
  LaneOp (.fsubF32 w) always (bin w (on32 (fun a b => fF32.rnd 0 (FV.add 0 (fF32.dec a) (fF32.dec b).neg)))) ∧
  LaneOp (.fmulF32 w) always (bin w (on32 (fun a b => fF32.rnd 0 (FV.mul (fF32.dec a) (fF32.dec b))))) ∧
  LaneOp (.faddF64 w) always (binD w (on64 (fun a b => fF64.rnd 0 (FV.add 0 (fF64.dec a) (fF64.dec b))))) ∧
  LaneOp (.fsubF64 w) always (binD w (on64 (fun a b => fF64.rnd 0 (FV.add 0 (fF64.dec a) (fF64.dec b).neg)))) ∧
  LaneOp (.fmulF64 w) always (binD w (on64 (fun a b => fF64.rnd 0 (FV.mul (fF64.dec a) (fF64.dec b))))) ∧
  LaneOp (.ffmaF32 w x) always (ter w x.c (fun a b c => BitVec.ofNat 32 (fF32.rnd x.rnd.toNat
    (FV.add x.rnd.toNat (FV.mul (negIf x.na (fF32.dec a.toNat)) (fF32.dec b.toNat)) (negIf x.nc (fF32.dec c.toNat)))))) ∧
  LaneOp (.ffmaF64 w x) always (terD w x.c (fun a b c => fF64.rnd x.rnd.toNat
    (FV.add x.rnd.toNat (FV.mul (negIf x.na (fF64.dec a)) (fF64.dec b)) (negIf x.nc (fF64.dec c)))))

/-- R122, R124, R125: minima, maxima, compares and unary functions of F32 and F64; CLASS of either format writes one register. -/
def Sys2Proof.Spec.FloatSelection : Prop := ∀ (w : W1) (x : ExtA),
  LaneOp (.fminF32 w) always (bin w (on32 (fF32.minmax false))) ∧
  LaneOp (.fmaxF32 w) always (bin w (on32 (fF32.minmax true))) ∧
  LaneOp (.fminF64 w) always (binD w (on64 (fF64.minmax false))) ∧
  LaneOp (.fmaxF64 w) always (binD w (on64 (fF64.minmax true))) ∧
  LaneOp (.fcmpF32 w x) always (cmpW w (fun a b => fF32.cmp x.cnd.toNat a.toNat b.toNat)) ∧
  LaneOp (.fcmpF64 w x) always (cmpD w (fun a b => fF64.cmp x.cnd.toNat a.toNat b.toNat)) ∧
  LaneOp (.funaF32 w) always (fun _ e t =>
    let a := (srcW e t w.a).toNat
    putW t w.d (BitVec.ofNat 32 (if w.b = 6 then fF32.classMask a else fF32.una w.b.toNat a)) (srcP e t w.a)) ∧
  (w.b ≠ 6 → LaneOp (.funaF64 w) always (fun _ e t =>
    putD t w.d (BitVec.ofNat 64 (fF64.una w.b.toNat (srcD e t w.a).toNat)) (srcDP e t w.a))) ∧
  (w.b = 6 → LaneOp (.funaF64 w) always (fun _ e t =>
    putW t w.d (BitVec.ofNat 32 (fF64.classMask (srcD e t w.a).toNat)) (srcDP e t w.a)))

/-- R70, R121, R122, R124: in each of F64, F32, F16 and BF16, a NaN operand gives the canonical NaN of a sum or product, as do
infinity minus infinity and zero times infinity; a zero sum is +0 unless both addends are -0; FMIN and FMAX return the other operand
of a NaN, one of their operands otherwise, in the order that puts -0 below +0; an unordered compare is true under NE and UNORD only,
an ordered one under exactly one of LT, EQ and GT. -/
def Sys2Proof.Spec.FloatSpecialCases : Prop :=
  ∀ f ∈ [fF64, fF32, fF16, fBF16], ∀ a b : Nat, a < 2 ^ f.width → b < 2 ^ f.width →
    (f.dec a = .nan ∨ f.dec b = .nan → fAdd f a b = f.qnan ∧ fSub f a b = f.qnan ∧ fMul f a b = f.qnan) ∧
    (∀ n, f.dec a = .inf n → f.dec b = .inf n → fSub f a b = f.qnan) ∧
    (∀ n m e, f.dec a = .inf n → f.dec b = .fin m 0 e → fMul f a b = f.qnan) ∧
    (f.dec a ≠ .nan → (∀ n, f.dec a ≠ .inf n) → fSub f a a = 0) ∧
    (fAdd f f.signBit f.signBit = f.signBit ∧ fAdd f f.signBit 0 = 0) ∧
    (f.dec a = .nan → f.dec b ≠ .nan → f.minmax false a b = b ∧ f.minmax true a b = b ∧ f.minmax false b a = b ∧
      f.minmax true b a = b) ∧
    (f.dec a = .nan → f.dec b = .nan → f.minmax false a b = f.qnan ∧ f.minmax true a b = f.qnan) ∧
    (f.dec a ≠ .nan → f.dec b ≠ .nan → f.minmax false a b ∈ [a, b] ∧ f.minmax true a b ∈ [a, b] ∧
      ∀ y ∈ [a, b], FV.lt true (f.dec y) (f.dec (f.minmax false a b)) = false ∧
        FV.lt true (f.dec (f.minmax true a b)) (f.dec y) = false) ∧
    (f.minmax false 0 f.signBit = f.signBit ∧ f.minmax true f.signBit 0 = 0) ∧
    ((f.dec a = .nan ∨ f.dec b = .nan) → ∀ c < 16, f.cmp c a b = (c == 1 || c == 10)) ∧
    (f.dec a ≠ .nan → f.dec b ≠ .nan →
      f.cmp 10 a b = false ∧ f.cmp 1 a b = !f.cmp 0 a b ∧ f.cmp 3 a b = (f.cmp 2 a b || f.cmp 0 a b) ∧
      f.cmp 5 a b = (f.cmp 4 a b || f.cmp 0 a b) ∧ f.cmp 4 a b = f.cmp 2 b a ∧
      (f.cmp 2 a b, f.cmp 0 a b, f.cmp 4 a b) ∈ [(true, false, false), (false, true, false), (false, false, true)])

/-- R79 to R83: a value that the format holds is rounded to itself, in every mode and under every overflow policy: each bit pattern
that is not a NaN is the rounding of the exact value it stands for, in all six formats. -/
def Sys2Proof.Spec.RepresentableValuesStay : Prop :=
  ∀ f ∈ [fF64, fF32, fF16, fBF16, fF8A, fF8B], ∀ (rnd : Nat) (o : Ovf) (x : Nat), rnd ≤ 4 → x < 2 ^ f.width → f.dec x ≠ .nan →
    f.round rnd o (f.dec x) = some x

/-- R82, R126, R127: the packed-half instructions. Each half is rounded once in the format of `FN` bit 0; where no half overflows
under TRAP, `D` takes both; where one does, the thread traps 0x11 and neither half is written. PKCMP combines the compares of its halves. -/
def Obligations.PackedResults : Prop := ∀ (w : W1) (x : ExtA),
  let overflow := fun (i : Instr) (g : Nat → Nat → Nat → Option Nat) =>
    OverflowTraps i x noRoom (fun e t => rd e t w.a.toNat) (halvesFit w x.c g) (pack w x.c g)
  overflow (.pkadd w x) (halfAdd x) ∧ overflow (.pkmul w x) (halfMul x) ∧ overflow (.pkfma w x) (halfFma x) ∧
  LaneOp (.pkadd w x) (halvesOk w x.c (halfAdd x)) (pack w x.c (halfAdd x)) ∧
  LaneOp (.pkmul w x) (halvesOk w x.c (halfMul x)) (pack w x.c (halfMul x)) ∧
  LaneOp (.pkfma w x) (halvesOk w x.c (halfFma x)) (pack w x.c (halfFma x)) ∧
  LaneOp (.pkmin w x) always (pack w x.c (fun a b _ => some ((halfFmt x.fn.toNat).minmax false a b))) ∧
  LaneOp (.pkmax w x) always (pack w x.c (fun a b _ => some ((halfFmt x.fn.toNat).minmax true a b))) ∧
  LaneOp (.pkcmp w x) always (cmpW w (halfCmp x)) ∧
  (x.ovf ≠ 3 → ∀ (s : State) (e : Env) (t : Thread),
    halvesOk w x.c (halfAdd x) s e t ∧ halvesOk w x.c (halfMul x) s e t ∧ halvesOk w x.c (halfFma x) s e t)

namespace Sys2Proof.Spec

/-- A conversion's scale byte and its poison (R130). -/
def scaleVal (e : Env) (t : Thread) (x : ExtA) : Option Nat :=
  if x.c = 120 then none else some (((srcW e t x.c).extractLsb' (8 * x.bsel.toNat) 8).toNat)
def scalePois (e : Env) (t : Thread) (x : ExtA) : Pois := if x.c = 120 then .clean else srcP e t x.c

/-- The conversion of one element by R130 and R131. -/
def element (x : ExtA) (sc : Option Nat) (a : Nat) : Option Nat :=
  let dst := cvtDst x.fn
  let src := cvtSrc x.fn
  convert dst x.rnd.toNat x.ovf.toNat sc (fmtBits dst < fmtBits src) (fmtDec src a)

/-- The source of CVT: a pair, a register, or its low bits (R132). -/
def cvtSource (w : W1) (x : ExtA) (e : Env) (t : Thread) : Nat :=
  let src := cvtSrc x.fn
  if fmtBits src = 64 then (srcD e t w.a).toNat else (srcW e t w.a).toNat % 2 ^ fmtBits src
def cvtPois (w : W1) (x : ExtA) (e : Env) (t : Thread) : Pois :=
  if fmtBits (cvtSrc x.fn) = 64 then srcDP e t w.a else srcP e t w.a

/-- The destination of CVT filled to its registers: sign-extended for S8 and S16 (R132). -/
def cvtFill (dst r : Nat) : Nat :=
  match dst with
  | 11 => ((BitVec.ofNat 8 r).signExtend 32).toNat
  | 13 => ((BitVec.ofNat 16 r).signExtend 32).toNat
  | _ => r
/-- Writes a result of a format (R132). -/
def putFmt (t : Thread) (d : BitVec 7) (dst r : Nat) (q : Pois) : Thread :=
  if fmtBits dst = 64 then putD t d (BitVec.ofNat 64 r) q else putW t d (BitVec.ofNat 32 r) q

/-- The elements of CVTN: a register or a half of a pair (R133). -/
def cvtnElems (w : W1) (x : ExtA) (e : Env) (t : Thread) : List Nat :=
  if is8 (cvtDst x.fn) then
    [(srcD e t w.a).toNat % 2 ^ 32, (srcD e t w.a).toNat / 2 ^ 32, (srcD e t w.b).toNat % 2 ^ 32, (srcD e t w.b).toNat / 2 ^ 32]
  else [(srcW e t w.a).toNat, (srcW e t w.b).toNat]
def cvtnPois (w : W1) (x : ExtA) (e : Env) (t : Thread) : Pois :=
  if is8 (cvtDst x.fn) then (srcDP e t w.a).or (srcDP e t w.b) else (srcP e t w.a).or (srcP e t w.b)
/-- The packed elements of a word: four of 8 bits, or two of 16. -/
def cvtwElems (w : W1) (x : ExtA) (e : Env) (t : Thread) : List Nat :=
  let a := srcW e t w.a
  if is8 (cvtSrc x.fn) then (List.range 4).map (fun j => (a.extractLsb' (8 * j) 8).toNat)
  else (List.range 2).map (fun j => (a.extractLsb' (16 * j) 16).toNat)

/-- The entry that a C4 code reads: the book's, with a NaN made canonical (R77). -/
def bookValue (b : Codebook) (c : Nat) : Nat :=
  let x := (b.ents.getD c 0).toNat
  if fBF16.dec x = .nan then 0x7FC0 else x
/-- The codebook slot that a thread's team holds. -/
def bookAt (s : State) (e : Env) (k : BitVec 4) : Option Codebook := (s.teams.get e.team).map (fun tm => tm.books.getD (k.toNat % 8) {})
/-- The poison of a codebook read: the operand's tag where it is poisoned, else a copy of the slot's record in the thread's ring (R137). -/
def withBook (t : Thread) (own : Pois) (b : Codebook) : Thread × Pois :=
  if own.isBad = false ∧ b.pois = true then t.newRec b.record false else (t, own)
/-- Code j of a register (R77). -/
def code4 (a : Word) (j : Nat) : Nat := (a.extractLsb' (4 * j) 4).toNat

/-- The exact value of DOT2 (R138). -/
def dot2Value (x : ExtA) (a b c : Word) : FV :=
  let inp := halfFmt x.fn.toNat
  let prod := fun j => FV.mul (inp.dec (half j a)) (inp.dec (half j b))
  let sum := FV.add x.rnd.toNat (prod 0) (prod 1)
  let y := if x.fn.toNat < 2 then fF32.dec c.toNat else inp.dec (half 0 c)
  FV.add x.rnd.toNat (negIf x.na sum) (negIf x.nc y)
def dot2Round (x : ExtA) (v : FV) : Option Nat :=
  if x.fn.toNat < 2 then fF32.round x.rnd.toNat .ieee v else (halfFmt x.fn.toNat).round x.rnd.toNat (.pol x.ovf.toNat) v

end Sys2Proof.Spec

/-- R130 to R134, R137, R138: conversions of one value, packing and unpacking conversions, codebook reads and the two-term dot
product, where no element overflows under TRAP. -/
def Sys2Proof.Spec.ConversionValues : Prop := ∀ (w : W1) (x : ExtA),
  (cvtSrc x.fn ≠ 10 → LaneOp (.cvt w x) (fun _ e t => (element x (scaleVal e t x) (cvtSource w x e t)).isSome = true) (fun _ e t =>
    putFmt t w.d (cvtDst x.fn) (cvtFill (cvtDst x.fn) ((element x (scaleVal e t x) (cvtSource w x e t)).getD 0))
      ((cvtPois w x e t).or (scalePois e t x)))) ∧
  (cvtSrc x.fn = 10 → LaneOp (.cvt w x)
    (fun s e t => ∃ b, bookAt s e x.cnd = some b ∧
      (convert (cvtDst x.fn) x.rnd.toNat x.ovf.toNat (scaleVal e t x) (fmtBits (cvtDst x.fn) < fmtBits 10)
        (fBF16.dec (bookValue b (code4 (srcW e t w.a) 0)))).isSome = true)
    (fun s e t =>
      let b := (bookAt s e x.cnd).getD {}
      let r := (convert (cvtDst x.fn) x.rnd.toNat x.ovf.toNat (scaleVal e t x) (fmtBits (cvtDst x.fn) < fmtBits 10)
        (fBF16.dec (bookValue b (code4 (srcW e t w.a) 0)))).getD 0
      let y := withBook t (srcP e t w.a) b
      putFmt y.1 w.d (cvtDst x.fn) (cvtFill (cvtDst x.fn) r) (y.2.or (scalePois e t x)))) ∧
  LaneOp (.cvtn w x)
    (fun _ e t => ∀ a ∈ cvtnElems w x e t, (convert (cvtDst x.fn) x.rnd.toNat x.ovf.toNat (scaleVal e t x) true
      (fmtDec (cvtSrc x.fn) a)).isSome = true)
    (fun _ e t =>
      let l := (cvtnElems w x e t).map (fun a => (convert (cvtDst x.fn) x.rnd.toNat x.ovf.toNat (scaleVal e t x) true
        (fmtDec (cvtSrc x.fn) a)).getD 0)
      putW t w.d (BitVec.ofNat 32 (packBits (fmtBits (cvtDst x.fn)) l)) ((cvtnPois w x e t).or (scalePois e t x))) ∧
  LaneOp (.cvtw w x)
    (fun _ e t => ∀ a ∈ cvtwElems w x e t, (convert (cvtDst x.fn) x.rnd.toNat x.ovf.toNat (scaleVal e t x) false
      (fmtDec (cvtSrc x.fn) a)).isSome = true)
    (fun _ e t =>
      let l := (cvtwElems w x e t).map (fun a => (convert (cvtDst x.fn) x.rnd.toNat x.ovf.toNat (scaleVal e t x) false
        (fmtDec (cvtSrc x.fn) a)).getD 0)
      wrN t w.d.toNat (packBits 32 l) ((srcP e t w.a).or (scalePois e t x)) l.length) ∧
  LaneOp (.cblu w x) (fun s e _ => (bookAt s e x.cnd).isSome = true) (fun s e t =>
    let b := (bookAt s e x.cnd).getD {}
    let v := fun j => bookValue b (code4 (srcW e t w.a) j)
    let y := withBook t (srcP e t w.a) b
    if x.fn = 4 then wrN y.1 w.d.toNat (packBits 16 ((List.range 8).map v)) y.2 4
    else wrN y.1 w.d.toNat (v (2 * x.fn.toNat) + 2 ^ 16 * v (2 * x.fn.toNat + 1)) y.2 1) ∧
  LaneOp (.dot2 w x) (fun _ e t => (dot2Round x (dot2Value x (srcW e t w.a) (srcW e t w.b) (srcW e t x.c))).isSome = true)
    (ter w x.c (fun a b c => BitVec.ofNat 32 ((dot2Round x (dot2Value x a b c)).getD 0)))

/-- R82, R344: the conversions and DOT2 where an element overflows under TRAP. -/
def Sys2Proof.Spec.ConversionOverflows : Prop := ∀ (w : W1) (x : ExtA),
  let dst := cvtDst x.fn
  let src := cvtSrc x.fn
  let one := fun (narrows : Bool) (e : Env) (t : Thread) (a : Nat) =>
    convert dst x.rnd.toNat x.ovf.toNat (scaleVal e t x) narrows (fmtDec src a)
  let entry := fun (s : State) (e : Env) (t : Thread) =>
    convert dst x.rnd.toNat x.ovf.toNat (scaleVal e t x) (fmtBits dst < fmtBits 10)
      (fBF16.dec (bookValue ((bookAt s e x.cnd).getD {}) (code4 (srcW e t w.a) 0)))
  (src ≠ 10 → OverflowTraps (.cvt w x) x noRoom (fun e t => rdN e t w.a.toNat (fmtRegs src))
    (fun _ e t => (element x (scaleVal e t x) (cvtSource w x e t)).isSome)
    (fun _ e t => putFmt t w.d dst (cvtFill dst ((element x (scaleVal e t x) (cvtSource w x e t)).getD 0))
      ((cvtPois w x e t).or (scalePois e t x)))) ∧
  (src = 10 → OverflowTraps (.cvt w x) x
    (fun s f z => ∀ pl t, Runs s (.cvt w x) f z pl t → (bookAt s (envOf s pl t) x.cnd).isSome = true)
    (fun e t => rdN e t w.a.toNat (fmtRegs src)) (fun s e t => (entry s e t).isSome)
    (fun s e t =>
      let y := withBook t (srcP e t w.a) ((bookAt s e x.cnd).getD {})
      putFmt y.1 w.d dst (cvtFill dst ((entry s e t).getD 0)) (y.2.or (scalePois e t x)))) ∧
  OverflowTraps (.cvtn w x) x noRoom (fun e t => rdN e t w.a.toNat (if is8 dst then 2 else 1))
    (fun _ e t => (cvtnElems w x e t).all (fun a => (one true e t a).isSome))
    (fun _ e t => putW t w.d (BitVec.ofNat 32 (packBits (fmtBits dst) ((cvtnElems w x e t).map (fun a => (one true e t a).getD 0))))
      ((cvtnPois w x e t).or (scalePois e t x))) ∧
  OverflowTraps (.cvtw w x) x noRoom (fun e t => rd e t w.a.toNat)
    (fun _ e t => (cvtwElems w x e t).all (fun a => (one false e t a).isSome))
    (fun _ e t => wrN t w.d.toNat (packBits 32 ((cvtwElems w x e t).map (fun a => (one false e t a).getD 0)))
      ((srcP e t w.a).or (scalePois e t x)) (cvtwElems w x e t).length) ∧
  OverflowTraps (.dot2 w x) x noRoom (fun e t => rd e t w.a.toNat)
    (fun _ e t => (dot2Round x (dot2Value x (srcW e t w.a) (srcW e t w.b) (srcW e t x.c))).isSome)
    (ter w x.c (fun a b c => BitVec.ofNat 32 ((dot2Round x (dot2Value x a b c)).getD 0)))

/-- R82, R130 to R134, R137, R138: conversions, codebook reads and DOT2, and their overflow under TRAP. -/
def Obligations.ConversionResults : Prop := ConversionValues ∧ ConversionOverflows

/-- R121 to R125: the results of the F32 and F64 instructions. -/
def Obligations.FloatResults : Prop := FloatArithmetic ∧ FloatSelection

/-- R69 to R84: special operands and results of the float arithmetic, and values that a format holds. -/
def Obligations.FloatSpecials : Prop := FloatSpecialCases ∧ RepresentableValuesStay

/-! ### Across lanes (R85, R167 to R176), and poison (R339) -/

namespace Sys2Proof.Spec

/-- The participant that stands at home lane `l` (R167). -/
def partAt (i : Instr) (s : State) (l : Nat) : Option (Env × Thread) := (participants i s).find? (fun p => p.1.lane == l)

/-- Writes n registers with a value read from the participant at lane `l`, with its poison: a copy of its record where it stands at
another lane (R168), then `q`. -/
def receive (e : Env) (t : Thread) (src : Env × Thread) (d : BitVec 7) (n : Nat) (v : Nat × Pois) (q : Pois) : Thread :=
  if src.1.lane = e.lane then wrN t d.toNat v.1 (v.2.or q) n
  else
    let y := takePois t .clean [(src.2, v.2)]
    wrN y.1 d.toNat v.1 (y.2.or q) n

/-- The lane that SHFL names, where there is one (R169). -/
def shuffleFrom (fn : BitVec 8) (l n : Nat) : Option Nat :=
  match fn.toNat % 4 with
  | 0 => if n ≤ 31 then some n else none
  | 1 => if n ≤ l then some (l - n) else none
  | 2 => if l + n ≤ 31 then some (l + n) else none
  | _ => if l ^^^ n ≤ 31 then some (l ^^^ n) else none

/-- The participants' predicates: the poison of all of them (R171, R173), and the lanes where it is true. -/
def predPoison (i : Instr) (s : State) (t : Thread) (c : BitVec 4) : Thread × Pois :=
  takePois t (rdPred t c.toNat).2 ((participants i s).map (fun p => (p.2, (rdPred p.2 c.toNat).2)))
def trueLanes (i : Instr) (s : State) (c : BitVec 4) : List Nat :=
  ((participants i s).filter (fun p => (rdPred p.2 c.toNat).1)).map (fun p => p.1.lane)
def lanesMask (l : List Nat) : Nat := (l.map (fun j => 2 ^ j)).sum

/-- The set of a lane in a segmented form (R175): every participant that no segment head above the lower of the two separates. -/
def inSegment (heads : List Nat) (l j : Nat) : Bool := heads.all (fun h => !(decide (min l j < h) && decide (h ≤ max l j)))

/-- The result of a reduction for one lane over the members that `keep` admits: the fixed tree over the 32 lane positions, or the
identity (R85, R176). -/
def reduce (i : Instr) (w : W1) (x : ExtA) (keep : Nat → Nat → Bool) (s : State) (e : Env) (t : Thread) : Thread :=
  let op := x.fn.toNat % 8
  let ty := redType x.fn
  let n := typeRegs ty
  let seg := x.cnd.toNat < 12
  let heads := if seg then trueLanes i s x.cnd else []
  let members := (participants i s).filter (fun p => keep e.lane p.1.lane && inSegment heads e.lane p.1.lane)
  let leaf := fun j => (members.find? (fun p => p.1.lane == j)).map (fun p => (rdN p.1 p.2 w.a.toNat n).1)
  let r := (tree (redCombine op ty) ((List.range 32).map leaf)).getD (redIdentity op ty)
  let own := match members.find? (fun p => p.1.lane == e.lane) with | some p => (rdN p.1 p.2 w.a.toNat n).2 | none => .clean
  let y := takePois2 t e.lane own (members.map (fun p => (p.1.lane, p.2, (rdN p.1 p.2 w.a.toNat n).2)))
    (if seg then (rdPred t x.cnd.toNat).2 else .clean)
    (if seg then (participants i s).map (fun p => (p.1.lane, p.2, (rdPred p.2 x.cnd.toNat).2)) else [])
  wrN y.1 w.d.toNat r y.2 n

end Sys2Proof.Spec

/-- R168 to R176: what each cross-lane instruction writes, from the participants' operands before the instruction. -/
def Obligations.CrossLaneResults : Prop := ∀ (w : W1) (x : ExtA),
  LaneOp (.shfl w x) always (fun s e t =>
    let n := if x.fn.toNat < 4 then 1 else 2
    let b := rd e t w.b.toNat
    match (shuffleFrom x.fn e.lane b.1).bind (partAt (.shfl w x) s) with
    | some src => receive e t src w.d n (rdN src.1 src.2 w.a.toNat n) b.2
    | none => receive e t (e, t) w.d n (rdN e t w.a.toNat n) b.2) ∧
  LaneOp (.xgath w x) always (fun s e t =>
    let b := srcW e t w.b
    let o := (b.extractLsb' 5 6).toNat
    let src := if b.extractLsb' 11 21 = 0 ∧ o < x.fn.toNat then partAt (.xgath w x) s (b.extractLsb' 0 5).toNat else none
    match src with
    | some src => receive e t src w.d 1 (rd src.1 src.2 (w.a.toNat + o)) (srcP e t w.b)
    | none => putW t w.d 0 (srcP e t w.b)) ∧
  LaneOp (.vote w x) always (fun s _ t =>
    let y := predPoison (.vote w x) s t x.cnd
    let on := trueLanes (.vote w x) s x.cnd
    if x.fn = 0 then wrPair y.1 w.d.toNat (decide (on ≠ [])) y.2
    else if x.fn = 1 then wrPair y.1 w.d.toNat (decide (on.length = (participants (.vote w x) s).length)) y.2
    else putW y.1 w.d (BitVec.ofNat 32 (lanesMask on)) y.2) ∧
  LaneOp (.matchLanes w x) always (fun s e t =>
    let n := if x.fn = 1 then 2 else 1
    let ps := participants (.matchLanes w x) s
    let val := fun (p : Env × Thread) => rdN p.1 p.2 w.a.toNat n
    let y := takePois t (val (e, t)).2 (ps.map (fun p => (p.2, (val p).2)))
    putW y.1 w.d (BitVec.ofNat 32 (lanesMask ((ps.filter (fun p => (val p).1 == (val (e, t)).1)).map (fun p => p.1.lane)))) y.2) ∧
  LaneOp (.compact w x) always (fun s e t =>
    let y := predPoison (.compact w x) s t x.cnd
    let on := trueLanes (.compact w x) s x.cnd
    wrN y.1 w.d.toNat ((on.filter (· < e.lane)).length + 2 ^ 32 * on.length) y.2 2) ∧
  LaneOp (.redx w x) always (reduce (.redx w x) w x (fun _ _ => true)) ∧
  LaneOp (.scanx w x) always (reduce (.scanx w x) w x (fun l j => if x.fn.toNat.testBit 3 then decide (j < l) else decide (j ≤ l)))

/-- R85: whatever leaves are absent, the fixed tree of an associative operation gives that operation over the leaves that are
present, in lane order; with none present it gives nothing. -/
def Obligations.ReductionTree : Prop :=
  ∀ (f : Nat → Nat → Nat), (∀ a b c, f (f a b) c = f a (f b c)) → ∀ leaves : List (Option Nat), leaves.length = 32 →
    tree f leaves = (leaves.filterMap id).foldr (fun a r => some (match r with | none => a | some b => f a b)) none

/-- What a new record of thread `t`, now `u`, makes of one poison: it is clean where it was; a tag that named the overwritten place is lost, and any other
still names its record (R339). -/
def Sys2Proof.Spec.TagKept (t u : Thread) (old new : Pois) : Prop :=
  new.isBad = old.isBad ∧ ∀ (tag : BitVec 2) (l : Bool), old = .bad tag l →
    (tag.toNat = t.ringNext → (u.recOf new).2 = true) ∧ (tag.toNat ≠ t.ringNext → new = .bad tag l ∧ u.recOf (.bad tag l) = t.recOf (.bad tag l))

/-- R339: a new record takes the next place of the ring. The tag made names it; of registers and predicates, tags that named the overwritten place are
lost, every other tag still names its record, and all keep their values and stay clean where they were. -/
def Sys2Proof.Spec.NewRecord : Prop :=
  ∀ (t : Thread) (r : FRec) (lost : Bool), t.ring.length = 4 → t.ringNext < 4 →
    let y := t.newRec r lost
    y.2 = .bad (BitVec.ofNat 2 t.ringNext) lost ∧ y.1.recOf y.2 = (r, lost) ∧ y.1.ringNext = (t.ringNext + 1) % 4 ∧
    y.1.v.map (fun x => x.val) = t.v.map (fun x => x.val) ∧ y.1.k.map (fun x => x.val) = t.k.map (fun x => x.val) ∧
    y.1.p.map (fun x => x.val) = t.p.map (fun x => x.val) ∧
    (∀ c, c < t.v.length → TagKept t y.1 (t.v.getD c {}).pois (y.1.v.getD c {}).pois) ∧
    (∀ c, c < t.k.length → TagKept t y.1 (t.k.getD c {}).pois (y.1.k.getD c {}).pois) ∧
    (∀ c, c < t.p.length → TagKept t y.1 (t.p.getD c {}).pois (y.1.p.getD c {}).pois)

/-- R40, R41, R97, R339: what writing registers and making a fault record change. -/
def Obligations.RegistersAndRecords : Prop := RegisterWrite ∧ NewRecord

/-! ### Special values and control (R53, R117, R156 to R165, R222) -/

namespace Sys2Proof.Spec

/-- The special values of R53 by function, for a thread of a user team. -/
def special (s : State) (e : Env) (t : Thread) (tm : Team) (f : Nat) : Nat :=
  match f with
  | 0 => e.tix % tm.pkt.gx
  | 1 => e.tix / tm.pkt.gx % tm.pkt.gy
  | 2 => e.tix / tm.pkt.gx / tm.pkt.gy
  | 3 => e.tix
  | 4 => tm.pkt.gx
  | 5 => tm.pkt.gy
  | 6 => tm.pkt.gz
  | 7 => e.core
  | 8 => e.core / 4
  | 9 => e.core / 48
  | 10 => e.asid
  | 11 => e.gslot
  | 12 => (tm.crewOf e.gid).getD 0xFFFFFFFF
  | 13 => if tm.pkt.gang ≤ 1 then 0 else e.tix % tm.pkt.gang
  | 14 => e.budget
  | 15 => e.scru
  | 16 => tm.pkt.args
  | 17 => if s.feature 2 then s.window else 0
  | _ => ((List.range 12).map (fun k => (t.p.getD k {}).val.toNat * 2 ^ k)).sum
      + 2 ^ 16 * ((List.range 12).map (fun k => (t.p.getD k {}).pois.isBad.toNat * 2 ^ k)).sum

/-- The special values of a thread of the supervisor group (R117). -/
def specialSup (s : State) (e : Env) (t : Thread) (f : Nat) : Nat :=
  match f with
  | 7 => e.core
  | 8 => e.core / 4
  | 9 => e.core / 48
  | 11 => e.gslot
  | 12 => 0xFFFFFFFF
  | 14 => e.budget
  | 15 => e.scru
  | 17 => if s.feature 2 then s.window else 0
  | 18 => special s e t default 18
  | _ => 0

/-- The thread's next address. -/
def goTo (t : Thread) (a : DWord) : Thread := { t with next := some a }
/-- The run being issued: its header's address and its fall-through address (R156). -/
def runStart (s : State) : DWord := BitVec.ofNat 64 s.runHdr
def runAfter (s : State) : DWord := BitVec.ofNat 64 s.runHdr + 4 * (BitVec.ofNat 64 s.runCount + 1)
/-- The pair `A` holds no poison (R157). -/
def cleanPair (w : W1) (_ : State) (e : Env) (t : Thread) : Prop := (srcDP e t w.a).isBad = false

end Sys2Proof.Spec

/-- R53, R117: what RDSP writes, unpoisoned, for a user thread and for a thread of the supervisor group. -/
def Sys2Proof.Spec.SpecialValues : Prop := ∀ w : W1,
  LaneOp (.rdsp w) always (fun s e t =>
    let v := if e.sup then specialSup s e t w.b.toNat else special s e t ((s.teams.get e.team).getD default) w.b.toNat
    if w.b = 3 ∨ w.b = 16 ∨ w.b = 17 then putD t w.d (BitVec.ofNat 64 v) .clean else putW t w.d (BitVec.ofNat 32 v) .clean)

/-- R156, R158, R222: the next address of each thread that takes a branch, a call or a return, the return address, EXIT's mark and
SLEEPT's wake time. The targets in a pair are those of a clean pair. -/
def Sys2Proof.Spec.BranchTargets : Prop := ∀ (w : W1) (imm : Word),
  LaneOp (.bra w imm) always (fun s _ t => goTo t (runStart s + imm.signExtend 64)) ∧
  LaneOp (.brx w) (cleanPair w) (fun _ e t => goTo t (srcD e t w.a)) ∧
  LaneOp (.call w imm) always (fun s _ t => goTo (putD t w.d (runAfter s) .clean) (runStart s + imm.signExtend 64)) ∧
  LaneOp (.callx w) (cleanPair w) (fun s e t => goTo (putD t w.d (runAfter s) .clean) (srcD e t w.a)) ∧
  LaneOp (.ret w) (cleanPair w) (fun _ e t => goTo t (srcD e t w.a)) ∧
  LaneOp (.exit w) always (fun _ _ t => { t with exiting := true }) ∧
  LaneOp (.sleept w) (cleanPair w) (fun _ e t => { t with wake := max t.wake (srcD e t w.a).toNat })

/-- R22, R30, R94, R156, R158: the end of a run. Each thread of the issue group that executed EXIT has exited; every other one stands at
its branch target or at the fall-through address with k0 to k7 zero, its FWAITs in force and parked where the header says so. Other
threads, the teams, the memory and the outstanding operations stay; the scheduler is free.
The model's own choice here: what a thread that was resumed in the middle of a run keeps (log 66). -/
def Obligations.RunEnds : Prop :=
  ∀ (s : State) (sched len : Nat) (x : Issue), s.issues.get sched = some x → x.stall = false → x.lanes ≠ [] → x.lanes.Nodup →
    x.count ≤ x.wix + len →
    let s' := afterWord s sched len
    s'.issues.get sched = none ∧ s'.mem = s.mem ∧ s'.teams = s.teams ∧ s'.ops = s.ops ∧ s'.mod = s.mod ∧
    (∀ pl, pl ∉ x.lanes → s'.threads.get pl = s.threads.get pl) ∧
    ∀ pl ∈ x.lanes, ∀ t, s.threads.get pl = some t → t.st ≠ .exited →
      ∃ t', s'.threads.get pl = some t' ∧ t'.v = t.v ∧ t'.p = t.p ∧ t'.ring = t.ring ∧
        (t.exiting = true → t'.st = .exited) ∧
        (t.exiting = false → t'.st = .ready ∧ t'.pc = t.next.getD (BitVec.ofNat 64 x.hdr + 4 * (BitVec.ofNat 64 x.count + 1)) ∧
          t'.k = List.replicate 8 {} ∧ t'.waits = t.waits ++ t.newWaits.map (·.from s t.team) ∧ t'.park = x.park ∧ t'.wake = t.wake ∧ t'.bar = t.bar)

/-- R24, R145: an issue group has at most one thread in each home lane, in rising lane; each belongs to the candidate and is eligible;
and every lane where the candidate has an eligible thread is filled. -/
def Sys2Proof.Spec.IssueGroupFormed : Prop :=
  ∀ (s : State) (x : Entry),
    (issueGroup s x).Pairwise (fun a b => placeLane a < placeLane b) ∧
    (∀ pl ∈ issueGroup s x, pl ∈ x.members ∧ eligible s x pl = true) ∧
    (∀ pl ∈ x.members, eligible s x pl = true → ∃ q ∈ issueGroup s x, placeLane q = placeLane pl)

/-- R24: of several threads that could stand in one lane of an issue group, the one that has waited longest stands there, of equals the one of the lower
gid. R142: a scheduler prefers the supervisor group, until it has issued 15 of its runs in a row with a user candidate there; of user candidates it takes
the highest class, then the earliest ready time, then the first leading slot from its pointer on. -/
def Sys2Proof.Spec.ChoiceOrder : Prop :=
  (∀ (s : State) (x : Entry), ∀ pl ∈ issueGroup s x, ∀ q ∈ x.members, eligible s x q = true → placeLane q = placeLane pl →
    ∀ t u, s.threads.get pl = some t → s.threads.get q = some u → t.since < u.since ∨ (t.since = u.since ∧ t.gid ≤ u.gid)) ∧
  ∀ (s : State) (sc : Sched) (cs : List Cand),
    let at0 := fun (c : Cand) => c.entry.ready.getD s.mod.now
    let turn := fun (c : Cand) => (c.slot + 12 - sc.ptr) % 12
    ((∃ c ∈ cs, c.sup = true) → (sc.sups < 15 ∨ ∀ c ∈ cs, c.sup = true) → ∃ c, chosen s sc cs = some c ∧ c ∈ cs ∧ c.sup = true) ∧
    ((∃ c ∈ cs, c.sup = false) → (15 ≤ sc.sups ∨ ∀ c ∈ cs, c.sup = false) → ∃ c, chosen s sc cs = some c ∧ c ∈ cs ∧ c.sup = false) ∧
    (∀ c, chosen s sc cs = some c → c.sup = false → (∀ d ∈ cs, d.entry.cls ≤ 3 ∧ at0 d < 2 ^ 120) →
      ∀ d ∈ cs, d.sup = false → d.entry.cls ≤ c.entry.cls ∧ (d.entry.cls = c.entry.cls → at0 c ≤ at0 d ∧ (at0 c = at0 d → turn c ≤ turn d)))

namespace Sys2Proof.Spec

/-- The scope, the barrier id and the instance of a BAR (R159). -/
def barId (x : ExtE) : Nat := (x.imm.extractLsb' 0 4).toNat
def barScope (x : ExtE) : Nat := (x.fn.extractLsb' 2 2).toNat
def barInst (s : State) (e : Env) (x : ExtE) : Nat := barKey s e (barId x) (barScope x)

/-- Every thread of the issue group is a user thread that executes the BAR, belongs to a team and lies in the BAR's scope; at most one thread stands in each home lane (R24), and
operation numbers are fresh. -/
structure AtBar (s : State) (i : Instr) (f : Info) (x : Issue) (y : ExtE) : Prop where
  all : ∀ pl ∈ x.lanes, isSup pl = false ∧ ∃ t, s.threads.get pl = some t ∧ gate s i f (envOf s pl t) t = .run ∧ inScope s (envOf s pl t) (barScope y) = true ∧
    ∃ tm, s.teams.get t.team = some tm
  lanes : (x.lanes.map placeLane).Nodup
  ops : ∀ e ∈ s.ops, e.1 < s.serial

/-- BAR of a form completes its issue: only waits, arrivals and their tokens, the clocks that they pass on (log 77) and release operations
change. A thread that need not wait becomes what `go` says. A thread that arrives at once takes the instance's phase as its token for the id. -/
def BarOp (i : Instr) (y : ExtE) (wait : State → Env → Thread → Option Bool) (go : State → Nat → Thread → Thread) (arrives : Bool) : Prop :=
  ∀ (s : State) (f : Info) (x : Issue), AtWord s i f x → AtBar s i f x y →
    ∃ s', exec i s = .next s' ∧ s' = { s with threads := s'.threads, teams := s'.teams, ops := s'.ops, serial := s'.serial } ∧
      (∀ k tm, s.teams.get k = some tm → ∃ tm', s'.teams.get k = some tm' ∧ tm' = { tm with bars := tm'.bars, rel := tm'.rel }) ∧
      (∀ pl, pl ∉ x.lanes → s'.threads.get pl = s.threads.get pl) ∧
      ∀ pl ∈ x.lanes, ∀ t, s.threads.get pl = some t → ∃ t', s'.threads.get pl = some t' ∧
        (match wait s (envOf s pl t) t with
          | none => t' = { go s pl t with toks := t'.toks }
          | some first => ∃ b, t' = { t with bar := some b, toks := t'.toks } ∧ b.first = first ∧ b.id = barId y ∧ b.scope = barScope y ∧
              b.inst = barInst s (envOf s pl t) y ∧ b.pc = x.hdr + 4 * (x.wix + 1) ∧ b.hdr = x.hdr ∧ b.word = x.wix) ∧
        (arrives = false ∨ hasArrived s pl t (barInst s (envOf s pl t) y) = true → t'.toks = t.toks) ∧
        (arrives = true → hasArrived s pl t (barInst s (envOf s pl t) y) = false →
          hasArrived s' pl t' (barInst s (envOf s pl t) y) = true ∧
          (t'.toks = t.toks ∧ (∃ k o, s'.ops.get k = some o ∧ o.th = pl ∧ o.kind = .barRel (barInst s (envOf s pl t) y)) ∨
            t'.toks = t.toks.put (barId y) (phaseOf s t (barInst s (envOf s pl t) y))))

end Sys2Proof.Spec

/-- R160: a thread that has not arrived in the open phase arrives at SYNC and ARRIVE (at once, or with its release), and waits at SYNC
for the phase; one that has arrived waits for the phase first. At WAIT a thread waits while its token for the id, which its latest arrival there
left, is not below the phase of the instance, or while such an arrival is on its way; another goes on, having acquired at team scope.
The model's own choices here: whose token a wait compares (log 27), and what an acquire takes on (log 77). -/
def Obligations.Barriers : Prop := ∀ (w : W1) (y : ExtE),
  let arrived := fun (s : State) (e : Env) (t : Thread) => hasArrived s e.pl t (barInst s e y)
  let waits := fun (s : State) (e : Env) (t : Thread) =>
    (∃ k o, s.ops.get k = some o ∧ o.th = e.pl ∧ ∃ j, o.kind = .barRel j ∧ j / 16 = barId y) ∨
      ∃ n, t.toks.get (barId y) = some n ∧ phaseOf s t (barInst s e y) ≤ n
  (∀ s e t, Rising s.ops → (barWaits s e.pl t (barInst s e y) = true ↔ waits s e t)) ∧
  BarOp (.barSync w y) y (fun s e t => some (arrived s e t)) (fun _ _ t => t) true ∧
  BarOp (.barArrive w y) y (fun s e t => if arrived s e t then some true else none) (fun _ _ t => t) true ∧
  BarOp (.barWait w y) y (fun s e t => if barWaits s e.pl t (barInst s e y) then some false else none) (fun s pl t => t.acquire s pl 1) false

/-- R159, R160, R284: a phase of an instance completes exactly where some live thread of its expected set has arrived, all of them have,
and no multicast arrival is owed; its number then rises by one and its set of arrivals empties. -/
def Sys2Proof.Spec.BarrierPhase : Prop :=
  ∀ (s : State) (k : Nat) (tm : Team) (key : Nat) (b : Barrier), s.teams.get k = some tm → tm.bars.get key = some b →
    ∃ tm', (phaseSettle s).teams.get k = some tm' ∧ tm' = { tm with bars := tm'.bars } ∧
      let live := (barPlaces tm key).filter s.live
      let here := fun pl => ∃ t, s.threads.get pl = some t ∧ tidOf pl t ∈ b.arrived
      (b.owed = 0 ∧ live ≠ [] ∧ (∀ pl ∈ live, here pl) → tm'.bars.get key = some { b with phase := b.phase + 1, arrived := [] }) ∧
      (¬ (b.owed = 0 ∧ live ≠ [] ∧ ∀ pl ∈ live, here pl) → tm'.bars.get key = some b)

/-- R161: where the guard of a BAR is true for some threads of the issue group and false for others, and none meets another defect,
every thread traps 0x06 with the mask of the true guards, and no thread arrives or waits. -/
def Sys2Proof.Spec.BarMixedGuards : Prop :=
  ∀ (w : W1) (y : ExtE) (form : Fin 3) (s : State) (f : Info) (x : Issue),
    let i : Instr := match form with | 0 => .barSync w y | 1 => .barArrive w y | _ => .barWait w y
    AtWord s i f x → NoTrap s i f x → f.enc = true → (∀ pl ∈ x.lanes, isSup pl = false) →
    (∃ pl ∈ x.lanes, ∃ t, s.threads.get pl = some t ∧ gate s i f (envOf s pl t) t = .run) →
    (∃ pl ∈ x.lanes, ∃ t, s.threads.get pl = some t ∧ gate s i f (envOf s pl t) t = .skip) →
    ∃ s' mask, exec i s = .next s' ∧ s'.teams = s.teams ∧ s'.ops = s.ops ∧
      ∀ pl ∈ x.lanes, ∀ t, s.threads.get pl = some t → ∃ t', s'.threads.get pl = some t' ∧ t'.st = .susp ∧ t'.bar = t.bar ∧
        (∃ sp, t'.susp = some sp ∧ sp.code = 0x06 ∧ sp.detail = mask ∧ sp.pos = some (x.hdr, x.wix)) ∧
        ((x.lanes.map placeLane).Nodup → (mask.testBit (placeLane pl) = true ↔ gate s i f (envOf s pl t) t = .run))

/-- R165: TRAP with a clean operand traps every thread that executes it with code 0x17, the immediate and the operand in its record; a
poisoned operand traps 0x05 instead. No other thread changes, and no memory. -/
def Sys2Proof.Spec.TrapInstruction : Prop :=
  ∀ (w : W1) (y : ExtE) (s : State) (f : Info) (x : Issue), AtWord s (.trap w y) f x → NoTrap s (.trap w y) f x →
    (∀ pl ∈ x.lanes, isSup pl = false) →
    ∃ s', exec (.trap w y) s = .next s' ∧ s'.mem = s.mem ∧ s'.teams = s.teams ∧ s'.ops = s.ops ∧
      (∀ pl, (∀ t, ¬ Runs s (.trap w y) f x pl t) → s'.threads.get pl = s.threads.get pl) ∧
      ∀ pl t, Runs s (.trap w y) f x pl t → ∃ t' sp, s'.threads.get pl = some t' ∧ t' = { t with st := .susp, next := none, susp := some sp } ∧
        sp.pos = some (x.hdr, x.wix) ∧ (∃ z, s'.issues.get s.cur = some z ∧ pl ∉ z.lanes) ∧
        ((srcP (envOf s pl t) t w.a).isBad = false →
          sp.code = 0x17 ∧ sp.detail = y.imm.toNat ∧ sp.payload = bytesOf (srcW (envOf s pl t) t w.a).toNat 4) ∧
        ((srcP (envOf s pl t) t w.a).isBad = true → sp.code = 0x05)

/-- R53, R117, R156, R158, R222: RDSP and the control instructions. -/
def Obligations.SpecialAndControl : Prop := SpecialValues ∧ BranchTargets

/-- R24, R94, R142, R145: how an issue group forms, which candidate a scheduler chooses, and how the run starts.
The model's own choice here: that the words are fetched when the run is chosen (log 6). -/
def Obligations.IssueGroups : Prop := ChooseRunIssues ∧ IssueGroupFormed ∧ ChoiceOrder

/-- R159 to R161, R284: when a phase of a barrier completes, and what mixed guards do. -/
def Obligations.BarrierPhases : Prop := BarrierPhase ∧ BarMixedGuards


/-! ### Long-latency instructions (R99, R100, R120, R200, R203, R212 to R222, R250, R262 to R270) -/

namespace Sys2Proof.Spec

/-- The operations outstanding are earlier than the instruction being issued, and none is one of its own. -/
def FreshOps (s : State) : Prop := ∀ e ∈ s.ops, e.1 < s.serial ∧ e.2.batch ≠ s.batch

/-- Instruction `i` completes its issue and each thread that executes it issues one operation, which `o` describes: it is counted on
`slot` of the thread's group, once for the whole instruction, its destination registers become pending, and the thread becomes what
`g` says. Earlier operations, other threads, other groups, the memories and the rest of the state stay. While the slot is full for a participating group, the scheduler holds at the word and nothing else happens (R99). -/
def Issues (i : Instr) (slot : BitVec 3) (ok : State → Env → Thread → Prop) (g : State → Env → Thread → Thread)
    (o : State → Env → Thread → Op → Prop) : Prop :=
  (∀ (s : State) (f : Info) (x : Issue), AtWord s i f x → FreshOps s → slotFull i s slot.toNat = true → exec i s = .next s.stallIssue) ∧
  ∀ (s : State) (f : Info) (x : Issue), AtWord s i f x → NoTrap s i f x → FreshOps s → slotFull i s slot.toNat = false →
    (∀ pl t, Runs s i f x pl t → ok s (envOf s pl t) t) →
    ∃ s', exec i s = .next s' ∧
      s' = { s with threads := s'.threads, ops := s'.ops, groups := s'.groups, serial := s'.serial } ∧
      (∀ pl t, Runs s i f x pl t → ∃ k y, s.serial ≤ k ∧ k < s'.serial ∧ s'.ops.get k = some y ∧ o s (envOf s pl t) t y ∧
        y.th = pl ∧ y.slot = some slot.toNat ∧ y.batch = s.batch ∧ y.grps = [placeGroup pl] ∧
        s'.threads.get pl = some ((g s (envOf s pl t) t).addPend y.dst y.nd)) ∧
      (∀ pl, (∀ t, ¬ Runs s i f x pl t) → s'.threads.get pl = s.threads.get pl) ∧
      (∀ k, k < s.serial → s'.ops.get k = s.ops.get k) ∧
      (∀ k y, s.serial ≤ k → s'.ops.get k = some y → ∃ t, Runs s i f x y.th t) ∧
      (∀ gr z, s.groups.get gr = some z →
        ((∃ pl t, Runs s i f x pl t ∧ placeGroup pl = gr) →
          s'.groups.get gr = some { z with sb := z.sb.set slot.toNat (z.sb.getD slot.toNat 0 + 1) }) ∧
        ((∀ pl t, Runs s i f x pl t → placeGroup pl ≠ gr) → s'.groups.get gr = some z))

/-- Nothing of a thread changes but its pending marks. -/
def same (_ : State) (_ : Env) (t : Thread) : Thread := t

/-- The instruction has nothing to do for any thread that executes it: the state stays. -/
def Idles (i : Instr) (slot : BitVec 3) (ok : State → Env → Thread → Prop) : Prop :=
  ∀ (s : State) (f : Info) (x : Issue), AtWord s i f x → NoTrap s i f x → slotFull i s slot.toNat = false →
    (∀ pl t, Runs s i f x pl t → ok s (envOf s pl t) t) → exec i s = .next s

/-- The generic address of LD, ST, LDLN, PREF and CFLUSH, and of an atomic (R213, R266). -/
def addrM (e : Env) (t : Thread) (w : W1) (x : ExtM) : Nat := (srcD e t w.a + x.off.signExtend 64).toNat
def addrT (e : Env) (t : Thread) (w : W1) (x : ExtT) : Nat :=
  (srcD e t w.a + x.off.signExtend 64 * BitVec.ofNat 64 (atomSize x.type.toNat)).toNat
/-- The scratchpad offset of LDS and STS (R213). -/
def offM (e : Env) (t : Thread) (w : W1) (x : ExtM) : Nat := (srcW e t w.a + x.off.signExtend 32).toNat
/-- The read count operand (R210). -/
def countM (e : Env) (t : Thread) (w : W1) (x : ExtM) : Nat := if x.cache = 1 then (srcW e t w.b).toNat else 0
def countP (e : Env) (t : Thread) (w : W1) (x : ExtM) : Pois := if x.cache = 1 then srcP e t w.b else .clean

/-- An access meets no range lock (R247). -/
def unlocked (s : State) (e : Env) (r : Except FRec Acc) (akind : Nat) (write : Bool) : Prop :=
  ∀ a, r = .ok a → lockTrap s a (lockAddr s e.who a.va) akind write = none

/-- An ordering access of fabric scope finds the fabric in step and the thread's route kept, or is of a narrower scope (R234, R364). -/
def inStep (s : State) (t : Thread) (scope : BitVec 3) (ordered rel : Bool) : Prop :=
  scope = 3 → ordered = true → s.mod.desync = false ∧ (rel = true → t.routeLost = false)

/-- The check of a load, and its bytes: LDLN is checked as a line and each lane takes its eight bytes (R217, R218). -/
def loadCheck (s : State) (e : Env) (t : Thread) (w : W1) (x : ExtM) : Except FRec Acc :=
  checkAcc s e.who (addrM e t w x) (2 ^ x.size.toNat) 0 0 (2 ^ x.size.toNat) x.cache.toNat (countM e t w x)
def lineCheck (s : State) (e : Env) (t : Thread) (w : W1) (x : ExtM) : Except FRec Acc :=
  match checkAcc s e.who (addrM e t w x) 256 0 0 256 x.cache.toNat (countM e t w x) with
  | .error r => .error r
  | .ok a =>
    if peerLost s a = true then .error (a.record 0 0x1A)
    else .ok { a with
      size := 8
      va := a.va + 8 * e.lane
      loc := match a.loc with
        | .scratch tm o => .scratch tm (o + 8 * e.lane)
        | .phys y => .phys (y + 8 * e.lane) }
def ldsCheck (e : Env) (t : Thread) (w : W1) (x : ExtM) : Except FRec Acc :=
  checkScratch e.who (offM e t w x) (2 ^ x.size.toNat) 0 (2 ^ x.size.toNat)

/-- A load that can be issued. -/
def loadOk (s : State) (e : Env) (t : Thread) (w : W1) (x : ExtM) (r : Except FRec Acc) : Prop :=
  (srcDP e t w.a).isBad = false ∧ (countP e t w x).isBad = false ∧
    (windowOf (addrM e t w x) = 1 ∨ inStep s t x.scope (decide (x.sem = 1)) false) ∧ unlocked s e r 0 false

/-- The scope of a load's acquire part: at most the team's for LDS and in the scratchpad window (R212, R237). -/
def acqScope (x : ExtM) (near : Bool) : Option Nat :=
  if x.sem = 1 then some (if near then min x.scope.toNat 1 else x.scope.toNat) else none
/-- The address of a load lies in the scratchpad window. -/
def nearM (e : Env) (t : Thread) (w : W1) (x : ExtM) : Bool := windowOf (addrM e t w x) == 1
/-- What a load does: the checked access, as one of LDLN (`line`) or alone, or the record that will poison the destination (R203, R217). -/
def loadKind (s : State) (line : Bool) (r : Except FRec Acc) : OpKind :=
  match r with
  | .error rec' => .loadBad rec'
  | .ok a => if peerLost s a = true then .loadBad (a.record 0 0x1A) else .load a line none
/-- The operation of a load of n registers. -/
def loadOp (n : Nat) (line : Bool) (acq : Option Nat) (w : W1) (s : State) (e : Env) (r : Except FRec Acc) (y : Op) : Prop :=
  y.ths = [e.pl] ∧ y.dst = w.d.toNat ∧ y.nd = n ∧ y.acq = acq ∧ y.rel = none ∧ y.kind = loadKind s line r

/-- The check, the bytes and the conditions of a store (R219). -/
def storeData (e : Env) (t : Thread) (w : W1) (x : ExtM) : List Byte :=
  bytesOf (rdN e t w.b.toNat (sizeRegs x.size.toNat)).1 (2 ^ x.size.toNat)
def stCheck (s : State) (e : Env) (t : Thread) (w : W1) (x : ExtM) : Except FRec Acc :=
  checkAcc s e.who (addrM e t w x) (2 ^ x.size.toNat) 1 1 (2 ^ x.size.toNat) x.cache.toNat 0
def stsCheck (e : Env) (t : Thread) (w : W1) (x : ExtM) : Except FRec Acc :=
  checkScratch e.who (offM e t w x) (2 ^ x.size.toNat) 1 (2 ^ x.size.toNat)
def storeOk (s : State) (e : Env) (t : Thread) (w : W1) (x : ExtM) (r : Except FRec Acc) : Prop :=
  (rdN e t w.b.toNat (sizeRegs x.size.toNat)).2.isBad = false ∧ unlocked s e r 1 true ∧ ∃ a, r = .ok a ∧ peerLost s a = false
/-- The scope of a store's release part: at most the team's for the scratchpad (R212, R240). -/
def relScope (x : ExtM) (a : Acc) : Option Nat :=
  if x.sem = 2 then some (match a.loc with | .scratch _ _ => min x.scope.toNat 1 | .phys _ => x.scope.toNat) else none
/-- An access goes to a peer. -/
def toPeer (a : Acc) : Bool := match a.loc with | .phys y => spaceOf y == 1 | .scratch _ _ => false
def storeOp (w : W1) (x : ExtM) (s : State) (e : Env) (t : Thread) (r : Except FRec Acc) (y : Op) : Prop :=
  ∃ a, r = .ok a ∧ y.kind = .store a (storeData e t w x) ∧ y.ths = [] ∧ y.rel = relScope x a ∧ y.relDone = false ∧ y.acq = none ∧
    y.win = if toPeer a then some s.window else none
/-- A store to a peer raises the thread's latest fabric window (R231). -/
def storeThread (s : State) (t : Thread) (r : Except FRec Acc) : Thread :=
  match r with
  | .ok a => if toPeer a then { t with pwin := some (max s.window (t.pwin.getD 0)) } else t
  | .error _ => t

/-- The whole operation of a load and of a store. -/
def loadOf (s : State) (e : Env) (w : W1) (x : ExtM) (n : Nat) (line : Bool) (acq : Option Nat) (r : Except FRec Acc) : Op :=
  { kind := loadKind s line r, th := e.pl, ths := [e.pl], grps := [placeGroup e.pl], slot := some x.slot.toNat, batch := s.batch,
    dst := w.d.toNat, nd := n, acq := acq }
def storeOf (s : State) (e : Env) (t : Thread) (w : W1) (x : ExtM) (a : Acc) : Op :=
  { kind := .store a (storeData e t w x), th := e.pl, ths := [], grps := [placeGroup e.pl], slot := some x.slot.toNat, batch := s.batch,
    rel := relScope x a, win := if toPeer a then some s.window else none }

/-- Instruction `i`, with a slot free, completes its issue: the state that it answers is `s` with one lane's effect `g` after the other, for the
threads that execute it. -/
def CompletesBy (i : Instr) (slot : BitVec 3) (ok : State → Env → Thread → Prop) (g : State → State → Env → Thread → State) : Prop :=
  ∀ (s : State) (f : Info) (z : Issue), AtWord s i f z → NoTrap s i f z → slotFull i s slot.toNat = false →
    (∀ pl t, Runs s i f z pl t → ok s (envOf s pl t) t) →
    exec i s = .next ((participants i s).foldl (fun s' p => g s s' p.1 p.2) s)

end Sys2Proof.Spec

/-- R99, R203, R213, R217, R218: LD, LDLN and LDS. A load that fails its check is still issued, and will poison its destination. -/
def Sys2Proof.Spec.LoadsIssue : Prop := ∀ (w : W1) (x : ExtM),
  Issues (.ld w x) x.slot (fun s e t => loadOk s e t w x (loadCheck s e t w x)) same
    (fun s e t => loadOp (sizeRegs x.size.toNat) false (acqScope x (nearM e t w x)) w s e (loadCheck s e t w x)) ∧
  Issues (.ldln w x) x.slot (fun s e t => loadOk s e t w x (lineCheck s e t w x)) same
    (fun s e t => loadOp 2 true (acqScope x (nearM e t w x)) w s e (lineCheck s e t w x)) ∧
  Issues (.lds w x) x.slot (fun s e t => (srcP e t w.a).isBad = false ∧ unlocked s e (ldsCheck e t w x) 0 false) same
    (fun s e t => loadOp (sizeRegs x.size.toNat) false (acqScope x true) w s e (ldsCheck e t w x))

/-- R99, R213, R219: ST and STS that pass their checks issue a store of the register's bytes; a peer store sets the thread's window. -/
def Sys2Proof.Spec.StoresIssue : Prop := ∀ (w : W1) (x : ExtM),
  Issues (.st w x) x.slot
    (fun s e t => (srcDP e t w.a).isBad = false ∧ (windowOf (addrM e t w x) = 1 ∨ inStep s t x.scope (decide (x.sem = 2)) (decide (x.sem = 2))) ∧
      storeOk s e t w x (stCheck s e t w x))
    (fun s e t => storeThread s t (stCheck s e t w x)) (fun s e t => storeOp w x s e t (stCheck s e t w x)) ∧
  Issues (.sts w x) x.slot
    (fun s e t => (srcP e t w.a).isBad = false ∧ storeOk s e t w x (stsCheck e t w x))
    same (fun s e t => storeOp w x s e t (stsCheck e t w x))

/-- R99, R203, R217 to R219: LD, LDLN, LDS, ST and STS complete: with clean operands, a page and bytes that pass the checks of R201 (a load that
fails them is issued all the same), no range lock, and a slot free, `exec` answers the state in which each executing thread's operation is
outstanding, and a store to a peer has set its thread's window. -/
def Sys2Proof.Spec.LoadsAndStoresComplete : Prop := ∀ (w : W1) (x : ExtM),
  let put := fun (r : State → Env → Thread → Except FRec Acc) (s s' : State) (e : Env) (t : Thread) =>
    match r s e t with
    | .ok a => (if toPeer a then s'.putThread e (storeThread s t (.ok a)) else s').addOp (storeOf s e t w x a)
    | .error _ => s'
  CompletesBy (.ld w x) x.slot (fun s e t => loadOk s e t w x (loadCheck s e t w x))
    (fun s s' e t => s'.addOp (loadOf s e w x (sizeRegs x.size.toNat) false (acqScope x (nearM e t w x)) (loadCheck s e t w x))) ∧
  CompletesBy (.ldln w x) x.slot (fun s e t => loadOk s e t w x (lineCheck s e t w x))
    (fun s s' e t => s'.addOp (loadOf s e w x 2 true (acqScope x (nearM e t w x)) (lineCheck s e t w x))) ∧
  CompletesBy (.lds w x) x.slot (fun s e t => (srcP e t w.a).isBad = false ∧ unlocked s e (ldsCheck e t w x) 0 false)
    (fun s s' e t => s'.addOp (loadOf s e w x (sizeRegs x.size.toNat) false (acqScope x true) (ldsCheck e t w x))) ∧
  CompletesBy (.st w x) x.slot
    (fun s e t => (srcDP e t w.a).isBad = false ∧ (windowOf (addrM e t w x) = 1 ∨ inStep s t x.scope (decide (x.sem = 2)) (decide (x.sem = 2))) ∧
      storeOk s e t w x (stCheck s e t w x)) (put (fun s e t => stCheck s e t w x)) ∧
  CompletesBy (.sts w x) x.slot (fun s e t => (srcP e t w.a).isBad = false ∧ storeOk s e t w x (stsCheck e t w x))
    (put (fun _ e t => stsCheck e t w x))

namespace Sys2Proof.Spec

/-- What the issue of a counted instruction needs: earlier operations are earlier, and its slot has room. -/
def slotRoom (i : Instr) (slot : BitVec 3) (s : State) (_ : Info) (_ : Issue) : Prop := FreshOps s ∧ slotFull i s slot.toNat = false
/-- The thread's operation is outstanding. -/
def issued (s s' : State) (e : Env) (_ : Thread) : Prop := ∃ k y, s.serial ≤ k ∧ s'.ops.get k = some y ∧ e.pl ∈ y.threads

/-- The traps of poison consumed, of a failed check, of a range lock and of fabric scope (R202, R234, R247, R340, R344): their codes, the consumer and
the lost mark, and the record. -/
def TrapsOfAccesses : Prop :=
  (∀ (t : Thread) (p : Pois) (d : Nat), let tr := poisonTrap t p d
    tr.code = 0x05 ∧ tr.detail = d + (if (t.recOf p).2 then 256 else 0) ∧ ((t.recOf p).2 = false → tr.payload = (t.recOf p).1.bytes)) ∧
  (∀ r : FRec, (Trap.ofRec r).code = r.cause ∧ (Trap.ofRec r).detail = 0 ∧ (Trap.ofRec r).payload = r.bytes) ∧
  (∀ (s : State) (e : Env) (va k : Nat), (timeTrap s e va k).code = 0x1A) ∧
  (∀ (s : State) (a : Acc) (g k : Nat) (write : Bool) (tr : Trap), lockTrap s a g k write = some tr → tr.code = 0x0A ∧
    tr.payload = (a.record k 0x0A).bytes)

/-- The trap of a load whose operands are poisoned, whose acquire of fabric scope finds the fabric out of step, or whose checked access meets a lock.
A load that fails its check does not trap (R203). -/
def loadBad (s : State) (e : Env) (t : Thread) (va : Nat) (a n : Pois) (fab : Bool) (r : Except FRec Acc) : Option (Trap × Thread) :=
  if a.isBad then asIs t (poisonTrap t a 2)
  else if n.isBad then asIs t (poisonTrap t n 7)
  else if fab && s.mod.desync then asIs t (timeTrap s e va 0)
  else match r with
    | .ok a => (lockTrap s a (lockAddr s e.who a.va) 0 false).map (fun tr => (tr, t))
    | .error _ => none
/-- The trap of a store: poison, a release of fabric scope with the fabric out of step or a route lost, whose mark the trap takes off, a failed
check, a lock, a peer that cannot be reached. -/
def storeBad (s : State) (e : Env) (t : Thread) (va : Nat) (a v : Pois) (fab : Bool) (r : Except FRec Acc) : Option (Trap × Thread) :=
  if a.isBad then asIs t (poisonTrap t a 2)
  else if v.isBad then asIs t (poisonTrap t v 1)
  else if fab && (s.mod.desync || t.routeLost) then some (timeTrap s e va 1, { t with routeLost := false })
  else match r with
    | .error f => asIs t (.ofRec f)
    | .ok a => match lockTrap s a (lockAddr s e.who a.va) 1 true with
      | some tr => asIs t tr
      | none => if peerLost s a then asIs t (timeTrap s e a.va 1) else none
/-- The access is a load's or store's ordering part at fabric scope, outside the scratchpad window. -/
def fabM (e : Env) (t : Thread) (w : W1) (x : ExtM) (sem : BitVec 2) : Bool := x.scope == 3 && x.sem == sem && !nearM e t w x

end Sys2Proof.Spec

/-- R203, R234, R237, R247: the traps of LD, LDLN and LDS, whichever threads of the group take one. -/
def Sys2Proof.Spec.LoadsTrap : Prop := ∀ (w : W1) (x : ExtM),
  MayTrap (.ld w x) (slotRoom (.ld w x) x.slot)
    (fun s e t => loadBad s e t (addrM e t w x) (srcDP e t w.a) (countP e t w x) (fabM e t w x 1) (loadCheck s e t w x)) issued ∧
  MayTrap (.ldln w x) (slotRoom (.ldln w x) x.slot)
    (fun s e t => loadBad s e t (addrM e t w x) (srcDP e t w.a) (countP e t w x) (fabM e t w x 1) (lineCheck s e t w x)) issued ∧
  MayTrap (.lds w x) (slotRoom (.lds w x) x.slot)
    (fun s e t => loadBad s e t 0 (srcP e t w.a) .clean false (ldsCheck e t w x)) issued

/-- R219, R234, R247, R364: the traps of ST and STS, whichever threads of the group take one; such a thread stores nothing. -/
def Sys2Proof.Spec.StoresTrap : Prop := ∀ (w : W1) (x : ExtM),
  MayTrap (.st w x) (slotRoom (.st w x) x.slot)
    (fun s e t => storeBad s e t (addrM e t w x) (srcDP e t w.a) (rdN e t w.b.toNat (sizeRegs x.size.toNat)).2 (fabM e t w x 2)
      (stCheck s e t w x)) issued ∧
  MayTrap (.sts w x) (slotRoom (.sts w x) x.slot)
    (fun s e t => storeBad s e t 0 (srcP e t w.a) (rdN e t w.b.toNat (sizeRegs x.size.toNat)).2 false (stsCheck e t w x)) issued

/-- R157, R222, R340: BRX, CALLX, RET and SLEEPT of a poisoned pair trap 0x05; the other threads of the group go on. -/
def Sys2Proof.Spec.PoisonedTargets : Prop := ∀ (w : W1),
  let poisoned := fun (d : Nat) (_ : State) (e : Env) (t : Thread) =>
    if (srcDP e t w.a).isBad then asIs t (poisonTrap t (srcDP e t w.a) d) else none
  let takes := fun (g : State → Env → Thread → Thread) (s s' : State) (e : Env) (t : Thread) => s'.threads.get e.pl = some (g s e t)
  MayTrap (.brx w) noRoom (poisoned 4) (takes (fun _ e t => goTo t (srcD e t w.a))) ∧
  MayTrap (.callx w) noRoom (poisoned 4) (takes (fun s e t => goTo (putD t w.d (runAfter s) .clean) (srcD e t w.a))) ∧
  MayTrap (.ret w) noRoom (poisoned 4) (takes (fun _ e t => goTo t (srcD e t w.a))) ∧
  MayTrap (.sleept w) noRoom (poisoned 7) (takes (fun _ e t => { t with wake := max t.wake (srcD e t w.a).toNat }))

/-- R201: the order of the checks of an access. One across the edge of a window fails with 0x0E; else a misaligned one with 0x10;
else, in the scratchpad window, one beyond the team's bound with 0x13; else, of a page that is not mapped, with 0x0C; of a page that
does not permit it, with 0x0D; and what passes them all is the access that the translation gives. -/
def Obligations.AccessChecks : Prop :=
  ∀ (s : State) (w : Who) (va size perm akind align cache rc : Nat),
    let r := checkAcc s w va size perm akind align cache rc
    let straddles := windowOf va ≠ windowOf ((va + size - 1) % 2 ^ 64)
    let fails := fun c : Nat => ∃ y, r = .error y ∧ y.cause = c ∧ y.va = va ∧ y.akind = akind ∧ y.asid = w.asid
    let first := (transVa s w.asid (globalVa s w va)).page
    let last := (transVa s w.asid ((globalVa s w va + size - 1) % 2 ^ 64)).page
    (straddles → fails 0x0E) ∧
    (¬ straddles → va % align ≠ 0 → fails 0x10) ∧
    (¬ straddles → va % align = 0 → windowOf va = 1 → w.bound < va - scratchBase + size → fails 0x13) ∧
    (¬ straddles → va % align = 0 → windowOf va = 1 → va - scratchBase + size ≤ w.bound →
      ∃ a, r = .ok a ∧ a.loc = .scratch w.team (va - scratchBase) ∧ a.size = size) ∧
    (¬ straddles → va % align = 0 → windowOf va ≠ 1 → (first = none ∨ last = none) → fails 0x0C) ∧
    (¬ straddles → va % align = 0 → windowOf va ≠ 1 → ∀ p a q b, first = some (p, a) → last = some (q, b) →
      ((a.perm.testBit perm && b.perm.testBit perm) = false → fails 0x0D) ∧
      ((a.perm.testBit perm && b.perm.testBit perm) = true →
        ∃ z, r = .ok z ∧ z.loc = .phys (physOf (kindSpace a.kind) (p * 2 ^ 16 + globalVa s w va % 2 ^ 16)) ∧ z.size = size ∧
          z.kind = a.kind))

/-- R120, R128, R129: SFU, FDIV and FSQRT. The poison of the operands stands in the destination from issue on; the result arrives with
SFU_COMPLETE: FDIV and FSQRT correctly rounded, SFU within the bounds of R128 (its value is otherwise the model's free value, log 7). -/
def Sys2Proof.Spec.LongArithmetic : Prop := ∀ (w : W1) (x : ExtA),
  let mark := fun (n : Nat) (q : Pois) (t : Thread) => { t with v := t.v.mapIdx (fun j r =>
    if w.d.toNat < 112 ∧ w.d.toNat ≤ j ∧ j < w.d.toNat + n then { r with pois := q } else r) }
  let op := fun (n : Nat) (v : Nat) (e : Env) (y : Op) => y.kind = .sfu v ∧ y.ths = [e.pl] ∧ y.dst = w.d.toNat ∧ y.nd = n
  (x.fn.toNat < 8 → Issues (.sfu w x) x.slot always (fun _ e t => mark 1 (srcP e t w.a) t)
    (fun _ e t => op 1 (sfuResult x.fn.toNat (srcW e t w.a).toNat) e)) ∧
  (8 ≤ x.fn.toNat → Issues (.sfu w x) x.slot always (fun _ e t => mark 2 (srcDP e t w.a) t)
    (fun _ e t => op 2 (sfuResult x.fn.toNat (srcD e t w.a).toNat) e)) ∧
  (x.fn ≠ 1 → Issues (.fdiv w x) x.slot always (fun _ e t => mark 1 ((srcP e t w.a).or (srcP e t w.b)) t)
    (fun _ e t => op 1 (fF32.div x.rnd.toNat (srcW e t w.a).toNat (srcW e t w.b).toNat) e)) ∧
  (x.fn = 1 → Issues (.fdiv w x) x.slot always (fun _ e t => mark 2 ((srcDP e t w.a).or (srcDP e t w.b)) t)
    (fun _ e t => op 2 (fF64.div x.rnd.toNat (srcD e t w.a).toNat (srcD e t w.b).toNat) e)) ∧
  (x.fn ≠ 1 → Issues (.fsqrt w x) x.slot always (fun _ e t => mark 1 (srcP e t w.a) t)
    (fun _ e t => op 1 (fF32.sqrt x.rnd.toNat (srcW e t w.a).toNat) e)) ∧
  (x.fn = 1 → Issues (.fsqrt w x) x.slot always (fun _ e t => mark 2 (srcDP e t w.a) t)
    (fun _ e t => op 2 (fF64.sqrt x.rnd.toNat (srcD e t w.a).toNat) e))

/-- R128, R129: the special values that the spec fixes, and the bounds it states, of the special functions, quotients and roots. -/
def Sys2Proof.Spec.SpecialFunctionBounds : Prop :=
  (∀ fn x, (∀ r, sfuSpecial fn x = some r → sfuResult fn x = r)) ∧
  (sfuResult 0 0 = 0x7F800000 ∧ sfuResult 0 0x80000000 = 0xFF800000 ∧ sfuResult 0 0x7F800000 = 0 ∧ sfuResult 1 0x7F800000 = 0 ∧
    sfuResult 3 0 = 0xFF800000 ∧ sfuResult 3 0x3F800000 = 0 ∧ sfuResult 4 0x80000000 = 0x80000000 ∧ sfuResult 6 0xFF800000 = 0xBF800000) ∧
  (∀ x, x < 2 ^ 32 → fF32.dec x ≠ .nan → sfuResult 6 x % 2 ^ 31 ≤ 0x3F800000) ∧
  (∀ f ∈ [fF32, fF64], ∀ rnd x y, x < 2 ^ f.width → y < 2 ^ f.width →
    (f.dec x = .nan ∨ f.dec y = .nan → f.div rnd x y = f.qnan) ∧
    (∀ n m k e e', f.dec x = .fin n (k + 1) e → f.dec y = .fin m 0 e' → f.div rnd x y = f.infBits (n != m)) ∧
    (∀ n m e e', f.dec x = .fin n 0 e → f.dec y = .fin m 0 e' → f.div rnd x y = f.qnan) ∧
    (∀ n m, f.dec x = .inf n → f.dec y = .inf m → f.div rnd x y = f.qnan) ∧
    f.sqrt rnd f.signBit = f.signBit ∧
    (∀ k e, f.dec x = .fin true (k + 1) e → f.sqrt rnd x = f.qnan)) ∧
  (∀ fn x n m e, sfuSpecial fn x = none →
    let f := if 8 ≤ fn then fF64 else fF32
    f.dec x = .fin n m e →
      let v := sfuExact fn n m e
      let nearest := f.rnd 0 v.fv
      (nearest % f.signBit = f.infBits false → fn ≠ 6 → sfuResult fn x = nearest) ∧
      (sfuResult fn x = nearest ∨ sfuAllows fn x f v (sfuResult fn x) = true ∨ (fn = 6 ∧ sfuResult fn x = f.rnd 0 (.fin false 1 0))))

/-- R200, R250: FENCE and XLQ issue one operation for each thread. -/
def Sys2Proof.Spec.FenceAndXlqIssue : Prop :=
  (∀ (w : W1) (x : ExtM), Issues (.fence w x) x.slot
    (fun s _ t => inStep s t x.scope true (decide (x.sem ≠ 1))) same
    (fun _ _ _ y => y.kind = .fence x.sem.toNat x.scope.toNat 0 ∧ y.ths = [] ∧ y.rel = (if x.sem = 1 then none else some x.scope.toNat) ∧
      y.relDone = false ∧ y.acq = (if x.sem = 2 then none else some x.scope.toNat))) ∧
  (∀ (w : W1) (x : ExtE), Issues (.xlq w x) x.slot
    (fun _ e t => (srcDP e t w.a).isBad = false ∧ (srcP e t x.c).isBad = false) same
    (fun _ e t y => y.kind = .xlq (srcD e t w.a).toNat (if e.sup then (srcW e t x.c).toNat % 2 ^ 16 else e.asid) (!e.sup) ∧
      y.ths = [e.pl] ∧ y.dst = w.d.toNat ∧ y.nd = 4))

/-- R220, R221: PREF and CFLUSH issue an operation where there is something to fill or to flush, and otherwise do nothing. -/
def Sys2Proof.Spec.PrefetchAndFlushIssue : Prop := ∀ (w : W1) (x : ExtM),
  let pre := fun (s : State) (e : Env) (t : Thread) => checkAcc s e.who (addrM e t w x) 1 0 0 1 x.cache.toNat (countM e t w x)
  let acc := fun (s : State) (e : Env) (t : Thread) => checkAcc s e.who (addrM e t w x) 1 0 0 1 0 0
  let len := fun (e : Env) (t : Thread) => (srcW e t w.b).toNat
  let clean := fun (e : Env) (t : Thread) => (srcDP e t w.a).isBad = false
  let onePage := fun (e : Env) (t : Thread) => len e t ≤ 65536 ∧ addrM e t w x / 2 ^ 16 = (addrM e t w x + len e t - 1) / 2 ^ 16
  Issues (.pref w x) x.slot
    (fun s e t => clean e t ∧ (countP e t w x).isBad = false ∧ ∃ a, pre s e t = .ok a ∧ a.kind ≠ 1 ∧ a.kind ≠ 4) same
    (fun s e t y => ∃ a, pre s e t = .ok a ∧ y.kind = .pref (some a) ∧ y.ths = []) ∧
  Idles (.pref w x) x.slot (fun s e t => clean e t ∧ ((countP e t w x).isBad = true ∨ (∃ r, pre s e t = .error r) ∨
    ∃ a, pre s e t = .ok a ∧ (a.kind = 1 ∨ a.kind = 4))) ∧
  Issues (.cflush w x) x.slot
    (fun s e t => clean e t ∧ (srcP e t w.b).isBad = false ∧ len e t ≠ 0 ∧ onePage e t ∧
      ∃ a y, acc s e t = .ok a ∧ a.loc = .phys y ∧ a.kind = 3) same
    (fun s e t y => ∃ a pa, acc s e t = .ok a ∧ a.loc = .phys pa ∧ y.kind = .cflush pa (len e t) a.asid a.gen ∧ y.ths = []) ∧
  Idles (.cflush w x) x.slot (fun s e t => clean e t ∧ (srcP e t w.b).isBad = false ∧ (len e t = 0 ∨ onePage e t ∧
    ∃ a, acc s e t = .ok a ∧ a.kind ≠ 3))

namespace Sys2Proof.Spec

/-- The check of an atomic, its place and its lane (R262, R266). -/
def atomCheck (s : State) (e : Env) (t : Thread) (w : W1) (x : ExtT) : Except FRec Acc :=
  checkAcc s e.who (addrT e t w x) (atomSize x.type.toNat) 3 2 (atomSize x.type.toNat) 0 0
def atomPart (cas : Bool) (e : Env) (t : Thread) (w : W1) (x : ExtT) : Part :=
  { th := e.pl, lane := e.lane, dst := w.d.toNat, opnd := (rdN e t w.b.toNat (typeRegs x.type.toNat)).1,
    cmp := if cas then (rdN e t x.c.toNat (typeRegs x.type.toNat)).1 else 0 }
/-- The scope of an atomic's ordering: at most the team's for the scratchpad (R212). -/
def atomScope (x : ExtT) (a : Acc) : Nat := if a.kind = 4 then min x.scope.toNat 1 else x.scope.toNat
/-- An atomic that can be issued: clean operands, a page and scope that have a place, no lock, a peer within reach, and no PCIe
AtomicOp, whose port may be busy. -/
def atomOk (cas : Bool) (s : State) (e : Env) (t : Thread) (w : W1) (x : ExtT) : Prop :=
  (srcDP e t w.a).isBad = false ∧ (rdN e t w.b.toNat (typeRegs x.type.toNat)).2.isBad = false ∧
  (cas = true → (rdN e t x.c.toNat (typeRegs x.type.toNat)).2.isBad = false) ∧
  (windowOf (addrT e t w x) = 1 ∨ (x.scope = 3 → s.mod.desync = false ∧ (2 ≤ x.sem.toNat → t.routeLost = false))) ∧
  unlocked s e (atomCheck s e t w x) 2 true ∧
  ∃ a pl, atomCheck s e t w x = .ok a ∧ peerLost s a = false ∧ atomPlace s a.kind x.scope.toNat cas x.aop.toNat x.type.toNat = some pl ∧
    pl ≠ .pcie

/-- An atomic instruction completes its issue: the lanes of one address become the parts of one operation, in lane order (R269). -/
def AtomicOp (i : Instr) (cas red : Bool) (w : W1) (x : ExtT) : Prop :=
  ∀ (s : State) (f : Info) (z : Issue), AtWord s i f z → NoTrap s i f z → FreshOps s → slotFull i s x.slot.toNat = false →
    (∀ pl t, Runs s i f z pl t → atomOk cas s (envOf s pl t) t w x) →
    ∃ s', exec i s = .next s' ∧ s' = { s with threads := s'.threads, ops := s'.ops, groups := s'.groups, serial := s'.serial } ∧
      (∀ k, k < s.serial → s'.ops.get k = s.ops.get k) ∧
      (∀ pl, (∀ t, ¬ Runs s i f z pl t) → s'.threads.get pl = s.threads.get pl) ∧
      (∀ pl t, Runs s i f z pl t →
        (∃ t', s'.threads.get pl = some t' ∧
          t' = { (if red then t else t.addPend w.d.toNat (typeRegs x.type.toNat)) with pwin := t'.pwin }) ∧
        ∃ k y a b apl ps, s.serial ≤ k ∧ s'.ops.get k = some y ∧ atomCheck s (envOf s pl t) t w x = .ok a ∧
          y.kind = .atomic b apl cas x.aop.toNat x.type.toNat ps false ∧ b.va = addrT (envOf s pl t) t w x ∧ b.loc = a.loc ∧
          atomPlace s b.kind x.scope.toNat cas x.aop.toNat x.type.toNat = some apl ∧
          atomPart cas (envOf s pl t) t w x ∈ ps ∧ y.slot = some x.slot.toNat ∧ y.batch = s.batch ∧ placeGroup pl ∈ y.grps ∧
          y.acq = (if red = false ∧ x.sem.toNat % 2 = 1 then some (atomScope x b) else none) ∧
          y.rel = (if 2 ≤ x.sem.toNat then some (atomScope x b) else none) ∧
          y.relDone = false) ∧
      (∀ k y, s.serial ≤ k → s'.ops.get k = some y → ∃ b apl ps,
        y.kind = .atomic b apl cas x.aop.toNat x.type.toNat ps false ∧ ps ≠ [] ∧
        ∀ p ∈ ps, ∃ t, Runs s i f z p.th t ∧ p = atomPart cas (envOf s p.th t) t w x ∧ addrT (envOf s p.th t) t w x = b.va) ∧
      (∀ gr g, s.groups.get gr = some g →
        ((∃ pl t, Runs s i f z pl t ∧ placeGroup pl = gr) →
          s'.groups.get gr = some { g with sb := g.sb.set x.slot.toNat (g.sb.getD x.slot.toNat 0 + 1) }) ∧
        ((∀ pl t, Runs s i f z pl t → placeGroup pl ≠ gr) → s'.groups.get gr = some g))

/-- The same for atomics that go out as PCIe AtomicOps, with room for all of them: each lane has an operation of its own, and each goes out after
the one before it (R264, R269). -/
def PcieAtomicOp (i : Instr) (cas red : Bool) (w : W1) (x : ExtT) : Prop :=
  ∀ (s : State) (f : Info) (z : Issue), AtWord s i f z → NoTrap s i f z → FreshOps s → slotFull i s x.slot.toNat = false →
    (∀ port, pcieOut s port + z.lanes.length ≤ 64) →
    (∀ pl t, Runs s i f z pl t → let e := envOf s pl t
      (srcDP e t w.a).isBad = false ∧ (rdN e t w.b.toNat (typeRegs x.type.toNat)).2.isBad = false ∧
      (cas = true → (rdN e t x.c.toNat (typeRegs x.type.toNat)).2.isBad = false) ∧
      (x.scope = 3 → s.mod.desync = false ∧ (2 ≤ x.sem.toNat → t.routeLost = false)) ∧ unlocked s e (atomCheck s e t w x) 2 true ∧
      ∃ a, atomCheck s e t w x = .ok a ∧ peerLost s a = false ∧ atomPlace s a.kind x.scope.toNat cas x.aop.toNat x.type.toNat = some .pcie) →
    ∃ s', exec i s = .next s' ∧
      s' = { s with threads := s'.threads, ops := s'.ops, groups := s'.groups, serial := s'.serial } ∧
      (∀ k, k < s.serial → s'.ops.get k = s.ops.get k) ∧
      (∀ pl, (∀ t, ¬ Runs s i f z pl t) → s'.threads.get pl = s.threads.get pl) ∧
      ∀ pl t, Runs s i f z pl t →
        s'.threads.get pl = some (if red then t else t.addPend w.d.toNat (typeRegs x.type.toNat)) ∧
        ∃ k y a, s.serial ≤ k ∧ s'.ops.get k = some y ∧ atomCheck s (envOf s pl t) t w x = .ok a ∧
          y.kind = .atomic a .pcie cas x.aop.toNat x.type.toNat [atomPart cas (envOf s pl t) t w x] false ∧
          y.slot = some x.slot.toNat ∧ y.batch = s.batch ∧ y.th = pl ∧ y.after = if k = s.serial then none else some (k - 1)

end Sys2Proof.Spec

/-- The trap of an atomic: poison of the address, of the operands; fabric scope with the fabric out of step or, for a release, a route lost; a failed
check; a page and scope that have no place (0x0F, R262); a lock; a peer that cannot be reached. -/
def Sys2Proof.Spec.atomBad (cas : Bool) (w : W1) (x : ExtT) (s : State) (e : Env) (t : Thread) : Option (Trap × Thread) :=
  let va := addrT e t w x
  let n := typeRegs x.type.toNat
  let q := (rdN e t w.b.toNat n).2.or (if cas then (rdN e t x.c.toNat n).2 else .clean)
  if (srcDP e t w.a).isBad then asIs t (poisonTrap t (srcDP e t w.a) 2)
  else if q.isBad then asIs t (poisonTrap t q 1)
  else if x.scope == 3 && windowOf va != 1 && (s.mod.desync || (decide (2 ≤ x.sem.toNat) && t.routeLost)) then
    some (timeTrap s e va 2, { t with routeLost := false })
  else match atomCheck s e t w x with
    | .error f => asIs t (.ofRec f)
    | .ok a => match atomPlace s a.kind x.scope.toNat cas x.aop.toNat x.type.toNat with
      | none => asIs t (.ofRec (faultRec s e.who va 2 0x0F))
      | some _ => match lockTrap s a (lockAddr s e.who va) 2 true with
        | some tr => asIs t tr
        | none => if peerLost s a then asIs t (timeTrap s e va 2) else none

/-- R234, R247, R262, R266, R364: the traps of ATOM, CAS and RED, whichever threads of the group take one and whatever the places of the others,
while the ports have room for every lane. -/
def Sys2Proof.Spec.AtomicsTrap : Prop := ∀ (w : W1) (x : ExtT),
  let room := fun (i : Instr) (s : State) (f : Info) (z : Issue) => slotRoom i x.slot s f z ∧ ∀ port, pcieOut s port + z.lanes.length ≤ 64
  MayTrap (.atom w x) (room (.atom w x)) (atomBad false w x) issued ∧ MayTrap (.cas w x) (room (.cas w x)) (atomBad true w x) issued ∧
  MayTrap (.red w x) (room (.red w x)) (atomBad false w x) issued

/-- R262, R264, R266, R269: ATOM, CAS and RED, whose lanes merge by address, those that go out as PCIe AtomicOps, lane by lane, and their traps. -/
def Obligations.AtomicsIssue : Prop := (∀ (w : W1) (x : ExtT),
  AtomicOp (.atom w x) false false w x ∧ AtomicOp (.cas w x) true false w x ∧ AtomicOp (.red w x) false true w x ∧
  PcieAtomicOp (.atom w x) false false w x ∧ PcieAtomicOp (.cas w x) true false w x ∧ PcieAtomicOp (.red w x) false true w x) ∧ AtomicsTrap

namespace Sys2Proof.Spec

/-- The scheduler is at the word of `i`, which the thread at `l` executes for the whole issue group: it is the lowest lane that passes its checks.
No lane traps in its checks, which read the operands up to that lane only, and the slot has room (R99, R135, R335). -/
structure Led (s : State) (i : Instr) (f : Info) (x : Issue) (slot : BitVec 3) (l : Nat) : Prop where
  word : AtWord s i f x
  ops : FreshOps s
  order : x.lanes.Pairwise (fun a b => placeLane a < placeLane b)
  acts : leader i s = some l
  clean : ∀ pl ∈ x.lanes, ∀ t, s.threads.get pl = some t → ∀ tr,
    gate s i (if placeLane pl ≤ placeLane l then f else noOperands f) (envOf s pl t) t ≠ .trap tr
  room : ∀ p ∈ ledParticipants i s, ∀ g, s.groups.get (placeGroup p.1.pl) = some g → g.sb.getD slot.toNat 0 < 63

/-- Such an instruction is counted once on its slot, in each group that takes part (R99). -/
def LedCounted (s : State) (i : Instr) (slot : BitVec 3) (s' : State) : Prop :=
  ∀ gr g, s.groups.get gr = some g →
    ((∃ p ∈ ledParticipants i s, placeGroup p.1.pl = gr) →
      s'.groups.get gr = some { g with sb := g.sb.set slot.toNat (g.sb.getD slot.toNat 0 + 1) }) ∧
    ((∀ p ∈ ledParticipants i s, placeGroup p.1.pl ≠ gr) → s'.groups.get gr = some g)

end Sys2Proof.Spec

/-- R135: CBLOAD makes one load for the issue group, at the address of the executing thread of lowest home lane, counted once on the
slot of every group that takes part; no thread changes. -/
def Sys2Proof.Spec.CodebookLoadIssue : Prop := ∀ (w : W1) (x : ExtE) (s : State) (f : Info) (z : Issue) (pl : Nat) (t : Thread),
  Led s (.cbload w x) f z x.slot pl → s.threads.get pl = some t → (srcDP (envOf s pl t) t w.a).isBad = false →
  let r := checkAcc s (envOf s pl t).who (srcD (envOf s pl t) t w.a).toNat 32 0 8 32 0 0
  unlocked s (envOf s pl t) r 8 false →
  ∃ s' y, exec (.cbload w x) s = .next s' ∧ s' = { s with ops := s'.ops, groups := s'.groups, serial := s.serial + 1 } ∧
    s'.ops.get s.serial = some y ∧ (∀ k, k ≠ s.serial → s'.ops.get k = s.ops.get k) ∧ y.th = pl ∧ y.slot = some x.slot.toNat ∧
    (match r with
      | .error rec' => y.kind = .cbload (x.imm.toNat % 8) none rec'
      | .ok a => if peerLost s a = true then y.kind = .cbload (x.imm.toNat % 8) none (a.record 8 0x1A)
          else y.kind = .cbload (x.imm.toNat % 8) (some a) {}) ∧
    LedCounted s (.cbload w x) x.slot s'

/-- R99, R203, R213, R217 to R219: loads and stores complete their issue, each with its operation outstanding.
The model's own choice here: that a lost route is checked before the access checks, and the record of LDLN (log 15, 16). -/
def Obligations.LoadsAndStoresIssue : Prop := LoadsIssue ∧ StoresIssue ∧ LoadsAndStoresComplete ∧ TrapsOfAccesses ∧ LoadsTrap

/-- R120, R128, R129: SFU, FDIV and FSQRT. -/
def Obligations.LongFunctions : Prop := LongArithmetic ∧ SpecialFunctionBounds

/-- R135, R200, R220, R221, R250: FENCE, XLQ, PREF, CFLUSH and CBLOAD.
The model's own choices here: that CFLUSH acts in one event (log 24), and that a supervisor's XLQ takes C modulo 2^16 (log 79). -/
def Obligations.OtherIssue : Prop := FenceAndXlqIssue ∧ PrefetchAndFlushIssue ∧ CodebookLoadIssue

/-- R25, R62, R157, R165, R219, R341: traps of an issuing instruction, of TRAP, of ST and STS, and of a poisoned target or wake time.
The model's own choice here: when a lost route traps (log 15). -/
def Obligations.TrapsTaken : Prop := DefectsTrap ∧ TrapInstruction ∧ StoresTrap ∧ PoisonedTargets

/-! ### Completions of memory operations (R120, R135, R200, R216, R217, R220 to R227, R238 to R250, R264 to R272) -/

namespace Sys2Proof.Spec

/-- No operation of the same instruction but `k` counts on the slot of group `gr`. -/
def lastOf (s : State) (k : Nat) (o : Op) (gr : Nat) : Prop := ∀ e ∈ s.ops, e.1 ≠ k → e.2.batch = o.batch → gr ∉ e.2.grps

/-- Operation `k` ends: it is gone, the others stay, and its slot falls in each of its groups that no other operation of its
instruction counts (R99, R100). -/
def Ended (s : State) (k : Nat) (o : Op) (s' : State) : Prop :=
  s'.ops = s.ops.del k ∧
  ∀ gr g, s.groups.get gr = some g →
    (∀ n, o.slot = some n → gr ∈ o.grps → lastOf s k o gr → s'.groups.get gr = some { g with sb := g.sb.set n (g.sb.getD n 0 - 1) }) ∧
    (o.slot = none ∨ gr ∉ o.grps ∨ ¬ lastOf s k o gr → s'.groups.get gr = some g)

/-- What a thread becomes with the arrival of a value in its destination: clean, or poisoned with a new record of the fault; a thread
that has exited takes nothing (R101, R217). Its pending marks fall. -/
def arrives (t : Thread) (o : Op) (v : Nat) (bad : Option FRec) : Thread :=
  let t1 := if t.st = .exited then t else match bad with
    | none => wrN t o.dst v .clean o.nd
    | some r => wrN (t.newRec r false).1 o.dst v (t.newRec r false).2 o.nd
  t1.subPend o.dst o.nd

/-- The acquire of an operation has completed for the thread in place `pl` (R242, log 77). -/
def acquired (s : State) (pl : Nat) (acq : Option Nat) (t : Thread) : Thread := match acq with | some sc => t.acquire s pl sc | none => t

/-- A thread has read bytes at a place: it has seen what the team's engines had written behind a `STATE` or chunk bits that stand in them, and
acquires that with an acquire of scope t or wider (R242, R283, log 77). -/
def reads (s : State) (acq : Option Nat) (l : Loc) (bs : List Byte) (t : Thread) : Thread := t.sees acq (enginesBehind s t.team l bs)

/-- Event `i` ends operation `op` of one thread, delivers a value to it, which becomes what `see` says, and completes its acquire; no other thread, no
team, no byte of memory and no sector's poison changes. -/
def Delivers (s : State) (i : Instr) (op : Nat) (o : Op) (v : Nat) (bad : Option FRec) (acq : Option Nat := none) (see : Thread → Thread := id) : Prop :=
  ∃ s', exec i s = .next s' ∧ Ended s op o s' ∧ s'.teams = s.teams ∧ s'.mem.cells = s.mem.cells ∧ s'.mem.pois = s.mem.pois ∧
    s'.mod = s.mod ∧ s'.xl = s.xl ∧ (∀ pl, pl ≠ o.th → s'.threads.get pl = s.threads.get pl) ∧
    ∀ t, s.threads.get o.th = some t → s'.threads.get o.th = some (acquired s o.th acq (see (arrives t o v bad)))

/-- A load of `a` completes with bytes that its thread has read, or with poison and its record. -/
def LoadsBytes (s : State) (i : Instr) (op : Nat) (o : Op) (a : Acc) (bs : List Byte) (bad : Option FRec) : Prop :=
  Delivers s i op o (leNat bs) bad o.acq (reads s o.acq a.loc bs)

/-- An operation of one thread with one destination. -/
def OwnOp (s : State) (op : Nat) (o : Op) : Prop := s.ops.get op = some o ∧ o.ths = [o.th] ∧ o.grps.Nodup

/-- Event `i` ends operation `op`, which writes no register; threads become what `g` says. -/
def Ends (s : State) (i : Instr) (op : Nat) (o : Op) (g : Nat → Thread → Thread) (more : State → Prop) : Prop :=
  ∃ s', exec i s = .next s' ∧ Ended s op o s' ∧ more s' ∧
    ∀ pl, s'.threads.get pl = (s.threads.get pl).map (g pl)

end Sys2Proof.Spec

/-- R216, R217: LOAD_COMPLETE. A load that failed its check poisons its destination; a load from the scratchpad takes its bytes once no
earlier operation holds it back; a load bound at the level that served it takes what it was bound to; a peer's load takes the peer's bytes, or
poison 0x1A where the peer cannot be reached or was lost meanwhile; every poison comes with its record. R218: of LDLN in the scratchpad, the
event reads the line for every lane that waits for it.
The model's own choices here: the record of LDLN (log 16), and what an acquire takes on (log 77). -/
def Sys2Proof.Spec.LoadsComplete : Prop :=
  ∀ (s : State) (op : Nat) (o : Op), OwnOp s op o →
    (∀ r, o.kind = .loadBad r → Delivers s (.loadComplete op) op o 0 (some r)) ∧
    (∀ a line bs p, o.kind = .load a line (some (bs, p)) → LoadsBytes s (.loadComplete op) op o a bs (p.map (a.record 0))) ∧
    (∀ a, o.kind = .load a false none →
      (∀ tm off, a.loc = .scratch tm off → blocked s op o = false →
        LoadsBytes s (.loadComplete op) op o a (scratchBytes s tm off a.size) ((scratchPois s tm off a.size).map (a.record 0))) ∧
      (∀ y, a.loc = .phys y → spaceOf y = 1 → blocked s op o = false → sendHeld s (peerOf y) = false →
        (peerLost s a = false → o.lost = none →
          LoadsBytes s (.loadComplete op) op o a (homeBytes s.mem y a.size) ((homePois s.mem y).map (a.record 0))) ∧
        (peerLost s a = true ∨ o.lost.isSome = true → LoadsBytes s (.loadComplete op) op o a (zeros a.size) (some (a.record 0 0x1A))))) ∧
    (∀ a tm off, o.kind = .load a true none → a.loc = .scratch tm off → (s.ops.map (·.1)).Nodup →
      let mates := lineMates s op o a true
      (∀ e ∈ mates, blocked s e.1 e.2 = false ∧ ∃ b q off', e.2.kind = .load b true none ∧ b.loc = .scratch q off') →
      ∃ s', exec (.loadComplete op) s = .next s' ∧ s'.ops.get op = none ∧ s'.teams = s.teams ∧ s'.mem = s.mem ∧
        (∀ e ∈ mates, e.1 ≠ op → ∀ b q off', e.2.kind = .load b true none → b.loc = .scratch q off' →
          s'.ops.get e.1 = some { e.2 with kind := .load b true (some (scratchBytes s q off' b.size, scratchPois s q off' b.size)) }) ∧
        (∀ k, k ≠ op → (∀ e ∈ mates, e.1 ≠ k) → s'.ops.get k = s.ops.get k) ∧
        (∀ pl, pl ≠ o.th → s'.threads.get pl = s.threads.get pl) ∧
        ∀ t, s.threads.get o.th = some t → s'.threads.get o.th = some (acquired s o.th o.acq (reads s o.acq a.loc (scratchBytes s tm off a.size)
          (arrives t o (leNat (scratchBytes s tm off a.size)) ((scratchPois s tm off a.size).map (a.record 0))))))

/-- R225, R238, R244: a load that no home has served yet, and that nothing holds back but stores of its own thread on their way, is served by
its core's L1 copy while the copy's lease runs, granted since the thread's latest sc fence: it takes the copy's bytes, with those of the core's
stores on their way. Else it is served by the RDC copy of its die.
The model's own choices here: what an acquire takes on (log 77), and how a lease is compared with `LSRDC` (log 108). -/
def Sys2Proof.Spec.LoadHitsCopy : Prop :=
  ∀ (s : State) (op : Nat) (o : Op) (a : Acc) (y : Nat) (c : Copy) (t : Thread), OwnOp s op o → o.kind = .load a false none → a.loc = .phys y →
    spaceOf y ≠ 1 → s.threads.get o.th = some t → c.leased s.mod = true → t.fenceAt ≤ c.granted →
    let core := placeCore o.th
    (s.mem.l1.get (copyKey core y) = some c →
      (∀ e ∈ s.ops, e.1 < op → holdsBack e.2 o = true → e.2.allOut = true ∧ e.2.acq = none) →
      LoadsBytes s (.loadComplete op) op o a (overlay (onWay s core) y ((c.data.drop (y % 64)).take a.size)) (c.pois.map (a.record 0))) ∧
    (s.mem.l1.get (copyKey core y) = none → remote core y = true → s.mem.rdc.get (copyKey (dieOf core) y) = some c → blocked s op o = false →
      LoadsBytes s (.loadComplete op) op o a ((c.data.drop (y % 64)).take a.size) (c.pois.map (a.record 0)))

/-- R225, R235: leases. An expiry lies at a multiple of 16 ns, the length or up to 15 ns more after the grant; a copy's stamp is valid while it
lies ahead of device time by no more than `LSRDC`; a fill of an L1 gives the copy an expiry of `LSL1`, never past the limit of the RDC copy it
came from, and the home records the core as a holder until then. A die in a time fault takes no copy (R233).
The model's own choice here: both sides of that limit are counted in whole units of 16 ns (log 108). -/
def Sys2Proof.Spec.LeaseGranted : Prop :=
  (∀ now len, leaseEnd now len % 16 = 0 ∧ now + len ≤ leaseEnd now len ∧ leaseEnd now len < now + len + 16) ∧
  (∀ (c : Copy) (m : Mod), c.exp % 16 = 0 → m.lsrdc < 2 ^ 27 - 32 →
    (m.now < c.exp → c.exp ≤ leaseEnd m.now m.lsrdc → c.leased m = true) ∧ (c.exp ≤ m.now → m.now < c.exp + 2 ^ 27 → c.leased m = false)) ∧
  ∀ (s : State) (q : Ask) (a : Nat) (data : List Byte) (pois : Option Nat) (limit : Option Nat) (granted : Nat),
    let f := fillL1 s q a data pois limit granted
    (leased s (dieOf q.core) = false ∨ l1Room s q.core a = none → f = s) ∧
    (∀ s1, leased s (dieOf q.core) = true → l1Room s q.core a = some s1 → ∃ c d, f.mem.l1.get (copyKey q.core a) = some c ∧
      (limit = none → c.exp = leaseEnd s.mod.now s.mod.lsl1) ∧ (∀ l, limit = some l → c.exp = min l (leaseEnd s.mod.now s.mod.lsl1)) ∧
      f.mem.dir.get (a / 64) = some d ∧ (q.core, c.exp) ∈ d.holders ∧ c.data = data ∧ c.pois = pois ∧ c.granted = granted ∧ c.dirty = false)

/-- R225: HOME_READ of a load that nothing holds back and no copy serves binds the load to the bytes and the poison that its home
holds, with those of the core's stores on their way where its L1 holds the line (R238). Its thread and every other operation stay as they are. -/
def Sys2Proof.Spec.HomeReadBinds : Prop :=
  ∀ (s : State) (op : Nat) (o : Op) (a : Acc) (y : Nat), s.ops.get op = some o → o.kind = .load a false none → a.loc = .phys y →
    spaceOf y ≠ 1 → blocked s op o = false → l1Copy s (askOf s o.th a) y = none → rdcCopy s (askOf s o.th a) y = none →
    let v := homeValue s y a.size
    ∃ s', exec (.homeRead op) s = .next s' ∧
      s'.ops.get op = some { o with kind := .load a false (some (viewBehind s (placeCore o.th) y v.1, v.2)) } ∧
      (∀ k, k ≠ op → s'.ops.get k = s.ops.get k) ∧ s'.threads = s.threads ∧ s'.groups = s.groups ∧ s'.teams = s.teams ∧ s'.mod = s.mod

namespace Sys2Proof.Spec

/-- The bytes at `y` are `bs`, and no other byte of memory changes. -/
def WritesAt (s : State) (y : Nat) (bs : List Byte) (s' : State) : Prop :=
  Memory.read s'.mem.cells y bs.length = bs ∧ ∀ b, b < y ∨ y + bs.length ≤ b → Memory.get s'.mem.cells b = Memory.get s.mem.cells b

/-- A write of `bs` within a host sector, through a page of policy `pol`, host-noncoherent where `nc`. It stands in the proxy RDC, dirty, in the copy
that is there or that the write brings in, whose other bytes stay; the RDC gives up a line at most, for room. It stands in the host's memory where
the policy is uncached and no copy is there, or where the RDC can make no room (R207 to R209, R229, R230). -/
def HostWrites (s : State) (pol : Nat) (nc : Bool) (y : Nat) (bs : List Byte) (s' : State) : Prop :=
  let key := copyKey (homeDie y) y
  let old := proxyFill s y nc
  let past := proxyCopy s.mem y = none ∧ pol = 3 ∧ nc = false
  (¬ past → (rdcRoom s (homeDie y) y).isSome = true → ∃ n r c, rdcRoom { s with tick := n } (homeDie y) y = some r ∧
    s'.mem.cells = r.mem.cells ∧ (∀ k, k ≠ key → s'.mem.rdc.get k = r.mem.rdc.get k) ∧ s'.mem.rdc.get key = some c ∧ c.dirty = true ∧
    c.nc = (old.nc && nc) ∧ c.pois = (if bs.length = 64 then none else old.pois) ∧
    (old.data.length = 64 → ∀ i < 64, c.data.getD i 0 = if y % 64 ≤ i ∧ i < y % 64 + bs.length then bs.getD (i - y % 64) 0 else old.data.getD i 0)) ∧
  (past ∨ rdcRoom s (homeDie y) y = none → s'.mem.rdc = s.mem.rdc ∧ WritesAt s y bs s') ∧
  ((rdcLines s (homeDie y)).contains (y / 256) = true ∨ (rdcLines s (homeDie y)).length < 131072 → ∀ n,
    rdcRoom { s with tick := n } (homeDie y) y = some { s with tick := n })

/-- A write of `bs` within a device or host sector, at its home. -/
def HomeWrites (s : State) (pol : Nat) (nc : Bool) (y : Nat) (bs : List Byte) (s' : State) : Prop :=
  (spaceOf y = 0 → WritesAt s y bs s') ∧ (spaceOf y = 2 → HostWrites s pol nc y bs s')

/-- The release clocks of threads `ths` after their core's write at the home of `y`: they rise to the GWCT of R226, the latest expiry over the
sector's holders but the core's own L1, device time where that has passed, and provisional where revocations were sent. -/
def HomeClock (s : State) (core y : Nat) (ths : List Nat) (s' : State) : Prop :=
  let d := s.mem.dir.getD (y / 64) {}
  let holders := d.holders.filter (fun h => decide (h.1 ≠ core))
  let e := holders.foldl (fun m h => max m (holderExp s h)) d.lost
  let revokes := 256 < e - s.mod.now ∧ d.lost ≤ s.mod.now ∧ ∃ h ∈ holders, holderDeaf s h = false
  let threads := fun (g : Thread → Thread) => ∀ p, s'.threads.get p = (s.threads.get p).map (fun t => if p ∈ ths then g t else t)
  (revokes → threads (fun t => { t with provs := t.provs ++ [(s.serial, e)].filter (fun p => !t.provs.contains p) }) ∧
    s'.mem.revs.get s.serial = some { sector := y / 64, left := (holders.filter (fun h => !holderDeaf s h)).map (·.1), e := e }) ∧
  (¬ revokes → threads (fun t => { t with rclk := max t.rclk (max s.mod.now e) }) ∧ s'.mem.revs = s.mem.revs)

/-- A store that nothing holds back and whose release is done. -/
structure StoreReady (s : State) (op : Nat) (o : Op) (a : Acc) (data : List Byte) : Prop where
  held : s.ops.get op = some o
  kind : o.kind = .store a data
  ths : o.ths = []
  grps : o.grps.Nodup
  free : blocked s op o = false
  released : o.rel.isSome = true → o.relDone = true
  data : data ≠ []
  wf : Memory.wf s.mem.cells = true

end Sys2Proof.Spec

/-- R206, R208, R219, R226, R227, R229, R230: STORE_PERFORM of a store that nothing holds back and whose release is done. In the scratchpad, in
device memory and in host memory, once no earlier store of its core to those bytes is on its way, the stored bytes, and no others, change: those of a
host line in the proxy RDC, or behind it; the store's operation ends; and its thread's release clock rises: to device time for the scratchpad; to
the GWCT of R226 for device and host memory.
The model's own choices here: what its release waits for (log 17), and where a host line stands for which the RDC has no room (log 91). -/
def Sys2Proof.Spec.StorePerformed : Prop :=
  ∀ (s : State) (op : Nat) (o : Op) (a : Acc) (data : List Byte), StoreReady s op o a data →
    (∀ tm off team, a.loc = .scratch tm off → s.teams.get tm = some team → Memory.wf team.scratch = true →
      Ends s (.storePerform op) op o (fun pl t => if pl = o.th then { t with rclk := max t.rclk s.mod.now } else t) (fun s' =>
        s'.mem = s.mem ∧ (∀ k, k ≠ tm → s'.teams.get k = s.teams.get k) ∧ ∃ team', s'.teams.get tm = some team' ∧
          team' = { team with scratch := team'.scratch, spois := team'.spois } ∧ Memory.read team'.scratch off data.length = data ∧
          ∀ b, b < off ∨ off + data.length ≤ b → Memory.get team'.scratch b = Memory.get team.scratch b)) ∧
    (∀ y, a.loc = .phys y → spaceOf y = 0 ∨ spaceOf y = 2 → hostGone s y = false → y % 64 + data.length ≤ 64 →
      behindStore s (placeCore o.th) y data.length o.sent = false →
      ∃ s', exec (.storePerform op) s = .next s' ∧ Ended s op o s' ∧ HomeWrites s a.pol (a.kind == 3) y data s' ∧
        HomeClock s (placeCore o.th) y [o.th] s')

/-- R232, R364, R365: STORE_PERFORM at a peer: the bytes stored there, and no others, change; the thread's clock and its window, which was set at
issue, stay, and while the route holds and nothing holds the store back device time does not pass the start of window N + 2 before the store is
performed. Where the route was lost it is not known whether the bytes changed. Where no port to the host is up a store to a host line is discarded
and poisons its sector. -/
def Sys2Proof.Spec.StoreAway : Prop :=
  ∀ (s : State) (op : Nat) (o : Op) (a : Acc) (data : List Byte) (y : Nat), StoreReady s op o a data → a.loc = .phys y →
    y % 64 + data.length ≤ 64 →
    (spaceOf y = 1 → sendHeld s (peerOf y) = false →
      (routed s (peerOf y) = true → o.lost = none →
        Ends s (.storePerform op) op o (fun _ t => t) (fun s' => WritesAt s y data s' ∧ s'.mem.rdc = s.mem.rdc ∧ s'.mod = s.mod) ∧
        ∀ n, o.win = some n → s.mod.desync = false → ∀ ns,
          ((elapse s ns).mod.now : Int) ≤ max (s.mod.now : Int) (((n + 2) * s.mod.fwin : Nat) - s.mod.ptp)) ∧
      (routed s (peerOf y) = false ∨ o.lost.isSome = true →
        Ends s (.storePerform op) op o (fun _ t => t) (fun s' => (WritesAt s y data s' ∨ s'.mem.cells = s.mem.cells) ∧ s'.mod = s.mod))) ∧
    (hostGone s y = true → behindStore s (placeCore o.th) y data.length o.sent = false →
      Ends s (.storePerform op) op o (fun _ t => t) (fun s' => homePois s'.mem y = some 0x19 ∧
        (proxyCopy s.mem y ≠ none ∨ rdcRoom s (homeDie y) y = none → s'.mem.cells = s.mem.cells)))

/-- R206, R208, R219, R226, R227, R232, R364, R365: stores performed in the scratchpad, in device and host memory and at peers. -/
def Obligations.StorePerforms : Prop := StorePerformed ∧ StoreAway

/-- R226, R238: a revocation received by an L1 drops its copy, unless a write-through of its core to the line is not yet acknowledged, where the
copy stays without its lease; by an RDC, its copy and the L1 copies of its die; and the last acknowledgement gives every release clock that
waits for it the final GWCT: the expiry, or device time if that is earlier.
The model's own choice here: that a revocation which reaches an RDC also takes the L1 copies of its die (log 19). -/
def Obligations.Revocation : Prop :=
  ∀ (s : State) (rev : Nat) (r : Rev), s.mem.revs.get rev = some r →
    (∀ h ∈ r.left, h < 192 → ∀ c, pinned s h r.sector = true → s.mem.l1.get (h * 2 ^ 56 + r.sector) = some c →
      ∃ s', exec (.revocationReceive rev h) s = .next s' ∧
        s'.mem.l1.get (h * 2 ^ 56 + r.sector) = some { c with exp := lapsed s.mod.now } ∧
        s'.mem.revs.get rev = some { r with left := r.left.filter (· != h) } ∧ s'.threads = s.threads ∧ s'.mem.cells = s.mem.cells) ∧
    (∀ h ∈ r.left, h < 192 → pinned s h r.sector = false →
      ∃ s', exec (.revocationReceive rev h) s = .next s' ∧ s'.mem.l1.get (h * 2 ^ 56 + r.sector) = none ∧
        s'.mem.revs.get rev = some { r with left := r.left.filter (· != h) } ∧ s'.threads = s.threads ∧ s'.mem.cells = s.mem.cells ∧
        (∀ k, k ≠ h * 2 ^ 56 + r.sector → s'.mem.l1.get k = s.mem.l1.get k)) ∧
    (∀ h ∈ r.left, 192 ≤ h →
      (∀ i < 48, pinned s (48 * (h - 192) + i) r.sector = false) →
      ∃ s', exec (.revocationReceive rev h) s = .next s' ∧ s'.mem.rdc.get ((h - 192) * 2 ^ 56 + r.sector) = none ∧
        (∀ i < 48, s'.mem.l1.get ((48 * (h - 192) + i) * 2 ^ 56 + r.sector) = none) ∧
        s'.mem.revs.get rev = some { r with left := r.left.filter (· != h) } ∧ s'.threads = s.threads) ∧
    (r.left = [] → ∃ s', exec (.revocationAck rev) s = .next s' ∧ s'.mem = { s.mem with revs := s.mem.revs.del rev, wrote := s'.mem.wrote } ∧
      ∀ pl t, s.threads.get pl = some t → s'.threads.get pl = some (if t.provs.any (fun p => p.1 == rev) then
        { t with rclk := max t.rclk (min r.e s.mod.now), provs := t.provs.filter (fun p => p.1 != rev), seen := t.seen.settle rev (min r.e s.mod.now) }
        else { t with seen := t.seen.settle rev (min r.e s.mod.now) }))

/-- R240, R328: RELEASE_COMPLETE of an operation that nothing holds back: it completes exactly where the scope's conditions hold, as
`releaseReady` says, and then marks the operation; at scopes d, s and f a user thread's release takes the next ordinal of its team.
The model's own choice here: the clocks that a release passes on to its team (log 77). -/
def Sys2Proof.Spec.ReleaseCompletes : Prop :=
  ∀ (s : State) (op : Nat) (o : Op) (sc : Nat), s.ops.get op = some o → o.rel = some sc →
    (releaseReady s op o = false ∨ blocked s op o = true → exec (.releaseComplete op) s = .next s) ∧
    (releaseReady s op o = true → blocked s op o = false → (∃ m q w, o.kind = .fence m q w) ∨ (∃ a d, o.kind = .store a d) →
      ∃ s', exec (.releaseComplete op) s = .next s' ∧ (∃ y, s'.ops.get op = some y ∧ y = { o with relDone := true, ord := y.ord }) ∧
        (∀ k, k ≠ op → s'.ops.get k = s.ops.get k) ∧ s'.threads = s.threads ∧ s'.mem = s.mem ∧
        (∀ t, s.threads.get o.th = some t → isSup o.th = true → s.teams.get t.team = none → s'.teams = s.teams ∧
          s'.supRel = s.supRel.put (placeCore o.th) ((s.supRel.getD (placeCore o.th) {}).join t.clk)) ∧
        ∀ t tm, s.threads.get o.th = some t → isSup o.th = false → s.teams.get t.team = some tm →
          let passed := { tm with rel := tm.rel.join t.clk }
          (sc ≤ 1 → s'.teams.get t.team = some passed ∧ s'.mod = s.mod) ∧
          (2 ≤ sc → s'.teams.get t.team = some { passed with rcnt := min (tm.rcnt + 1) 65535 } ∧
            s'.mod = { s.mod with relWin := laterWin s.mod.relWin t.pwin } ∧ ∃ y, s'.ops.get op = some y ∧ y.ord = some tm.rcnt))

/-- R240: what the release of an operation waits for, at each scope: at g and t every earlier access of the thread; at d, s and f also
device time at the release clock and every provisional GWCT final or past; at s also every earlier CFLUSH; at f also, after a peer
access, the start of window N + 2, and the fabric in step.
The model's own choice here: what a release waits for where R240 leaves it open (log 17). -/
def Sys2Proof.Spec.ReleaseCondition : Prop :=
  ∀ (s : State) (k th sc : Nat) (t : Thread), s.threads.get th = some t →
    (releasedAt s k th sc = true ↔
      (∀ e ∈ s.ops, e.1 < k → th ∈ e.2.threads → e.2.isAccess = false) ∧
      (2 ≤ sc → t.rclk ≤ s.mod.now ∧ (∀ p ∈ t.provs, p.2 ≤ s.mod.now ∨ s.mem.revs.get p.1 = none)) ∧
      (sc = 4 → ∀ e ∈ s.ops, e.1 < k → th ∈ e.2.threads → ∀ a b c d, e.2.kind ≠ .cflush a b c d) ∧
      (sc = 3 → s.mod.desync = false ∧ ∀ n, t.pwin = some n → ((n + 2) * s.mod.fwin : Int) ≤ s.mod.now + s.mod.ptp))

/-- R244, R250: FENCE_COMPLETE. A fence whose release is done, whose earlier loads and atomics have completed where it acquires, and whose
window has come where it is an sc fence of fabric scope, ends; an sc fence of scope d or wider makes the thread's later loads ignore
leases granted up to now, and one that acquires takes on what it acquired. An sc fence waits, of fabric scope, while another of an earlier window, or of
its window and a lower core, or core and home lane, is still to complete; of another scope it does not complete where one of the same scope
instance, by core and home lane its later, has completed in this nanosecond.
The model's own choices here: the window in which a fabric-scope sc fence completes (log 26), and what an acquire takes on (log 77). -/
def Sys2Proof.Spec.FenceCompletes : Prop :=
  ∀ (s : State) (op : Nat) (o : Op) (sem sc win : Nat), s.ops.get op = some o → o.kind = .fence sem sc win → o.ths = [] → o.grps.Nodup →
    (o.rel.isSome = true → o.relDone = true) → (sem ≠ 2 → fenceLoads s op o = false) → (sc = 3 → s.mod.desync = false ∧ (sem = 0 → win ≠ 0 ∧ win ≤ s.window)) →
    let rank := fun th : Nat => placeCore th * 32 + placeLane th
    let first := sc = 3 ∧ ∃ e ∈ s.ops, ∃ w, e.2.kind = .fence 0 3 w ∧ w ≠ 0 ∧ (w < win ∨ w = win ∧ rank e.2.th < rank o.th)
    let passed := sc ≠ 3 ∧ ∃ f ∈ s.mod.fences, f.inst = fenceInst s o.th sc ∧ f.at0 = s.mod.now ∧ rank o.th < f.rank
    (sem = 0 → first ∨ passed → exec (.fenceComplete op) s = .next s) ∧
    (sem ≠ 0 ∨ ¬ first ∧ ¬ passed → Ends s (.fenceComplete op) op o (fun pl t => if pl = o.th then
        (let u := acquired s pl (if sem = 2 then none else some sc) (if sem = 0 ∧ 2 ≤ sc then { t with fenceAt := s.mod.now + 1 } else t)
         if sem ≠ 2 ∧ 1 ≤ sc then { u.raise t.seen with seen := {} } else u) else t)
      (fun s' => s'.mem = s.mem ∧ s'.teams = s.teams ∧ s'.mod = { s.mod with fences := s'.mod.fences } ∧
        (sem = 0 → sc ≠ 3 → { inst := fenceInst s o.th sc, at0 := s.mod.now, rank := rank o.th } ∈ s'.mod.fences)))

namespace Sys2Proof.Spec

/-- An atomic is one access: all but ADD, MIN and MAX on two halves (R268). -/
def oneAccess (cas : Bool) (aop ty : Nat) : Prop := cas = true ∨ (ty ≠ 6 ∧ ty ≠ 7) ∨ 3 ≤ aop

end Sys2Proof.Spec

/-- R267, R268, R269: what an atomic computes: the lanes take their turns in order, each reads what the ones before it left, a CAS writes where
its compare value is found, the others write the operation's result; ADD, MIN and MAX on halves are two accesses (R268); INC and DEC wrap at the
operand; and integer sums, minima and bitwise operations are those of the type. -/
def Obligations.AtomicSerial : Prop :=
  (∀ st v, atomSerial st [] v = ([], v, none)) ∧
  (∀ st (p : Part) (r : List Part) v,
    let n := (st.f p v).getD v
    (p.old = none → (atomSerial st (p :: r) v).1 = { p with old := some (v * 2 ^ (8 * st.off), none) } :: (atomSerial st r n).1) ∧
    (atomSerial st (p :: r) v).2.1 = (atomSerial st r n).2.1) ∧
  (∀ (o : Op) cas aop ty n first (p : Part) v, let st := atomStep o cas aop ty n first
    (oneAccess cas aop ty → st.off = 0 ∧ st.n = n ∧ st.half = none ∧
      st.f p v = if cas then (if v = p.cmp then some p.opnd else none) else some (atomOp aop ty v p.opnd)) ∧
    (¬ oneAccess cas aop ty → ∃ h, h ≤ 1 ∧ st.off = 2 * h ∧ st.n = 2 ∧ st.half = some h ∧ (∀ k ≤ 1, o.half = some k → h = 1 - k) ∧
      st.f p v = some (halfOp aop ty v (p.opnd / 2 ^ (16 * h) % 2 ^ 16)))) ∧
  (∀ (a b : Word), let f := fun aop ty => atomOp aop ty a.toNat b.toNat
    f 0 0 = (a + b).toNat ∧ f 0 1 = (a + b).toNat ∧ f 1 0 = (if a.sle b then a else b).toNat ∧ f 1 1 = (if a ≤ b then a else b).toNat ∧
    f 2 0 = (if a.sle b then b else a).toNat ∧ f 2 1 = (if a ≤ b then b else a).toNat ∧ f 3 1 = (a &&& b).toNat ∧ f 4 1 = (a ||| b).toNat ∧
    f 5 1 = (a ^^^ b).toNat ∧ f 6 1 = b.toNat ∧ f 7 1 = (if b ≤ a then 0 else a + 1).toNat ∧
    f 8 1 = (if a = 0 ∨ b < a then b else a - 1).toNat) ∧
  (∀ (a b : DWord), let f := fun aop ty => atomOp aop ty a.toNat b.toNat
    f 0 3 = (a + b).toNat ∧ f 1 2 = (if a.sle b then a else b).toNat ∧ f 2 3 = (if a ≤ b then b else a).toNat ∧ f 6 3 = b.toNat)

namespace Sys2Proof.Spec

/-- An atomic request, no AtomicOp, that nothing holds back: no event of it stands open, no instruction is still being issued to its lanes (R269), and
its releases are done. -/
structure AtomicReady (s : State) (op : Nat) (o : Op) (a : Acc) (pl : APlace) (cas : Bool) (aop ty : Nat) (ps : List Part) : Prop where
  held : s.ops.get op = some o
  kind : o.kind = .atomic a pl cas aop ty ps false
  place : pl ≠ .pcie
  out : o.out = none
  free : blocked s op o = false
  issued : ∀ e ∈ s.issues, e.2.batch = 0 ∨ e.2.batch ≠ o.batch
  released : o.rel.isSome = true → o.relDone = true
  size : a.size ≠ 0
  wf : Memory.wf s.mem.cells = true

/-- The atomic keeps what its lanes have read, `ps`: it is performed, or the first of its halves is (R268). Other operations stay. -/
def AtomicKeeps (s : State) (op : Nat) (o : Op) (a : Acc) (pl : APlace) (cas : Bool) (aop ty : Nat) (ps : List Part) (half : Option Nat)
    (s' : State) : Prop :=
  (oneAccess cas aop ty ∨ o.half.isSome = true → s'.ops.get op = some { o with kind := .atomic a pl cas aop ty ps true }) ∧
  (¬ oneAccess cas aop ty → o.half = none → s'.ops.get op = some { o with kind := .atomic a pl cas aop ty ps false, half := half }) ∧
  ∀ k, k ≠ op → s'.ops.get k = s.ops.get k

/-- Every lane of the atomic has read poison of cause `c`; nothing is written, no thread changes. -/
def AtomicPoisoned (s : State) (op : Nat) (o : Op) (a : Acc) (pl : APlace) (cas : Bool) (aop ty : Nat) (ps : List Part) (c : Nat) (s' : State) : Prop :=
  s'.ops.get op = some { o with kind := .atomic a pl cas aop ty (ps.map (fun p => { p with old := some (0, some c) })) true } ∧
  (∀ k, k ≠ op → s'.ops.get k = s.ops.get k) ∧ s'.threads = s.threads ∧ s'.teams = s.teams

end Sys2Proof.Spec

/-- R262, R268, R269, R272: ATOMIC_PERFORM in the scratchpad, where every scope's place is: unless a sector is poisoned, every lane reads and writes
the bytes there in turn; each lane keeps what it read; no other byte changes; and the clocks of its threads rise to device time. Of an atomic on
halves, the first event does one half. Poison there is read by every lane and nothing is written.
The model's own choice here: how an ADD, MIN or MAX on halves is two events (log 21). -/
def Sys2Proof.Spec.AtomicScratch : Prop :=
  ∀ (s : State) (op : Nat) (o : Op) (a : Acc) (pl : APlace) (cas : Bool) (aop ty : Nat) (ps : List Part) (tm off : Nat) (team : Team),
    AtomicReady s op o a pl cas aop ty ps → a.loc = .scratch tm off → s.teams.get tm = some team → Memory.wf team.scratch = true →
    let st := atomStep o cas aop ty a.size (Config.freeBit s.tick)
    let at0 := off + st.off
    let r := atomSerial st ps (leNat (scratchBytes s tm at0 st.n))
    (scratchPois s tm at0 st.n = none → ∃ s' team', exec (.atomicPerform op) s = .next s' ∧ AtomicKeeps s op o a pl cas aop ty r.1 st.half s' ∧
      s'.mem = s.mem ∧ s'.teams.get tm = some team' ∧ (∀ k, k ≠ tm → s'.teams.get k = s.teams.get k) ∧
      (r.2.2.isSome = true → r.2.1 < 256 ^ st.n → leNat (Memory.read team'.scratch at0 st.n) = r.2.1) ∧
      (∀ b, b < at0 ∨ at0 + st.n ≤ b ∨ r.2.2 = none → Memory.get team'.scratch b = Memory.get team.scratch b) ∧
      ∀ p, s'.threads.get p = (s.threads.get p).map (fun t => if ∃ q ∈ ps, q.th = p then { t with rclk := max t.rclk s.mod.now } else t)) ∧
    (∀ c, scratchPois s tm at0 st.n = some c → ∃ s', exec (.atomicPerform op) s = .next s' ∧ s'.mem = s.mem ∧
      AtomicPoisoned s op o a pl cas aop ty ps c s')

/-- R226, R262, R268, R269, R272, R273: ATOMIC_PERFORM at a home: the atomic unit of the device line's slice, or of the host line's proxy die. Once no
store of the core to those bytes is on its way, the lanes read the home's bytes in turn; where some lane writes, the last value stands there, as a
store's bytes do, and every lane's release clock rises to its GWCT; a CAS that fails in every lane writes nothing. Poison there, or no port to the
host, poisons every lane.
The model's own choices here: how an ADD, MIN or MAX on halves is two events (log 21), that a CAS which fails leaves the clocks (log 117), and where a
host line stands for which the RDC has no room (log 91). -/
def Sys2Proof.Spec.AtomicHome : Prop :=
  ∀ (s : State) (op : Nat) (o : Op) (a : Acc) (pl : APlace) (cas : Bool) (aop ty : Nat) (ps : List Part) (y0 : Nat),
    AtomicReady s op o a pl cas aop ty ps → a.loc = .phys y0 → pl = .home ∨ pl = .proxy ∨ pl = .proxySys →
    let st := atomStep o cas aop ty a.size (Config.freeBit s.tick)
    let y := y0 + st.off
    let r := atomSerial st ps (homeNat s.mem y st.n)
    (hostGone s y = true → ∃ s', exec (.atomicPerform op) s = .next s' ∧ s'.mem = s.mem ∧ AtomicPoisoned s op o a pl cas aop ty ps 0x19 s') ∧
    (hostGone s y = false → spaceOf y = 0 ∨ spaceOf y = 2 → y % 64 + st.n ≤ 64 → behindStore s (placeCore o.th) y st.n none = false →
      (∀ c, homePois s.mem y = some c → ∃ s', exec (.atomicPerform op) s = .next s' ∧ s'.mem.cells = s.mem.cells ∧ s'.mem.rdc = s.mem.rdc ∧
        AtomicPoisoned s op o a pl cas aop ty ps c s') ∧
      (homePois s.mem y = none → ∃ s', exec (.atomicPerform op) s = .next s' ∧ AtomicKeeps s op o a pl cas aop ty r.1 st.half s' ∧
        (r.2.2.isSome = true → HomeWrites s a.pol (a.kind == 3) y (bytesOf r.2.1 st.n) s' ∧ HomeClock s (placeCore o.th) y (ps.map (·.th)) s') ∧
        (r.2.2 = none → s'.mem.cells = s.mem.cells ∧ s'.threads = s.threads ∧ s'.mem.revs = s.mem.revs)))

/-- R262, R268, R269, R272: ATOMIC_PERFORM in the L1 of the issuing core, in two events. The first reads: the L1 copy that may serve, with the core's
stores on their way, else what it is filled with, from the RDC copy that may serve or the home; and where some lane writes, the last value leaves
the L1. The second performs that write at its home, as a store's, and raises every lane's clock to its GWCT.
The model's own choices here: the two events, and that the line is brought in as under policy normal (log 20, 116); how an ADD, MIN or MAX on halves
is done in turn (log 21). -/
def Sys2Proof.Spec.AtomicInL1 : Prop :=
  (∀ (s : State) (op : Nat) (o : Op) (a : Acc) (cas : Bool) (aop ty : Nat) (ps : List Part) (y0 : Nat),
    AtomicReady s op o a .l1 cas aop ty ps → a.loc = .phys y0 →
    let st := atomStep o cas aop ty a.size (Config.freeBit s.tick)
    let y := y0 + st.off
    let q := { askOf s o.th a with pol := 0, rc := 0 }
    let home := (overlay (onWay s q.core) y (homeBytes s.mem y st.n), homePois s.mem y)
    let copy := fun (c : Copy) => (c.view s q.core y st.n, c.pois)
    hostGone s y = false → spaceOf y = 0 ∨ spaceOf y = 2 → y % 64 + st.n ≤ 64 → (∀ e ∈ s.mem.rdc, e.2.data.length = 64) →
    ∃ s' v, exec (.atomicPerform op) s = .next s' ∧ s'.threads = s.threads ∧ s'.mem.revs = s.mem.revs ∧
      (∀ c, l1Copy s q y = some c → v = copy c ∧ s'.mem.cells = s.mem.cells ∧ s'.mem.rdc = s.mem.rdc) ∧
      (∀ c, l1Copy s q y = none → rdcCopy s q y = some c → v = copy c ∨ v = home) ∧
      (l1Copy s q y = none → rdcCopy s q y = none → v = home) ∧
      ((∀ die, (rdcLines s die).length < 131072) → s'.mem.cells = s.mem.cells) ∧
      let r := atomSerial st ps (leNat v.1)
      (∀ c, v.2 = some c → AtomicPoisoned s op o a .l1 cas aop ty ps c s') ∧
      (v.2 = none → r.2.2 = none → AtomicKeeps s op o a .l1 cas aop ty r.1 st.half s') ∧
      (v.2 = none → r.2.2.isSome = true → (∀ k, k ≠ op → s'.ops.get k = s.ops.get k) ∧ s'.ops.get op = some { o with
        kind := .atomic a .l1 cas aop ty r.1 false, sent := some s.serial, out := some (y, bytesOf r.2.1 st.n) })) ∧
  ∀ (s : State) (op : Nat) (o : Op) (a : Acc) (cas : Bool) (aop ty : Nat) (ps : List Part) (y0 z : Nat) (bs : List Byte),
    s.ops.get op = some o → o.kind = .atomic a .l1 cas aop ty ps false → a.loc = .phys y0 → o.out = some (z, bs) → bs ≠ [] →
    Memory.wf s.mem.cells = true → hostGone s z = false → spaceOf z = 0 ∨ spaceOf z = 2 → z % 64 + bs.length ≤ 64 →
    behindStore s (placeCore o.th) z bs.length o.sent = false →
    ∃ s', exec (.atomicPerform op) s = .next s' ∧ HomeWrites s a.pol (a.kind == 3) z bs s' ∧ HomeClock s (placeCore o.th) z (ps.map (·.th)) s' ∧
      (∀ k, k ≠ op → s'.ops.get k = s.ops.get k) ∧
      (a.size = bs.length ∨ o.half.isSome = true →
        s'.ops.get op = some { o with kind := .atomic a .l1 cas aop ty ps true, sent := none, out := none }) ∧
      (a.size ≠ bs.length → o.half = none →
        s'.ops.get op = some { o with kind := .atomic a .l1 cas aop ty ps false, sent := none, out := none, half := some ((z - y0) / 2) })

/-- R232, R262, R268, R269, R272, R364: ATOMIC_PERFORM at the home slice of a peer: the lanes read the bytes there in turn, and the last value that a
lane writes stands there, and no other byte changes; the clocks of its threads and their windows, which were set at issue, stay. While the route
holds and nothing holds the atomic back device time does not pass the start of window N + 2 before it is performed. Poison there, or a route that
is lost, poisons every lane.
The model's own choice here: how an ADD, MIN or MAX on halves is two events (log 21). -/
def Sys2Proof.Spec.AtomicAtPeer : Prop :=
  ∀ (s : State) (op : Nat) (o : Op) (a : Acc) (pl : APlace) (cas : Bool) (aop ty : Nat) (ps : List Part) (y0 : Nat),
    AtomicReady s op o a pl cas aop ty ps → a.loc = .phys y0 →
    let st := atomStep o cas aop ty a.size (Config.freeBit s.tick)
    let y := y0 + st.off
    let r := atomSerial st ps (homeNat s.mem y st.n)
    let stay := fun (s' : State) => s'.threads = s.threads ∧ s'.mem.rdc = s.mem.rdc ∧ s'.mod = s.mod
    spaceOf y = 1 → y % 64 + st.n ≤ 64 → sendHeld s (peerOf y) = false →
    (routed s (peerOf y) = false ∨ o.lost.isSome = true → ∃ s', exec (.atomicPerform op) s = .next s' ∧ s'.mem = s.mem ∧
      AtomicPoisoned s op o a pl cas aop ty ps 0x1A s') ∧
    (routed s (peerOf y) = true → o.lost = none →
      (∀ c, homePois s.mem y = some c → ∃ s', exec (.atomicPerform op) s = .next s' ∧ s'.mem = s.mem ∧
        AtomicPoisoned s op o a pl cas aop ty ps c s') ∧
      (homePois s.mem y = none → ∃ s', exec (.atomicPerform op) s = .next s' ∧ AtomicKeeps s op o a pl cas aop ty r.1 st.half s' ∧ stay s' ∧
        (r.2.2.isSome = true → WritesAt s y (bytesOf r.2.1 st.n) s') ∧ (r.2.2 = none → s'.mem.cells = s.mem.cells)) ∧
      ∀ n, o.win = some n → s.mod.desync = false → routed s (peerOf y0) = true → sendHeld s (peerOf y0) = false → ∀ ns,
        ((elapse s ns).mod.now : Int) ≤ max (s.mod.now : Int) (((n + 2) * s.mod.fwin : Nat) - s.mod.ptp))

/-- R226, R232, R262, R268, R269, R272, R273, R364: ATOMIC_PERFORM at each place of R262: the scratchpad, the home of a device or host line, the L1 of
the issuing core, where it reads in one event and writes its home in another, and the home slice of a peer. What is read there, what is written, what
each lane keeps, the clock that rises to the GWCT, the window, and how poison and lost routes and ports end it.
The model's own choices here: how an ADD, MIN or MAX on halves is two events (log 21), the two events of an atomic in an L1 and its fill (log 20, 116),
that a CAS which fails leaves the clocks (log 117), and where a host line stands for which the RDC has no room (log 91). -/
def Sys2Proof.Spec.AtomicPerforms : Prop := AtomicScratch ∧ AtomicHome ∧ AtomicInL1 ∧ AtomicAtPeer

/-- R264, R266, R272, R273: ATOMIC_COMPLETE delivers to each lane's destination the value it read, or poison with its record where its host link
was lost, and ends the operation; a RED delivers nothing. A PCIe AtomicOp is sent once the copies of its line are written back and invalidated;
ATOMICOP_COMPLETION of a successful one performs the operation in host memory at that moment and delivers in the same way.
The model's own choices here: what an acquire takes on (log 77), and that an AtomicOp leaves the release clock (log 117). -/
def Sys2Proof.Spec.AtomicsComplete : Prop :=
  (∀ (s : State) (op : Nat) (o : Op) (a : Acc) (pl : APlace) (cas : Bool) (aop ty : Nat) (ps : List Part),
    s.ops.get op = some o → o.kind = .atomic a pl cas aop ty ps true → o.ths = (if o.nd = 0 then [] else ps.map (·.th)) →
    (ps.map (·.th)).Nodup → o.grps.Nodup → (∀ p ∈ ps, p.dst = o.dst ∧ ∃ v, p.old = some (v, none)) →
    ∃ s', exec (.atomicComplete op) s = .next s' ∧ Ended s op o s' ∧ s'.mem = s.mem ∧ s'.teams = s.teams ∧
      (∀ p ∈ ps, ∀ v t, p.old = some (v, none) → s.threads.get p.th = some t →
        s'.threads.get p.th = some (acquired s p.th o.acq (if o.nd = 0 then t else match o.lost with
          | none => reads s o.acq a.loc (bytesOf v a.size) (arrives t o v none)
          | some c => arrives t o 0 (some (a.record 2 c))))) ∧
      (∀ k, (∀ p ∈ ps, p.th ≠ k) → s'.threads.get k = s.threads.get k)) ∧
  (∀ (s : State) (op : Nat) (o : Op) (a : Acc) (cas : Bool) (aop ty : Nat) (p : Part) (y : Nat) (t : Thread),
    s.ops.get op = some o → o.kind = .atomic a .pcie cas aop ty [p] false → o.ths = [p.th] → p.dst = o.dst → o.grps.Nodup → o.nd ≠ 0 →
    pcieOk cas aop ty = true → p.old = none → a.loc = .phys y → spaceOf y = 2 → (hostPort s y).isSome = true → s.threads.get p.th = some t →
    (o.sent = none → o.out = none → blocked s op o = false → (o.rel.isSome = true → o.relDone = true) →
      ∃ s', exec (.atomicPerform op) s = .next s' ∧ s'.ops.get op = some { o with sent := some s.serial } ∧ s'.threads = s.threads ∧
        ∀ j < 4, let x := y / 256 * 4 + j
          s'.mem.rdc.get (homeDie y * 2 ^ 56 + x) = none ∧ ∀ c < 192, pinned s c x = false → s'.mem.l1.get (c * 2 ^ 56 + x) = none) ∧
    (o.sent.isSome = true → o.lost = none → s.mem.pois.get (y / 64) = none →
      let old := leNat (Memory.read s.mem.cells y a.size)
      let r := atomSerial (atomStep o cas aop ty a.size false) [p] old
      ∃ s', exec (.atomicopCompletion op true) s = .next s' ∧ Ended s op o s' ∧
        s'.threads.get p.th = some (acquired s p.th o.acq (reads s o.acq a.loc (bytesOf old a.size) (arrives t o old none))) ∧ (∀ k, k ≠ p.th → s'.threads.get k = s.threads.get k) ∧
        s'.mem.cells = (if r.2.2.isSome then Memory.write s.mem.cells y (bytesOf r.2.1 a.size) else s.mem.cells)))

/-- R120, R135, R200, R220, R221, R222: the other completions. SFU_COMPLETE writes the result with the poison that stands in the
destination; XLQ_COMPLETE one clean translation; CBLOAD_COMPLETE replaces the whole codebook slot, clean, or poisons it with the record;
PREF_COMPLETE, CFLUSH_COMPLETE and SLEEP_WAKE end what they name; the dirty sectors of a range that CFLUSH names are in the host's memory then.
The model's own choices here: that CFLUSH acts in one event, the wake of a sleeping thread (log 24, 72), what XLQ answers where nothing is mapped, and the
private window of the ASID that a supervisor names (log 78, 80). -/
def Sys2Proof.Spec.OtherCompletions : Prop :=
  (∀ (s : State) (op : Nat) (o : Op) (r : Nat) (t : Thread), OwnOp s op o → o.kind = .sfu r → s.threads.get o.th = some t →
    ∃ s', exec (.sfuComplete op) s = .next s' ∧ Ended s op o s' ∧ s'.mem = s.mem ∧ s'.teams = s.teams ∧
      (∀ pl, pl ≠ o.th → s'.threads.get pl = s.threads.get pl) ∧
      s'.threads.get o.th = some ((if t.st = .exited then t else wrN t o.dst r (t.v.getD o.dst {}).pois o.nd).subPend o.dst o.nd)) ∧
  (∀ (s : State) (op : Nat) (o : Op) (va asid : Nat) (user : Bool) (t : Thread), OwnOp s op o → o.kind = .xlq va asid user → o.nd = 4 →
    s.threads.get o.th = some t →
    let who := (envOf s o.th t).who
    Delivers s (.xlqComplete op) op o (xlqValue s (if user then who else { who with asid := asid }) va) none) ∧
  (∀ (s : State) (op : Nat) (o : Op) (k : Nat) (acc : Option Acc) (bad : FRec) (t : Thread) (tm : Team), s.ops.get op = some o →
    o.kind = .cbload k acc bad → o.ths = [] → o.grps.Nodup → blocked s op o = false → s.threads.get o.th = some t →
    s.teams.get t.team = some tm →
    let near := ∀ a y, acc = some a → a.loc ≠ .phys y
    let clean := fun (bs : List Byte) => ({ ents := (List.range 16).map (fun j => BitVec.ofNat 16 (fieldAt bs (2 * j) 2)) } : Codebook)
    let becomes := fun (f : Codebook → Codebook) => Ends s (.cbloadComplete op) op o (fun _ t => t) (fun s' => (near → s'.mem = s.mem) ∧
      s'.teams.get t.team = some { tm with books := tm.books.mapIdx (fun i c => if i = k then f c else c) } ∧
      ∀ j, j ≠ t.team → s'.teams.get j = s.teams.get j)
    (acc = none → becomes (fun c => { c with pois := true, record := bad })) ∧
    (∀ a q off, acc = some a → a.loc = .scratch q off → scratchPois s q off 32 = none → becomes (fun _ => clean (scratchBytes s q off 32))) ∧
    (∀ a y, acc = some a → a.loc = .phys y → spaceOf y ≠ 1 →
      let q := askOf s o.th a
      let v := match l1Copy s q y, rdcCopy s q y with
        | some c, _ => (overlay (onWay s q.core) y ((c.data.drop (y % 64)).take 32), c.pois)
        | none, some c => (viewBehind s q.core y ((c.data.drop (y % 64)).take 32), c.pois)
        | none, none => (viewBehind s q.core y (homeValue s y 32).1, (homeValue s y 32).2)
      (v.2 = none → becomes (fun _ => clean v.1)) ∧ (∀ c, v.2 = some c → becomes (fun b => { b with pois := true, record := a.record 8 c }))) ∧
    (∀ a y, acc = some a → a.loc = .phys y → spaceOf y = 1 → sendHeld s (peerOf y) = false →
      (peerLost s a = true ∨ o.lost.isSome = true → becomes (fun b => { b with pois := true, record := a.record 8 0x1A })) ∧
      (peerLost s a = false → o.lost = none → homePois s.mem y = none → becomes (fun _ => clean (homeBytes s.mem y 32))))) ∧
  (∀ (s : State) (op : Nat) (o : Op) (acc : Option Acc), s.ops.get op = some o → o.kind = .pref acc → o.ths = [] → o.grps.Nodup →
    ∃ s', exec (.prefComplete op) s = .next s' ∧ Ended s op o s' ∧ s'.threads = s.threads ∧ s'.teams = s.teams ∧
      ((∀ e ∈ s.mem.rdc, e.2.dirty = false) → s'.mem.cells = s.mem.cells)) ∧
  (∀ (s : State) (op : Nat) (o : Op) (pa n asid gen : Nat), s.ops.get op = some o → o.kind = .cflush pa n asid gen → o.ths = [] → o.grps.Nodup →
    0 < n → (∀ e ∈ s.ops, e.1 < op → o.th ∉ e.2.threads) → (∀ b, hostGone s b = false) →
    ∃ s', exec (.cflushComplete op) s = .next s' ∧ Ended s op o s' ∧ s'.threads = s.threads ∧ s'.teams = s.teams ∧
      ∀ b, pa ≤ b → b < pa + n → s'.mem.rdc.get (copyKey (homeDie (b / 256 * 256)) b) = none ∧
        (∀ c < 192, pinned s c (b / 64) = false → s'.mem.l1.get (copyKey c b) = none) ∧
        (pa + n ≤ 2 ^ 62 → Memory.wf s.mem.cells = true → (∀ e ∈ s.mem.rdc, e.2.data.length = 64) →
          ∀ c, s.mem.rdc.get (copyKey (homeDie (b / 256 * 256)) b) = some c → c.dirty = true →
            Memory.get s'.mem.cells b = c.data.getD (b % 64) 0)) ∧
  (∀ (s : State) (th : Nat) (t : Thread), s.threads.get th = some t →
    (t.wake ≤ time64 s.mod.now → ∃ s', exec (.sleepWake th) s = .next s' ∧ s' = { s with threads := s'.threads } ∧
      s'.threads.get th = some { t with wake := 0 } ∧ ∀ pl, pl ≠ th → s'.threads.get pl = s.threads.get pl) ∧
    (time64 s.mod.now < t.wake → exec (.sleepWake th) s = .next s))

/-- R216, R217, R225, R238: how a load completes; leases, and reads at the home. -/
def Obligations.LoadsAndLeases : Prop := LoadsComplete ∧ LoadHitsCopy ∧ LeaseGranted ∧ HomeReadBinds

/-- R240, R328: releases. -/
def Obligations.Releases : Prop := ReleaseCompletes ∧ ReleaseCondition

/-- R262, R264, R266, R269, R272: atomics performed and completed. -/
def Obligations.AtomicsEnd : Prop := AtomicPerforms ∧ AtomicsComplete

/-- R120, R135, R200, R220 to R222, R244, R250: the other completions. -/
def Obligations.OperationsEnd : Prop := FenceCompletes ∧ OtherCompletions

/-! ### Ferries, tiers and FWAIT (R246, R247, R254, R274 to R287) -/

namespace Sys2Proof.Spec

/-- The FERRY instructions with the function of each (R275). -/
def ferries (w : W1) (x : ExtE) : List (Instr × Nat) :=
  [(.ferryCopy w x, 0), (.ferryMcast w x, 1), (.ferryGather w x, 2), (.ferryScatter w x, 3), (.ferryExp24 w x, 4), (.ferryCmp24 w x, 5),
   (.ferryTier w x, 6)]

/-- The write of a word at a scratchpad offset of a team that has one. -/
def scratchByte (s : State) (team off : Nat) : Nat := leNat (scratchBytes s team off 1)

/-- A command that was copied from a block at a scratchpad offset. -/
def blockCmd (s : State) (o : Op) (fn q blk : Nat) (t : Thread) : Cmd :=
  { readCmd s t.team (placeCore o.th) o.th fn q (scratchBytes s t.team blk 64) blk true with word := o.word }

/-- An operation of a FERRY that is next in its queue, no earlier FERRY or LMARK having a command for it, and held back by nothing (R246, R274, R280). -/
def FerryNext (s : State) (op : Nat) (o : Op) (fn q blk : Nat) (t : Thread) : Prop :=
  OwnOp s op o ∧ o.kind = .ferry fn q blk true true ∧ o.nd = 2 ∧ s.threads.get o.th = some t ∧ engineHeld s op o.th = false ∧
  queueBefore s op (placeCore o.th) q = false ∧
  cmdRoom s (blockCmd s o fn q blk t) = true

/-- The trap of a FERRY: a thread of another role, a poisoned block offset, a misaligned one, a block that ends beyond the scratchpad. -/
def ferryBad (w : W1) (s : State) (e : Env) (t : Thread) : Option (Trap × Thread) :=
  let b := (srcW e t w.a).toNat
  if e.role ≠ 0 then asIs t { code := 0x09 }
  else if (srcP e t w.a).isBad then asIs t (poisonTrap t (srcP e t w.a) 2)
  else if b % 64 ≠ 0 then asIs t (.ofRec (offsetRec s e b 4 0x10))
  else if e.scru * 4096 < b + 64 then asIs t (.ofRec (offsetRec s e b 4 0x13))
  else none
/-- The trap of an LMARK: a thread of another role, a poisoned layer. -/
def lmarkBad (w : W1) (_ : State) (e : Env) (t : Thread) : Option (Trap × Thread) :=
  if e.role ≠ 0 then asIs t { code := 0x09 }
  else if (srcP e t w.a).isBad then asIs t (poisonTrap t (srcP e t w.a) 7)
  else none

end Sys2Proof.Spec

/-- R275, R280, R286: FERRY issues one command for the first thread that executes it, a producer with a clean, aligned block offset inside
its scratchpad, and holds the issue group until its acceptance; LMARK issues an operation for each thread. The traps of a user thread:
a role other than producer 0x09, poison 0x05, a misaligned block offset 0x10, a block beyond the scratchpad 0x13; those of FERRY for
groups in which every thread that executes it traps, those of LMARK for any group.
The model's own choice here: that a FERRY waits for all earlier stores of its thread, and the order of LMARK (log 23, 33); the record of an
offset past the window (log 97). -/
def Obligations.FerryIssue : Prop :=
  (∀ (w : W1) (x : ExtE) (i : Instr) (fn : Nat), (i, fn) ∈ ferries w x →
    ∀ (s : State) (f : Info) (z : Issue) (pl : Nat) (t : Thread) (rest : List (Env × Thread)),
      AtWord s i f z → NoTrap s i f z → FreshOps s → slotFull i s x.slot.toNat = false →
      participants i s = (envOf s pl t, t) :: rest → (envOf s pl t).sup = false → (envOf s pl t).role = 0 →
      (srcP (envOf s pl t) t w.a).isBad = false →
      let b := (srcW (envOf s pl t) t w.a).toNat
      b % 64 = 0 → b + 64 ≤ (envOf s pl t).scru * 4096 →
      ∃ s' y z', exec i s = .next s' ∧
        s' = { s with threads := s'.threads, ops := s'.ops, groups := s'.groups, issues := s'.issues, serial := s'.serial } ∧
        s'.ops.get s.serial = some y ∧ y.kind = .ferry fn (x.imm.toNat % 2) b true true ∧ y.th = pl ∧ y.ths = [pl] ∧ y.grps = [placeGroup pl] ∧
        y.slot = some x.slot.toNat ∧ y.dst = w.d.toNat ∧ y.nd = 2 ∧ (∀ k, k < s.serial → s'.ops.get k = s.ops.get k) ∧
        s'.issues.get s.cur = some z' ∧ z' = { z with stall := true, served := pl :: (z.lanes.takeWhile (· != pl)).filter (fun q => !s.guardOff f.w.g.toNat q), holds := s.serial :: z.holds } ∧
        s'.threads.get pl = some (t.addPend w.d.toNat 2) ∧ ∀ q, q ≠ pl → s'.threads.get q = s.threads.get q) ∧
  (∀ (w : W1) (x : ExtE), Issues (.lmark w x) x.slot
    (fun _ e t => e.sup = false ∧ e.role = 0 ∧ (srcP e t w.a).isBad = false) same
    (fun _ e t y => y.kind = .lmark (srcW e t w.a).toNat ∧ y.ths = [])) ∧
  (∀ (w : W1) (x : ExtE) (i : Instr) (fn : Nat), (i, fn) ∈ ferries w x →
    MayTrap i (fun s f z => slotRoom i x.slot s f z ∧ ∀ pl t, Runs s i f z pl t → ferryBad w s (envOf s pl t) t ≠ none) (ferryBad w)
      (fun _ _ _ _ => False)) ∧
  (∀ (w : W1) (x : ExtE), MayTrap (.lmark w x) (slotRoom (.lmark w x) x.slot) (lmarkBad w)
    (fun s s' e t => ∃ k y, s.serial ≤ k ∧ s'.ops.get k = some y ∧ y.th = e.pl ∧ y.kind = .lmark (srcW e t w.a).toNat))

/-- R274, R279 to R281, R285: FERRY_ACCEPT. The block's check finds the first cause of R279, which rejects the command: `D` takes all ones
and `STATE` 4 with the cause stands in the block; no command is registered. A command that passes is registered with its promise,
which `D` takes; `STATE` is 1; TIER installs the schedule and is done at once. Either way the operation ends.
The model's own choice here: entries of a schedule that name no tiered function (log 29). -/
def Obligations.FerryAccepts : Prop :=
  ∀ (s : State) (op : Nat) (o : Op) (fn q blk : Nat) (t : Thread) (tm : Team), FerryNext s op o fn q blk t → s.teams.get t.team = some tm →
    Memory.wf tm.scratch = true →
    let c := blockCmd s o fn q blk t
    let check := blockCheck s c tm.bound (cmdTargets s t.team fn c.blk)
    (∀ cause, check = some cause → ∃ s', exec (.ferryAccept op) s = .next s' ∧ s'.ops = s.ops.del op ∧ s'.cmds = s.cmds ∧ s'.mem = s.mem ∧
      s'.threads.get o.th = some (arrives t o (2 ^ 64 - 1) none) ∧ (cause < 256 → leNat (scratchBytes s' t.team (blk + 0x1C) 2) = 4 + 256 * cause)) ∧
    (check = none → fn ≠ 6 → ∃ s', exec (.ferryAccept op) s = .next s' ∧ s'.ops = s.ops.del op ∧
      s'.threads.get o.th = some (arrives t o (time64 (promiseOf s c)) none) ∧
      s'.cmds.get s.serial = some { c with promise := promiseOf s c } ∧ (∀ k, k ≠ s.serial → s'.cmds.get k = s.cmds.get k) ∧
      scratchByte s' t.team (blk + 0x1C) = 1 ∧ s'.mem.cells = s.mem.cells) ∧
    (check = none → fn = 6 → ∃ s', exec (.ferryAccept op) s = .next s' ∧ s'.ops = s.ops.del op ∧ s'.cmds = s.cmds ∧
      s'.threads.get o.th = some (arrives t o (time64 s.mod.now) none) ∧ scratchByte s' t.team (blk + 0x1C) = 2 ∧
      (s'.teams.get t.team).bind (·.tier) = some ⟨blkAux c.blk, blkNidx c.blk, 0, blkLook c.blk⟩)

/-- R204, R282, R283: a chunk that may move now and meets no fault is translated and on its way; when its writes are performed its bytes stand
in device memory or in the scratchpad, its bit is set in the chunk map of every target, and it joins the chunks done; with the last chunk `COUNT`
and `STATE` 2 are written, the command is over and its range locks are gone. A chunk whose access faults posts the fault as an event of its core,
and the command starts no further chunk and ends, with `STATE` 3, the cause and the chunk, once none is on its way. While its block lies at a peer to
which nothing is sent (R362) the command stays, and ends later. What the chunks wrote is released with `STATE`. Threads, operations and issue
groups stay. The clauses on bytes are about a chunk of one write, those on `STATE` and `COUNT` about a block in the scratchpad.
The model's own choices here: the two moments of a chunk (log 22), and what its clocks are kept for (log 77). -/
def Obligations.FerryChunks : Prop :=
  ∀ (s : State) (id c : Nat) (cm : Cmd), s.cmds.get id = some cm → cm.cancelled = false →
    let gone := fun (s' : State) => s'.cmds.get id = none ∧ ∀ e ∈ s'.mem.locks, e.2.pass = false → e.2.cmd ≠ id
    let map := blkCmap cm.blk
    let tidy := Memory.wf s.mem.cells = true ∧ ∀ k tm, s.teams.get k = some tm → Memory.wf tm.scratch = true
    let inBlock := fun (s' : State) (off n v : Nat) =>
      cm.blkScratch = true → (s.teams.get cm.team).isSome = true → leNat (scratchBytes s' cm.team (cm.blkAt + off) n) = v
    let failed := fun (s' : State) (f : FRec) (k : Nat) => inBlock s' 0x1C 4 ((3 + 256 * f.cause + 65536 * k) % 2 ^ 32)
    let released := fun (s' : State) => cm.blkScratch = true → ∀ tm, s.teams.get cm.team = some tm → ∃ tm' w, s'.teams.get cm.team = some tm' ∧
      tm'.states.get (cm.blkAt + 0x1C) = some w ∧ cm.clk.t ≤ w.t ∧ ∀ p ∈ cm.clk.provs, p ∈ w.provs
    let held := cm.blockHeld s = true
    let last := cm.chunks.length + 1 = cm.nchunks
    let rest := cm.flight.filter (fun f => f.chunk != c)
    (∀ o, chunkTry s cm c = .ok o → chunkReady s id cm c o.writes = true →
      ∃ f, startChunk s id c = { s with cmds := s.cmds.put id { cm with flight := cm.flight ++ [f] } } ∧ f.chunk = c ∧ f.count = o.count ∧
        f.pois = o.pois ∧ f.writes = flightWrites s cm o.writes) ∧
    (∀ f, cm.flight.find? (fun f => f.chunk == c) = some f →
      (∀ x ∈ f.writes, ∀ y, x.loc = .phys y → spaceOf y = 1 → sendHeld s (peerOf y) = false) →
      ∃ s', exec (.ferryChunkComplete id c) s = .next s' ∧ s'.threads = s.threads ∧ s'.ops = s.ops ∧ s'.issues = s.issues ∧
        (∀ k, k ≠ id → s'.cmds.get k = s.cmds.get k) ∧
        (rest ≠ [] ∨ held ∨ (¬ last ∧ cm.bad = none) → ∃ k, s.mod.now ≤ k.t ∧
          s'.cmds.get id = some { cm with chunks := c :: cm.chunks, flight := rest, count := cm.count + f.count, pois := cm.pois || f.pois.isSome,
                                          clk := k }) ∧
        (tidy → rest ≠ [] ∨ held ∨ (¬ last ∧ cm.bad = none) →
          (∀ x y, f.writes = [x] → x.loc = .phys y → spaceOf y = 0 → y % 65536 + x.bytes.length ≤ 65536 →
            Memory.read s'.mem.cells y x.bytes.length = x.bytes.map (·.1) ∧
            ∀ b, b < y ∨ y + x.bytes.length ≤ b → Memory.get s'.mem.cells b = Memory.get s.mem.cells b) ∧
          (∀ x k off, f.writes = [x] → x.loc = .scratch k off → (s.teams.get k).isSome = true →
            (k ∉ cm.targets ∨ map = 0xFFFFFFFF ∨ off + x.bytes.length ≤ map + 4 * (c / 32) ∨ map + 4 * (c / 32) + 4 ≤ off) →
            scratchBytes s' k off x.bytes.length = x.bytes.map (·.1)) ∧
          (∀ k ∈ cm.targets, (s.teams.get k).isSome = true → map ≠ 0xFFFFFFFF →
            (leNat (scratchBytes s' k (map + 4 * (c / 32)) 4)).testBit (c % 32) = true)) ∧
        (last → cm.bad = none → rest = [] → ¬ held → gone s' ∧ released s' ∧ (tidy → inBlock s' 0x1C 1 2 ∧
          (2 ≤ cm.fn → cm.fn ≤ 5 → inBlock s' 0x3C 4 ((cm.count + f.count) % 2 ^ 32)))) ∧
        (∀ bad, cm.bad = some bad → rest = [] → ¬ held → gone s' ∧ released s' ∧ (tidy → failed s' bad.1 bad.2))) ∧
    (cm.flight = [] → ¬ held → cm.bad.isSome = true ∨ cm.chunks.length = cm.nchunks → gone (endsCmd s id) ∧ released (endsCmd s id)) ∧
    (∀ f, chunkTry s cm c = .error f → chunkReady s id cm c [] = true →
      ∃ s', exec (.ferryChunkFault id c) s = .next s' ∧ s'.threads = s.threads ∧ s'.ops = s.ops ∧
        (cm.flight = [] → ¬ held → gone s' ∧ released s' ∧ (tidy → failed s' f c)) ∧
        (cm.flight ≠ [] ∨ held → s'.cmds.get id = some { cm with bad := some (f, c) }) ∧
        (∀ k, k ≠ id → s'.cmds.get k = s.cmds.get k) ∧
        ∃ k p, s'.posts.get k = some p ∧ p.core = placeCore cm.th ∧ p.unit = unitFerry cm.core ∧ p.mrec.kind = 2 ∧ p.mrec.code = f.cause)

/-- R254, R287: FWAIT on a clean, aligned offset inside the scratchpad. TEST writes whether the word has every bit of the mask, and
acquires the chunks where it has; WAIT and WAITP add a condition that takes effect at run end; a promise that device time passes while its
condition does not hold is missed; and a missed promise traps the thread 0x0B at its boundary, where it stands in no warp entry any more.
The model's own choices here: several conditions at once (log 25), and what an acquire takes on (log 77). -/
def Obligations.FerryWaits : Prop :=
  (∀ (w : W1) (x : ExtE),
    let off := fun (e : Env) (t : Thread) => (srcW e t w.a).toNat
    let mask := fun (e : Env) (t : Thread) => (srcW e t w.b).toNat
    let ok := fun (_ : State) (e : Env) (t : Thread) => (srcP e t w.a).isBad = false ∧ (srcP e t w.b).isBad = false ∧ off e t % 4 = 0 ∧
      off e t < e.scru * 4096
    LaneOp (.fwaitTest w x) ok (fun s e t =>
      let v := decide (leNat (scratchBytes s e.team (off e t) 4) &&& mask e t = mask e t)
      wrPair (if v then mapAcquire s e.pl t (off e t) (mask e t) else t) w.d.toNat v .clean) ∧
    LaneOp (.fwaitWait w x) ok (fun _ e t => { t with newWaits := t.newWaits ++ [{ off := off e t, mask := mask e t, promise := none }] }) ∧
    LaneOp (.fwaitWaitp w x) (fun s e t => ok s e t ∧ (srcDP e t x.c).isBad = false)
      (fun _ e t => { t with newWaits := t.newWaits ++ [{ off := off e t, mask := mask e t, promise := some (srcD e t x.c).toNat }] })) ∧
  (∀ (s : State) (ns th : Nat) (t : Thread), s.threads.get th = some t →
    let now := (elapse s ns).mod.now
    s.mod.now ≤ now ∧ now ≤ s.mod.now + ns ∧
    ∃ t', (elapse s ns).threads.get th = some t' ∧ t' = { t with waits := t'.waits } ∧ t'.waits.length = t.waits.length ∧
      ∀ (j : Nat) c, t.waits[j]? = some c → ∃ c', t'.waits[j]? = some c' ∧ c' = { c with missed := c'.missed } ∧
        (c'.missed = true ↔ c.missed = true ∨
          ∃ p, c.promise = some p ∧ time64 s.mod.now ≤ p ∧ p < time64 s.mod.now + (now - s.mod.now) ∧
            mapHolds s t.team c.off c.mask = false)) ∧
  (∀ (s : State) (th : Nat) (t : Thread) (c : FWaitC) (tm : Team), s.threads.get th = some t → isSup th = false → t.st = .ready →
    s.teams.get t.team = some tm → tm.st ≠ .stopped → c ∈ t.waits → c.missed = true →
    ∃ s' t' sp d, exec (.fwaitPromiseMissed th) s = .next s' ∧ s'.threads.get th = some t' ∧ t'.st = .susp ∧ t'.waits = [] ∧
      t'.susp = some sp ∧ sp.code = 0x0B ∧ sp.pos = none ∧ d ∈ t.waits ∧ d.missed = true ∧ sp.detail = d.mask ∧
      (∀ x ∈ t.waits, x.missed = true → d.promise.getD 0 ≤ x.promise.getD 0) ∧
      t'.v = t.v ∧ (∀ x ∈ s'.entries, th ∉ x.members) ∧ ∀ q, q ≠ th → s'.threads.get q = s.threads.get q)

/-! ### Crew collectives and matrix engines (R86 to R88, R288 to R325) -/

namespace Sys2Proof.Spec

/-- A thread can join its crew's next collection: it belongs to a crew, which has that collection open or has room for it (R288, R291). -/
def CanJoin (s : State) (e : Env) (t : Thread) : Prop :=
  ∃ tm j cr, s.teams.get e.team = some tm ∧ tm.crewOf e.gid = some j ∧ tm.crews[j]? = some cr ∧
    ((∃ c ∈ cr.colls, c.k = t.ncoll) ∨ cr.colls.length < 4)

/-- A collective completes its issue: every thread of the issue group executes it, meets no reason of R292, and arrives at its crew's
next collection with what `off` and `kind` say, counted on the slot; its registers and predicates keep their values. -/
def Collective (i : Instr) (x : ExtE) (own : State → Env → Thread → Option Trap) (narrow : Nat → Bool) (tile : Option Nat)
    (off : Env → Thread → Nat) (kind : CollKind) : Prop :=
  ∀ (s : State) (f : Info) (z : Issue), AtWord s i f z → FreshOps s → slotFull i s x.slot.toNat = false →
    (∀ pl ∈ z.lanes, ∃ t, Runs s i f z pl t) →
    (∀ pl t, Runs s i f z pl t → CanJoin s (envOf s pl t) t ∧ own s (envOf s pl t) t = none ∧
      collReason s (envOf s pl t) t s.runAddr narrow tile = none) →
    (∀ pl t pl' t' tm, Runs s i f z pl t → Runs s i f z pl' t' → (envOf s pl t).team = (envOf s pl' t').team →
      s.teams.get (envOf s pl t).team = some tm → tm.crewOf (envOf s pl t).gid = tm.crewOf (envOf s pl' t').gid → t.ncoll = t'.ncoll) →
    ∃ s', exec i s = .next s' ∧
      s' = { s with threads := s'.threads, ops := s'.ops, groups := s'.groups, teams := s'.teams, serial := s'.serial } ∧
      (∀ k, k < s.serial → s'.ops.get k = s.ops.get k) ∧ (∀ pl, pl ∉ z.lanes → s'.threads.get pl = s.threads.get pl) ∧
      (∀ k tm, s.teams.get k = some tm → ∃ tm', s'.teams.get k = some tm' ∧ tm' = { tm with crews := tm'.crews }) ∧
      ∀ pl t, Runs s i f z pl t → ∀ j tm, s.teams.get (envOf s pl t).team = some tm → tm.crewOf (envOf s pl t).gid = some j →
        (∃ t', s'.threads.get pl = some t' ∧ t'.ncoll = t.ncoll + 1 ∧ t'.st = t.st ∧ t'.p = t.p ∧
          t'.v.map (fun r => (r.val, r.pois)) = t.v.map (fun r => (r.val, r.pois)) ∧ t'.k = t.k) ∧
        (∃ k y, s.serial ≤ k ∧ s'.ops.get k = some y ∧ y.kind = .coll (envOf s pl t).team j t.ncoll ∧ y.th = pl ∧
          y.slot = some x.slot.toNat ∧ y.batch = s.batch) ∧
        ∃ tm' cr c a, s'.teams.get (envOf s pl t).team = some tm' ∧ tm'.crews[j]? = some cr ∧ c ∈ cr.colls ∧ c.k = t.ncoll ∧
          a ∈ c.arr ∧ a.th = pl ∧ a.off = off (envOf s pl t) t ∧ a.kind = kind

/-- A thread's operand element k of row m: the fragments of the crew's threads whose crew index is m modulo M, in ascending k (R295); `none` where that
thread has not arrived or has exited, which gives a zero element (R298). -/
def operandAt (s : State) (tm : Team) (p : Pass) (M K bits : Nat) (base : Arrival → Nat) (m k : Nat) : Option Nat :=
  let per := K / (32 * tm.pkt.crew / M)
  let e := k % per
  do
    let pl ← (tm.crewPlaces p.crew)[k / per * M + m]?
    let a ← (p.arr.filter (fun a => s.live a.th)).find? (fun a => a.th == pl)
    let t ← s.threads.get pl
    let w := fun (i : Nat) => (t.v.getD (base a + i) {}).val.toNat
    return if bits = 64 then w (2 * e) + 2 ^ 32 * w (2 * e + 1) else w (e * bits / 32) / 2 ^ (e * bits % 32) % 2 ^ bits
/-- The fragments' base registers, as each thread's MXOP named them. -/
def baseA (a : Arrival) : Nat := match a.kind with | .mxop _ _ c _ _ => c | _ => 0
def baseB (a : Arrival) : Nat := match a.kind with | .mxop _ _ _ c _ => c | _ => 0
/-- An exact sum. -/
def exactSum : List FV → FV
  | [] => .fin false 0 0
  | v :: r => r.foldl (FV.add 0) v

/-- The pass `id` is over: it is gone, and every member's operation of its collective has ended. -/
def PassOver (s : State) (id : Nat) (p : Pass) (s' : State) : Prop :=
  s'.passes.get id = none ∧ (∀ e ∈ s'.ops, e.2.kind ≠ .coll p.team p.crew p.k) ∧
  (∀ e ∈ s.ops, e.2.kind ≠ .coll p.team p.crew p.k → (∀ e' ∈ s.ops, e'.1 = e.1 → e' = e) → s'.ops.get e.1 = some e.2)

/-- The tile of a pass, granted and with nothing before it on the tile (R294). -/
def PassReady (s : State) (id : Nat) (p : Pass) (tm : Team) (t : Tile) : Prop :=
  s.passes.get id = some p ∧ s.teams.get p.team = some tm ∧ s.tile p.team p.crew p.tile = some t ∧ p.granted = true ∧ p.add = none ∧
  p.rows = none ∧ tileBusy s id p = false ∧ Memory.wf tm.scratch = true

end Sys2Proof.Spec

namespace Sys2Proof.Spec

/-- A collective whose threads trap or park (R288, R291, R292). With no guard false and every executing thread meeting a defect of its own, each
takes the trap of its poisoned operand, else trap 0x08 with the lowest reason; with guards of both kinds, every thread takes reason 1 with the mask of
the true guards; and threads whose arrival would open a fifth collection of their crew park at the word. Nothing arrives. -/
def CollectiveTraps (i : Instr) (x : ExtE) (own : State → Env → Thread → Option Trap) (narrow : Nat → Bool) (tile : Option Nat) : Prop :=
  ∀ (s : State) (f : Info) (z : Issue), AtWord s i f z → FreshOps s → slotFull i s x.slot.toNat = false → (∀ pl ∈ z.lanes, isSup pl = false) →
    let reason := fun (pl : Nat) (t : Thread) => collReason s (envOf s pl t) t s.runAddr narrow tile
    let nothing := fun (s' : State) => exec i s = .next s' ∧ s'.mem = s.mem ∧ s'.teams = s.teams ∧ s'.ops = s.ops ∧ s'.groups = s.groups
    ((∀ pl ∈ z.lanes, ∀ t, s.threads.get pl = some t → gate s i f (envOf s pl t) t ≠ .skip) →
      (∀ pl t, Runs s i f z pl t → (own s (envOf s pl t) t).isSome = true ∨ (reason pl t).isSome = true) →
      ∃ s', nothing s' ∧ ∀ pl t, Runs s i f z pl t →
        (∀ tr, own s (envOf s pl t) t = some tr → Trapped s s' z pl t { tr with coll := true }) ∧
        (∀ n, own s (envOf s pl t) t = none → reason pl t = some n → Trapped s s' z pl t { code := 0x08, detail := n, coll := true })) ∧
    (NoTrap s i f z → (∃ pl t, Runs s i f z pl t) → (∃ pl ∈ z.lanes, ∃ t, s.threads.get pl = some t ∧ gate s i f (envOf s pl t) t = .skip) →
      (∀ pl t, Runs s i f z pl t → own s (envOf s pl t) t = none) →
      ∃ s' mask, nothing s' ∧ ∀ pl ∈ z.lanes, ∀ t, s.threads.get pl = some t →
        Trapped s s' z pl t { code := 0x08, detail := 1, payload := bytesOf mask 4, coll := true } ∧
        ((z.lanes.map placeLane).Nodup → (mask.testBit (placeLane pl) = true ↔ gate s i f (envOf s pl t) t = .run))) ∧
    ((∀ pl ∈ z.lanes, ∃ t, Runs s i f z pl t) →
      (∀ pl t, Runs s i f z pl t → own s (envOf s pl t) t = none ∧ reason pl t = none ∧ t.susp = none ∧
        ∃ tm j cr, s.teams.get (envOf s pl t).team = some tm ∧ tm.crewOf (envOf s pl t).gid = some j ∧ tm.crews[j]? = some cr ∧
          4 ≤ cr.colls.length ∧ ∀ c ∈ cr.colls, c.k ≠ t.ncoll) →
      ∃ s', nothing s' ∧ ∀ pl t, Runs s i f z pl t →
        s'.threads.get pl = some { t with st := .resume z.wix false, collPark := true } ∧ ∃ y, s'.issues.get s.cur = some y ∧ pl ∉ y.lanes)

end Sys2Proof.Spec

/-- R292: reasons 2 to 5 of trap 0x08, the lowest first, for a thread and a tile: no crew; a crew that is too narrow; another address than the
collection's; a tile that the crew does not have or has released. -/
def Sys2Proof.Spec.CollectiveReasons : Prop :=
  ∀ (s : State) (e : Env) (t : Thread) (addr : Nat) (narrow : Nat → Bool) (tile : Option Nat),
    let r := collReason s e t addr narrow tile
    (s.teams.get e.team = none → r = some 2) ∧
    ∀ tm, s.teams.get e.team = some tm →
      (tm.crewOf e.gid = none → r = some 2) ∧
      ∀ j cr, tm.crewOf e.gid = some j → tm.crews[j]? = some cr →
        let other := ∃ c ∈ cr.colls, c.k = t.ncoll ∧ c.addr ≠ addr ∧ c.arr ≠ []
        (narrow tm.pkt.crew = true → r = some 3) ∧
        (narrow tm.pkt.crew = false → other → r = some 4) ∧
        (narrow tm.pkt.crew = false → ¬ other → ∀ n, tile = some n → ((∀ y, cr.tiles[n]? = some y → y.held = false) → r = some 5) ∧
          (∀ y, cr.tiles[n]? = some y → y.held = true → r = none)) ∧
        (narrow tm.pkt.crew = false → ¬ other → tile = none → r = none)

/-- R288, R291, R292, R300: MXOP, the four MXDRAIN, MXPOD and the two MXREL where they trap or park. -/
def Sys2Proof.Spec.CollectivesTrap : Prop := ∀ (w : W1) (x : ExtE),
  let tile := x.imm.toNat % 16
  let plain := fun (i : Instr) => CollectiveTraps i x (offOwn w) (fun _ => false) (some tile)
  CollectiveTraps (.mxop w x) x (mxopOwn (.mxop w x) x) (fun c => (fragRegs (x.fn.toNat % 16) c).isNone) (some tile) ∧
  plain (.mxdrainRegs w x) ∧ plain (.mxdrainScratch w x) ∧ plain (.mxdrainPeer w x) ∧ plain (.mxdrainPeerord w x) ∧ plain (.mxpod w x) ∧
  CollectiveTraps (.mxrelOne w x) x (fun _ _ _ => none) (fun _ => false) (some tile) ∧
  CollectiveTraps (.mxrelAll w x) x (fun _ _ _ => none) (fun _ => false) none

/-- R290, R291, R293, R300, R303, R308, R320: MXOP, the four MXDRAIN, MXPOD and the two MXREL that arrive. -/
def Sys2Proof.Spec.CollectivesArrive : Prop := ∀ (w : W1) (x : ExtE),
  let tile := x.imm.toNat % 16
  let inA := fun (e : Env) (t : Thread) => (srcW e t w.a).toNat
  let drain := fun (i : Instr) (fn : Nat) => Collective i x (offOwn w) (fun _ => false) (some tile) inA (.drain fn w.d.toNat)
  Collective (.mxop w x) x (mxopOwn (.mxop w x) x) (fun c => (fragRegs (x.fn.toNat % 16) c).isNone) (some tile)
    (fun e t => (srcW e t x.c).toNat) (.mxop (x.fn.toNat % 16) (x.fn.toNat / 16) w.a.toNat w.b.toNat (x.imm.getLsbD 4)) ∧
  drain (.mxdrainRegs w x) 0 ∧ drain (.mxdrainScratch w x) 1 ∧ drain (.mxdrainPeer w x) 2 ∧ drain (.mxdrainPeerord w x) 3 ∧
  Collective (.mxpod w x) x (offOwn w) (fun _ => false) (some tile) inA .mxpod ∧
  Collective (.mxrelOne w x) x (fun _ _ _ => none) (fun _ => false) (some tile) (fun _ _ => 0) (.mxrel false) ∧
  Collective (.mxrelAll w x) x (fun _ _ _ => none) (fun _ => false) none (fun _ _ => 0) (.mxrel true)

/-- R86 to R88, R295, R298, R302: the words that an MXOP pass leaves in a tile, by shape: S0 and S1 over their chunk of 128 positions, S2 and S3 over four
chunks of 16, each rounded once, S4 by one F64 FMA for each position; a shape changes no other word. -/
def Sys2Proof.Spec.MatrixWords : Prop :=
  ∀ (s : State) (tm : Team) (p : Pass) (shape fmt na nb : Nat) (old : List Word), fragRegs shape tm.pkt.crew = some (na, nb) → old.length = 16384 →
    let new := mxopWords s tm p shape fmt old
    let was := fun (n : Nat) => old.getD n 0
    let f8 := fun (b : Bool) => if b then fF8B else fF8A
    let f16 := if fmt.testBit 0 then fF16 else fBF16
    let sums := fun (prod : Nat → FV) (acc : Nat) => (List.range 4).foldl (fun acc c =>
      fF32.rnd 0 (FV.add 0 (fF32.dec acc) (fF32.dec (fF32.rnd 0 (exactSum ((List.range 16).map (fun k => prod (16 * c + k)))))))) acc
    new.length = 16384 ∧
    (∀ i j, i < 128 → j < 128 →
      let n := 128 * i + j
      let a8 := fun (k : Nat) => (operandAt s tm p 128 128 8 baseA i k).getD 0
      let b8 := fun (k : Nat) => (operandAt s tm p 128 128 8 baseB j k).getD 0
      let a16 := fun (k : Nat) => (operandAt s tm p 128 64 16 baseA i k).getD 0
      let b16 := fun (k : Nat) => (operandAt s tm p 128 64 16 baseB j k).getD 0
      (shape = 0 → new[n]? = some (BitVec.ofNat 32 (
        let d := exactSum ((List.range 128).map (fun k => FV.mul ((f8 (fmt.testBit 0)).dec (a8 k)) ((f8 (fmt.testBit 1)).dec (b8 k))))
        let sa := p.strips.getD i 127
        if d = .nan ∨ sa = 0xFF ∨ p.square = 0xFF then fF32.qnan
        else fF32.rnd 0 (FV.add 0 (fF32.dec (was n).toNat)
          (fF32.dec (fF32.rnd 0 (FV.scale (fF32.dec (fF32.rnd 0 d)) ((sa + p.square : Int) - 254)))))))) ∧
      (shape = 1 → new[n]? = some (was n + BitVec.ofInt 32
        ((List.range 128).map (fun k => (BitVec.ofNat 8 (a8 k)).toInt * (BitVec.ofNat 8 (b8 k)).toInt)).sum)) ∧
      (shape = 2 → new[n]? = some (BitVec.ofNat 32 (sums (fun k => FV.mul (f16.dec (a16 k)) (f16.dec (b16 k))) (was n).toNat))) ∧
      (shape = 3 → new[n]? = some (BitVec.ofNat 32 (sums (fun k => FV.mul (fBF16.dec (a16 k))
        (match operandAt s tm p 128 64 4 baseB j k with | some c => fBF16.dec (bookValue p.book c) | none => .fin false 0 0)) (was n).toNat)))) ∧
    (shape = 4 →
      (∀ i j, i < 64 → j < 64 →
        let n := 128 * i + 2 * j
        let v := (List.range 16).foldl (fun acc k => fF64.rnd 0 (FV.add 0
          (FV.mul (fF64.dec ((operandAt s tm p 64 16 64 baseA i k).getD 0)) (fF64.dec ((operandAt s tm p 64 16 64 baseB j k).getD 0))) (fF64.dec acc)))
          ((was n).toNat + 2 ^ 32 * (was (n + 1)).toNat)
        new[n]? = some (BitVec.ofNat 32 v) ∧ new[n + 1]? = some (BitVec.ofNat 32 (v / 2 ^ 32))) ∧
      ∀ n, 8192 ≤ n → n < 16384 → new[n]? = some (was n))

/-- R319: the words that a pod pass leaves in a tile: each row's queue over the row's tokens, for each batch column; no other word changes. A pod is a
value token, positions, whose activations are summed with a rounding each from zero, and an end, which adds the value times the sum with one rounding. -/
def Sys2Proof.Spec.PodRows : Prop :=
  (∀ (value : Nat → FV) (act : Nat → FV) (out v : Nat) (poss rest : List Nat), podColumn value act [] out = out ∧
    (0x800 ≤ v → v ≠ 0xC000 → (∀ x ∈ poss, x < 0x800) → (∀ y ∈ rest.head?, 0x800 ≤ y ∧ y ≠ 0xC000) →
      podColumn value act (v :: poss ++ 0xC000 :: rest) out = podColumn value act rest (fF32.rnd 0 (FV.add 0
        (FV.mul (value (v - 0x8000)) (fF32.dec (poss.foldl (fun s x => fF32.rnd 0 (FV.add 0 (fF32.dec s) (act x))) 0))) (fF32.dec out))))) ∧
  (∀ (s : State) (p : Pass) (rows : List (List Nat)) (words : Tab Word), Rising words →
    let row0 := fieldAt p.blk 0x1A 1 % 128
    let col0 := fieldAt p.blk 0x1B 1 % 128
    let batch := fieldAt p.blk 0x1C 1 % 128
    let new := podWords s p rows words
    (∀ r toks b, rows[r]? = some toks → b < batch → col0 + b < 128 →
      let n := 128 * (row0 + r) + (col0 + b)
      new.getD n 0 = BitVec.ofNat 32 (podColumn
        (fun v => fBF16.dec (leNat (scratchBytes s p.team (fieldAt p.blk 0x14 4 + 2 * v) 2)))
        (fun x => fBF16.dec (leNat (scratchBytes s p.team (fieldAt p.blk 0x0C 4 + x * fieldAt p.blk 0x10 2 + 2 * b) 2)))
        toks (words.getD n 0).toNat)) ∧
    ∀ n, (n / 128 < row0 ∨ row0 + rows.length ≤ n / 128 ∨ n % 128 < col0 ∨ col0 + batch ≤ n % 128) → new.getD n 0 = words.getD n 0)

/-- R89, R288, R302, R305, R309: ENGINE_GRANT grants the waiting pass of the highest class, the earliest posted among those that may be granted: a pass
on a tile waits for the passes of its crew before it on that tile, a PEER add of a tile for those that arrived there before it. A granted MXOP pass
puts its words into the tile and writes `STATE` 2; a REGS drain gives each arrived thread its 32 words of the rows; a peer drain's rows
are read for sending. A drain of a stopped team waits (R310). A tile's words are kept exactly.
-/
def Sys2Proof.Spec.EnginePassRules : Prop :=
  (∀ (l : List Word) (i : Nat), expandTile (packTile i l) i l.length = l) ∧
  (∀ (s : State) (cluster : Nat),
    let ready := s.passes.filter (fun e => e.2.cluster == cluster && e.2.posted.isSome && !e.2.granted && (if e.2.add.isSome then !addBehind s e.1 e.2 else !tileBusy s e.1 e.2))
    (∀ id p team crew tile src d, p.kind = .drain 2 d → p.add = some (team, crew, tile, src) → (addBehind s id p = true ↔
      ∃ e ∈ s.passes, e.1 < id ∧ (∃ d, e.2.kind = .drain 2 d) ∧ ∃ src, e.2.add = some (team, crew, tile, src))) ∧
    (ready = [] → exec (.engineGrant cluster) s = .next s) ∧
    (ready ≠ [] → (∀ e ∈ ready, e.2.cls ≤ 3 ∧ e.2.posted.getD 0 < 2 ^ 100 ∧ e.2.core < 256) →
      ∃ s' id p, exec (.engineGrant cluster) s = .next s' ∧ (id, p) ∈ ready ∧ s' = { s with passes := s'.passes } ∧
        (id, { p with granted := true }) ∈ s'.passes ∧
        ∀ e ∈ ready, e.2.cls ≤ p.cls ∧ (e.2.cls = p.cls → p.posted.getD 0 ≤ e.2.posted.getD 0))) ∧
  (∀ (s : State) (id : Nat) (p : Pass) (tm : Team) (t : Tile), PassReady s id p tm t →
    (∀ shape fmt a b zero, p.kind = .mxop shape fmt a b zero → p.spois = false → p.book.pois = false →
      let t0 := if zero then { t with words := [], pois := false, record := none } else t
      ∃ s', exec (.enginePassComplete id) s = .next s' ∧ PassOver s id p s' ∧
        s'.tile p.team p.crew p.tile = some { t0 with words := packTile 0 (mxopWords s tm p shape fmt t0.all) } ∧
        leNat (scratchBytes s' p.team (p.blkOff + 0x0C) 1) = 2) ∧
    (∀ d0, p.kind = .drain 0 d0 → tm.st ≠ .stopped → t.pois = false → (tm.crewPlaces p.crew).Nodup →
      ∃ s', exec (.drainPassComplete id) s = .next s' ∧ PassOver s id p s' ∧ leNat (scratchBytes s' p.team (p.blkOff + 0x0C) 1) = 2 ∧
        ∀ u pl a d th r, (tm.crewPlaces p.crew)[u]? = some pl → p.arr.find? (fun y => y.th == pl) = some a → a.kind = .drain 0 d →
          s.threads.get pl = some th → th.st ≠ .exited → r < 32 → d + r < th.v.length → th.v.length ≤ 112 →
          ∃ th', s'.threads.get pl = some th' ∧
            (th'.v.getD (d + r) {}).val = t.words.getD (128 * (fieldAt p.blk 8 1 % 128 + u / 4) + 32 * (u % 4) + r) 0 ∧
            (th'.v.getD (d + r) {}).pois = .clean) ∧
    (∀ d, p.kind = .drain 1 d → tm.st ≠ .stopped → t.pois = false → fieldAt p.blk 4 4 = 0xFFFFFFFF →
      (passLocks s p id).any (fun l => l.ranges.any (fun r => lockedBefore s (dieOf p.core) id true r)) = false →
      let offs := fieldAt p.blk 0 4
      let n := fieldAt p.blk 9 1
      (p.blkOff + 0x0C < offs ∨ offs + 512 * n ≤ p.blkOff + 0x0C) →
      ∃ s', exec (.drainPassComplete id) s = .next s' ∧ PassOver s id p s' ∧ leNat (scratchBytes s' p.team (p.blkOff + 0x0C) 1) = 2 ∧
        ∀ c < n, scratchBytes s' p.team (offs + 512 * c) 512 =
          ((expandTile (t.row (fieldAt p.blk 8 1 % 128 + c)) (128 * (fieldAt p.blk 8 1 % 128 + c)) 128).map (fun w => bytesOf w.toNat 4)).flatten) ∧
    (∀ d, p.kind = .drain 2 d → tm.st ≠ .stopped → peerTarget s p false ≠ .wait →
      ∃ s' p', exec (.drainPassComplete id) s = .next s' ∧ s'.passes.get id = some p' ∧
        p' = { p with rows := some ((List.range (fieldAt p.blk 9 1)).map (fun c => t.row (fieldAt p.blk 8 1 % 128 + c))), srcPois := t.pois,
                      sentAt := s.serial } ∧ s'.ops = s.ops ∧ s'.threads = s.threads ∧
        s'.tile p.team p.crew p.tile = some (clearRows t p.blk)) ∧
    (∀ d, p.kind = .drain 3 d → tm.st ≠ .stopped → ∃ s', exec (.drainPassComplete id) s = .next s' ∧
      s'.passes.get id = some { p with rows := some [], sentAt := s.serial } ∧ s'.teams = s.teams ∧ s'.threads = s.threads))

/-- R89, R204, R306 to R308, R319, R323, R324: pods, peer adds and releases of tiles. A pod's stream is read 512 bytes at a time; PEER adds of a tile are
made in arrival order; an ordered drain is sent when its turn has come, and applied when its add is granted. The drains of a stopped team wait (R310). A stream that is malformed fails so,
poisoned or not (R323); trap 0x12 is late for a thread that is suspended in another trap, and a thread that is parked within a run takes the first
that is not late at once (R324).
The model's own choices here: a chunk of a stream that straddles a page (log 100), and a poisoned token judged as it stands (log 103). -/
def Sys2Proof.Spec.PodAndPeerPasses : Prop :=
  (∀ (s : State) (id : Nat) (p : Pass) (tm : Team) (t : Tile), PassReady s id p tm t → p.kind = .mxpod →
    (passLocks s p id).any (fun l => l.ranges.any (fun r => lockedBefore s (dieOf p.core) id true r)) = false →
    let src := fieldAt p.blk 0 8
    let token := fun j => readRange s (teamWho s p.team p.elected) (src + 2 * (p.toks.length + j)) 2 6
    let stream := podRead p.tokBad (fun ix => src + 2 * ix) (fieldAt p.blk 0x12 2 % 4096) (fieldAt p.blk 0x18 1)
      (fieldAt p.blk 0x19 1) (fieldAt p.blk 8 4 / 2) p.toks 0 none {}
    (∀ c, p.tokBad = none → p.toks.length = 256 * c →
      rangeHeld s (teamWho s p.team p.elected) (src + 2 * p.toks.length) (2 * min 256 (fieldAt p.blk 8 4 / 2 - p.toks.length)) = false → ∃ l f,
      podChunk s id c = { s with passes := s.passes.put id { p with toks := p.toks ++ l, tokBad := f } } ∧
      (∀ j v, l[j]? = some v → ∃ bs, token j = .ok bs ∧ v = (leNat (plain bs), anyPois bs)) ∧
      (f = none → l.length = min 256 (fieldAt p.blk 8 4 / 2 - p.toks.length)) ∧ (∀ r, f = some r → token l.length = .error r)) ∧
    (∀ rows, stream = some (.rows rows) → podPoisoned s p rows = false → fieldAt p.blk 0x1A 1 / 128 = 0 → ∃ s',
      exec (.podPassComplete id) s = .next s' ∧ PassOver s id p s' ∧ leNat (scratchBytes s' p.team (p.blkOff + 0x1E) 1) = 2 ∧
        s'.tile p.team p.crew p.tile = some { t with words := podWords s p rows t.words }) ∧
    (∀ ix tok reason row th, stream = some (.bad ix tok reason row) → s.threads.get p.elected = some th → th.st ≠ .exited → ∃ s' th',
      exec (.podPassComplete id) s = .next s' ∧ PassOver s id p s' ∧ leNat (scratchBytes s' p.team (p.blkOff + 0x1E) 2) = 3 + 256 * 0x12 ∧
        s'.tile p.team p.crew p.tile = some t ∧ s'.threads.get p.elected = some th' ∧
        th'.podTraps = th.podTraps ++ [PodTrap.mk p.blkOff ix tok reason row
          (match p.arr.find? (fun a => a.th == p.elected) with | some a => a.word | none => 0) (th.st == .susp)])) ∧
  (∀ (s : State) (th : Nat) (t : Thread) (x : PodTrap) (r : List PodTrap), s.threads.get th = some t → t.podTraps = x :: r → t.st = .ready →
    isSup th = false → ∃ s' t' sp, exec (.podTrapDeliver th) s = .next s' ∧ s'.threads.get th = some t' ∧ t'.st = .susp ∧ t'.podTraps = r ∧
      t'.susp = some sp ∧ sp.code = 0x12 ∧ sp.detail = x.blk ∧ sp.pos = none ∧ t'.v = t.v ∧ ∀ q, q ≠ th → s'.threads.get q = s.threads.get q) ∧
  (∀ (s : State) (th : Nat) (t : Thread), s.threads.get th = some t → isSup th = false → t.st ≠ .ready → (s.parkedAt th t).isSome = true →
    (∀ x, t.podTraps.find? (fun x => !x.late) = some x → ∃ s' t' sp, exec (.podTrapDeliver th) s = .next s' ∧ s'.threads.get th = some t' ∧
      t'.st = .susp ∧ t'.podTraps = t.podTraps.erase x ∧ t'.susp = some sp ∧ sp.code = 0x12 ∧ sp.detail = x.blk) ∧
    ((∀ x ∈ t.podTraps, x.late = true) → exec (.podTrapDeliver th) s = .next s)) ∧
  (∀ (s : State) (id : Nat) (p : Pass) (d k : Nat) (rows : List (Tab Word)) (tm : Team), s.passes.get id = some p → p.kind = .drain 2 d →
    p.rows = some rows → p.sent = false → p.add = none → p.halted s = false → peerTarget s p true = .found k → s.teams.get k = some tm →
    engineUsed s (clusterOf tm.core) < 32 → id < s.serial → ∃ s' a, exec (.peerAddArrive id) s = .next s' ∧ s'.passes.get id = some { p with sent := true } ∧
      s'.passes.get s.serial = some a ∧ a.add = some (k, fieldAt p.blk 0x18 1, fieldAt p.blk 0x19 1 % 16, id) ∧ a.rows = some rows ∧
      a.cluster = clusterOf tm.core ∧ a.posted = some s.mod.now ∧ a.granted = false ∧ s'.teams = s.teams ∧
      ∀ tm0, s.teams.get p.team = some tm0 → a.cls = tm0.pkt.prio) ∧
  (∀ (s : State) (id : Nat) (p d : Pass) (team crew tile src : Nat) (rows : List (Tab Word)) (t : Tile) (tm : Team),
    s.passes.get id = some p → p.add = some (team, crew, tile, src) → p.rows = some rows → p.granted = true → s.passes.get src = some d →
    src ≠ id → d.ordered = false → addBehind s id p = false → s.tile team crew tile = some t → s.teams.get team = some tm → t.held = true → tm.ended = false →
    ∃ s', exec (.peerAddPassComplete id) s = .next s' ∧ s'.passes.get id = none ∧ PassOver s src d s' ∧
      s'.tile team crew tile = some (addRows t p.blk rows p.srcPois)) ∧
  (∀ (s : State) (id : Nat) (p : Pass) (d k : Nat) (rows : List (Tab Word)) (t src : Tile) (tm : Team), s.passes.get id = some p →
    p.kind = .drain 3 d → p.rows = some rows → p.add = none → p.sent = false → p.halted s = false → peerTarget s p false = .found k → s.teams.get k = some tm →
    let crew := fieldAt p.blk 0x18 1
    let tile := fieldAt p.blk 0x19 1 % 16
    let expect := fieldAt p.blk 0x1B 1
    s.tile k crew tile = some t → s.tile p.team p.crew p.tile = some src → ordBehind s p k = false → id < s.serial →
    ((∀ e, t.expect = some e → e = expect) → t.next = fieldAt p.blk 0x1A 1 → engineUsed s (clusterOf tm.core) < 32 →
      ∃ s' a, exec (.peerAddArrive id) s = .next s' ∧ s'.passes.get id = some { p with sent := true } ∧ s'.passes.get s.serial = some a ∧
        a.add = some (k, crew, tile, id) ∧ a.srcPois = src.pois ∧
        a.rows = some ((List.range (fieldAt p.blk 9 1)).map (fun c => src.row (fieldAt p.blk 8 1 % 128 + c))) ∧
        s'.tile p.team p.crew p.tile = some (clearRows src p.blk)) ∧
    (∀ e, t.expect = some e → e ≠ expect → t.next ≤ fieldAt p.blk 0x1A 1 → ∃ s', exec (.peerordApply id) s = .next s' ∧ PassOver s id p s')) ∧
  (∀ (s : State) (id aid : Nat) (p a : Pass) (d k crew tile : Nat) (rows r : List (Tab Word)) (t : Tile) (tm : Team), s.passes.get id = some p →
    p.kind = .drain 3 d → p.rows = some r → p.add = none → p.sent = true → p.halted s = false →
    (s.passes.find (fun _ a => a.granted && (match a.add with | some (_, _, _, src) => src == id | none => false))).head? = some (aid, a) →
    a.add = some (k, crew, tile, id) → a.rows = some rows → s.tile k crew tile = some t → s.teams.get k = some tm → t.held = true →
    tm.ended = false →
    ∃ s' t', exec (.peerordApply id) s = .next s' ∧ s'.passes.get aid = none ∧ PassOver s id p s' ∧ s'.tile k crew tile = some t' ∧
      t'.next = (if t.next + 1 = fieldAt p.blk 0x1B 1 then 0 else t.next + 1) ∧ t'.words = (addRows t p.blk rows a.srcPois).words) ∧
  (∀ (s : State) (team crew coll id : Nat) (p : Pass) (all : Bool) (cr : Crew),
    s.passes.filter (fun e => e.2.team == team && e.2.crew == crew && e.2.k == coll && e.2.kind.isRel) = [(id, p)] → p.kind = .mxrel all →
    s.crew team crew = some cr → (∀ e ∈ s.passes, e.1 < id → e.2.team = team → e.2.crew = crew → (all = true ∨ e.2.tile = p.tile) →
      e.2.add = none → e.2.kind.isRel = false → e.2.holdsTile = false) →
    ∃ s' cr', exec (.mxrelRelease team crew coll) s = .next s' ∧ s'.passes.get id = none ∧
      (∀ e ∈ s'.ops, e.2.kind ≠ .coll team crew coll) ∧ s'.crew team crew = some cr' ∧ cr'.tiles.length = cr.tiles.length ∧
      ∀ n x, cr.tiles[n]? = some x → cr'.tiles[n]? = some (if all = true ∨ n = p.tile then { x with held := false, words := [] } else x))

/-- R290 to R293, R300, R303, R308, R320: crew collectives, which arrive, trap or park.
The model's own choice here: that a collective waits for all earlier stores of its threads, and the operand registers it reads (log 23, 75). -/
def Obligations.CollectivesIssue : Prop := CollectivesArrive ∧ CollectiveReasons ∧ CollectivesTrap

/-- R86 to R89, R288, R295, R302, R305, R309: grants and passes of the matrix engines, and what an MXOP computes.
The model's own choice here: grants while a team stops (log 51). -/
def Obligations.EnginePasses : Prop := EnginePassRules ∧ MatrixWords

/-- R89, R204, R306 to R308, R319, R323, R324: pods, peer adds and releases of tiles, and what a pod computes. -/
def Obligations.PodsAndPeers : Prop := PodAndPeerPasses ∧ PodRows

/-! ### Launching, services, the supervisor group and Towline: what their instructions issue (R163, R164, R192, R197, R335, R347 to R355) -/

namespace Sys2Proof.Spec

/-- The instruction is counted once on its slot, in each group that takes part (R99). -/
def Counted (s : State) (i : Instr) (slot : BitVec 3) (s' : State) : Prop :=
  ∀ gr g, s.groups.get gr = some g →
    ((∃ p ∈ participants i s, placeGroup p.1.pl = gr) → s'.groups.get gr = some { g with sb := g.sb.set slot.toNat (g.sb.getD slot.toNat 0 + 1) }) ∧
    ((∀ p ∈ participants i s, placeGroup p.1.pl ≠ gr) → s'.groups.get gr = some g)

/-- The scheduler is at the word of `i` with room on its slot, and no thread traps in the checks of R62. -/
structure Ready (s : State) (i : Instr) (f : Info) (x : Issue) (slot : BitVec 3) : Prop where
  word : AtWord s i f x
  clean : NoTrap s i f x
  ops : FreshOps s
  room : slotFull i s slot.toNat = false

/-- An instruction of which the first thread that executes it acts for the whole issue group, with one operation (R335). -/
def GroupOp (i : Instr) (w : W1) (slot : BitVec 3) (nd : Nat) (kind : Bool → Nat → Nat → OpKind) : Prop :=
  ∀ (s : State) (f : Info) (x : Issue) (pl : Nat) (t : Thread), Led s i f x slot pl → s.threads.get pl = some t →
    (srcP (envOf s pl t) t w.a).isBad = false → (srcP (envOf s pl t) t w.b).isBad = false →
    ∃ s' y, exec i s = .next s' ∧ s' = { s with threads := s'.threads, ops := s'.ops, groups := s'.groups, serial := s.serial + 1 } ∧
      s'.ops.get s.serial = some y ∧ (∀ k, k ≠ s.serial → s'.ops.get k = s.ops.get k) ∧
      y.kind = kind (x.sup && x.cls == 5) (srcW (envOf s pl t) t w.a).toNat (srcW (envOf s pl t) t w.b).toNat ∧ y.th = pl ∧
      y.ths = (ledParticipants i s).map (·.1.pl) ∧ y.dst = w.d.toNat ∧ y.nd = nd ∧ y.slot = some slot.toNat ∧ LedCounted s i slot s' ∧
      (∀ p ∈ ledParticipants i s, s'.threads.get p.1.pl = some (p.2.addPend w.d.toNat nd)) ∧
      ∀ q, (∀ p ∈ ledParticipants i s, p.1.pl ≠ q) → s'.threads.get q = s.threads.get q

end Sys2Proof.Spec

/-- R335: TOWREC, TOWITER, TOWPLAY, TOWSTOP, TOWSTAT and TOWDROP. The executing thread of lowest home lane supplies the operands of one
request, and every executing thread waits for its `D`.
The model's own choice here: which requests wait for which (log 42). -/
def Obligations.TowlineIssue : Prop := ∀ (w : W1) (x : ExtE),
  let tow := fun (opc : Nat) (sys : Bool) (a b : Nat) => OpKind.tow opc (x.imm.toNat % 16) a b sys
  GroupOp (.towrec w x) w x.slot 1 (tow 0) ∧ GroupOp (.towiter w x) w x.slot 0 (tow 1) ∧ GroupOp (.towplay w x) w x.slot 1 (tow 2) ∧
  GroupOp (.towstop w x) w x.slot 1 (tow 3) ∧ GroupOp (.towstat w x) w x.slot 4 (tow 4) ∧ GroupOp (.towdrop w x) w x.slot 1 (tow 5)

/-- R163: LAUNCH on an open queue with free entries enough. The executing threads claim successive entries from the tail on, in their
order in the issue group; the tail moves past them, and each thread has an operation that will copy its packet after a device-scope
release. -/
def Sys2Proof.Spec.LaunchClaims : Prop :=
  ∀ (w : W1) (x : ExtE) (s : State) (f : Info) (z : Issue) (d : Queue), Ready s (.launch w x) f z x.slot →
    let run := participants (.launch w x) s
    let q := x.imm.toNat % 64
    let entry := fun j : Nat => (d.tail + j) % 2 ^ d.log2
    let source := fun p : Env × Thread => accsAt s p.1.who (rdN p.1 p.2 w.a.toNat 2).1 0x78 0 9
    s.queues.get q = some d → d.isOpen = true → d.tail < 2 ^ d.log2 → run ≠ [] →
    (∀ j < run.length, entryFree (entryState s d (entry j)) = true) → (∀ p ∈ run, (srcDP p.1 p.2 w.a).isBad = false) →
    (∀ p ∈ run, ∀ a ∈ source p, lockTrap s a (lockAddr s p.1.who a.va) 9 false = none) →
    ∃ s', exec (.launch w x) s = .next s' ∧
      s' = { s with threads := s'.threads, ops := s'.ops, groups := s'.groups, queues := s'.queues, serial := s.serial + run.length } ∧
      s'.queues.get q = some { d with tail := entry run.length } ∧ (∀ k, k ≠ q → s'.queues.get k = s.queues.get k) ∧
      (∀ k, k < s.serial → s'.ops.get k = s.ops.get k) ∧ Counted s (.launch w x) x.slot s' ∧
      (∀ pl, (∀ p ∈ run, p.1.pl ≠ pl) → s'.threads.get pl = s.threads.get pl) ∧
      ∀ j e t, run[j]? = some (e, t) → s'.threads.get e.pl = some (t.addPend w.d.toNat 1) ∧
        ∃ y, s'.ops.get (s.serial + j) = some y ∧ y.th = e.pl ∧ y.ths = [e.pl] ∧
          y.kind = (match rangeAt s e.who (rdN e t w.a.toNat 2).1 0x78 0 9 with
            | .error r => .launch q (entry j) [] (some r)
            | .ok _ => .launch q (entry j) (source (e, t)) none) ∧
          y.dst = w.d.toNat ∧ y.nd = 1 ∧ y.rel = some 2 ∧ y.relDone = false ∧ y.slot = some x.slot.toNat

/-- R163: LAUNCH on a queue that is not open, or whose tail entry is not free, traps 0x1B and claims nothing. -/
def Sys2Proof.Spec.LaunchTraps : Prop :=
  ∀ (w : W1) (x : ExtE) (s : State) (f : Info) (z : Issue), Ready s (.launch w x) f z x.slot → (∀ pl ∈ z.lanes, isSup pl = false) →
    claimEntry s (x.imm.toNat % 64) = none → (∀ p ∈ participants (.launch w x) s, (srcDP p.1 p.2 w.a).isBad = false) →
    ∃ s', exec (.launch w x) s = .next s' ∧ s'.queues = s.queues ∧ s'.ops = s.ops ∧ s'.mem = s.mem ∧
      ∀ pl t, Runs s (.launch w x) f z pl t → ∃ t' sp, s'.threads.get pl = some t' ∧ t' = { t with st := .susp, next := none, susp := some sp } ∧
        sp.code = 0x1B ∧ sp.detail = x.imm.toNat % 64 ∧ sp.pos = some (z.hdr, z.wix)

/-- R164: SVC with request entries for all its threads: each has an operation that waits for the reply, and a record waiting to be posted
with the service number, the three operands and the SVC's place. Where no entry is free, the issue group holds and nothing is posted. -/
def Sys2Proof.Spec.ServiceIssue : Prop :=
  ∀ (w : W1) (x : ExtE) (s : State) (f : Info) (z : Issue) (core : Nat), Ready s (.svc w x) f z x.slot →
    let run := participants (.svc w x) s
    run ≠ [] → (∀ p ∈ run, p.1.core = core) → (∀ e ∈ s.posts, e.1 < s.serial) →
    (∀ p ∈ run, (srcP p.1 p.2 w.a).isBad = false ∧ (srcP p.1 p.2 w.b).isBad = false ∧ (srcP p.1 p.2 x.c).isBad = false) →
    (run.length ≤ freeRequests s core →
      ∃ s', exec (.svc w x) s = .next s' ∧
        s' = { s with threads := s'.threads, ops := s'.ops, groups := s'.groups, posts := s'.posts, issues := s'.issues,
                      serial := s.serial + 2 * run.length } ∧
        (∃ z', s'.issues.get s.cur = some z' ∧ z' = { z with served := z'.served } ∧ ∀ p ∈ run, p.1.pl ∈ z'.served) ∧
        Counted s (.svc w x) x.slot s' ∧ (∀ k, k < s.serial → s'.ops.get k = s.ops.get k ∧ s'.posts.get k = s.posts.get k) ∧
        (∀ pl, (∀ p ∈ run, p.1.pl ≠ pl) → s'.threads.get pl = s.threads.get pl) ∧
        ∀ j e t, run[j]? = some (e, t) → s'.threads.get e.pl = some (t.addPend w.d.toNat 1) ∧
          ∃ y p, s'.ops.get (s.serial + 2 * j) = some y ∧ y.kind = .svc (s.serial + 2 * j + 1) ∧ y.th = e.pl ∧ y.ths = [e.pl] ∧
            y.dst = w.d.toNat ∧ y.nd = 1 ∧ y.slot = some x.slot.toNat ∧ s'.posts.get (s.serial + 2 * j + 1) = some p ∧ p.core = core ∧
            p.th = some e.pl ∧ p.op = some (s.serial + 2 * j) ∧ p.mrec.kind = 1 ∧ p.mrec.code = 0 ∧ p.mrec.detail = x.imm.toNat ∧
            p.mrec.pc = z.hdr + 4 * (z.wix + 1) ∧ p.mrec.hdr = z.hdr ∧ p.mrec.word = z.wix ∧
            p.mrec.payload = bytesOf (srcW e t w.a).toNat 4 ++ bytesOf (srcW e t w.b).toNat 4 ++ bytesOf (srcW e t x.c).toNat 4) ∧
    (freeRequests s core = 0 →
      ∃ s', exec (.svc w x) s = .next s' ∧ s'.threads = s.threads ∧ s'.posts = s.posts ∧ s'.mem = s.mem ∧
        ∃ z', s'.issues.get s.cur = some z' ∧ z'.stall = true ∧ z'.lanes = z.lanes ∧ ∀ p ∈ run, p.1.pl ∉ z'.served)

/-- R192, R197, R347, R348, R355: MAPSYNC, REFIT, MBXRD, MBXWR and SRMOV WRITE issue one operation for each thread that executes them:
MAPSYNC and REFIT with a release of system scope, MBXWR and SRMOV WRITE with one of device scope. -/
def Sys2Proof.Spec.SupervisorIssue : Prop := ∀ (w : W1) (x : ExtE),
  let pair := fun (e : Env) (t : Thread) => (rdN e t w.a.toNat 2).1
  let one := fun (e : Env) (y : Op) => y.ths = [e.pl] ∧ y.dst = w.d.toNat ∧ y.nd = 1
  let clean := fun (e : Env) (t : Thread) => (srcP e t w.b).isBad = false ∧ (srcP e t x.c).isBad = false
  Issues (.mapsync w x) x.slot (fun _ e t => (srcDP e t w.a).isBad = false ∧ clean e t) same
    (fun _ e t y => one e y ∧ y.kind = .mapsync (pair e t) (srcW e t w.b).toNat (srcW e t x.c).toNat 0 0 none ∧ y.rel = some 4 ∧ y.relDone = false) ∧
  Issues (.refit w x) x.slot (fun _ e t => (srcDP e t w.a).isBad = false ∧ clean e t) same
    (fun _ e t y => one e y ∧ y.kind = .refit (pair e t) (srcW e t w.b).toNat (srcW e t x.c).toNat 0 none ∧ y.rel = some 4 ∧ y.relDone = false) ∧
  Issues (.mbxrd w x) x.slot (fun _ e t => (srcDP e t w.a).isBad = false) same
    (fun _ e t y => one e y ∧ y.kind = .mbxrd (pair e t) ∧ y.rel = none ∧ y.acq = some 2) ∧
  Issues (.mbxwr w x) x.slot
    (fun _ e t => (srcP e t w.a).isBad = false ∧ (srcP e t w.b).isBad = false ∧ (srcDP e t x.c).isBad = false) same
    (fun _ e t y => one e y ∧ y.kind = .mbxwr ((srcW e t w.a).toNat % 64) (srcW e t w.b).toNat (rdN e t x.c.toNat 2).1 ∧ y.rel = some 2 ∧
      y.relDone = false) ∧
  Issues (.srmovWrite w x) x.slot (fun _ e t => (srcDP e t w.a).isBad = false) same
    (fun _ e t y => y.ths = [] ∧ y.kind = .srmovW x.imm.toNat (srcD e t w.a) ∧ y.rel = some 2 ∧ y.relDone = false)

namespace Sys2Proof.Spec

/-- The operation of a CTX whose status is known at its issue: it has only to write `D` (R346, R351). -/
def statusOp (w : W1) (n : Nat) (_ : State) (e : Env) (_ : Thread) (y : Op) : Prop :=
  y.kind = .status n ∧ y.ths = [e.pl] ∧ y.dst = w.d.toNat ∧ y.nd = 1

/-- An SRMOV READ or a CTX whose status is known ends with the value v: its operation is over and `D` written; no other thread changes, nor any
other part of the state (R346). -/
def Finishes (s : State) (op : Nat) (o : Op) (v : Nat) : Prop :=
  Ended s op o (finishOp s op) ∧
  finishOp s op = { s with threads := (finishOp s op).threads, ops := (finishOp s op).ops, groups := (finishOp s op).groups } ∧
  (∀ pl, pl ≠ o.th → (finishOp s op).threads.get pl = s.threads.get pl) ∧
  ∀ t, s.threads.get o.th = some t → (finishOp s op).threads.get o.th = some (arrives t o v none)

/-- The target word of a CTX, and whether its operands are clean (R351). -/
def ctxTarget (e : Env) (t : Thread) (w : W1) : Nat := (srcW e t w.b).toNat
def ctxClean (e : Env) (t : Thread) (w : W1) : Prop := (srcP e t w.b).isBad = false ∧ (srcDP e t w.a).isBad = false
/-- The save area of a CTX: `A`, or the `SAVE` address of the named team's packet where `A` is 120, under that team's ASID. -/
def saveArea (e : Env) (t : Thread) (w : W1) (tm : Team) : Nat × Nat :=
  if w.a = 120 then (tm.pkt.asid, tm.pkt.save) else (0, (rdN e t w.a.toNat 2).1)
/-- One thread executes a CTX, its operands clean. -/
structure CtxOne (s : State) (i : Instr) (f : Info) (z : Issue) (w : W1) (x : ExtE) (pl : Nat) (t : Thread) : Prop where
  ready : Ready s i f z x.slot
  one : participants i s = [(envOf s pl t, t)]
  live : t.st ≠ .exited
  clean : ctxClean (envOf s pl t) t w

/-- A CTX ends its issue with its status known: an operation waits to write it to `D`, and the earlier operations stay. -/
def Answers (s : State) (w : W1) (x : ExtE) (pl : Nat) (t : Thread) (n : Nat) (s' : State) : Prop :=
  (∃ k y, s.serial ≤ k ∧ s'.ops.get k = some y ∧ statusOp w n s (envOf s pl t) t y ∧ y.th = pl ∧ y.slot = some x.slot.toNat) ∧
  (∀ k, k < s.serial → s'.ops.get k = s.ops.get k) ∧ s'.threads.get pl = some (t.addPend w.d.toNat 1)
/-- Nothing but the operation, its slot and its pending mark changes. -/
def OnlyAnswers (s s' : State) : Prop :=
  s' = { s with threads := s'.threads, ops := s'.ops, groups := s'.groups, serial := s.serial + 1 }

end Sys2Proof.Spec

/-- R351: CTX SAVE of a stopped team and CTX LOAD onto a core issue an operation; SAVE, PREEMPT, RESUME and ABORT that name no team
answer 1, SAVE of a team that is not stopped answers 2, and LOAD onto a core that does not exist answers 3 (that last is the model's
choice: the spec names no status for it).
The model's own choice here: the address space of the area, and the status of a LOAD onto a core that does not exist (log 45, 62). -/
def Sys2Proof.Spec.ContextIssue : Prop := ∀ (w : W1) (x : ExtE),
  let none1 := fun (s : State) (e : Env) (t : Thread) => ctxClean e t w ∧ ctxTeam s (ctxTarget e t w) = none
  Issues (.ctxSave w x) x.slot none1 same (statusOp w 1) ∧ Issues (.ctxPreempt w x) x.slot none1 same (statusOp w 1) ∧
  Issues (.ctxResume w x) x.slot none1 same (statusOp w 1) ∧ Issues (.ctxAbort w x) x.slot none1 same (statusOp w 1) ∧
  Issues (.ctxSave w x) x.slot
    (fun s e t => ctxClean e t w ∧ ∃ k tm, ctxTeam s (ctxTarget e t w) = some (k, tm) ∧ (tm.st ≠ .stopped ∨ tm.ended = true)) same
    (statusOp w 2) ∧
  Issues (.ctxLoad w x) x.slot (fun _ e t => ctxClean e t w ∧ 192 ≤ ctxTarget e t w % 256) same (statusOp w 3) ∧
  Issues (.ctxSave w x) x.slot
    (fun s e t => ctxClean e t w ∧ ∃ k tm, ctxTeam s (ctxTarget e t w) = some (k, tm) ∧ tm.st = .stopped ∧ tm.ended = false) same
    (fun s e t y => ∃ k tm, ctxTeam s (ctxTarget e t w) = some (k, tm) ∧
      y.kind = .ctx 0 (saveArea e t w tm).2 (saveArea e t w tm).1 (ctxTarget e t w % 256) k ∧ y.ths = [e.pl] ∧ y.dst = w.d.toNat ∧ y.nd = 1) ∧
  Issues (.ctxLoad w x) x.slot (fun _ e t => ctxClean e t w ∧ ctxTarget e t w % 256 < 192) same
    (fun _ e t y => y.kind = .ctx 1 (if w.a = 120 then 0 else (rdN e t w.a.toNat 2).1) 0 (ctxTarget e t w % 256) 0 ∧ y.ths = [e.pl] ∧
      y.dst = w.d.toNat ∧ y.nd = 1)

/-- R18, R350, R351: CTX PREEMPT of a running team. Every running member of its gang enters STOPPING, and the CTX waits for the team it
named. In any other state of the team it answers 2. -/
def Sys2Proof.Spec.PreemptStops : Prop :=
  ∀ (w : W1) (x : ExtE) (s : State) (f : Info) (z : Issue) (pl : Nat) (t : Thread) (k : Nat) (tm : Team), CtxOne s (.ctxPreempt w x) f z w x pl t →
    Rising s.teams →
    ctxTeam s (ctxTarget (envOf s pl t) t w) = some (k, tm) →
    let mine := fun u : Team => u.grid = tm.grid ∧ u.index / tm.pkt.gang = tm.index / tm.pkt.gang
    (tm.st = .running → tm.ended = false → tm.aborted = false →
      ∃ s' y, exec (.ctxPreempt w x) s = .next s' ∧
        s' = { s with threads := s'.threads, ops := s'.ops, groups := s'.groups, teams := s'.teams, serial := s.serial + 1 } ∧
        s'.ops.get s.serial = some y ∧ y.kind = .ctx 2 0 0 (ctxTarget (envOf s pl t) t w % 256) k ∧ y.ths = [pl] ∧ y.nd = 1 ∧
        s'.threads.get pl = some (t.addPend w.d.toNat 1) ∧ (∀ q, q ≠ pl → s'.threads.get q = s.threads.get q) ∧
        ∀ j u, s.teams.get j = some u → s'.teams.get j = some (if mine u ∧ u.st = .running ∧ u.ended = false then { u with st := .stopping } else u)) ∧
    (tm.st ≠ .running ∨ tm.ended = true ∨ tm.aborted = true →
      ∃ s', exec (.ctxPreempt w x) s = .next s' ∧ OnlyAnswers s s' ∧ Answers s w x pl t 2 s')

/-- R18, R351, R352: CTX RESUME of a gang all of whose members are stopped on distinct cores of one cluster, with room for their locks:
every member runs again, its withdrawn records are posted again, and the status is 0. While some member is not so, the status is 2; without the
room, it is 3. -/
def Sys2Proof.Spec.ResumeRuns : Prop :=
  ∀ (w : W1) (x : ExtE) (s : State) (f : Info) (z : Issue) (pl : Nat) (t : Thread) (k : Nat) (tm : Team), CtxOne s (.ctxResume w x) f z w x pl t →
    Rising s.teams →
    ctxTeam s (ctxTarget (envOf s pl t) t w) = some (k, tm) →
    let mine := fun u : Team => u.grid = tm.grid ∧ u.index / tm.pkt.gang = tm.index / tm.pkt.gang ∧ u.ended = false
    (tm.ended = false → gangStopped s tm = true → resumeRoom s (gangLive s tm) = true →
      ∃ s', exec (.ctxResume w x) s = .next s' ∧ Answers s w x pl t 0 s' ∧ (∀ q, q ≠ pl → s'.threads.get q = s.threads.get q) ∧
        s'.mem.cells = s.mem.cells ∧
        (∀ j u, s.teams.get j = some u → s'.teams.get j = some (if mine u then { u with st := .running, held := [] } else u)) ∧
        ∀ j u, s.teams.get j = some u → mine u → ∀ h ∈ u.held, ∃ p ∈ s'.posts, p.2.th = some (u.placeOf h.1) ∧ p.2.core = u.core ∧
          p.2.mrec.code = h.2.code ∧ p.2.mrec.payload = h.2.payload) ∧
    (tm.ended = false → gangStopped s tm = true → resumeRoom s (gangLive s tm) = false →
      ∃ s', exec (.ctxResume w x) s = .next s' ∧ OnlyAnswers s s' ∧ Answers s w x pl t 3 s') ∧
    (tm.ended = true ∨ gangStopped s tm = false →
      ∃ s', exec (.ctxResume w x) s = .next s' ∧ OnlyAnswers s s' ∧ Answers s w x pl t 2 s')

/-- R351, R354: CTX ABORT of a lone running team, of one gang member, with nothing under way: it is aborted, trap 0x18 waits for each of
its threads that has not exited, and the status is 0. -/
def Sys2Proof.Spec.AbortEnds : Prop :=
  ∀ (w : W1) (x : ExtE) (s : State) (f : Info) (z : Issue) (pl : Nat) (t : Thread) (k : Nat) (tm : Team), CtxOne s (.ctxAbort w x) f z w x pl t →
    ctxTeam s (ctxTarget (envOf s pl t) t w) = some (k, tm) → isSup pl = true →
    (tm.ended = true → ∃ s', exec (.ctxAbort w x) s = .next s' ∧ OnlyAnswers s s' ∧ Answers s w x pl t 2 s') ∧
    (tm.ended = false → tm.st ≠ .placed → gangMembers s tm = [(k, tm)] → s.cmds = [] → s.passes = [] → (∀ c ∈ tm.crews, c.colls = []) →
      (∀ e ∈ s.ops, ofTeam s k e.2.th = false ∧ ∀ a b c d, e.2.kind ≠ .ctx 2 a b c d) →
      ∃ s', exec (.ctxAbort w x) s = .next s' ∧ Answers s w x pl t 0 s' ∧ s'.mem = s.mem ∧
        (∃ u, s'.teams.get k = some u ∧ u.aborted = true ∧ u.st = .running) ∧
        ∀ q u, q ≠ pl → s.threads.get q = some u →
          s'.threads.get q = some (if u.team = k ∧ isSup q = false ∧ u.st ≠ .exited
            then { u with abort := some (ctxTarget (envOf s pl t) t w % 256) } else u))

/-- R346, R355: SRMOV READ issues an operation, which reads the system register that the immediate names and writes it to `D`, clean. A CTX whose
status is known at its issue ends alike.
The model's own choice here: that SRMOV READ reads the register when it completes (log 90). -/
def Sys2Proof.Spec.SystemRegisterRead : Prop :=
  (∀ (w : W1) (x : ExtE), Issues (.srmovRead w x) x.slot always same
    (fun _ e _ y => y.kind = .srmovR x.imm.toNat ∧ y.ths = [e.pl] ∧ y.dst = w.d.toNat ∧ y.nd = 2 ∧ y.rel = none)) ∧
  ∀ (s : State) (op : Nat) (o : Op), OwnOp s op o →
    (∀ r, o.kind = .srmovR r → Finishes s op o (sysRead s (placeCore o.th) r)) ∧ (∀ v, o.kind = .status v → Finishes s op o v)

/-- R18, R349 to R354: CTX. -/
def Obligations.ContextControl : Prop := ContextIssue ∧ PreemptStops ∧ ResumeRuns ∧ AbortEnds

/-! ### How launches, mailboxes, replies, system registers, the map, Towline and contexts complete -/

namespace Sys2Proof.Spec

/-- A launch ring that lies in device memory, aligned (R146). -/
def InDevice (d : Queue) : Prop := d.base % 128 = 0 ∧ d.base + 2 ^ 19 ≤ 0x6000000000 ∧ d.host = false

/-- The `STATE` byte of an entry reads `v`, and no other byte of memory has changed. -/
def StateOnly (s s' : State) (d : Queue) (e v : Nat) : Prop :=
  entryState s' d e = v ∧ ∀ b, b ≠ ringAt d e 0x78 → Memory.get s'.mem.cells b = Memory.get s.mem.cells b

/-- The threads other than `th` stay. -/
def OthersStay (s s' : State) (th : Nat) : Prop := ∀ pl, pl ≠ th → s'.threads.get pl = s.threads.get pl

/-- The release of a supervisor thread's operation completes now (R240). -/
structure Releases (s : State) (op : Nat) (o : Op) (t : Thread) : Prop where
  own : s.ops.get op = some o
  grps : o.grps.Nodup
  rel : o.rel.isSome = true
  ready : releaseReady s op o = true
  free : blocked s op o = false
  thread : s.threads.get o.th = some t
  sup : s.teams.get t.team = none

end Sys2Proof.Spec

/-- R163: LAUNCH_COMPLETE after the release. A packet that can be read clean is copied into the claimed entry, whose `STATE` becomes 1, and `D`
takes its index; a fault, or poison in the source, cancels the claim with `STATE` 0x80 and poisons `D` with the record. The source is read as plain
loads read it: the scratchpad, the peer, or a level that holds the line, which it may fill.
The model's own choice here: how a cancelled entry becomes free again (log 37). -/
def Sys2Proof.Spec.LaunchesComplete : Prop :=
  (∀ (s : State) (o : Op) (a : Acc),
    (∀ tm off, a.loc = .scratch tm off → (readAcc s o a).2 = (scratchBytes s tm off a.size, (scratchPois s tm off a.size).map (fun _ => 0x05))) ∧
    (∀ y, a.loc = .phys y → spaceOf y = 1 → peerLost s a = true ∨ o.lost.isSome = true → y % 64 + a.size ≤ 64 → 0 < a.size →
      (readAcc s o a).2.2 = some 0x1A) ∧
    (∀ y, a.loc = .phys y → spaceOf y = 0 → y % 64 + a.size ≤ 64 → 0 < a.size → s.mem.l1.get (copyKey (placeCore o.th) y) = none →
      s.mem.rdc.get (copyKey (dieOf (placeCore o.th)) y) = none → s.mem.l1at.get (countKey (placeCore o.th) y) = none →
      (readAcc s o a).2 = (homeBytes s.mem y a.size, (homePois s.mem y).map (fun _ => 0x05)))) ∧
  ∀ (s : State) (op : Nat) (o : Op) (q k : Nat) (src : List Acc) (bad : Option FRec) (t : Thread) (d : Queue), OwnOp s op o →
    o.kind = .launch q k src bad → o.nd = 1 → blocked s op o = false → o.relDone = true → s.threads.get o.th = some t →
    s.queues.get q = some d → InDevice d → k < 2 ^ 12 → Memory.wf s.mem.cells = true →
    (∀ a ∈ src, ∀ y, a.loc = .phys y → spaceOf y = 1 → sendHeld s (peerOf y) = false) →
    let r := readSource s o src
    let ends := fun (s' : State) (v : Nat) (bad : Option FRec) =>
      exec (.launchComplete op) s = .next s' ∧ Ended s op o s' ∧ OthersStay s s' o.th ∧ s'.threads.get o.th = some (arrives t o v bad)
    (bad = none → r.2.2 = none → r.2.1.length = 0x78 →
      ∃ s', ends s' k none ∧ entryState s' d k = 1 ∧ homeBytes s'.mem (ringAt d k 0) 0x78 = r.2.1 ∧
        ∀ b, b < ringAt d k 0 ∨ ringAt d k 0x78 < b → Memory.get s'.mem.cells b = Memory.get r.1.mem.cells b) ∧
    (∀ f, bad = some f → ∃ s', ends s' 0 (some f) ∧ StateOnly s s' d k 0x80) ∧
    (∀ f, bad = none → r.2.2 = some f → ∃ s', ends s' 0 (some f) ∧ StateOnly r.1 s' d k 0x80)

/-- R342, R343: MAILBOX_POST. An event takes the lowest free entry of 56 to 63, and waits while there is none; a thread's record takes the
lowest free entry of 0 to 55 once the thread's device-scope release has completed and the entry is not promised to an SVC.
The model's own choice here: which free entry a record takes (log 34). -/
def Sys2Proof.Spec.MailboxPosts : Prop :=
  ∀ (s : State) (post : Nat) (p : Post), s.posts.get post = some p →
    let free := fun e : Nat => s.mail.get (mailKey p.core e) = none
    let lowest := fun lo hi e : Nat => lo ≤ e ∧ e < hi ∧ free e ∧ ∀ j, lo ≤ j → j < e → ¬ free j
    let posted := fun (s' : State) (e : Nat) => exec (.mailboxPost post) s = .next s' ∧ s'.posts = s.posts.del post ∧ s'.threads = s.threads ∧
      s'.mem = s.mem ∧ (∃ m, s'.mail.get (mailKey p.core e) = some m ∧ m.mrec = p.mrec ∧ m.read = false ∧ m.th = p.th ∧ m.op = p.op) ∧
      ∀ j, j ≠ mailKey p.core e → s'.mail.get j = s.mail.get j
    (p.th = none → (∀ e, lowest 56 64 e → ∃ s', posted s' e) ∧ ((∀ e, 56 ≤ e → e < 64 → ¬ free e) → exec (.mailboxPost post) s = .next s)) ∧
    (∀ th, p.th = some th →
      let released := releasedAt s (p.op.getD s.serial) th 2 = true ∧ (p.resv = true ∨ freeRequests s p.core ≠ 0)
      (released → ∀ e, lowest 0 56 e → ∃ s', posted s' e) ∧ (¬ released → exec (.mailboxPost post) s = .next s))

/-- R347: MBXRD_COMPLETE. The unread record that was posted first is stored at the address, and `D` takes its entry, kind, code and the
number of records still unread; an event's entry is freed and any other is marked read. A fault of the store frees nothing and poisons
`D`. With nothing unread the MBXRD waits. Its completion is an acquire of scope d (log 77). -/
def Sys2Proof.Spec.MailboxReads : Prop :=
  ∀ (s : State) (op : Nat) (o : Op) (va : Nat) (t : Thread), OwnOp s op o → o.kind = .mbxrd va → o.nd = 1 → s.threads.get o.th = some t →
    Rising s.mail →
    let core := placeCore o.th
    let who := (envOf s o.th t).who
    let mine := fun e : Nat × MEnt => e.1 / 64 = core ∧ e.2.read = false
    ((∀ e ∈ s.mail, ¬ mine e) → exec (.mbxrdComplete op) s = .next s) ∧
    ∀ k m, (k, m) ∈ s.mail → mine (k, m) → (∀ e ∈ s.mail, mine e → e.1 ≠ k → m.order < e.2.order) → blocked s op o = false →
      (va % 64 = 0 → rangeHeld s who va 64 = false) →
      let data := cleanBytes (m.mrec.bytes (k % 64))
      (∀ s1 g, va % 64 = 0 → writeRange s who va data 1 (some core) = .ok (s1, g) →
        ∃ s', exec (.mbxrdComplete op) s = .next s' ∧ Ended s op o s' ∧ OthersStay s s' o.th ∧ s'.mem = s1.mem ∧ s'.teams = s1.teams ∧
          s'.mail = (if 56 ≤ k % 64 then s.mail.del k else s.mail.put k { m with read := true }) ∧
          s'.threads.get o.th = some (arrives ((t.raise g).acquire s1 o.th 2) o
            (k % 64 + m.mrec.kind * 64 + m.mrec.code * 256 + ((unread s core).length - 1) * 65536) none)) ∧
      (∀ f, (va % 64 ≠ 0 → f = faultRec s who va 1 0x10) → (va % 64 = 0 → writeRange s who va data 1 (some core) = .error f) →
        ∃ s', exec (.mbxrdComplete op) s = .next s' ∧ Ended s op o s' ∧ OthersStay s s' o.th ∧ s'.mem = s.mem ∧ s'.mail = s.mail ∧
          s'.threads.get o.th = some (arrives t o 0 (some f)))

/-- R344, R348: MBXWR when its release completes. `D` is 1 for an entry that awaits no reply, 3 for an invalid word, 2 for an action that the
entry does not take, and then nothing else happens; else it is 0 and the entry is freed. RESUME lets the thread stand at the target with k0
to k7 zero, SKIP goes on alone after the word, RETRY at the word (after a wait for the locks with `LOCKWAIT`), or both at the held address
for a boundary trap, and TERMINATE ends the thread.
The model's own choice here: that a record not yet read awaits a reply, that RESUME keeps the FWAITs of the run, how a thread goes on in the middle
of a run, and what SKIP does after trap 0x12 at a word where the thread was parked (log 35, 36, 66, 89). -/
def Sys2Proof.Spec.RepliesToTraps : Prop :=
  (∀ m word, 5 ≤ word % 8 ∨ word / 32 ≠ 0 → replyValid m word = false) ∧
  ∀ (s : State) (op : Nat) (o : Op) (e word target : Nat) (t : Thread), Releases s op o t → o.kind = .mbxwr e word target → o.ths = [o.th] → o.nd = 1 →
    let key := mailKey (placeCore o.th) e
    let refuses := fun n : Nat => ∃ s', exec (.releaseComplete op) s = .next s' ∧ Ended s op o s' ∧ OthersStay s s' o.th ∧ s'.mail = s.mail ∧
      s'.mem = s.mem ∧ s'.threads.get o.th = some (arrives t o n none)
    (s.mail.get key = none ∨ 56 ≤ e ∨ (∃ m, s.mail.get key = some m ∧ m.th = none) → refuses 1) ∧
    ∀ m pl u, s.mail.get key = some m → m.th = some pl → e < 56 → s.threads.get pl = some u →
      let fetch := match u.susp with | some sp => sp.fetch | none => false
      (replyValid m.mrec word = false → refuses 3) ∧
      (replyValid m.mrec word = true → replyAllowed m.mrec fetch (word % 8) = false → refuses 2) ∧
      ∀ sp, u.susp = some sp → m.mrec.kind = 0 → replyValid m.mrec word = true → replyAllowed m.mrec fetch (word % 8) = true → pl ≠ o.th →
        u.st ≠ .exited → u.exiting = false →
        ∃ s' u', exec (.releaseComplete op) s = .next s' ∧ s'.mail.get key = none ∧ s'.threads.get o.th = some (arrives t o 0 none) ∧
          s'.threads.get pl = some u' ∧ (sp.coll = false → s'.teams = s.teams) ∧ u'.v = u.v ∧
          (∀ q, q ≠ pl → q ≠ o.th → s'.threads.get q = s.threads.get q) ∧
          (word % 8 = 0 → u'.st = .ready ∧ u'.susp = none ∧ u'.pc = BitVec.ofNat 64 target ∧ u'.k = List.replicate 8 {}) ∧
          (word % 8 = 1 → u'.susp = none ∧ (∀ h x, sp.pos = some (h, x) → u'.st = .resume x (if sp.code = 0x12 then sp.coll else true)) ∧
            (sp.pos = none → u'.st = .ready ∧ u'.pc = u.pc)) ∧
          (word % 8 = 2 → word.testBit 3 = false → u'.susp = none ∧ (∀ h x, sp.pos = some (h, x) → u'.st = .resume x false) ∧
            (sp.pos = none → u'.st = .ready ∧ u'.pc = u.pc ∧ u'.waits = sp.waits.map (fun c => ⟨c.1, c.2, none, false⟩))) ∧
          (word % 8 = 2 → word.testBit 3 = true → u'.st = .lockwait) ∧
          (word % 8 = 3 → u'.st = .exited)

/-- R164, R245, R348: replies to a service, whose thread goes on as one that has acquired (from its team's clock, log 77). RETURN writes the low word of the target into the SVC's `D`, poisoned with a new record of cause 0x05
where the reply says so, and ends the SVC; TERMINATE ends the thread at once where it stands at a boundary, else at its next one. -/
def Sys2Proof.Spec.RepliesToServices : Prop :=
  ∀ (s : State) (op : Nat) (o : Op) (e word target : Nat) (t : Thread) (m : MEnt) (pl k : Nat) (u : Thread) (b : Op),
    Releases s op o t → o.kind = .mbxwr e word target → o.ths = [o.th] → o.nd = 1 → s.mail.get (mailKey (placeCore o.th) e) = some m → e < 56 →
    m.th = some pl → m.op = some k → m.mrec.kind = 1 → replyValid m.mrec word = true → s.threads.get pl = some u → u.st ≠ .exited → pl ≠ o.th →
    isSup pl = false → s.ops.get k = some b → k ≠ op → b.ths = [pl] → b.nd = 1 →
    (word % 8 = 4 → ∃ s', exec (.releaseComplete op) s = .next s' ∧ s'.mail.get (mailKey (placeCore o.th) e) = none ∧
      s'.ops.get k = none ∧ s'.ops.get op = none ∧ s'.threads.get o.th = some (arrives t o 0 none) ∧
      ∃ u', s'.threads.get pl = some u' ∧ u.rclk ≤ u'.rclk ∧ (∀ tm, s.teams.get u.team = some tm → tm.rel.t ≤ u'.rclk) ∧
        u' = { arrives u b target (if word.testBit 4 then some { cause := 0x05 } else none) with
               rclk := u'.rclk, provs := u'.provs, pwin := u'.pwin }) ∧
    (word % 8 = 3 → ∃ s' u', exec (.releaseComplete op) s = .next s' ∧ s'.mail.get (mailKey (placeCore o.th) e) = none ∧
      s'.ops.get k = none ∧ s'.threads.get pl = some u' ∧
      (u.st = .ready → u'.st = .exited) ∧ (∀ c, u.st = .issuing c → u'.exiting = true ∧ u'.st = u.st))

/-- R348: LOCKWAIT_RETRY. A thread told to wait for the locks retries its word once no lock covers its access, and waits until then. -/
def Sys2Proof.Spec.LockWaits : Prop :=
  ∀ (s : State) (th : Nat) (t : Thread) (sp : Susp) (h x owner a n : Nat) (sc wr : Bool), s.threads.get th = some t → t.st = .lockwait →
    t.susp = some sp → sp.pos = some (h, x) → sp.acc = some (owner, a, n, sc, wr) →
    (lockHit s sc owner a n wr = none → ∃ s', exec (.lockwaitRetry th) s = .next s' ∧ s' = { s with threads := s'.threads } ∧
      s'.threads.get th = some { t with st := .resume x false, susp := none } ∧ OthersStay s s' th) ∧
    (lockHit s sc owner a n wr ≠ none → exec (.lockwaitRetry th) s = .next s)

/-- R146, R179, R224, R355, R360, R366: what a write of a system register does, and that SRMOV WRITE does it when its release completes.
The model's own choice here: values out of range, what the one write of `LQTAIL` sets while the queue is closed, and `FACK` (log 44, 53, 54). -/
def Sys2Proof.Spec.SystemRegisterWrites : Prop :=
  (∀ (s : State) (c v : Nat), let wr := fun r => sysRead (sysWrite s r v) c r
    wr 0x110 = (if 64 ≤ v ∧ v ≤ 4096 ∧ v % 16 = 0 then v else s.mod.lsl1) ∧
    wr 0x111 = (if 128 ≤ v ∧ v ≤ 8192 ∧ v % 16 = 0 then v else s.mod.lsrdc) ∧
    wr 0x112 = (if 1024 ≤ v ∧ v ≤ 8192 ∧ v % 64 = 0 ∧ ∀ k ∈ s.mod.links, k.st ≠ .active then v else s.mod.fwin) ∧
    wr 0x100 = v / 2 ^ 18 * 2 ^ 18 ∧ wr 0x101 = (if s.xl.spill = [] then v / 256 * 256 else s.xl.xspb) ∧
    (s.xl.spill ≠ [] → wr 0x102 = s.xl.xspn) ∧
    (∀ r ∈ [0x000, 0x001, 0x002, 0x103, 0x104, 0x113, 0x30A, 0x340, 0x341], sysWrite s r v = s) ∧
    (∀ q d, q < 64 → s.queues.get q = some d →
      wr (0x200 + 4 * q) = v / 128 * 128 ∧
      (1 ≤ v % 16 → v % 16 ≤ 12 → wr (0x201 + 4 * q) = v % 16 + if v.testBit 8 = true ∧ 8 ≤ s.mod.boot.step then 256 else 0) ∧
      (1 ≤ v % 16 → v % 16 ≤ 12 → let opens := v.testBit 8 = true ∧ 8 ≤ s.mod.boot.step
        let s' := sysWrite s (0x201 + 4 * q) v
        sysRead s' c (0x202 + 4 * q) = (if opens then d.head % 2 ^ (v % 16) else d.head) ∧
        sysRead s' c (0x203 + 4 * q) = (if opens then d.tail % 2 ^ (v % 16) else d.tail)) ∧
      (v % 16 = 0 ∨ 12 < v % 16 → sysWrite s (0x201 + 4 * q) v = s) ∧
      sysWrite s (0x202 + 4 * q) v = s ∧ (d.isOpen = true → sysWrite s (0x203 + 4 * q) v = s) ∧
      (d.isOpen = false → sysRead (sysWrite s (0x203 + 4 * q) v) c (0x202 + 4 * q) = v % 4096 ∧ wr (0x203 + 4 * q) = v % 4096)) ∧
    (s.mod.fack = 2 → ∀ i < 4, sysWrite s (0x304 + i) v = s) ∧
    (s.mod.fack ≠ 2 → s.mod.fen.length = 4 → ∀ i < 4, wr (0x304 + i) = v) ∧ (s.mod.fack ≠ 2 → v % 4 = 1 → wr 0x308 = 1)) ∧
  (∀ (s : State) (op : Nat) (o : Op) (t : Thread) (r : Nat) (v : DWord), Releases s op o t → o.kind = .srmovW r v → o.ths = [] →
    ∃ s', exec (.releaseComplete op) s = .next s' ∧ Ended s op o s' ∧ s'.threads = s.threads ∧ s'.mem = s.mem ∧
      s'.xl = (sysWrite s r v.toNat).xl ∧ s'.mod = { (sysWrite s r v.toNat).mod with relWin := s'.mod.relWin } ∧ s'.queues = (sysWrite s r v.toNat).queues)

/-- R160, R240: the release of a barrier arrival, at team scope: the operation ends, its thread has arrived and its token for the barrier id is the
instance's phase; the team holds its release clock for those that acquire from it (log 77). -/
def Sys2Proof.Spec.ArrivalReleases : Prop :=
  ∀ (s : State) (op : Nat) (o : Op) (t : Thread) (tm : Team) (key : Nat), s.ops.get op = some o → o.kind = .barRel key → o.rel = some 1 →
    o.grps = [] → o.ths = [] → releaseReady s op o = true → blocked s op o = false → s.threads.get o.th = some t → isSup o.th = false →
    s.teams.get t.team = some tm →
    ∃ s' b, exec (.releaseComplete op) s = .next s' ∧ s'.ops = s.ops.del op ∧ OthersStay s s' o.th ∧ s'.mem = s.mem ∧
      s'.threads.get o.th = some { t with toks := t.toks.put (key / 16) (tm.bars.getD key {}).phase } ∧
      (∃ u, s'.teams.get t.team = some u ∧ u = { tm with bars := tm.bars.put key b, rel := u.rel } ∧ t.rclk ≤ u.rel.t) ∧
      b.phase = (tm.bars.getD key {}).phase ∧ tidOf o.th t ∈ b.arrived

/-- R163, R164: LAUNCH and SVC, and how a launch completes. -/
def Obligations.Launching : Prop := LaunchClaims ∧ LaunchTraps ∧ ServiceIssue ∧ LaunchesComplete

/-- R164, R342 to R348: posting and reading the mailbox, replies, and the wait for locks that a reply may ask for. -/
def Obligations.MailboxAndReplies : Prop := MailboxPosts ∧ MailboxReads ∧ RepliesToTraps ∧ RepliesToServices ∧ LockWaits

/-- R192, R197, R347, R348, R355: what the supervisor's instructions issue; R160, R179, R224, R240, R355, R360: reads and writes of system
registers, and releases of arrivals. -/
def Obligations.SupervisorInstructions : Prop := SupervisorIssue ∧ SystemRegisterRead ∧ SystemRegisterWrites ∧ ArrivalReleases

/-- R192, R391: MAPSYNC when its release completes. An invalid ASID gives status 1 and a bad range 2; poison in a table read 4 and want of room
3, and then nothing is installed; else every page of the range translates as the map says from then on, in the next generation where
some page differed.
The model's own choice here: tables that lie outside device memory (log 28). -/
def Sys2Proof.Spec.MapSyncInstalls : Prop :=
  ∀ (s : State) (op : Nat) (o : Op) (t : Thread) (va n asid : Nat), Releases s op o t → o.kind = .mapsync va n asid 0 0 none →
    let first := va / 2 ^ 16
    let s1 := loadSpace s asid
    let sp := s1.xl.spaces.getD asid {}
    let leaf := fun v : Nat => leafOf s1 sp v
    let differ := (upto n).filter (fun i => leaf (first + i) != currentLeaf s1 asid (first + i))
    let gen := (sp.gen + 1) % 2 ^ 32
    let placed := placeAll s1.xl (differ.map (fun i => (leaf (first + i)).exc asid (first + i) gen))
    let status := fun (s' : State) (st pages : Nat) (g : Option Nat) => exec (.releaseComplete op) s = .next s' ∧ s'.threads = s.threads ∧
      ∃ y, s'.ops.get op = some y ∧ y.kind = .mapsync va n asid st pages g ∧ y.relDone = true
    let range := n ≠ 0 ∧ n ≤ 65536 ∧ first + n ≤ 2 ^ 40
    ((readSpace s asid).valid = false → ∃ s', status s' 1 0 none ∧ s'.xl = s.xl ∧ s'.mem = s.mem) ∧
    ((readSpace s asid).valid = true → ¬ range → ∃ s', status s' 2 0 none ∧ s'.xl = s.xl ∧ s'.mem = s.mem) ∧
    ((readSpace s asid).valid = true → range →
      ((∃ i < n, leaf (first + i) = .poison) → ∃ s', status s' 4 0 none ∧ s'.xl = s1.xl ∧ s'.mem = s.mem) ∧
      ((∀ i < n, leaf (first + i) ≠ .poison) → placed = none → ∃ s', status s' 3 0 none ∧ s'.xl = s1.xl ∧ s'.mem = s.mem) ∧
      ((∀ i < n, leaf (first + i) ≠ .poison) → placed ≠ none → Rising s.xl.exc → Rising s.xl.spill →
        ∃ s', status s' 0 differ.length (some (if differ = [] then sp.gen else gen)) ∧ s'.mod = { s.mod with relWin := s'.mod.relWin } ∧
          (∀ i < n, currentLeaf s' asid (first + i) = leaf (first + i)) ∧
          ∃ sp', s'.xl.spaces.get asid = some sp' ∧ sp'.gen = (if differ = [] then sp.gen else gen) ∧ sp'.segs = sp.segs))

/-- R192, R193: MAPSYNC_COMPLETE. Once no access of a thread and no chunk translated in an older generation is in flight, `D` takes the status and the count. -/
def Sys2Proof.Spec.MapSyncCompletes : Prop :=
  ∀ (s : State) (op : Nat) (o : Op) (va n asid status pages : Nat) (gen : Option Nat), OwnOp s op o →
    o.kind = .mapsync va n asid status pages gen → o.nd = 1 →
    (o.relDone = true → (∀ g, gen = some g → oldFlight s asid g = false) →
      Delivers s (.mapsyncComplete op) op o (status * 2 ^ 28 + pages) none) ∧
    (o.relDone = false ∨ (∃ g, gen = some g ∧ oldFlight s asid g = true) → exec (.mapsyncComplete op) s = .next s)

/-- R195 to R197: REFIT when its release completes answers a bad range at once, and queues any other. The refitter reads the map for the range that
is next, with the segments that meet it. It publishes what it has read in one step, in the next generation: those segments give way to the ones it has
fitted, which lie in the range, are two pages or longer, and give each of their pages what the map gave it. Every REFIT that the pass serves is
answered with the status and, where that is 0, the exceptions left in its range; one whose release is still to end is answered when it ends.
The model's own choice here: which REFITs a pass serves beside its own, and when the refitter turns to a range that no REFIT asks for (log 40, 107). -/
def Sys2Proof.Spec.Refitting : Prop :=
  (∀ (s : State) (op : Nat) (o : Op) (t : Thread) (va n asid : Nat), Releases s op o t → o.kind = .refit va n asid 0 none → o.ths = [o.th] → o.nd = 1 →
    let st := mapStatus (readSpace s asid) va n
    (st ≠ 0 → ∃ s', exec (.releaseComplete op) s = .next s' ∧ Ended s op o s' ∧ s'.xl = s.xl ∧ s'.mem = s.mem ∧ OthersStay s s' o.th ∧
      s'.threads.get o.th = some (arrives t o (st * 2 ^ 28) none)) ∧
    (st = 0 → ∃ s', exec (.releaseComplete op) s = .next s' ∧ s'.threads = s.threads ∧ s'.mem = s.mem ∧
      s'.xl.refits.get s.serial = some { asid := asid, first := va / 2 ^ 16, last := va / 2 ^ 16 + n - 1, op := some op } ∧
      (∀ k, k ≠ s.serial → s'.xl.refits.get k = s.xl.refits.get k) ∧ ∃ y, s'.ops.get op = some y ∧ y.relDone = true)) ∧
  (∀ (s : State) (op : Nat) (o : Op) (t : Thread) (va n asid : Nat), Releases s op o t → o.kind = .refit va n asid 0 (some 0) → o.ths = [o.th] →
    o.nd = 1 → mapStatus (readSpace s asid) va n = 0 →
    ∃ s', exec (.releaseComplete op) s = .next s' ∧ Ended s op o s' ∧ s'.xl = s.xl ∧ s'.mem = s.mem ∧ OthersStay s s' o.th ∧
      s'.threads.get o.th = some (arrives t o (excCount s asid (va / 2 ^ 16) (va / 2 ^ 16 + n - 1)) none)) ∧
  (∀ (s : State) (p : RefitPass) (op : Nat) (o : Op) (va n asid : Nat), s.xl.pass = some p → s.ops.get op = some o →
    o.kind = .refit va n asid 0 none → o.relDone = false → (∀ e ∈ s.xl.refits, e.2.op ≠ some op) →
    (publishPass { s with xl := { s.xl with pass := none } } p).2 = 0 →
    asid = p.req.asid → p.status = 0 → p.lo ≤ va / 2 ^ 16 → va / 2 ^ 16 + n - 1 ≤ p.hi → op < p.at0 →
    ∃ s' y, exec (.refitPassPublish p.key) s = .next s' ∧ s'.ops.get op = some y ∧ y.kind = .refit va n asid 0 (some 0)) ∧
  (∀ (s : State) (k : Nat) (r : RefitReq), s.xl.refits.get k = some r → s.xl.pass = none → nextRefit s k r = true →
    (r.op.isSome = true ∨ supActive s = false) →
    let s1 := loadSpace s r.asid
    let sp := s1.xl.spaces.getD r.asid {}
    ∃ p, (startPass s k).xl.pass = some p ∧ p.key = k ∧ p.req = r ∧ (startPass s k).mem = s.mem ∧ (startPass s k).threads = s.threads ∧
      ((readSpace s r.asid).valid = false → p.status = 1) ∧
      ((readSpace s r.asid).valid = true → p.lo ≤ r.first ∧ r.last ≤ p.hi ∧
        (∀ g ∈ sp.segs, g.vbase ≤ r.last → r.first < g.vbase + g.len → p.lo ≤ g.vbase ∧ g.vbase + g.len ≤ p.hi + 1) ∧
        ((∃ v, p.lo ≤ v ∧ v ≤ p.hi ∧ leafOf s1 sp v = .poison) → p.status = 4) ∧
        ((∀ v, p.lo ≤ v → v ≤ p.hi → leafOf s1 sp v ≠ .poison) → p.status = 0 ∧ p.gen = sp.gen ∧
          ∀ v, p.lo ≤ v → v ≤ p.hi → p.leaf v = leafOf s1 sp v))) ∧
  (∀ (s : State) (p : RefitPass) (j op : Nat) (r : RefitReq) (o : Op) (t : Thread), s.xl.pass = some p → s.xl.refits.get j = some r →
    Rising s.xl.refits → r.op = some op → OwnOp s op o → o.nd = 1 → s.threads.get o.th = some t →
    (∀ e ∈ s.xl.refits, e.1 ≠ j → ∀ k, e.2.op = some k → k ≠ op ∧ ∀ y, s.ops.get k = some y → y.th ≠ o.th ∧ o.th ∉ y.ths) →
    let q := publishPass { s with xl := { s.xl with pass := none } } p
    ∃ s', exec (.refitPassPublish p.key) s = .next s' ∧ s'.xl = { q.1.xl with refits := s'.xl.refits } ∧ s'.mem = q.1.mem ∧
      (j = p.key ∨ (q.2 = 0 ∧ p.serves j r = true) → s'.xl.refits.get j = none ∧ s'.ops.get op = none ∧
        s'.threads.get o.th = some (arrives t o (q.2 * 2 ^ 28 +
          if q.2 = 0 then excCount s' r.asid r.first r.last else 0) none)) ∧
      (j ≠ p.key → q.2 ≠ 0 ∨ p.serves j r = false → s'.xl.refits.get j = some r ∧ s'.threads.get o.th = some t)) ∧
  (∀ (s : State) (p : RefitPass), let sp := s.xl.spaces.getD p.req.asid {}
    (p.status ≠ 0 → publishPass s p = (s, p.status)) ∧
    (p.status = 0 → publishPass s p = (s, 3) ∨ ∃ s' sp', publishPass s p = (s', 0) ∧ s'.xl.spaces.get p.req.asid = some sp' ∧
      sp'.gen = (sp.gen + 1) % 2 ^ 32 ∧
      ∀ g, g ∈ sp'.segs ↔ g ∈ p.segs ∨ (g ∈ sp.segs ∧ ¬ (g.vbase ≤ p.hi ∧ p.lo < g.vbase + g.len)))) ∧
  (∀ (lf : Nat → Leaf) (last kept fuel v : Nat), ∀ g ∈ fitPass lf last kept fuel v [],
    v ≤ g.vbase ∧ 2 ≤ g.len ∧ g.vbase + g.len ≤ last + 1 ∧ -128 ≤ g.slope ∧ g.slope ≤ 127 ∧
    ∀ i < g.len, ∃ q, lf (g.vbase + i) = .page q g.attr ∧ (q : Int) = g.pbase + g.slope * i)

/-- R192, R193, R195 to R197, R391: MAPSYNC and REFIT. -/
def Obligations.MapUpkeep : Prop := MapSyncInstalls ∧ MapSyncCompletes ∧ Refitting

/-- R335: TOWLINE_REQUEST_SERVED serves the oldest request: the recordings become what the request makes of them, and every thread that waits
for it takes the same answer. A later request waits. -/
def Sys2Proof.Spec.TowlineServes : Prop :=
  ∀ (s : State) (op : Nat) (o : Op) (opc id a b : Nat) (sys : Bool) (t : Thread), s.ops.get op = some o → o.kind = .tow opc id a b sys → o.grps.Nodup →
    o.ths.Nodup → s.threads.get o.th = some t →
    let oldest := ∀ e ∈ s.ops, e.1 < op → ∀ x y z w v, e.2.kind ≠ .tow x y z w v
    let e := envOf s o.th t
    let r := towServe s opc id a b e.asid e.team (match s.teams.get e.team with | some tm => tm.name | none => 0) sys
    (oldest → ∃ s', exec (.towlineRequestServed op) s = .next s' ∧ Ended s op o s' ∧ s'.recs = r.1.recs ∧ s'.mem = r.1.mem ∧
      s'.pushes = r.1.pushes ∧ (∀ pl ∈ o.ths, ∀ u, s.threads.get pl = some u → s'.threads.get pl = some (arrives u o r.2 none)) ∧
      ∀ pl, pl ∉ o.ths → s'.threads.get pl = s.threads.get pl) ∧
    (¬ oldest → exec (.towlineRequestServed op) s = .next s)

/-- R328, R335 to R337: what each request makes of the recording it names, and its answer: the status and the state before.
The model's own choice here: the name of a team for Towline (log 11). -/
def Sys2Proof.Spec.TowlineRules : Prop :=
  ∀ (s : State) (id a b asid team name : Nat) (sys : Bool),
    let r := s.recs.getD id {}
    let serve := fun opc => towServe s opc id a b asid team name sys
    let answer := fun n : Nat => n + 16 * r.st.code
    let foreign := r.st ≠ .free ∧ r.owner ≠ asid
    let turned := fun opc st : Nat => serve opc = (s, answer st)
    let becomes := fun (opc : Nat) (x : Recd) => (serve opc).1.recs.get id = some x ∧ (serve opc).2 = answer 0
    (foreign → turned 0 1 ∧ turned 2 1 ∧ (sys = false → turned 3 1 ∧ serve 4 = (s, 0x17) ∧ turned 5 1)) ∧
    (¬ foreign →
      (b = 0 ∨ 4096 < b → turned 0 3) ∧ (1 ≤ b → b ≤ 4096 → r.st = .armed → turned 0 2) ∧
      (1 ≤ b → b ≤ 4096 → r.st ≠ .armed →
        becomes 0 { st := .armed, owner := asid, thrUnused := a % 2 ^ 16, thrUncov := a / 2 ^ 16 % 2 ^ 16, npart := b }) ∧
      (r.st ≠ .recorded → turned 2 2) ∧ (r.st = .recorded → ∃ x, becomes 2 x ∧ x.st = .playing ∧ x.iter = 0 ∧ x.ents = r.ents ∧ x.owner = r.owner)) ∧
    (¬ foreign ∨ sys = true →
      (r.st = .armed ∨ r.st = .recording ∨ r.st = .playing → becomes 3 { r with st := .recorded }) ∧
      (r.st = .free ∨ r.st = .recorded ∨ r.st = .departed → turned 3 2) ∧
      (serve 4).1 = s ∧ (serve 4).2 % 8 = r.st.code ∧ ((serve 4).2 / 16 % 4096 = 0) ∧
      (r.st = .free → turned 5 2) ∧ (r.st ≠ .free → becomes 5 {})) ∧
    (∀ tm, s.teams.get team = some tm → (serve 1).1.teams.get team = some { tm with rcnt := 0 })

/-- R208, R225, R332: PUSH_INSTALL. At a consumer on the home's die the sector enters the home slice, marked as the recording's; where it is there
already nothing changes. On another die the RDC takes the home's data with a fresh lease, which the home counts; a die that holds a valid copy, or
takes no leases, keeps what it has. The push is over.
The model's own choice here: when a push starts, and that a full RDC none of whose lines may go takes none (log 41, 91). -/
def Sys2Proof.Spec.PushesInstall : Prop :=
  ∀ (s : State) (k : Nat) (p : Push), s.pushes.get k = some p →
    let a := p.ent.sector * 64
    let key := copyKey p.ent.die a
    ∃ s', exec (.pushInstall k) s = .next s' ∧ s'.pushes = s.pushes.del k ∧ s'.threads = s.threads ∧
      (p.ent.die = homeDie a ∨ (rdcLines s p.ent.die).length < 131072 → s'.mem.cells = s.mem.cells) ∧
      (p.ent.die = homeDie a → l2Holds s'.mem a = true ∧ s'.mem.dir = s.mem.dir ∧ s'.mem.rdc = s.mem.rdc ∧
        (l2Holds s.mem a = true → s'.mem = s.mem) ∧
        (l2Holds s.mem a = false → p.id < 16 → ∃ x, s'.mem.l2.get (a / 256) = some x ∧ x.marks.get (a / 64 % 4) = some p.id)) ∧
      (p.ent.die ≠ homeDie a → leased s p.ent.die = true → (rdcRoom s p.ent.die a).isSome = true →
        (∀ c, s.mem.rdc.get key = some c → c.leased s.mod = false) →
        ∃ c d, s'.mem.rdc.get key = some c ∧ c.data = homeBytes s.mem a 64 ∧ c.pois = homePois s.mem a ∧
          c.exp = leaseEnd s.mod.now s.mod.lsrdc ∧ s'.mem.dir.get (a / 64) = some d ∧ (192 + p.ent.die, c.exp) ∈ d.holders) ∧
      (p.ent.die ≠ homeDie a → leased s p.ent.die = false ∨ (∃ c, s.mem.rdc.get key = some c ∧ c.leased s.mod = true) → s'.mem = s.mem)

/-- R326 to R337: Towline. -/
def Obligations.TowlineControl : Prop := TowlineServes ∧ TowlineRules ∧ PushesInstall

/-- R352: TEAM_STOPPED. A stopping team whose threads, operations, commands and passes have come to rest is stopped: the records of its
suspended threads leave the mailbox with it, its locks are released, and PREEMPT answers 0. A team not yet at rest goes on.
The model's own choice here: the answer to PREEMPT where the team ends first (log 46). -/
def Sys2Proof.Spec.TeamsStop : Prop :=
  ∀ (s : State) (k : Nat) (tm : Team), s.teams.get k = some tm → tm.st = .stopping → tm.ended = false →
    (teamRests s k = false → exec (.teamStopped k) s = .next s) ∧
    (teamRests s k = true → ∃ s' u, exec (.teamStopped k) s = .next s' ∧ s'.teams.get k = some u ∧ u.st = .stopped ∧
      u = { tm with st := .stopped, held := u.held } ∧ (∀ j, j ≠ k → s'.teams.get j = s.teams.get j) ∧ s'.mem.cells = s.mem.cells ∧
      (∀ e ∈ s'.mail, ∀ pl, e.2.th = some pl → ofTeam s k pl = true → e.2.mrec.kind ≠ 0) ∧
      (∀ e ∈ s'.posts, ∀ pl, e.2.th = some pl → ofTeam s k pl = true → e.2.mrec.kind ≠ 0) ∧
      (∀ e ∈ s.mail, ∀ pl, e.2.th = some pl → ofTeam s k pl = true → e.2.mrec.kind = 0 → ∃ h ∈ u.held, h.2 = e.2.mrec) ∧
      (∀ e ∈ s'.mem.locks, e.2.pass = false → ∀ c, s.cmds.get e.2.cmd = some c → c.team ≠ k) ∧
      ∀ j o t, (j, o) ∈ s.ops → Rising s.ops → (∃ a b c, o.kind = .ctx 2 a b c k) → o.ths = [o.th] → o.nd = 1 → s.threads.get o.th = some t →
        (∀ e ∈ s.ops, e.1 ≠ j → e.2.th ≠ o.th ∧ o.th ∉ e.2.ths) → s'.ops.get j = none ∧ s'.threads.get o.th = some (arrives t o 0 none))

/-- R351 to R353: CONTEXT_SAVE_COMPLETE. The context of a stopped team is written to the save area; then the team is off its core, its grid
knows it as saved, and `D` takes the size. A fault of the area is posted as an event and the status is 4; a team that is gone gives 1,
one that is not stopped 2.
The model's own choice here: the layout of what R353 does not name, and the address space of the area (log 8, 45). -/
def Sys2Proof.Spec.ContextSaves : Prop :=
  ∀ (s : State) (op : Nat) (o : Op) (save asid core k : Nat) (t : Thread), OwnOp s op o → o.kind = .ctx 0 save asid core k → o.nd = 1 →
    s.threads.get o.th = some t → ofTeam s k o.th = false →
    let w := ctxWho s o.th asid
    (s.teams.get k = none → Delivers s (.contextSaveComplete op) op o 1 none) ∧
    ∀ tm, s.teams.get k = some tm →
      (tm.st ≠ .stopped ∨ tm.ended = true → Delivers s (.contextSaveComplete op) op o 2 none) ∧
      (tm.st = .stopped → tm.ended = false →
        (∀ f, (save % 256 ≠ 0 ∧ f = faultRec s w save 1 0x10) ∨
            (save % 256 = 0 ∧ rangeHeld s w save (teamCtx s k tm).length = false ∧ writeRange s w save (teamCtx s k tm) 1 (some (placeCore o.th)) = .error f) →
          ∃ s', exec (.contextSaveComplete op) s = .next s' ∧ s'.teams = s.teams ∧ s'.threads.get o.th = some (arrives t o 4 none) ∧
            s'.mem = s.mem ∧ ∃ e ∈ s'.posts, e.2.mrec.kind = 2 ∧ e.2.core = placeCore o.th ∧ e.2.mrec.code = f.cause) ∧
        (∀ s1 g, save % 256 = 0 → rangeHeld s w save (teamCtx s k tm).length = false → writeRange s w save (teamCtx s k tm) 1 (some (placeCore o.th)) = .ok (s1, g) →
          ∃ s', exec (.contextSaveComplete op) s = .next s' ∧ s'.mem = s1.mem ∧ s'.teams.get k = none ∧
            s'.threads.get o.th = some (arrives (t.raise g) o ((teamCtx s k tm).length / 256 % 2 ^ 24 * 256) none) ∧
            (∀ e ∈ s'.groups, e.2.team ≠ k) ∧ (∀ pl, ofTeam s k pl = true → s'.threads.get pl = none) ∧
            ∀ gd, s.grids.get tm.grid = some gd → ∃ gd', s'.grids.get tm.grid = some gd' ∧ gd'.saved = gd.saved ++ [keptOf s k tm asid save]))

/-- R155, R351, R353: CONTEXT_LOAD_COMPLETE answers 4 for an area that faults, or is poisoned outside its scratchpad section (and posts the fault), 5
for a malformed header, 2 for a team that is not saved, 3 where the core or its cluster has no room; else it waits until the units that the team takes
hold no line, and then the team is resident on the core, stopped, with the index and the packet of its context.
The model's own choice here: which saved team an area names, what is kept beside the area, and a LOAD without an ASID (log 8, 62). -/
def Sys2Proof.Spec.ContextLoads : Prop :=
  ∀ (s : State) (op : Nat) (o : Op) (save asid core k : Nat) (t : Thread), OwnOp s op o → o.kind = .ctx 1 save asid core k → o.nd = 1 →
    s.threads.get o.th = some t → placeSlot o.th = 47 → op < s.serial →
    let w := ctxWho s o.th asid
    let answers := fun (s' : State) (n : Nat) => exec (.contextLoadComplete op) s = .next s' ∧ s'.threads.get o.th = some (arrives t o n none)
    (save % 256 ≠ 0 → ∃ s', answers s' 4 ∧ s'.teams = s.teams) ∧
    (∀ f, save % 256 = 0 → rangeHeld s w save 256 = false → readRange s w save 256 0 = .error f → ∃ s', answers s' 4 ∧ s'.teams = s.teams ∧
      ∃ e ∈ s'.posts, e.2.mrec.kind = 2 ∧ e.2.core = placeCore o.th ∧ e.2.mrec.code = f.cause) ∧
    ∀ hd, save % 256 = 0 → rangeHeld s w save 256 = false → readRange s w save 256 0 = .ok hd →
      let h := plain hd
      let p := Packet.ofBytes ((h.drop 0x10).take 0x78)
      let size := ctxSize p (fieldAt h 0x92 1)
      let index := fieldAt h 8 8
      let good := fieldAt h 0 4 = 1 ∧ packetCause s p = none ∧ fieldAt h 4 4 = size ∧ fieldAt h 0x92 1 ≤ 128
      let lo := (scratchSpan p).1
      let hi := lo + (scratchSpan p).2
      (anyPois hd = true → ∃ s', answers s' 4 ∧ s'.teams = s.teams) ∧
      (anyPois hd = false → ¬ good → ∃ s', answers s' 5 ∧ s'.teams = s.teams ∧ s'.mem = s.mem) ∧
      let free := rangeHeld s w save (256 * size) = false
      (∀ f, anyPois hd = false → good → free → readRange s w save (256 * size) 0 = .error f → ∃ s', answers s' 4 ∧ s'.teams = s.teams) ∧
      ∀ bs, anyPois hd = false → good → free → readRange s w save (256 * size) 0 = .ok bs →
        (anyPois (bs.take lo) = true ∨ anyPois (bs.drop hi) = true → ∃ s', answers s' 4 ∧ s'.teams = s.teams) ∧
        (anyPois (bs.take lo) = false → anyPois (bs.drop hi) = false →
          (keptFor s p index asid save = none → ∃ s', answers s' 2 ∧ s'.teams = s.teams ∧ s'.mem = s.mem) ∧
          ∀ grid g kept, keptFor s p index asid save = some (grid, g, kept) →
            let room := loadFits s p grid index core = true ∧ cmdsFit s p (plain bs) core = true
            let units := (unitsInOrder s core).take p.scru
            let s0 := reclaim s core units
            g.pkt = p ∧ kept.index = index ∧ kept ∈ g.saved ∧
            (¬ room → ∃ s', answers s' 3 ∧ s'.teams = s.teams ∧ s'.mem = s.mem) ∧
            (room → (∃ u ∈ units, unitLines s0 core u ≠ []) → exec (.contextLoadComplete op) s = .next s0) ∧
            (room → (∀ u ∈ units, unitLines s0 core u = []) → ∃ s' tm, answers s' (size % 2 ^ 24 * 256) ∧ s'.teams.get s.serial = some tm ∧
              tm.core = core ∧ tm.st = .stopped ∧ tm.index = index ∧ tm.grid = grid ∧ tm.pkt = p ∧ tm.rcnt = fieldAt (plain bs) 0x90 2 ∧
              s'.mem.cells = s.mem.cells ∧ ∀ gd, s.grids.get grid = some gd → ∃ gd', s'.grids.get grid = some gd' ∧ gd'.saved = gd.saved.erase kept))

/-- R353: a thread at a run boundary that is saved and loaded again has its program counter, its registers and predicates with their poison, its
records, its wake time, its FWAIT conditions and its release clock. -/
def Sys2Proof.Spec.SavedThreadReturns : Prop :=
  ∀ (t : Thread) (b team gid now : Nat), b ≤ 112 → t.st = .ready → t.v.length = b → (∀ r ∈ t.v, r.pend = 0) → t.k.length = 8 → (∀ r ∈ t.k, r.pend = 0) →
    t.p.length = 12 → t.ring.length = 4 → t.wake < 2 ^ 64 → t.susp = none → t.newWaits = [] → t.waits.length ≤ 12 →
    now ≤ t.clk.latest + 2 ^ 63 → t.clk.latest < now + 2 ^ 63 →
    (∀ c ∈ t.waits, c.off < 2 ^ 32 ∧ c.mask < 2 ^ 32 ∧ c.missed = false ∧ ∀ p, c.promise = some p → p < 2 ^ 64 - 1) →
    (∀ n, t.pwin = some n → n < 2 ^ 64 - 1) →
    (∀ x ∈ t.ring, x.record.va < 2 ^ 64 ∧ x.record.akind < 256 ∧ x.record.cause < 256 ∧ x.record.asid < 2 ^ 16 ∧ x.record.src < 8 ∧
      x.record.index < 2 ^ 29 ∧ x.record.gen < 2 ^ 32) →
    let u := (threadOf (t.ctxBytes b none) t team gid b now).1
    u.st = .ready ∧ u.pc = t.pc ∧ u.v = t.v ∧ u.k = t.k ∧ u.p = t.p ∧ u.ring = t.ring ∧ u.wake = t.wake ∧ u.waits = t.waits ∧ u.pwin = t.pwin ∧
    u.rclk = t.clk.latest ∧ u.ncoll = t.ncoll % 2 ^ 32

/-- R350 to R353: pre-emption, saving and loading. -/
def Obligations.Contexts : Prop := TeamsStop ∧ ContextSaves ∧ ContextLoads ∧ SavedThreadReturns

/-! ### Launch queues and teams (R20, R21, R146 to R155) -/

namespace Sys2Proof.Spec

/-- A queue has gone on to its next entry, and no other queue has changed. -/
def HeadMoved (s s' : State) (q : Nat) (d : Queue) : Prop :=
  s'.queues.get q = some { d with head := (d.head + 1) % 2 ^ d.log2 } ∧ ∀ k, k ≠ q → s'.queues.get k = s.queues.get k

/-- A grid of a queue whose ring lies in device memory. -/
structure GridOf (s : State) (grid : Nat) (g : Grid) (d : Queue) : Prop where
  grid : s.grids.get grid = some g
  queue : s.queues.get g.queue = some d
  device : InDevice d
  entry : g.entry < 2 ^ 12
  mem : Memory.wf s.mem.cells = true

/-- A grid is gone, its entry ends with a `STATE`, and its queue goes on. -/
def Rejected (s s' : State) (grid : Nat) (g : Grid) (d : Queue) (v : Nat) : Prop :=
  s'.grids.get grid = none ∧ (∀ k, k ≠ grid → s'.grids.get k = s.grids.get k) ∧ StateOnly s s' d g.entry v ∧ HeadMoved s s' g.queue d ∧
  s'.teams = s.teams ∧ s'.threads = s.threads

/-- A fault record has been posted as an event to a core (R153, R344). -/
def EventPosted (s' : State) (core code : Nat) : Prop := ∃ e ∈ s'.posts, e.2.core = core ∧ e.2.mrec.kind = 2 ∧ e.2.mrec.code = code

end Sys2Proof.Spec

/-- R147: LQCLAIM, a host read of the claim register through port 0. An open queue whose tail entry is free answers with the tail and moves it
on by one; any other answers all ones and claims nothing.
The model's own choice here: when a claimed entry is free again (log 37). -/
def Sys2Proof.Spec.HostClaims : Prop :=
  ∀ (s : State) (q : Nat), (s.mod.ports.getD 0 {}).up = true →
    (∀ d, s.queues.get q = some d → d.isOpen = true → entryFree (entryState s d d.tail) = true →
      ∃ s', exec (.lqclaim q) s = .next s' ∧ s' = { s with queues := s'.queues, mod := s'.mod } ∧
        s'.mod = { s.mod with reply := .claim (BitVec.ofNat 64 d.tail) } ∧
        s'.queues.get q = some { d with tail := (d.tail + 1) % 2 ^ d.log2 } ∧ ∀ k, k ≠ q → s'.queues.get k = s.queues.get k) ∧
    ((∀ d, s.queues.get q = some d → d.isOpen = false ∨ entryFree (entryState s d d.tail) = false) →
      exec (.lqclaim q) s = .next { s with mod := { s.mod with reply := .claim (BitVec.ofNat 64 (2 ^ 64 - 1)) } })

/-- R148: which values of `STATE` make an entry free.
The model's own choice here: when a claimed entry is free again (log 37). -/
def Sys2Proof.Spec.FreeEntries : Prop :=
  ∀ st, entryFree st = true ↔ st = 0 ∨ st = 5 ∨ st = 6 ∨ (0x80 ≤ st ∧ st ≤ 0x8F)

/-- R12, R14, R15, R17, R18, R151, R152: the first cause that rejects a packet. -/
def Sys2Proof.Spec.PacketCauses : Prop :=
  ∀ (s : State) (p : Packet),
    let shape := 2 ≤ p.groups ∧ p.groups ≤ 16 ∧ (p.prod = 1 ∨ p.prod = 2) ∧ p.prod < p.groups ∧
      (p.crew = 0 ∨ p.crew = 2 ∨ p.crew = 4 ∨ p.crew = 8) ∧ p.crew ≤ p.groups - p.prod ∧ 1 ≤ p.gang ∧ p.gang ≤ 4 ∧
      p.gx ≠ 0 ∧ p.gy ≠ 0 ∧ p.gz ≠ 0 ∧ p.gx * p.gy * p.gz % p.gang = 0
    let budget := fun b : Nat => 8 ≤ b ∧ b ≤ 112 ∧ b % 8 = 0
    let crews := if p.crew = 0 then 0 else (p.groups - p.prod) / p.crew
    let space := p.scru ≤ 128 ∧ crews * p.tiles ≤ 16 ∧ (p.tiles ≠ 0 → p.crew ≠ 0)
    let zero := p.prio ≤ 3 ∧ p.mbz = false
    let code := p.code % 4 = 0 ∧ p.code < 2 ^ 56
    let asid := p.asid ≠ 0 ∧ p.asid < 4096 ∧ (readSpace s p.asid).valid = true
    let features := ∀ w < 4, ∀ b, (p.feat.getD w 0).testBit b = true → s.mod.fack = 2 ∧ (s.mod.fen.getD w 0).testBit b = true
    (¬ shape → packetCause s p = some 1) ∧
    (shape → ¬ (budget p.budp ∧ budget p.budc) → packetCause s p = some 2) ∧
    (shape → budget p.budp → budget p.budc →
      (¬ space → packetCause s p = some 3) ∧ (space → ¬ zero → packetCause s p = some 4) ∧
      (space → zero → ¬ code → packetCause s p = some 5) ∧ (space → zero → code → ¬ asid → packetCause s p = some 6) ∧
      (space → zero → code → asid → (¬ features → packetCause s p = some 7) ∧ (features → packetCause s p = none)))

/-- R147, R149, R152: PACKET_TAKE. The packet at the head of an open queue with no packet still to be placed is taken once its `STATE` reads 1:
a packet that fails a check ends with 0x80 + cause and the queue goes on; any other waits on its dependence word with `STATE` 2 where it has one,
and else is being placed, with `STATE` 3.
The model's own choice here: that the ring lies in device memory, and poison or a fault of the read (log 9, 50). -/
def Sys2Proof.Spec.PacketsTaken : Prop :=
  ∀ (s : State) (q : Nat) (d : Queue), s.queues.get q = some d → InDevice d → d.head < 2 ^ 12 → Memory.wf s.mem.cells = true →
    let busy := ∃ e ∈ s.grids, e.2.queue = q ∧ e.2.phase ≠ .placed
    let p := Packet.ofBytes (homeBytes s.mem (ringAt d d.head 0) 128)
    let s1 := setEntryState s q d.head 2
    (d.isOpen = false ∨ busy ∨ entryState s d d.head ≠ 1 → exec (.packetTake q) s = .next s) ∧
    (d.isOpen = true → ¬ busy → entryState s d d.head = 1 →
      (∀ c, packetCause s1 p = some c → ∃ s', exec (.packetTake q) s = .next s' ∧ StateOnly s s' d d.head (0x80 + c) ∧ HeadMoved s s' q d ∧
        s'.grids = s.grids ∧ s'.teams = s.teams) ∧
      (packetCause s1 p = none → ∃ s' k g, exec (.packetTake q) s = .next s' ∧ s.serial ≤ k ∧
        StateOnly s s' d d.head (if p.depa = 0 then 3 else 2) ∧ s'.queues = s.queues ∧
        s'.grids.get k = some g ∧ g.queue = q ∧ g.entry = d.head ∧ g.pkt = p ∧ g.placed = 0 ∧ g.ended = 0 ∧ g.aborted = false ∧
        g.phase = (if p.depa = 0 then .placing else .waiting) ∧ (∀ j, j ≠ k → s'.grids.get j = s.grids.get j) ∧ s'.teams = s.teams))

/-- R147 to R149, R152: claiming entries and taking packets. -/
def Obligations.LaunchQueues : Prop := HostClaims ∧ FreeEntries ∧ PacketCauses ∧ PacketsTaken

/-- R152, R153, R245: DEPENDENCE_READ. Once the 64-bit word at `DEPA` is at least `DEPV`, and what its writers wrote before is visible, the grid is
placed, `STATE` 3; else it waits. A read that faults, meets poison or names peer memory ends the packet with `STATE` 0x88 and a record to the lowest
working core; an ASID no longer valid, with 0x86.
The model's own choice here: log 50 (poison, the record's core), 87 (the private window), 18 (read at the home), 88 (a closed queue). -/
def Sys2Proof.Spec.DependencesRead : Prop :=
  ∀ (s : State) (grid : Nat) (g : Grid) (d : Queue), GridOf s grid g d → g.phase = .waiting → g.aborted = false →
    let w : Who := { asid := g.pkt.asid, team := 0, bound := 0, privNo := 0 }
    let r := checkAcc s w g.pkt.depa 8 0 9 8 0 0
    let fails := fun c : Nat => ∃ s', exec (.dependenceRead grid) s = .next s' ∧ Rejected s s' grid g d 0x88 ∧
      ∀ core, s.workingCore 0 192 = some core → EventPosted s' core c
    (asidOk s g.pkt.asid = false → ∃ s', exec (.dependenceRead grid) s = .next s' ∧ Rejected s s' grid g d 0x86) ∧
    (asidOk s g.pkt.asid = true →
      (∀ f, r = .error f → fails f.cause) ∧
      ∀ a y, r = .ok a → a.loc = .phys y →
        (a.kind = 1 → fails 0x0F) ∧
        (a.kind ≠ 1 → (homeValue s y 8).2 ≠ none → fails 0x05) ∧
        (a.kind ≠ 1 → (homeValue s y 8).2 = none →
          (leNat (homeBytes s.mem y 8) < g.pkt.depv → exec (.dependenceRead grid) s = .next s) ∧
          (depWaits s y = true → exec (.dependenceRead grid) s = .next s) ∧
          (g.pkt.depv ≤ leNat (homeBytes s.mem y 8) → depWaits s y = false → ∃ s', exec (.dependenceRead grid) s = .next s' ∧
            s'.grids.get grid = some { g with phase := .placing } ∧ StateOnly s s' d g.entry 3 ∧ s'.teams = s.teams ∧ s'.queues = s.queues)))

/-- R20, R139, R154: where teams go. A gang takes distinct cores of one cluster with the slots, units and tiles that it needs, and no cluster needs
fewer units reclaimed; a lone team takes the lowest core of those that need the fewest; its slots are user slots, distinct and free.
The model's own choice here: which cluster a gang takes, and which core each member (log 86). -/
def Sys2Proof.Spec.Placement : Prop :=
  (∀ (s : State) (p : Packet) (cs : List Nat), chooseCores s p = some cs → 0 < p.gang →
    cs.length = p.gang ∧ cs.Nodup ∧ (∃ c < 48, ∀ x ∈ cs, clusterOf x = c ∧ coreFits s p x = true ∧ p.gang * p.crews * p.tiles ≤ tilesFree s c) ∧
    ∀ k < 48, ∀ others, coresIn s p k p.gang = some others →
      (cs.map (fun c => reclaimUnits s p c)).sum ≤ (others.map (fun c => reclaimUnits s p c)).sum) ∧
  (∀ (s : State) (p : Packet) (c : Nat), p.gang = 1 → chooseCores s p = some [c] → ∀ x < 192, coreFits s p x = true →
    p.crews * p.tiles ≤ tilesFree s (clusterOf x) →
    reclaimUnits s p c < reclaimUnits s p x ∨ (reclaimUnits s p c = reclaimUnits s p x ∧ c ≤ x)) ∧
  (∀ (used : List Nat) (n : Nat), (∀ k ∈ slotsFor used n, k < 47 ∧ k ∉ used) ∧ (slotsFor used n).Nodup)

/-- R20, R149, R154: TEAM_PLACE. The next team or gang of a grid becomes resident on the cores that R154 gives, not yet started; after
the last, `STATE` is 4 and the queue goes on, else `STATE` is 3. Where no core can hold them the grid waits. An ASID no longer valid ends a packet of
which nothing is placed with 0x86; one invalid later is left out (log 88). -/
def Sys2Proof.Spec.TeamsPlaced : Prop :=
  ∀ (s : State) (grid : Nat) (g : Grid) (d : Queue), GridOf s grid g d → g.phase = .placing → g.aborted = false → s.mod.boot.supLoaded = true →
    (asidOk s g.pkt.asid = true → chooseCores s g.pkt = none → exec (.teamPlace grid) s = .next s) ∧
    (asidOk s g.pkt.asid = false → g.placed = 0 → ∃ s', exec (.teamPlace grid) s = .next s' ∧ Rejected s s' grid g d 0x86) ∧
    ∀ cs, asidOk s g.pkt.asid = true → chooseCores s g.pkt = some cs → 0 < g.pkt.gang →
      let n := g.placed + g.pkt.gang
      let last := n = g.pkt.teams
      ∃ s', exec (.teamPlace grid) s = .next s' ∧ s'.threads = s.threads ∧
        s'.grids.get grid = some { g with placed := n, phase := if last then .placed else .placing } ∧
        StateOnly s s' d g.entry (if last then 4 else 3) ∧ (last → HeadMoved s s' g.queue d) ∧ (¬ last → s'.queues = s.queues) ∧
        (∀ j, j < s.serial → s'.teams.get j = s.teams.get j) ∧
        ∀ i c, cs[i]? = some c → ∃ tm, s'.teams.get (s.serial + i) = some tm ∧ tm.grid = grid ∧ tm.index = g.placed + i ∧ tm.core = c ∧
          tm.pkt = g.pkt ∧ tm.st = .placed ∧ tm.scratch = [] ∧ tm.ended = false ∧ tm.units.length = g.pkt.scru ∧ (∀ u ∈ tm.units, u ∈ unitsLent s c) ∧ tm.crews.length = g.pkt.crews ∧
          ∀ k ∈ tm.slots, ∃ x, s'.groups.get (c * 48 + k) = some x ∧ x.team = s.serial + i

/-- R18, R20, R93, R155, R206, R288: TEAM_START. A gang that is all placed has its units reclaimed and waits while one holds a line; then scratchpads
and tiles read zero, and every thread stands at the packet's code with registers and predicates zero and clean. -/
def Sys2Proof.Spec.TeamsStart : Prop :=
  ∀ (s : State) (k : Nat) (tm : Team), s.teams.get k = some tm → Rising s.teams →
    let mine := fun u : Team => u.grid = tm.grid ∧ u.index / tm.pkt.gang = tm.index / tm.pkt.gang
    let gang := s.teams.filter (fun e => decide (mine e.2))
    let s1 := gang.foldl (fun s e => reclaim s e.2.core e.2.units) s
    let zero := fun c : Crew => { c with tiles := c.tiles.map (fun x => { x with words := [], pois := false, record := none }) }
    (tm.st ≠ .placed ∨ gang.length < tm.pkt.gang ∨ (∃ e ∈ gang, e.2.st ≠ .placed) → exec (.teamStart k) s = .next s) ∧
    (tm.pkt.gang ≤ gang.length → (∀ e ∈ gang, e.2.st = .placed) → tm.st = .placed →
      ((∃ e ∈ gang, ∃ u ∈ e.2.units, unitLines s1 e.2.core u ≠ []) → exec (.teamStart k) s = .next s1) ∧
      ((∀ e ∈ gang, ∀ u ∈ e.2.units, unitLines s1 e.2.core u = []) →
        (∀ e ∈ gang, e.2.slots.Nodup ∧ e.2.slots.length = e.2.pkt.groups ∧ ∀ x ∈ e.2.slots, x < 47) → (gang.map (·.2.core)).Nodup →
        ∃ s', exec (.teamStart k) s = .next s' ∧ s'.mem = s1.mem ∧
          (∀ j u, s.teams.get j = some u → s'.teams.get j = some (if mine u
            then { u with st := .running, scratch := [], spois := [], crews := u.crews.map zero } else u)) ∧
          ∀ e ∈ gang, ∀ tid < 32 * e.2.pkt.groups, ∃ t, s'.threads.get (e.2.placeOf tid) = some t ∧ t.st = .ready ∧ t.team = e.1 ∧
            t.gid = tid / 32 ∧ t.pc = BitVec.ofNat 64 e.2.pkt.code ∧ t.v = List.replicate (e.2.budget (tid / 32)) {} ∧
            t.k = List.replicate 8 {} ∧ t.p = List.replicate 12 {}))

/-- R21, R148, R153, R354: GRID_COMPLETE. When every team placed has ended and every write of them is visible, the word at `DONE` rises by one, and
once that write is visible the grid is over, with `STATE` 5; a `DONE` that faults, or whose host is out of reach, posts the record and makes `STATE` 6; a grid without `DONE` ends with 5, an aborted one with 0x8F.
The model's own choice here: the write times of the teams, faults of `DONE`, and `DONE` in the private window (log 49, 50, 87). -/
def Sys2Proof.Spec.GridsComplete : Prop :=
  ∀ (s : State) (grid : Nat) (g : Grid) (d : Queue), GridOf s grid g d →
    let finished := g.ended = g.placed ∧ g.saved = [] ∧ (g.phase = .placed ∨ g.aborted = true) ∧ gridVisible s grid g = true
    let stays := fun (s' : State) => s'.teams = s.teams ∧ s'.threads = s.threads
    let ends := fun (s' : State) (v : Nat) => exec (.gridComplete grid) s = .next s' ∧ s'.grids.get grid = none ∧ StateOnly s s' d g.entry v ∧ stays s'
    let fails := fun c : Nat => ∃ s', ends s' 6 ∧ ∀ core, s.workingCore 0 192 = some core → EventPosted s' core c
    let w : Who := { asid := g.pkt.asid, team := 0, bound := 0, privNo := 0 }
    let r := checkAcc s w g.pkt.done 8 3 2 8 0 0
    (∀ v, g.fin = some v → (g.clock.passed s = true → ∃ s', ends s' v) ∧ (g.clock.passed s = false → exec (.gridComplete grid) s = .next s)) ∧
    (g.fin = none → ¬ finished → exec (.gridComplete grid) s = .next s) ∧
    (g.fin = none → finished → g.aborted = true → ∃ s', ends s' 0x8F) ∧
    (g.fin = none → finished → g.aborted = false →
      (g.pkt.done = 0 → ∃ s', ends s' 5) ∧
      (g.pkt.done ≠ 0 →
        (∀ f, r = .error f → fails f.cause) ∧
        ∀ a y, r = .ok a → a.loc = .phys y →
          (atomPlace s a.kind 4 false 0 1 = none → fails 0x0F) ∧
          (atomPlace s a.kind 4 false 0 1 = some .pcie → hostGone s y = true → fails 0x19) ∧
          (a.kind = 0 → spaceOf y = 0 → y % 8 = 0 → homePois s.mem y = none →
            ∃ s' g', exec (.gridComplete grid) s = .next s' ∧ s'.grids.get grid = some g' ∧ g' = { g with fin := some 5, clock := g'.clock } ∧
              stays s' ∧ homeNat s'.mem y 8 = (homeNat s.mem y 8 + 1) % 2 ^ 64 ∧
              ∀ b, (b < y ∨ y + 8 ≤ b) → Memory.get s'.mem.cells b = Memory.get s.mem.cells b)))

/-- R18, R20, R21, R93, R139, R149, R152 to R154: grids. -/
def Obligations.GridsRun : Prop := DependencesRead ∧ Placement ∧ TeamsPlaced ∧ TeamsStart ∧ GridsComplete

/-! ### Caches and clocks by themselves (R205, R225, R226, R233 to R236, R333) -/

/-- R225, R235, R244, R333: a copy serves a load only while its lease runs and where it was granted no earlier than the thread's latest sc fence; a
lease runs until its stamp, of 24 bits in units of 16 ns, no longer lies ahead of device time by at most `LSRDC`. LEASE_EXPIRE of an expired pushed copy
that nobody has read forgets the push and, while the counters of its recording count, counts it as unused, once; it does nothing else, and nothing before the
expiry.
The model's own choice here: that a pushed copy counts once (log 52), and that the length of a lease is compared in whole units of a stamp (log 108). -/
def Sys2Proof.Spec.LeasesExpire : Prop :=
  (∀ (s : State) (q : Ask) (y : Nat) (c : Copy), l1Copy s q y = some c ∨ rdcCopy s q y = some c → c.leased s.mod = true ∧ q.fence ≤ c.granted) ∧
  (∀ (c : Copy) (m : Mod), c.exp % 16 = 0 → m.lsrdc ≤ 8192 →
    (m.now < c.exp → c.exp ≤ leaseEnd m.now m.lsrdc → c.leased m = true) ∧
    (c.exp ≤ m.now → m.now + m.lsrdc + 32 < c.exp + 2 ^ 28 → c.leased m = false)) ∧
  ∀ (s : State) (lvl key : Nat),
    let pushed := fun (c : Copy) (id : Nat) => lvl = 1 ∧ s.mem.rdc.get key = some c ∧ c.exp ≤ s.mod.now ∧ c.pushed = some id
    ((∀ c id, ¬ pushed c id) → exec (.leaseExpire lvl key) s = .next s) ∧
    ∀ c id, pushed c id → ∃ s', exec (.leaseExpire lvl key) s = .next s' ∧ s' = { s with mem := s'.mem, recs := s'.recs } ∧
      s'.mem = { s.mem with rdc := s.mem.rdc.put key { c with pushed := none } } ∧
      ∀ r, s.recs.get id = some r →
        (r.played = false ∨ r.frozen = true → s'.recs.get id = some r) ∧
        (r.played = true → r.frozen = false → s'.recs.get id = some { r with
          unused := min (r.unused + 1) 0xFFFF
          st := if r.st = .playing ∧ r.thrUnused < min (r.unused + 1) 0xFFFF ∧ r.thrUnused ≠ 0xFFFF then .departed else r.st })

/-- R235, R236, R238: SCRUB_VISIT drops a copy whose lease has expired and no other: of an L1 line with a write-through on its way, the copy stays with
what it holds. CACHE_WAKE does nothing after a sleep of at most 134,217,728 ns; after a longer one an L1 holds no copy but of those lines, their leases
over, and an RDC no copy of device memory, and its dirty sectors are in memory. -/
def Sys2Proof.Spec.ScrubAndWake : Prop :=
  (∀ (s : State) (key : Nat) (c : Copy), s.mem.l1.get key = some c →
    let kept := pinned s (key / 2 ^ 56) (key % 2 ^ 56)
    (s.mod.now < c.exp ∨ kept = true → ∃ s' c', exec (.scrubVisit 0 key) s = .next s' ∧
      s' = { s with mem := { s.mem with l1 := s'.mem.l1 } } ∧ s'.mem.l1.get key = some c' ∧ c' = { c with exp := c'.exp, seen := s.mod.now } ∧
      (s.mod.now < c.exp → c'.exp = c.exp) ∧ ∀ k, k ≠ key → s'.mem.l1.get k = s.mem.l1.get k) ∧
    (c.exp ≤ s.mod.now → kept = false → ∃ s', exec (.scrubVisit 0 key) s = .next s' ∧ s'.mem.l1.get key = none ∧
      (∀ k, k ≠ key → s'.mem.l1.get k = s.mem.l1.get k) ∧ s'.mem.cells = s.mem.cells ∧ s'.threads = s.threads)) ∧
  (∀ (s : State) (key : Nat) (c : Copy), s.mem.rdc.get key = some c → leasedSector (key % 2 ^ 56) = true →
    (s.mod.now < c.exp → ∃ s', exec (.scrubVisit 1 key) s = .next s' ∧ s' = { s with mem := { s.mem with rdc := s'.mem.rdc } } ∧
      s'.mem.rdc.get key = some { c with seen := s.mod.now } ∧ ∀ k, k ≠ key → s'.mem.rdc.get k = s.mem.rdc.get k) ∧
    (c.exp ≤ s.mod.now → ∃ s', exec (.scrubVisit 1 key) s = .next s' ∧ s'.mem.rdc.get key = none ∧
      (∀ k, k ≠ key → s'.mem.rdc.get k = s.mem.rdc.get k) ∧ s'.mem.l1 = s.mem.l1 ∧ s'.threads = s.threads)) ∧
  (∀ (s : State) (lvl place slept : Nat), slept ≤ 134217728 → exec (.cacheWake lvl place slept) s = .next s) ∧
  (∀ (s : State) (place slept : Nat), 134217728 < slept → Rising s.mem.l1 →
    ∃ s', exec (.cacheWake 0 place slept) s = .next s' ∧ s'.threads = s.threads ∧ s'.mem.cells = s.mem.cells ∧
      ∀ k, (k / 2 ^ 56 ≠ place → s'.mem.l1.get k = s.mem.l1.get k) ∧
        (k / 2 ^ 56 = place → ∀ c', s'.mem.l1.get k = some c' → pinned s place (k % 2 ^ 56) = true ∧
          ∃ c, s.mem.l1.get k = some c ∧ c' = { c with exp := lapsed s.mod.now })) ∧
  (∀ (s : State) (place slept : Nat), 134217728 < slept → Rising s.mem.rdc → Memory.wf s.mem.cells = true →
    (∀ e ∈ s.mem.rdc, e.2.data.length = 64) →
    ∃ s', exec (.cacheWake 1 place slept) s = .next s' ∧ s'.threads = s.threads ∧ ∀ k c, s.mem.rdc.get k = some c → k / 2 ^ 56 = place →
      (leasedSector (k % 2 ^ 56) = true → s'.mem.rdc.get k = none) ∧
      (c.dirty = true → Memory.read s'.mem.cells (k % 2 ^ 56 * 64) 64 = c.data) ∧
      (leasedSector (k % 2 ^ 56) = false → s'.mem.rdc.get k = some { c with dirty := false }))

/-- R233, R344: TIME_FAULT_START of a working die. The die takes no lease until the fault ends; its RDC holds no copy of device memory, and its
L1s none but of lines with write-throughs not yet acknowledged, whose leases are over; the homes' records stay; event 0x21 is posted to
the die's first core. TIME_FAULT_END ends it, with event 0x22. Where the die already is as told, nothing happens.
The model's own choice here: 1588 time as the model keeps it (log 43). -/
def Sys2Proof.Spec.TimeFaults : Prop :=
  ∀ (s : State) (die : Nat), die < 4 → s.mod.timeFault.length = 4 →
    (s.mod.timeFault.getD die false = false → exec (.timeFaultEnd die) s = .next s ∧
      ∃ s', exec (.timeFaultStart die) s = .next s' ∧ leased s' die = false ∧ (∀ d, d ≠ die → leased s' d = leased s d) ∧
        (∀ k c, k / 2 ^ 56 = die → s'.mem.rdc.get k = some c → leasedSector (k % 2 ^ 56) = false) ∧
        (∀ k c, dieOf (k / 2 ^ 56) = die → s'.mem.l1.get k = some c → pinned s (k / 2 ^ 56) (k % 2 ^ 56) = true ∧ c.exp = lapsed s.mod.now) ∧
        s'.mem.dir = s.mem.dir ∧
        (∀ k tm, s.teams.get k = some tm → ∃ u, s'.teams.get k = some u ∧ u = { tm with rel := u.rel, gws := u.gws, wrote := u.wrote, states := u.states }) ∧ s'.mod.now = s.mod.now ∧ EventPosted s' (48 * die) 0x21) ∧
    (s.mod.timeFault.getD die false = true → exec (.timeFaultStart die) s = .next s ∧
      ∃ s', exec (.timeFaultEnd die) s = .next s' ∧ leased s' die = true ∧ s'.mem = s.mem ∧ s'.threads = s.threads ∧
        EventPosted s' (48 * die) 0x22)

namespace Sys2Proof.Spec

/-- An event sets the 1588 clock to `offset`, and the rest of the module's state to `m`. Of the peers' writes still kept, no L1 or RDC copy granted by
the write lives past the window, on the corrected clock, that the write is visible by; every other copy is as it was, and so is all else. -/
def ClockSet (s s' : State) (offset : Int) (m : Mod) : Prop :=
  let mod : Mod := { m with ptp := offset }
  let last := fun c : PeerCap => windowEnd mod c.at0 c.ahead
  let capped := fun t t' : Tab Copy => t'.length = t.length ∧ ∀ i (h : i < t.length), ∃ x, t'[i]? = some (t[i].1, { t[i].2 with exp := x }) ∧ x ≤ t[i].2.exp ∧
    (∀ c ∈ m.peerCaps, t[i].1 % 2 ^ 56 = c.sector → t[i].2.granted ≤ c.at0 → x ≤ last c) ∧
    (x = t[i].2.exp ∨ ∃ c ∈ m.peerCaps, t[i].1 % 2 ^ 56 = c.sector ∧ t[i].2.granted ≤ c.at0 ∧ x = last c)
  s' = { s with mod := mod, mem := { s.mem with l1 := s'.mem.l1, rdc := s'.mem.rdc } } ∧ capped s.mem.l1 s'.mem.l1 ∧ capped s.mem.rdc s'.mem.rdc

end Sys2Proof.Spec

/-- R224, R232, R234: DESYNCHRONISE takes a measured offset outside the band of 64 ns and RESYNCHRONISE one inside; the other way round they do
nothing. At the correction, older copies of what peers have written end by the windows of the corrected clock.
The model's own choice here: 1588 time as the model keeps it (log 43), and when a peer's write ends the leases (log 104). -/
def Sys2Proof.Spec.Synchronisation : Prop :=
  ∀ (s : State) (offset : Int),
    (64 < offset.natAbs → exec (.desynchronise offset) s = .next { s with mod := { s.mod with ptp := offset, desync := true } } ∧
      exec (.resynchronise offset) s = .next s) ∧
    (offset.natAbs ≤ 64 → (∃ s', exec (.resynchronise offset) s = .next s' ∧ ClockSet s s' offset { s.mod with desync := false }) ∧
      exec (.desynchronise offset) s = .next s)

/-- R225, R233 to R236, R333: what caches and clocks do by themselves. -/
def Obligations.CachesAndClocks : Prop := LeasesExpire ∧ ScrubAndWake ∧ TimeFaults ∧ Synchronisation

/-! ### The host (R229, R357 to R361, R365) -/

/-- R6, R357: HOST_MEM_READ answers with the bytes that the homes hold; HOST_MEM_WRITE within a sector changes those bytes and no other, and
its acknowledgement waits until the latest lease that the home knows of for the sector, which the threads' leases then cannot outlive;
an address at or above 384 GiB stops the run; a PCIe AtomicOp of the host is turned away.
The model's own choices here: accesses of several sectors (log 73), a host store as one event (log 60), the stop (log 120). -/
def Sys2Proof.Spec.HostAccesses : Prop :=
  (∀ (s : State) (pa size : Nat) (bytes : List Byte), (0x6000000000 < pa + size → exec (.hostMemRead pa size) s = .fault .physicalHole) ∧
    (0x6000000000 < pa + bytes.length → exec (.hostMemWrite pa bytes) s = .fault .physicalHole)) ∧
  (∀ (s : State) (pa size : Nat), pa + size ≤ 0x6000000000 → hostUp s = true →
    ∃ p, exec (.hostMemRead pa size) s = .next { s with mod := { s.mod with reply := .data (Memory.read s.mem.cells pa size) p } } ∧
      (pa / 64 = (pa + size - 1) / 64 → size ≠ 0 → (p = true ↔ s.mem.pois.get (pa / 64) ≠ none))) ∧
  (∀ (s : State) (pa : Nat) (bytes : List Byte), pa + bytes.length ≤ 0x6000000000 → hostUp s = true → bytes ≠ [] → pa % 64 + bytes.length ≤ 64 →
    Memory.wf s.mem.cells = true →
    ∃ s' c, exec (.hostMemWrite pa bytes) s = .next s' ∧ Memory.read s'.mem.cells pa bytes.length = bytes ∧
      (∀ b, b < pa ∨ pa + bytes.length ≤ b → Memory.get s'.mem.cells b = Memory.get s.mem.cells b) ∧ s'.threads = s.threads ∧ s'.teams = s.teams ∧
      s'.mod.hostWait = s.mod.hostWait ++ [c] ∧
      ∀ h ∈ (s.mem.dir.getD (pa / 64) {}).holders, h.2 ≤ max c.t s.mod.now ∨ ∃ p ∈ c.provs, h.2 ≤ p.2) ∧
  (∀ (s : State), let past := fun h : WClock => h.t ≤ s.mod.now ∧ ∀ p ∈ h.provs, p.2 ≤ s.mod.now ∨ s.mem.revs.get p.1 = none
    ((∀ h ∈ s.mod.hostWait, ¬ past h) → hostSettle s = s) ∧
    ((∃ h ∈ s.mod.hostWait, past h) → (hostSettle s).mod.reply = .ack ∧ ∀ h, h ∈ (hostSettle s).mod.hostWait ↔ h ∈ s.mod.hostWait ∧ ¬ past h)) ∧
  (∀ (s : State) (pa : Nat), hostUp s = true →
    exec (.hostAtomicopRequest pa) s = .next { s with mod := { s.mod with reply := .unsupported } }) ∧
  (∀ (s : State) (pa size : Nat), hostUp s = false → pa + size ≤ 0x6000000000 → exec (.hostMemRead pa size) s = .next s)

/-- R229, R230, R238: HOST_SNOOP of a host sector whose port is up is answered with the sector's current data; no copy of it stays, but without a lease
in an L1 with a write-through on its way; then the host's bytes are stored. A sector held as host-noncoherent is not snooped: the host meets its
own memory, and the copies stay.
The model's own choice here: that a snoop is one event, and what a host-noncoherent sector does (log 60, 61). -/
def Sys2Proof.Spec.HostSnoops : Prop :=
  ∀ (s : State) (hpa : Nat) (bytes : List Byte), let y := physOf 2 hpa
    hpa < 2 ^ 52 → (hostPort s y).isSome = true → hpa % 64 + bytes.length ≤ 64 → Memory.wf s.mem.cells = true → (∀ e ∈ s.mem.rdc, e.2.data.length = 64) →
    ((∀ c, proxyCopy s.mem y = some c → c.nc = false) →
      ∃ s' p, exec (.hostSnoop hpa bytes) s = .next s' ∧ s'.mod.reply = .data (homeBytes s.mem (y / 64 * 64) 64) p ∧
        s'.mem.rdc.get (copyKey (homeDie y) y) = none ∧ (∀ c < 192, pinned s c (y / 64) = false → s'.mem.l1.get (copyKey c y) = none) ∧
        (∀ c < 192, ∀ x, pinned s c (y / 64) = true → s.mem.l1.get (copyKey c y) = some x →
          s'.mem.l1.get (copyKey c y) = some { x with exp := lapsed s.mod.now }) ∧
        Memory.read s'.mem.cells y bytes.length = bytes ∧ (∀ b, b / 64 ≠ y / 64 → Memory.get s'.mem.cells b = Memory.get s.mem.cells b) ∧
        s'.threads = s.threads ∧ s'.teams = s.teams) ∧
    (∀ c, proxyCopy s.mem y = some c → c.nc = true →
      ∃ s' p, exec (.hostSnoop hpa bytes) s = .next s' ∧ s'.mod.reply = .data (Memory.read s.mem.cells (y / 64 * 64) 64) p ∧
        s'.mem.rdc = s.mem.rdc ∧ s'.mem.l1 = s.mem.l1 ∧ Memory.read s'.mem.cells y bytes.length = bytes ∧ s'.threads = s.threads ∧ s'.teams = s.teams)

/-- R359, R360, R366: negotiation. `FACK` 1 becomes 2 where the enabled words lie in the offer (bits 0 to 7 of word 0), and fabric scope only where
every ACTIVE link's peer has it; else it becomes 3 with nothing enabled, and step 7 of start-up has failed. A write in port 0's CXL.io space that is of no negotiation register
and no claim register is kept; one of a negotiation register writes that register.
The model's own choice here: the offsets of the registers (log 70). -/
def Sys2Proof.Spec.Negotiation : Prop :=
  (∀ (s : State), s.mod.fack ≠ 1 → exec .featureNegotiation s = .next s) ∧
  (∀ (s : State), s.mod.fack = 1 →
    let offered := fun w b : Nat => w = 0 ∧ b < 8
    let good := (∀ w < 4, ∀ b, (s.mod.fen.getD w 0).testBit b = true → offered w b) ∧
      ((s.mod.fen.getD 0 0).testBit 2 = true → ∀ k ∈ s.mod.links, k.st = .active → k.peerFabric = true)
    (good → ∃ s', exec .featureNegotiation s = .next s' ∧ s' = { s with mod := { s.mod with fack := 2, boot := s'.mod.boot } } ∧
      (s.mod.boot.step = 7 → s'.mod.boot.step = 8 ∧ s'.mod.boot.failed = 0) ∧ (s.mod.boot.step ≠ 7 → s'.mod.boot = s.mod.boot)) ∧
    (¬ good → ∃ s', exec .featureNegotiation s = .next s' ∧
      s' = { s with mod := { s.mod with fack := 3, fen := [0, 0, 0, 0], boot := s'.mod.boot } } ∧
      (s.mod.boot.step = 7 → s'.mod.boot.step = 7 ∧ s'.mod.boot.failed = 7) ∧ (s.mod.boot.step ≠ 7 → s'.mod.boot = s.mod.boot))) ∧
  (∀ (s : State) (off : Nat) (v : BitVec 64), (s.mod.ports.getD 0 {}).up = true → (off < 0x1000 ∨ 0x1200 ≤ off) →
    let kept : State := { s with mod := { s.mod with cxlio := s.mod.cxlio.put off v } }
    exec (.cxlioRegisterWrite off v) s = .next (match Config.cxlioReg off with
      | some r => if 0x300 ≤ r ∧ r ≤ 0x308 then sysWrite s r v.toNat else kept
      | none => kept))

/-- R356, R365: CXL_PORT_DOWN while the other port is up changes nothing but that port; at the loss of the last port the dirty host sectors are
poisoned with cause 0x19 in the proxy RDC, its clean host copies are gone, and event 0x19 is posted to every working core. CXL_PORT_UP sends
poisoned sectors to the host as poison and drops them; the first port lets start-up go on, and the enabled links begin to train (R363).
The model's own choice here: which links begin to train, and poison of the host (log 56, 63). -/
def Sys2Proof.Spec.Ports : Prop :=
  let host := fun k : Nat => spaceOf (k % 2 ^ 56 * 64) = 2
  (∀ (s : State) (port : Nat) (other : Nat), port < 2 → other < 2 → other ≠ port → s.mod.ports.length = 2 →
    (s.mod.ports.getD port {}).up = true → (∀ e ∈ s.posts, e.1 < s.serial) → Rising s.mem.rdc →
    let p := s.mod.ports.getD port {}
    ((s.mod.ports.getD other {}).up = true →
      exec (.cxlPortDown port) s = .next { s with mod := { s.mod with ports := s.mod.ports.set port { p with up := false, lost := 0 } } }) ∧
    ((s.mod.ports.getD other {}).up = false → ∃ s', exec (.cxlPortDown port) s = .next s' ∧ hostUp s' = false ∧ s'.threads = s.threads ∧
      (∀ k c, host k → s'.mem.rdc.get k = some c → c.dirty = true ∧ c.pois = some 0x19) ∧
      (∀ k c, host k → s.mem.rdc.get k = some c → c.dirty = true → s'.mem.rdc.get k ≠ none) ∧
      (∀ k, ¬ host k → s'.mem.rdc.get k = s.mem.rdc.get k) ∧
      ∀ core < 192, core ∉ s.mod.fenced → EventPosted s' core 0x19)) ∧
  (∀ (s : State) (port : Nat), port < 2 → s.mod.ports.length = 2 → (s.mod.ports.getD port {}).up = false → s.mod.boot.failed = 0 →
    4 ≤ s.mod.boot.step →
    ∃ s', exec (.cxlPortUp port) s = .next s' ∧ (s'.mod.ports.getD port {}).up = true ∧ s'.threads = s.threads ∧
      (∀ k c, host k → s'.mem.rdc.get k = some c → c.pois ≠ some 0x19) ∧
      (s.mod.boot.step ≠ 4 → s'.mod.links = s.mod.links ∧ s'.mod.boot = s.mod.boot) ∧
      (s.mod.boot.step = 4 → s'.mod.boot = { s.mod.boot with step := 6 } ∧
        s'.mod.links = s.mod.links.mapIdx (fun i k => if s.mod.cfg.enables.getD i false then { k with st := .detect } else k)))

/-- R229, R356 to R361, R365: the host's accesses, snoops, negotiation and ports. -/
def Obligations.HostAttachment : Prop := HostAccesses ∧ HostSnoops ∧ Negotiation ∧ Ports

/-! ### Glokar Links and peers (R231, R270, R362 to R364) -/

namespace Sys2Proof.Spec

/-- Event `i` changes link `l` to `k` and nothing else. -/
def LinkBecomes (s : State) (i : Instr) (l : Nat) (k : Link) : Prop :=
  exec i s = .next { s with mod := { s.mod with links := s.mod.links.set l k } }

end Sys2Proof.Spec

/-- R363, R364: how a link moves through its states; an access on its way to a peer whose route goes with it is lost, and the thread of such a store
is marked, so that its next release of fabric scope traps.
The model's own choice here: identification, training, and the lanes of a link that lost some (log 55, 56, 57); that TIMESYNC sets the 1588 clock's offset (log
43); and when a peer's write ends the leases (log 104). -/
def Sys2Proof.Spec.LinkStates : Prop :=
  ∀ (s : State) (l : Nat), l < 18 → s.mod.links.length = 18 →
    let k := s.mod.links.getD l {}
    let running := k.st = .active ∨ k.st = .degraded
    (∀ n, k.st = .down → s.mod.cfg.enables.getD l false = true → 5 < s.mod.boot.step →
      LinkBecomes s (.linkPartnerDetect l n) l { k with st := .detect, lanes := 0 }) ∧
    (∀ n, k.st = .down → s.mod.cfg.enables.getD l false = false ∨ s.mod.boot.step ≤ 5 → exec (.linkPartnerDetect l n) s = .next s) ∧
    (∀ n, k.st = .detect → 2 ≤ n → n ≤ 8 → LinkBecomes s (.linkPartnerDetect l n) l { k with st := .equalize, lanes := n }) ∧
    (∀ n, n < 2 → k.st ≠ .down → exec (.linkPartnerDetect l n) s = .next s) ∧
    (∀ rtt, k.st = .equalize → rtt ≤ 300 → LinkBecomes s (.linkEqualized l rtt) l { k with st := .ident, rtt := rtt }) ∧
    (∀ rtt, 300 < rtt → exec (.linkEqualized l rtt) s = .next s) ∧
    (∀ peer fwin feat role, k.st = .ident →
      let agree := s.mod.devid ≠ peer ∧ s.mod.devid ≠ 0x1FFF ∧ peer ≠ 0x1FFF ∧ fwin = s.mod.fwin ∧
        (BitVec.toNat feat).testBit 2 = (s.mod.fen.getD 0 0).testBit 2 ∧ role = true
      LinkBecomes s (.linkIdent l peer fwin feat role) l
        { k with st := if agree then .timesync else .down, peer := peer, peerFabric := (BitVec.toNat feat).testBit 2 }) ∧
    let left := fun n : Nat => if 4 ≤ n then 4 else if 2 ≤ n then 2 else n
    (∀ offset : Int, k.st = .timesync → offset.natAbs ≤ 64 →
      let k' := if k.lanes = 8 then { k with st := .active, offset := offset } else { k with st := .degraded, lanes := left k.lanes, offset := offset }
      ∃ s', exec (.linkTimesync l offset) s = .next s' ∧ ClockSet s s' offset { s.mod with links := s.mod.links.set l k' }) ∧
    (∀ offset : Int, 64 < offset.natAbs → exec (.linkTimesync l offset) s = .next s) ∧
    (∀ n, running → n < k.lanes → LinkBecomes s (.linkLaneFail l n) l
      { k with st := .degraded, lanes := left n }) ∧
    (∀ n, k.st = .equalize ∨ k.st = .ident ∨ k.st = .timesync → n < k.lanes → LinkBecomes s (.linkLaneFail l n) l { k with lanes := n }) ∧
    (∀ n, k.lanes ≤ n → exec (.linkLaneFail l n) s = .next s) ∧
    (k.st = .degraded → LinkBecomes s (.linkRetrained l) l { k with st := .active, lanes := 8 }) ∧
    (k.st ≠ .degraded → exec (.linkRetrained l) s = .next s) ∧
    (k.lanes = 0 → k.st ≠ .down → ∃ s', exec (.linkTimeout l) s = .next s' ∧
      s' = { s with mod := { s.mod with links := s.mod.links.set l { k with st := .down } }, ops := s'.ops, threads := s'.threads } ∧
      let gone := fun o : Op => ∃ a ∈ o.accs, ∃ y, a.loc = .phys y ∧ spaceOf y = 1 ∧ routed s (peerOf y) = true ∧ routed s' (peerOf y) = false
      let stores := fun th : Nat => ∃ e ∈ s.ops, e.2.th = th ∧ (∃ a d, e.2.kind = .store a d) ∧ gone e.2
      (∀ j o, s.ops.get j = some o → (gone o → s'.ops.get j = some { o with lost := some 0x1A }) ∧ (¬ gone o → s'.ops.get j = some o)) ∧
      ∀ th t, s.threads.get th = some t →
        (stores th → s'.threads.get th = some { t with routeLost := true }) ∧ (¬ stores th → s'.threads.get th = some t)) ∧
    (k.lanes ≠ 0 → exec (.linkTimeout l) s = .next s)

/-- R362: flits. A received flit takes 256 bytes of its lane, and a pause is sent when less than one round trip's bytes at 212 GB/s are free; a
resume is sent only once twice that amount is; and a pause received stops sending on the lane until a resume is received.
The model's own choice here: the line rate, how a buffer drains, and that a lane which cannot hold twice the amount sends no resume (log 59, 58). -/
def Sys2Proof.Spec.FlowControl : Prop :=
  ∀ (s : State) (l vl : Nat), l < 18 → vl < 3 → s.mod.links.length = 18 →
    let k := s.mod.links.getD l {}
    let x := k.vls.getD vl {}
    let becomes := fun (i : Instr) (y : VLane) => LinkBecomes s i l { k with vls := k.vls.set vl y }
    let trip := 212 * k.rtt
    k.vls.length = 3 → k.st ≠ .down →
    (256 ≤ x.free → becomes (.flitReceive l vl) { x with free := x.free - 256, pauseSent := x.pauseSent || decide (x.free - 256 < trip) }) ∧
    (x.pauseSent = true → ∃ y, becomes (.resumeFlitSend l vl) y ∧ y.paused = x.paused ∧ (x.free ≤ 65536 → x.free ≤ y.free) ∧
      (2 * trip ≤ 65536 → y.pauseSent = false) ∧ (y.pauseSent = false → 2 * trip ≤ y.free)) ∧
    becomes (.pauseFlit l vl) { x with paused := true } ∧ becomes (.resumeFlit l vl) { x with paused := false }

/-- R6, R231, R232, R268, R270: PEER_REQUEST over a link that runs. A load is answered with the home's bytes; a store within a sector changes its
bytes and no other, and while the fabric is in step no lease of an older copy of the sector runs past the start of the second window after this
one; a CAS and an atomic read the word and write what R267 gives, unless the sector is poisoned, and answer with what they read; a packed ADD, MIN or MAX does one half,
and the other, with the answer, in an event of its own. An address at or above 384 GiB stops the run, and a link that does not run brings no request;
nor is one answered while the peer has paused the lane of responses (R362).
The model's own choice here: when a peer's write ends the leases (log 104), that a longer access is one event (log 105), that the halves of a packed atomic
are two events (log 21), and the stop (log 120). -/
def Sys2Proof.Spec.PeerRequests : Prop :=
  (∀ (s : State) (l pa n : Nat), 0x6000000000 < pa + n → exec (.peerRequest l (.load pa n)) s = .fault .physicalHole) ∧
  ∀ (s : State) (l : Nat), let k := s.mod.links.getD l {}
    (∀ pa n, pa + n ≤ 0x6000000000 → (k.st ≠ .active ∧ k.st ≠ .degraded) ∨ (k.vls.getD 1 {}).paused = true → exec (.peerRequest l (.load pa n)) s = .next s) ∧
    (k.st = .active ∨ k.st = .degraded → (k.vls.getD 1 {}).paused = false → Memory.wf s.mem.cells = true →
      (∀ pa n, pa + n ≤ 0x6000000000 → ∃ p, exec (.peerRequest l (.load pa n)) s =
        .next { s with mod := { s.mod with reply := .data (Memory.read s.mem.cells pa n) p } }) ∧
      (∀ pa bs, pa + bs.length ≤ 0x6000000000 → bs ≠ [] → pa % 64 + bs.length ≤ 64 → ∃ s', exec (.peerRequest l (.store pa bs)) s = .next s' ∧
        s'.mod.reply = .ack ∧ Memory.read s'.mem.cells pa bs.length = bs ∧ s'.threads = s.threads ∧
        (∀ b, b < pa ∨ pa + bs.length ≤ b → Memory.get s'.mem.cells b = Memory.get s.mem.cells b) ∧
        (s.mod.desync = false → let last := ((((s.window + 2) * s.mod.fwin : Nat) : Int) - s.mod.ptp).toNat
          (∀ h ∈ (s'.mem.dir.getD (pa / 64) {}).holders, h.2 ≤ last) ∧
          ∀ c ∈ s'.mem.l1 ++ s'.mem.rdc, c.1 % 2 ^ 56 = pa / 64 → c.2.granted ≤ s.mod.now → c.2.exp ≤ last)) ∧
      (∀ pa aop ty b, twoHalves false aop ty = true → pa + 4 ≤ 0x6000000000 → pa % 4 = 0 → s.mem.pois.get (pa / 64) = none →
        let half := fun h : Nat => leNat (Memory.read s.mem.cells (pa + 2 * h) 2)
        ∃ s' h, h < 2 ∧ exec (.peerRequest l (.atomic pa aop ty b)) s = .next s' ∧ s'.threads = s.threads ∧
          leNat (Memory.read s'.mem.cells (pa + 2 * h) 2) = halfOp aop ty (half h) (leNat b / 2 ^ (16 * h) % 2 ^ 16) % 2 ^ 16 ∧
          (∀ c, c < pa + 2 * h ∨ pa + 2 * h + 2 ≤ c → Memory.get s'.mem.cells c = Memory.get s.mem.cells c) ∧
          s'.mod.peerHalves = s.mod.peerHalves ++ [{ link := l, pa := pa, aop := aop, ty := ty, opnd := leNat b, half := h, old := half h }]) ∧
      (∀ pa aop ty b, let n := 4 * typeRegs ty
        twoHalves false aop ty = false → pa + n ≤ 0x6000000000 → pa % n = 0 → s.mem.pois.get (pa / 64) = none →
        ∃ s', exec (.peerRequest l (.atomic pa aop ty b)) s = .next s' ∧
          s'.mod.reply = .data (bytesOf (leNat (Memory.read s.mem.cells pa n)) n) false ∧ s'.threads = s.threads ∧
          (∀ v, atomNew false aop ty (leNat (Memory.read s.mem.cells pa n)) (leNat b) 0 = some v → v < 256 ^ n →
            leNat (Memory.read s'.mem.cells pa n) = v) ∧
          ∀ c, c < pa ∨ pa + n ≤ c → Memory.get s'.mem.cells c = Memory.get s.mem.cells c) ∧
      (∀ pa ty new cmp, let n := 4 * typeRegs ty
        pa + n ≤ 0x6000000000 → pa % n = 0 → s.mem.pois.get (pa / 64) = none → leNat new < 256 ^ n →
        ∃ s', exec (.peerRequest l (.cas pa ty new cmp)) s = .next s' ∧
          s'.mod.reply = .data (bytesOf (leNat (Memory.read s.mem.cells pa n)) n) false ∧
          leNat (Memory.read s'.mem.cells pa n) =
            (if leNat (Memory.read s.mem.cells pa n) = leNat cmp then leNat new else leNat (Memory.read s.mem.cells pa n)))) ∧
    ∀ x, s.mod.peerHalves.head? = some x → x.half < 2 → x.pa + 4 ≤ 0x6000000000 → x.pa % 4 = 0 → s.mem.pois.get (x.pa / 64) = none →
      Memory.wf s.mem.cells = true → ((s.mod.links.getD x.link {}).vls.getD 1 {}).paused = false →
      let h := 1 - x.half
      let v := leNat (Memory.read s.mem.cells (x.pa + 2 * h) 2)
      (peerSecond s).threads = s.threads ∧ (peerSecond s).mod.peerHalves = s.mod.peerHalves.tail ∧
      (peerSecond s).mod.reply = .data (bytesOf (x.old * 2 ^ (16 * x.half) + v * 2 ^ (16 * h)) 4) false ∧
      leNat (Memory.read (peerSecond s).mem.cells (x.pa + 2 * h) 2) = halfOp x.aop x.ty v (x.opnd / 2 ^ (16 * h) % 2 ^ 16) % 2 ^ 16 ∧
      ∀ c, c < x.pa + 2 * h ∨ x.pa + 2 * h + 2 ≤ c → Memory.get (peerSecond s).mem.cells c = Memory.get s.mem.cells c

/-- R6, R231, R270, R362 to R364: links, flow control and requests of peers. -/
def Obligations.LinksAndPeers : Prop := LinkStates ∧ FlowControl ∧ PeerRequests

/-! ### Start-up, faults and errors (R338, R345, R354, R366 to R368) -/

/-- R366, R367: the RESET event. Nothing is resident and nothing is outstanding; the record that stands in flash takes effect where firmware and
record verify; a step that fails stops start-up there, the first two in recovery mode; otherwise step 4 waits for a host.
The model's own choice here: device memory after the event (log 2). -/
def Sys2Proof.Spec.ResetEvent : Prop :=
  ∀ (s : State) (fw cfg : Bool) (bad : List Nat), ∃ s', exec (.reset fw cfg bad) s = .next s' ∧
    s'.teams = [] ∧ s'.threads = [] ∧ s'.groups = [] ∧ s'.ops = [] ∧ s'.issues = [] ∧ s'.entries = [] ∧ s'.mail = [] ∧ s'.grids = [] ∧
    s'.mod.rasce = 0 ∧ s'.mod.rasue = 0 ∧ s'.mod.fack = 0 ∧ s'.mem.l1 = [] ∧ s'.mem.rdc = [] ∧ s'.mod.nextCfg = s.mod.nextCfg ∧
    (fw = true → cfg = true → s'.mod.lsl1 = s.mod.nextCfg.lsl1 ∧ s'.mod.lsrdc = s.mod.nextCfg.lsrdc ∧ s'.mod.fwin = s.mod.nextCfg.fwin ∧
      s'.mod.devid = s.mod.nextCfg.devid % 8192 ∧ s'.mod.cfg = s.mod.nextCfg) ∧
    (fw = false → s'.mod.boot.failed = 1 ∧ s'.mod.boot.recovery = true) ∧
    (fw = true → cfg = false → s'.mod.boot.failed = 2 ∧ s'.mod.boot.recovery = true) ∧
    (fw = true → cfg = true → bad ≠ [] → s'.mod.boot.failed = 3 ∧ s'.mod.boot.badChannels = bad) ∧
    (fw = true → cfg = true → bad = [] → s'.mod.boot.step = 4 ∧ s'.mod.boot.failed = 0)

/-- R345, R366: SUPERVISOR_LOAD of an image that verifies, in step 6: slot 47 of every working core starts, its 32 threads at the entry point;
an image that does not verify starts nothing; step 7 is over where the driver has negotiated already. SIGNED_FIRMWARE_UPDATE is accepted in recovery mode only.
The model's own choice here: what follows a firmware update (log 65). -/
def Sys2Proof.Spec.FirmwareLoads : Prop :=
  (∀ (s : State) (entry : DWord), s.mod.boot.step = 6 → s.mod.boot.supLoaded = false →
    (∃ s', exec (.supervisorLoad entry true) s = .next s' ∧ s'.mod.boot.step = (if s.mod.fack = 2 then 8 else 7) ∧ s'.mod.boot.supLoaded = true ∧ s'.mem = s.mem ∧
      ∀ core < 192, core ∉ s.mod.fenced → (∃ g, s'.groups.get (core * 48 + 47) = some g ∧ g.team = 0) ∧
        ∀ lane < 32, ∃ t, s'.threads.get (place core 47 lane) = some t ∧ t.pc = entry ∧ t.st = .ready ∧ t.v = List.replicate 112 {} ∧
          t.k = List.replicate 8 {}) ∧
    ∃ s', exec (.supervisorLoad entry false) s = .next s' ∧ s'.threads = s.threads ∧ s'.groups = s.groups ∧ s'.mod.boot.supLoaded = false ∧
      s'.mod.boot.failed = 6) ∧
  (∀ (s : State) (entry : DWord) (ok : Bool), s.mod.boot.step ≠ 6 → exec (.supervisorLoad entry ok) s = .next s) ∧
  ∀ (s : State), (s.mod.boot.recovery = true → ∃ s', exec (.signedFirmwareUpdate true) s = .next s' ∧
      s' = { s with mod := { s.mod with boot := s'.mod.boot } } ∧ s'.mod.boot.recovery = false ∧ s'.mod.boot.step = 1) ∧
    exec (.signedFirmwareUpdate false) s = .next s ∧ (s.mod.boot.recovery = false → exec (.signedFirmwareUpdate true) s = .next s)

/-- R338, R368: corrected errors are counted; an uncorrectable error is counted and poisons its sector of device memory, with cause 0x05; the
power limit changes no value.
The model's own choice here: errors in a host sector (log 64). -/
def Sys2Proof.Spec.ErrorsCounted : Prop :=
  ∀ (s : State),
    exec .softErrorCorrected s = .next { s with mod := { s.mod with rasce := (s.mod.rasce + 1) % 2 ^ 64 } } ∧
    exec .powerLimitReached s = .next { s with mod := { s.mod with clockLow := true } } ∧
    (∀ sector, sector * 64 < 0x6000000000 → ∃ s', exec (.uncorrectableSoftError 0 sector) s = .next s' ∧
      s' = { s with mem := s'.mem, mod := s'.mod } ∧ s'.mem = { s.mem with pois := s.mem.pois.put sector 0x05 } ∧
      s'.mod = { s.mod with rasue := (s.mod.rasue + 1) % 2 ^ 64 }) ∧
    (∀ sector, sector * 64 < 2 ^ 52 → ∃ s', exec (.uncorrectableSoftError 2 sector) s = .next s' ∧
      s'.mod.rasue = (s.mod.rasue + 1) % 2 ^ 64 ∧ s'.mem.cells = s.mem.cells ∧
      ∀ c, s.mem.rdc.get (copyKey (homeDie (physOf 2 (sector * 64))) (physOf 2 (sector * 64))) = some c →
        s'.mem.rdc.get (copyKey (homeDie (physOf 2 (sector * 64))) (physOf 2 (sector * 64))) = some { c with pois := some 0x05 })

/-- R18, R354: CORE_FAULT of a working core. The core is fenced; nothing of it is left: no thread, group, team, operation, issue, mailbox entry
or L1 copy; every other live member of a gang of its teams is aborted; and event 0x18 with the core's number is posted to the lowest
working core of the die, where one is left.
The model's own choice here: what a failed core takes with it, and a team of no gang (log 47, 48). -/
def Sys2Proof.Spec.CoreFaults : Prop :=
  ∀ (s : State) (core : Nat), core < 192 →
    (core ∈ s.mod.fenced → exec (.coreFault core) s = .next s) ∧
    (core ∉ s.mod.fenced → Rising s.teams →
      ∃ s', exec (.coreFault core) s = .next s' ∧ core ∈ s'.mod.fenced ∧ s'.mod.rasue = (s.mod.rasue + 1) % 2 ^ 64 ∧ (∀ pl, placeCore pl = core → s'.threads.get pl = none) ∧
        (∀ k, k / 48 = core → s'.groups.get k = none) ∧ (∀ e ∈ s'.ops, placeCore e.2.th ≠ core) ∧ (∀ k, k / 4 = core → s'.issues.get k = none) ∧
        (∀ k, k / 64 = core → s'.mail.get k = none) ∧ (∀ k, k / 2 ^ 56 = core → s'.mem.l1.get k = none) ∧
        (∀ k tm, s'.teams.get k = some tm → tm.core ≠ core) ∧
        (∀ k tm j u, s.teams.get k = some tm → tm.core = core → tm.ended = false → s.teams.get j = some u → u.core ≠ core →
          u.grid = tm.grid → u.index / tm.pkt.gang = tm.index / tm.pkt.gang → u.ended = false → u.st ≠ .placed →
          ∃ u', s'.teams.get j = some u' ∧ u'.aborted = true) ∧
        ∀ c, s'.workingCore (48 * dieOf core) (48 * dieOf core + 48) = some c → EventPosted s' c 0x18)

/-- R345, R354, R366 to R368: start-up, faults and errors. -/
def Obligations.StartUpAndFaults : Prop := ResetEvent ∧ FirmwareLoads ∧ ErrorsCounted ∧ CoreFaults

/-- R224, R360, R361, R366: the machine at reset: start-up is at its first step; nothing is resident, posted or outstanding; no exception, lock
or copy is held; the lease and window lengths are 1,024, 2,048 and 2,048 ns; the error counters and `FACK` read 0; links are DOWN.
The model's own choice here: that every launch queue is closed, every recording FREE, `SVFLT` 0 and every port down (log 1). -/
def Sys2Proof.Spec.StateAtReset : Prop :=
  let s := State.reset
  s.mod.boot.step = 1 ∧ s.mod.boot.supLoaded = false ∧ s.teams = [] ∧ s.threads = [] ∧ s.groups = [] ∧ s.ops = [] ∧ s.cmds = [] ∧
  s.passes = [] ∧ s.mail = [] ∧ s.posts = [] ∧ s.grids = [] ∧ (∀ q, (s.queues.getD q {}).isOpen = false) ∧
  (∀ c, (s.svflt.getD c 0) = 0) ∧ s.xl.exc = [] ∧ s.xl.spill = [] ∧ (∀ k, (s.recs.getD k {}).st = .free) ∧ s.mem.locks = [] ∧ s.mem.l1 = [] ∧
  s.mem.rdc = [] ∧ s.mod.lsl1 = 1024 ∧ s.mod.lsrdc = 2048 ∧ s.mod.fwin = 2048 ∧ s.mod.fack = 0 ∧ s.mod.rasce = 0 ∧ s.mod.rasue = 0 ∧
  (∀ l, (s.mod.links.getD l {}).st = .down) ∧ (∀ p, (s.mod.ports.getD p {}).up = false)

/-! ### What every step keeps -/

namespace Sys2Proof.Spec

/-- Memory and every scratchpad are in canonical form. -/
def MemoryCanonical (s : State) : Prop :=
  Memory.wf s.mem.cells = true ∧ ∀ e ∈ s.teams, Memory.wf e.2.scratch = true

/-- The tables list every key once; numbers of operations, records and instructions are fresh; and a copy in an RDC is a whole sector. -/
structure Tidy (s : State) : Prop where
  serial : 0 < s.serial
  teams : Rising s.teams
  ops : Rising s.ops
  posts : Rising s.posts
  mail : Rising s.mail
  exc : Rising s.xl.exc
  spill : Rising s.xl.spill
  l1 : Rising s.mem.l1
  rdc : Rising s.mem.rdc
  opKeys : ∀ e ∈ s.ops, e.1 < s.serial ∧ e.2.batch < s.serial
  postKeys : ∀ e ∈ s.posts, e.1 < s.serial
  batches : ∀ e ∈ s.issues, e.2.batch < s.serial
  copies : ∀ e ∈ s.mem.rdc, e.2.data.length = 64

end Sys2Proof.Spec

/-- Memory as the model holds it stays in its one canonical form, whatever a step does: equal memories are equal data (R68, R206). -/
def Obligations.MemoryCanonicalKept : Prop :=
  ∀ s s' : State, MemoryCanonical s → step s = .next s' → MemoryCanonical s'

/-- The model's tables stay tidy, whatever a step does: the premises that other statements take of them hold in every state that a run from a
tidy state reaches, reset's among them; and a new word that a scheduler turns to has a number that no outstanding operation bears (R99). -/
def Obligations.TablesTidyKept : Prop :=
  (∀ s s' : State, Tidy s → step s = .next s' → Tidy s') ∧
  ∀ (s : State) (sched : Nat) (x : Issue), Tidy s → s.issues.get sched = some x → x.batch = 0 → FreshOps (prepare s sched).1

/-- The machine at reset (R224, R360, R361, R366; where the spec gives no value, log 1), and both invariants there. -/
def Obligations.AtReset : Prop := StateAtReset ∧ MemoryCanonical State.reset ∧ Tidy State.reset
end

