-- ==== Sys2Proof/Laws/Table.lean ====
section
/-! SUPPORT. Laws of finite maps and of byte memories: read after write, and that every operation keeps the canonical form. -/

namespace Sys2Proof.Machine

variable {α : Type}

/-! ### Finite maps -/

@[simp] theorem Tab.get_nil (k : Nat) : Tab.get ([] : Tab α) k = none := rfl

theorem Tab.get_cons (j : Nat) (v : α) (r : Tab α) (k : Nat) :
    Tab.get ((j, v) :: r) k = if j = k then some v else Tab.get r k := by
  by_cases h : j = k <;> simp [Tab.get, h]

@[simp] theorem Tab.get_put_self (t : Tab α) (k : Nat) (v : α) : (t.put k v).get k = some v := by
  induction t with
  | nil => simp [Tab.put, Tab.get]
  | cons e r ih =>
    obtain ⟨j, x⟩ := e
    unfold Tab.put
    split
    · simp [Tab.get]
    · split
      · simp [Tab.get]
      · rename_i h1 h2
        have : j ≠ k := fun h => h2 (by simp [h])
        simp [Tab.get, this, ih]

@[simp] theorem Tab.get_put_ne (t : Tab α) {k k' : Nat} (v : α) (h : k' ≠ k) : (t.put k v).get k' = t.get k' := by
  induction t with
  | nil => simp [Tab.put, Tab.get, Ne.symm h]
  | cons e r ih =>
    obtain ⟨j, x⟩ := e
    unfold Tab.put
    split
    · simp [Tab.get, Ne.symm h]
    · split
      · rename_i h2
        have : k = j := by simpa using h2
        subst this
        simp [Tab.get, h.symm]
      · simp [Tab.get, ih]

theorem Tab.get_put (t : Tab α) (k k' : Nat) (v : α) : (t.put k v).get k' = if k' = k then some v else t.get k' := by
  by_cases h : k' = k
  · subst h; simp
  · simp [h]

theorem Tab.get_upd (t : Tab α) (k k' : Nat) (f : α → α) :
    (t.upd k f).get k' = if k' = k then (t.get k').map f else t.get k' := by
  induction t with
  | nil => simp [Tab.upd, Tab.get]
  | cons e r ih =>
    obtain ⟨j, x⟩ := e
    simp only [Tab.upd, List.map_cons, beq_iff_eq] at ih ⊢
    by_cases h : j = k
    · subst h
      by_cases h' : j = k'
      · subst h'; simp [Tab.get_cons]
      · simp [Tab.get_cons, h', ih]
    · by_cases h' : j = k'
      · subst h'; simp [Tab.get_cons, h]
      · simp [Tab.get_cons, h, h', ih]

@[simp] theorem Tab.get_upd_self (t : Tab α) (k : Nat) (f : α → α) : (t.upd k f).get k = (t.get k).map f := by
  simp [Tab.get_upd]

@[simp] theorem Tab.get_upd_ne (t : Tab α) {k k' : Nat} (f : α → α) (h : k' ≠ k) : (t.upd k f).get k' = t.get k' := by
  simp [Tab.get_upd, h]

theorem Tab.get_del (t : Tab α) (k k' : Nat) : (t.del k).get k' = if k' = k then none else t.get k' := by
  induction t with
  | nil => simp [Tab.del, Tab.get]
  | cons e r ih =>
    obtain ⟨j, x⟩ := e
    simp only [Tab.del, List.filter_cons] at ih ⊢
    by_cases h : j = k
    · subst h
      simp only [bne_self_eq_false, Bool.false_eq_true, if_false, ih, Tab.get_cons]
      by_cases h' : k' = j
      · simp [h']
      · simp [h', Ne.symm h']
    · simp only [bne_iff_ne, ne_eq, h, not_false_eq_true, if_true, Tab.get_cons, ih]
      by_cases h' : j = k'
      · subst h'; simp [h]
      · simp [h']

@[simp] theorem Tab.get_del_self (t : Tab α) (k : Nat) : (t.del k).get k = none := by simp [Tab.get_del]

@[simp] theorem Tab.get_del_ne (t : Tab α) {k k' : Nat} (h : k' ≠ k) : (t.del k).get k' = t.get k' := by simp [Tab.get_del, h]

theorem Tab.has_iff (t : Tab α) (k : Nat) : t.has k = true ↔ ∃ v, t.get k = some v := by
  simp [Tab.has, Option.isSome_iff_exists]

@[simp] theorem Tab.has_put_self (t : Tab α) (k : Nat) (v : α) : (t.put k v).has k = true := by simp [Tab.has]

theorem Tab.getD_put (t : Tab α) (k k' : Nat) (v d : α) : (t.put k v).getD k' d = if k' = k then v else t.getD k' d := by
  by_cases h : k' = k <;> simp [Tab.getD, h]

/-- An entry that the lookup answers is listed. -/
theorem Tab.mem_of_get {t : Tab α} {k : Nat} {v : α} (h : t.get k = some v) : (k, v) ∈ t := by
  induction t with
  | nil => simp at h
  | cons e r ih =>
    obtain ⟨j, x⟩ := e
    rw [Tab.get_cons] at h
    by_cases hj : j = k
    · subst hj; simp at h; simp [h]
    · simp [hj] at h; simp [ih h]

/-! ### Bytes of a memory -/

/-- The canonical form as a property of the list: addresses rise, and no listed byte is 0. -/
theorem Memory.wf_iff (m : List Host.Cell) :
    Memory.wf m = true ↔ m.Pairwise (fun x y => x.1 < y.1) ∧ ∀ c ∈ m, c.2 ≠ 0 := by
  induction m with
  | nil => simp [Memory.wf]
  | cons e r ih =>
    obtain ⟨a, b⟩ := e
    cases r with
    | nil => simp [Memory.wf]
    | cons e' r =>
      obtain ⟨a', b'⟩ := e'
      simp only [Memory.wf, Bool.and_eq_true, bne_iff_ne, ne_eq, decide_eq_true_eq, ih, List.pairwise_cons, List.mem_cons,
        forall_eq_or_imp]
      constructor
      · rintro ⟨⟨h1, h2⟩, ⟨h3, h4⟩, h5, h6⟩
        exact ⟨⟨⟨h2, fun x hx => h2.trans (h3 x hx)⟩, h3, h4⟩, h1, h5, h6⟩
      · rintro ⟨⟨⟨h2, _⟩, h3, h4⟩, h1, h5, h6⟩
        exact ⟨⟨h1, h2⟩, ⟨h3, h4⟩, h5, h6⟩

@[simp] theorem Memory.wf_nil : Memory.wf [] = true := rfl

/-- A byte below every listed address reads 0. -/
theorem Memory.get_eq_zero {m : List Host.Cell} {a : Nat} (h : ∀ c ∈ m, a ≠ c.1) : Memory.get m a = 0 := by
  induction m with
  | nil => rfl
  | cons e r ih =>
    obtain ⟨j, x⟩ := e
    have hj : ¬j = a := fun he => h (j, x) (by simp) he.symm
    simp only [Memory.get, beq_iff_eq, hj, if_false]
    exact ih (fun c hc => h c (by simp [hc]))

/-- Addresses of a written memory. -/
theorem Memory.mem_set {m : List Host.Cell} {a : Nat} {b : Byte} {c : Host.Cell} (h : c ∈ Memory.set m a b) :
    c ∈ m ∨ (c = (a, b) ∧ b ≠ 0) := by
  induction m with
  | nil => by_cases hb : b = 0#8 <;> simp_all [Memory.set]
  | cons e r ih =>
    obtain ⟨j, x⟩ := e
    unfold Memory.set at h
    by_cases hb : b = 0#8
    · subst hb
      split at h
      · simp_all
      · split at h
        · simp_all
        · rcases List.mem_cons.1 h with h | h
          · simp [h]
          · rcases ih h with h | ⟨_, h⟩
            · simp [h]
            · exact absurd rfl h
    · split at h
      · simp_all; tauto
      · split at h
        · simp_all; tauto
        · rcases List.mem_cons.1 h with h | h
          · simp [h]
          · rcases ih h with h | h
            · exact Or.inl (List.mem_cons_of_mem _ h)
            · exact Or.inr h

/-- A write of one byte keeps the canonical form. -/
theorem Memory.wf_set {m : List Host.Cell} (h : Memory.wf m = true) (a : Nat) (b : Byte) : Memory.wf (Memory.set m a b) = true := by
  rw [Memory.wf_iff] at h ⊢
  obtain ⟨hp, hz⟩ := h
  constructor
  · clear hz
    induction m with
    | nil => by_cases hb : b = 0#8 <;> simp [Memory.set, hb]
    | cons e r ih =>
      obtain ⟨j, x⟩ := e
      have hp' := hp
      rw [List.pairwise_cons] at hp
      unfold Memory.set
      split
      · split
        · exact hp'
        · rename_i h1 _
          refine List.pairwise_cons.2 ⟨?_, hp'⟩
          intro c hc
          rcases List.mem_cons.1 hc with hc | hc
          · simpa [hc] using h1
          · exact lt_trans h1 (hp.1 c hc)
      · split
        · rename_i h2
          have h2 : a = j := by simpa using h2
          subst h2
          split
          · exact hp.2
          · exact List.pairwise_cons.2 ⟨hp.1, hp.2⟩
        · rename_i h1 h2
          have h2 : a ≠ j := by simpa using h2
          refine List.pairwise_cons.2 ⟨?_, ih hp.2⟩
          intro c hc
          rcases Memory.mem_set hc with hc | ⟨hc, _⟩
          · exact hp.1 c hc
          · subst hc; show j < a; omega
  · intro c hc
    rcases Memory.mem_set hc with hc | ⟨hc, hb⟩
    · exact hz c hc
    · subst hc; exact hb

/-- A write of bytes keeps the canonical form. -/
theorem Memory.wf_write {m : List Host.Cell} (h : Memory.wf m = true) (a : Nat) (bs : List Byte) :
    Memory.wf (Memory.write m a bs) = true := by
  induction bs generalizing m a with
  | nil => exact h
  | cons b r ih => exact ih (Memory.wf_set h a b) (a + 1)

/-- Reading a byte after writing one. -/
theorem Memory.get_set {m : List Host.Cell} (h : Memory.wf m = true) (a a' : Nat) (b : Byte) :
    Memory.get (Memory.set m a b) a' = if a' = a then b else Memory.get m a' := by
  rw [Memory.wf_iff] at h
  obtain ⟨hp, -⟩ := h
  induction m with
  | nil =>
    by_cases hb : b = 0#8
    · simp [Memory.set, hb, Memory.get]
    · by_cases ha : a' = a
      · simp [Memory.set, hb, Memory.get, ha]
      · simp [Memory.set, hb, Memory.get, ha, Ne.symm ha]
  | cons e r ih =>
    obtain ⟨j, x⟩ := e
    rw [List.pairwise_cons] at hp
    unfold Memory.set
    split
    · rename_i h1
      by_cases hb : b = 0#8
      · subst hb
        by_cases ha : a' = a
        · subst ha
          simp only [if_true]
          refine Memory.get_eq_zero (fun c hc => ?_)
          rcases List.mem_cons.1 hc with hc | hc
          · subst hc; exact Nat.ne_of_lt h1
          · exact Nat.ne_of_lt (lt_trans h1 (hp.1 c hc))
        · simp [ha]
      · by_cases ha : a' = a
        · subst ha; simp [hb, Memory.get]
        · simp [hb, Memory.get, ha, Ne.symm ha]
    · split
      · rename_i h1 h2
        have h2 : a = j := by simpa using h2
        subst h2
        by_cases ha : a' = a
        · subst ha
          by_cases hb : b = 0#8
          · subst hb
            simp only [if_true]
            exact Memory.get_eq_zero (fun c hc => Nat.ne_of_lt (hp.1 c hc))
          · simp [hb, Memory.get]
        · by_cases hb : b = 0#8 <;> simp [hb, Memory.get, ha, Ne.symm ha]
      · rename_i h1 h2
        have h2 : a ≠ j := by simpa using h2
        have ih := ih hp.2
        by_cases ha : a' = a
        · subst ha; simp [Memory.get, Ne.symm h2, ih]
        · simp [Memory.get, ih, ha]

@[simp] theorem Memory.get_set_self {m : List Host.Cell} (h : Memory.wf m = true) (a : Nat) (b : Byte) :
    Memory.get (Memory.set m a b) a = b := by simp [Memory.get_set h]

/-- A write of bytes leaves every other byte alone. -/
theorem Memory.get_write_out {m : List Host.Cell} (h : Memory.wf m = true) (a : Nat) (bs : List Byte) (a' : Nat)
    (ho : a' < a ∨ a + bs.length ≤ a') : Memory.get (Memory.write m a bs) a' = Memory.get m a' := by
  induction bs generalizing m a with
  | nil => rfl
  | cons b r ih =>
    simp only [Memory.write, List.length_cons] at ho ⊢
    rw [ih (Memory.wf_set h a b) (a + 1) (by omega), Memory.get_set h, if_neg (by omega)]

/-- A write of bytes puts each byte at its place. -/
theorem Memory.get_write_in {m : List Host.Cell} (h : Memory.wf m = true) (a : Nat) (bs : List Byte) (i : Nat) (hi : i < bs.length) :
    Memory.get (Memory.write m a bs) (a + i) = bs[i] := by
  induction bs generalizing m a i with
  | nil => simp at hi
  | cons b r ih =>
    simp only [Memory.write]
    cases i with
    | zero =>
      show Memory.get (Memory.write (Memory.set m a b) (a + 1) r) a = b
      rw [Memory.get_write_out (Memory.wf_set h a b) (a + 1) r a (by omega), Memory.get_set_self h]
    | succ i =>
      have := ih (Memory.wf_set h a b) (a + 1) i (by simpa using hi)
      rw [show a + (i + 1) = a + 1 + i by omega, this]; simp

@[simp] theorem Memory.length_read (m : List Host.Cell) (a n : Nat) : (Memory.read m a n).length = n := by
  induction n generalizing a with
  | zero => rfl
  | succ n ih => simp [Memory.read, ih]

/-- What was written is read back. -/
theorem Memory.read_write {m : List Host.Cell} (h : Memory.wf m = true) (a : Nat) (bs : List Byte) :
    Memory.read (Memory.write m a bs) a bs.length = bs := by
  suffices hs : ∀ (n : Nat) (k : Nat), k + n = bs.length → Memory.read (Memory.write m a bs) (a + k) n = bs.drop k by
    simpa using hs bs.length 0 (by simp)
  intro n
  induction n with
  | zero => intro k hk; simp [Memory.read, show bs.length ≤ k by omega]
  | succ n ih =>
    intro k hk
    have hk' : k < bs.length := by omega
    rw [List.drop_eq_getElem_cons hk', Memory.read, Memory.get_write_in h a bs k hk', show a + k + 1 = a + (k + 1) by omega,
      ih (k + 1) (by omega)]

/-! ### Little-endian numbers (R68) -/

@[simp] theorem length_bytesOf (n k : Nat) : (bytesOf n k).length = k := by
  induction k generalizing n with
  | zero => rfl
  | succ k ih => simp [bytesOf, ih]

/-- The bytes of a number read back as the number. -/
theorem leNat_bytesOf (n k : Nat) : leNat (bytesOf n k) = n % 2 ^ (8 * k) := by
  induction k generalizing n with
  | zero => simp [bytesOf, leNat, Nat.mod_one]
  | succ k ih =>
    simp only [bytesOf, leNat, ih, byteAt, Nat.mul_zero, pow_zero, Nat.div_one, BitVec.toNat_ofNat]
    rw [show 8 * (k + 1) = 8 + 8 * k by omega, pow_add, show (2 : Nat) ^ 8 = 256 from rfl, Nat.mod_mul]

end Sys2Proof.Machine
end

