-- ==== Sys2Proof/Laws/State.lean ====
section
/-! SUPPORT. What each named update of the state leaves in each field: one lemma per field per update. -/

namespace Sys2Proof.Machine

variable (s : State)

/-! ### setThread -/
@[simp] theorem State.setThread_mod (pl : Nat) (t : Thread) : (s.setThread pl t).mod = s.mod := rfl
@[simp] theorem State.setThread_mem (pl : Nat) (t : Thread) : (s.setThread pl t).mem = s.mem := rfl
@[simp] theorem State.setThread_xl (pl : Nat) (t : Thread) : (s.setThread pl t).xl = s.xl := rfl
@[simp] theorem State.setThread_queues (pl : Nat) (t : Thread) : (s.setThread pl t).queues = s.queues := rfl
@[simp] theorem State.setThread_grids (pl : Nat) (t : Thread) : (s.setThread pl t).grids = s.grids := rfl
@[simp] theorem State.setThread_teams (pl : Nat) (t : Thread) : (s.setThread pl t).teams = s.teams := rfl
@[simp] theorem State.setThread_groups (pl : Nat) (t : Thread) : (s.setThread pl t).groups = s.groups := rfl
@[simp] theorem State.setThread_threads (pl : Nat) (t : Thread) : (s.setThread pl t).threads = s.threads.put pl t := rfl
@[simp] theorem State.setThread_entries (pl : Nat) (t : Thread) : (s.setThread pl t).entries = s.entries := rfl
@[simp] theorem State.setThread_scheds (pl : Nat) (t : Thread) : (s.setThread pl t).scheds = s.scheds := rfl
@[simp] theorem State.setThread_issues (pl : Nat) (t : Thread) : (s.setThread pl t).issues = s.issues := rfl
@[simp] theorem State.setThread_ops (pl : Nat) (t : Thread) : (s.setThread pl t).ops = s.ops := rfl
@[simp] theorem State.setThread_cmds (pl : Nat) (t : Thread) : (s.setThread pl t).cmds = s.cmds := rfl
@[simp] theorem State.setThread_proms (pl : Nat) (t : Thread) : (s.setThread pl t).proms = s.proms := rfl
@[simp] theorem State.setThread_supRel (pl : Nat) (t : Thread) : (s.setThread pl t).supRel = s.supRel := rfl
@[simp] theorem State.setThread_passes (pl : Nat) (t : Thread) : (s.setThread pl t).passes = s.passes := rfl
@[simp] theorem State.setThread_recs (pl : Nat) (t : Thread) : (s.setThread pl t).recs = s.recs := rfl
@[simp] theorem State.setThread_pushes (pl : Nat) (t : Thread) : (s.setThread pl t).pushes = s.pushes := rfl
@[simp] theorem State.setThread_mail (pl : Nat) (t : Thread) : (s.setThread pl t).mail = s.mail := rfl
@[simp] theorem State.setThread_posts (pl : Nat) (t : Thread) : (s.setThread pl t).posts = s.posts := rfl
@[simp] theorem State.setThread_svflt (pl : Nat) (t : Thread) : (s.setThread pl t).svflt = s.svflt := rfl
@[simp] theorem State.setThread_due (pl : Nat) (t : Thread) : (s.setThread pl t).due = s.due := rfl
@[simp] theorem State.setThread_cur (pl : Nat) (t : Thread) : (s.setThread pl t).cur = s.cur := rfl
@[simp] theorem State.setThread_tick (pl : Nat) (t : Thread) : (s.setThread pl t).tick = s.tick := rfl
@[simp] theorem State.setThread_serial (pl : Nat) (t : Thread) : (s.setThread pl t).serial = s.serial := rfl

/-! ### updThread -/
@[simp] theorem State.updThread_mod (pl : Nat) (f : Thread → Thread) : (s.updThread pl f).mod = s.mod := rfl
@[simp] theorem State.updThread_mem (pl : Nat) (f : Thread → Thread) : (s.updThread pl f).mem = s.mem := rfl
@[simp] theorem State.updThread_xl (pl : Nat) (f : Thread → Thread) : (s.updThread pl f).xl = s.xl := rfl
@[simp] theorem State.updThread_queues (pl : Nat) (f : Thread → Thread) : (s.updThread pl f).queues = s.queues := rfl
@[simp] theorem State.updThread_grids (pl : Nat) (f : Thread → Thread) : (s.updThread pl f).grids = s.grids := rfl
@[simp] theorem State.updThread_teams (pl : Nat) (f : Thread → Thread) : (s.updThread pl f).teams = s.teams := rfl
@[simp] theorem State.updThread_groups (pl : Nat) (f : Thread → Thread) : (s.updThread pl f).groups = s.groups := rfl
@[simp] theorem State.updThread_threads (pl : Nat) (f : Thread → Thread) : (s.updThread pl f).threads = s.threads.upd pl f := rfl
@[simp] theorem State.updThread_entries (pl : Nat) (f : Thread → Thread) : (s.updThread pl f).entries = s.entries := rfl
@[simp] theorem State.updThread_scheds (pl : Nat) (f : Thread → Thread) : (s.updThread pl f).scheds = s.scheds := rfl
@[simp] theorem State.updThread_issues (pl : Nat) (f : Thread → Thread) : (s.updThread pl f).issues = s.issues := rfl
@[simp] theorem State.updThread_ops (pl : Nat) (f : Thread → Thread) : (s.updThread pl f).ops = s.ops := rfl
@[simp] theorem State.updThread_cmds (pl : Nat) (f : Thread → Thread) : (s.updThread pl f).cmds = s.cmds := rfl
@[simp] theorem State.updThread_proms (pl : Nat) (f : Thread → Thread) : (s.updThread pl f).proms = s.proms := rfl
@[simp] theorem State.updThread_supRel (pl : Nat) (f : Thread → Thread) : (s.updThread pl f).supRel = s.supRel := rfl
@[simp] theorem State.updThread_passes (pl : Nat) (f : Thread → Thread) : (s.updThread pl f).passes = s.passes := rfl
@[simp] theorem State.updThread_recs (pl : Nat) (f : Thread → Thread) : (s.updThread pl f).recs = s.recs := rfl
@[simp] theorem State.updThread_pushes (pl : Nat) (f : Thread → Thread) : (s.updThread pl f).pushes = s.pushes := rfl
@[simp] theorem State.updThread_mail (pl : Nat) (f : Thread → Thread) : (s.updThread pl f).mail = s.mail := rfl
@[simp] theorem State.updThread_posts (pl : Nat) (f : Thread → Thread) : (s.updThread pl f).posts = s.posts := rfl
@[simp] theorem State.updThread_svflt (pl : Nat) (f : Thread → Thread) : (s.updThread pl f).svflt = s.svflt := rfl
@[simp] theorem State.updThread_due (pl : Nat) (f : Thread → Thread) : (s.updThread pl f).due = s.due := rfl
@[simp] theorem State.updThread_cur (pl : Nat) (f : Thread → Thread) : (s.updThread pl f).cur = s.cur := rfl
@[simp] theorem State.updThread_tick (pl : Nat) (f : Thread → Thread) : (s.updThread pl f).tick = s.tick := rfl
@[simp] theorem State.updThread_serial (pl : Nat) (f : Thread → Thread) : (s.updThread pl f).serial = s.serial := rfl

/-! ### putThread -/
@[simp] theorem State.putThread_mod (e : Env) (t : Thread) : (s.putThread e t).mod = s.mod := rfl
@[simp] theorem State.putThread_mem (e : Env) (t : Thread) : (s.putThread e t).mem = s.mem := rfl
@[simp] theorem State.putThread_xl (e : Env) (t : Thread) : (s.putThread e t).xl = s.xl := rfl
@[simp] theorem State.putThread_queues (e : Env) (t : Thread) : (s.putThread e t).queues = s.queues := rfl
@[simp] theorem State.putThread_grids (e : Env) (t : Thread) : (s.putThread e t).grids = s.grids := rfl
@[simp] theorem State.putThread_teams (e : Env) (t : Thread) : (s.putThread e t).teams = s.teams := rfl
@[simp] theorem State.putThread_groups (e : Env) (t : Thread) : (s.putThread e t).groups = s.groups := rfl
@[simp] theorem State.putThread_threads (e : Env) (t : Thread) : (s.putThread e t).threads = s.threads.put e.pl t := rfl
@[simp] theorem State.putThread_entries (e : Env) (t : Thread) : (s.putThread e t).entries = s.entries := rfl
@[simp] theorem State.putThread_scheds (e : Env) (t : Thread) : (s.putThread e t).scheds = s.scheds := rfl
@[simp] theorem State.putThread_issues (e : Env) (t : Thread) : (s.putThread e t).issues = s.issues := rfl
@[simp] theorem State.putThread_ops (e : Env) (t : Thread) : (s.putThread e t).ops = s.ops := rfl
@[simp] theorem State.putThread_cmds (e : Env) (t : Thread) : (s.putThread e t).cmds = s.cmds := rfl
@[simp] theorem State.putThread_proms (e : Env) (t : Thread) : (s.putThread e t).proms = s.proms := rfl
@[simp] theorem State.putThread_supRel (e : Env) (t : Thread) : (s.putThread e t).supRel = s.supRel := rfl
@[simp] theorem State.putThread_passes (e : Env) (t : Thread) : (s.putThread e t).passes = s.passes := rfl
@[simp] theorem State.putThread_recs (e : Env) (t : Thread) : (s.putThread e t).recs = s.recs := rfl
@[simp] theorem State.putThread_pushes (e : Env) (t : Thread) : (s.putThread e t).pushes = s.pushes := rfl
@[simp] theorem State.putThread_mail (e : Env) (t : Thread) : (s.putThread e t).mail = s.mail := rfl
@[simp] theorem State.putThread_posts (e : Env) (t : Thread) : (s.putThread e t).posts = s.posts := rfl
@[simp] theorem State.putThread_svflt (e : Env) (t : Thread) : (s.putThread e t).svflt = s.svflt := rfl
@[simp] theorem State.putThread_due (e : Env) (t : Thread) : (s.putThread e t).due = s.due := rfl
@[simp] theorem State.putThread_cur (e : Env) (t : Thread) : (s.putThread e t).cur = s.cur := rfl
@[simp] theorem State.putThread_tick (e : Env) (t : Thread) : (s.putThread e t).tick = s.tick := rfl
@[simp] theorem State.putThread_serial (e : Env) (t : Thread) : (s.putThread e t).serial = s.serial := rfl

/-! ### updTeam -/
@[simp] theorem State.updTeam_mod (k : Nat) (f : Team → Team) : (s.updTeam k f).mod = s.mod := rfl
@[simp] theorem State.updTeam_mem (k : Nat) (f : Team → Team) : (s.updTeam k f).mem = s.mem := rfl
@[simp] theorem State.updTeam_xl (k : Nat) (f : Team → Team) : (s.updTeam k f).xl = s.xl := rfl
@[simp] theorem State.updTeam_queues (k : Nat) (f : Team → Team) : (s.updTeam k f).queues = s.queues := rfl
@[simp] theorem State.updTeam_grids (k : Nat) (f : Team → Team) : (s.updTeam k f).grids = s.grids := rfl
@[simp] theorem State.updTeam_teams (k : Nat) (f : Team → Team) : (s.updTeam k f).teams = s.teams.upd k f := rfl
@[simp] theorem State.updTeam_groups (k : Nat) (f : Team → Team) : (s.updTeam k f).groups = s.groups := rfl
@[simp] theorem State.updTeam_threads (k : Nat) (f : Team → Team) : (s.updTeam k f).threads = s.threads := rfl
@[simp] theorem State.updTeam_entries (k : Nat) (f : Team → Team) : (s.updTeam k f).entries = s.entries := rfl
@[simp] theorem State.updTeam_scheds (k : Nat) (f : Team → Team) : (s.updTeam k f).scheds = s.scheds := rfl
@[simp] theorem State.updTeam_issues (k : Nat) (f : Team → Team) : (s.updTeam k f).issues = s.issues := rfl
@[simp] theorem State.updTeam_ops (k : Nat) (f : Team → Team) : (s.updTeam k f).ops = s.ops := rfl
@[simp] theorem State.updTeam_cmds (k : Nat) (f : Team → Team) : (s.updTeam k f).cmds = s.cmds := rfl
@[simp] theorem State.updTeam_proms (k : Nat) (f : Team → Team) : (s.updTeam k f).proms = s.proms := rfl
@[simp] theorem State.updTeam_supRel (k : Nat) (f : Team → Team) : (s.updTeam k f).supRel = s.supRel := rfl
@[simp] theorem State.updTeam_passes (k : Nat) (f : Team → Team) : (s.updTeam k f).passes = s.passes := rfl
@[simp] theorem State.updTeam_recs (k : Nat) (f : Team → Team) : (s.updTeam k f).recs = s.recs := rfl
@[simp] theorem State.updTeam_pushes (k : Nat) (f : Team → Team) : (s.updTeam k f).pushes = s.pushes := rfl
@[simp] theorem State.updTeam_mail (k : Nat) (f : Team → Team) : (s.updTeam k f).mail = s.mail := rfl
@[simp] theorem State.updTeam_posts (k : Nat) (f : Team → Team) : (s.updTeam k f).posts = s.posts := rfl
@[simp] theorem State.updTeam_svflt (k : Nat) (f : Team → Team) : (s.updTeam k f).svflt = s.svflt := rfl
@[simp] theorem State.updTeam_due (k : Nat) (f : Team → Team) : (s.updTeam k f).due = s.due := rfl
@[simp] theorem State.updTeam_cur (k : Nat) (f : Team → Team) : (s.updTeam k f).cur = s.cur := rfl
@[simp] theorem State.updTeam_tick (k : Nat) (f : Team → Team) : (s.updTeam k f).tick = s.tick := rfl
@[simp] theorem State.updTeam_serial (k : Nat) (f : Team → Team) : (s.updTeam k f).serial = s.serial := rfl

/-! ### updOp -/
@[simp] theorem State.updOp_mod (k : Nat) (f : Op → Op) : (s.updOp k f).mod = s.mod := rfl
@[simp] theorem State.updOp_mem (k : Nat) (f : Op → Op) : (s.updOp k f).mem = s.mem := rfl
@[simp] theorem State.updOp_xl (k : Nat) (f : Op → Op) : (s.updOp k f).xl = s.xl := rfl
@[simp] theorem State.updOp_queues (k : Nat) (f : Op → Op) : (s.updOp k f).queues = s.queues := rfl
@[simp] theorem State.updOp_grids (k : Nat) (f : Op → Op) : (s.updOp k f).grids = s.grids := rfl
@[simp] theorem State.updOp_teams (k : Nat) (f : Op → Op) : (s.updOp k f).teams = s.teams := rfl
@[simp] theorem State.updOp_groups (k : Nat) (f : Op → Op) : (s.updOp k f).groups = s.groups := rfl
@[simp] theorem State.updOp_threads (k : Nat) (f : Op → Op) : (s.updOp k f).threads = s.threads := rfl
@[simp] theorem State.updOp_entries (k : Nat) (f : Op → Op) : (s.updOp k f).entries = s.entries := rfl
@[simp] theorem State.updOp_scheds (k : Nat) (f : Op → Op) : (s.updOp k f).scheds = s.scheds := rfl
@[simp] theorem State.updOp_issues (k : Nat) (f : Op → Op) : (s.updOp k f).issues = s.issues := rfl
@[simp] theorem State.updOp_ops (k : Nat) (f : Op → Op) : (s.updOp k f).ops = s.ops.upd k f := rfl
@[simp] theorem State.updOp_cmds (k : Nat) (f : Op → Op) : (s.updOp k f).cmds = s.cmds := rfl
@[simp] theorem State.updOp_proms (k : Nat) (f : Op → Op) : (s.updOp k f).proms = s.proms := rfl
@[simp] theorem State.updOp_supRel (k : Nat) (f : Op → Op) : (s.updOp k f).supRel = s.supRel := rfl
@[simp] theorem State.updOp_passes (k : Nat) (f : Op → Op) : (s.updOp k f).passes = s.passes := rfl
@[simp] theorem State.updOp_recs (k : Nat) (f : Op → Op) : (s.updOp k f).recs = s.recs := rfl
@[simp] theorem State.updOp_pushes (k : Nat) (f : Op → Op) : (s.updOp k f).pushes = s.pushes := rfl
@[simp] theorem State.updOp_mail (k : Nat) (f : Op → Op) : (s.updOp k f).mail = s.mail := rfl
@[simp] theorem State.updOp_posts (k : Nat) (f : Op → Op) : (s.updOp k f).posts = s.posts := rfl
@[simp] theorem State.updOp_svflt (k : Nat) (f : Op → Op) : (s.updOp k f).svflt = s.svflt := rfl
@[simp] theorem State.updOp_due (k : Nat) (f : Op → Op) : (s.updOp k f).due = s.due := rfl
@[simp] theorem State.updOp_cur (k : Nat) (f : Op → Op) : (s.updOp k f).cur = s.cur := rfl
@[simp] theorem State.updOp_tick (k : Nat) (f : Op → Op) : (s.updOp k f).tick = s.tick := rfl
@[simp] theorem State.updOp_serial (k : Nat) (f : Op → Op) : (s.updOp k f).serial = s.serial := rfl

/-! ### setMod -/
@[simp] theorem State.setMod_mod (m : Mod) : (s.setMod m).mod = m := rfl
@[simp] theorem State.setMod_mem (m : Mod) : (s.setMod m).mem = s.mem := rfl
@[simp] theorem State.setMod_xl (m : Mod) : (s.setMod m).xl = s.xl := rfl
@[simp] theorem State.setMod_queues (m : Mod) : (s.setMod m).queues = s.queues := rfl
@[simp] theorem State.setMod_grids (m : Mod) : (s.setMod m).grids = s.grids := rfl
@[simp] theorem State.setMod_teams (m : Mod) : (s.setMod m).teams = s.teams := rfl
@[simp] theorem State.setMod_groups (m : Mod) : (s.setMod m).groups = s.groups := rfl
@[simp] theorem State.setMod_threads (m : Mod) : (s.setMod m).threads = s.threads := rfl
@[simp] theorem State.setMod_entries (m : Mod) : (s.setMod m).entries = s.entries := rfl
@[simp] theorem State.setMod_scheds (m : Mod) : (s.setMod m).scheds = s.scheds := rfl
@[simp] theorem State.setMod_issues (m : Mod) : (s.setMod m).issues = s.issues := rfl
@[simp] theorem State.setMod_ops (m : Mod) : (s.setMod m).ops = s.ops := rfl
@[simp] theorem State.setMod_cmds (m : Mod) : (s.setMod m).cmds = s.cmds := rfl
@[simp] theorem State.setMod_proms (m : Mod) : (s.setMod m).proms = s.proms := rfl
@[simp] theorem State.setMod_supRel (m : Mod) : (s.setMod m).supRel = s.supRel := rfl
@[simp] theorem State.setMod_passes (m : Mod) : (s.setMod m).passes = s.passes := rfl
@[simp] theorem State.setMod_recs (m : Mod) : (s.setMod m).recs = s.recs := rfl
@[simp] theorem State.setMod_pushes (m : Mod) : (s.setMod m).pushes = s.pushes := rfl
@[simp] theorem State.setMod_mail (m : Mod) : (s.setMod m).mail = s.mail := rfl
@[simp] theorem State.setMod_posts (m : Mod) : (s.setMod m).posts = s.posts := rfl
@[simp] theorem State.setMod_svflt (m : Mod) : (s.setMod m).svflt = s.svflt := rfl
@[simp] theorem State.setMod_due (m : Mod) : (s.setMod m).due = s.due := rfl
@[simp] theorem State.setMod_cur (m : Mod) : (s.setMod m).cur = s.cur := rfl
@[simp] theorem State.setMod_tick (m : Mod) : (s.setMod m).tick = s.tick := rfl
@[simp] theorem State.setMod_serial (m : Mod) : (s.setMod m).serial = s.serial := rfl

/-! ### setMem -/
@[simp] theorem State.setMem_mod (m : MemSys) : (s.setMem m).mod = s.mod := rfl
@[simp] theorem State.setMem_mem (m : MemSys) : (s.setMem m).mem = m := rfl
@[simp] theorem State.setMem_xl (m : MemSys) : (s.setMem m).xl = s.xl := rfl
@[simp] theorem State.setMem_queues (m : MemSys) : (s.setMem m).queues = s.queues := rfl
@[simp] theorem State.setMem_grids (m : MemSys) : (s.setMem m).grids = s.grids := rfl
@[simp] theorem State.setMem_teams (m : MemSys) : (s.setMem m).teams = s.teams := rfl
@[simp] theorem State.setMem_groups (m : MemSys) : (s.setMem m).groups = s.groups := rfl
@[simp] theorem State.setMem_threads (m : MemSys) : (s.setMem m).threads = s.threads := rfl
@[simp] theorem State.setMem_entries (m : MemSys) : (s.setMem m).entries = s.entries := rfl
@[simp] theorem State.setMem_scheds (m : MemSys) : (s.setMem m).scheds = s.scheds := rfl
@[simp] theorem State.setMem_issues (m : MemSys) : (s.setMem m).issues = s.issues := rfl
@[simp] theorem State.setMem_ops (m : MemSys) : (s.setMem m).ops = s.ops := rfl
@[simp] theorem State.setMem_cmds (m : MemSys) : (s.setMem m).cmds = s.cmds := rfl
@[simp] theorem State.setMem_proms (m : MemSys) : (s.setMem m).proms = s.proms := rfl
@[simp] theorem State.setMem_supRel (m : MemSys) : (s.setMem m).supRel = s.supRel := rfl
@[simp] theorem State.setMem_passes (m : MemSys) : (s.setMem m).passes = s.passes := rfl
@[simp] theorem State.setMem_recs (m : MemSys) : (s.setMem m).recs = s.recs := rfl
@[simp] theorem State.setMem_pushes (m : MemSys) : (s.setMem m).pushes = s.pushes := rfl
@[simp] theorem State.setMem_mail (m : MemSys) : (s.setMem m).mail = s.mail := rfl
@[simp] theorem State.setMem_posts (m : MemSys) : (s.setMem m).posts = s.posts := rfl
@[simp] theorem State.setMem_svflt (m : MemSys) : (s.setMem m).svflt = s.svflt := rfl
@[simp] theorem State.setMem_due (m : MemSys) : (s.setMem m).due = s.due := rfl
@[simp] theorem State.setMem_cur (m : MemSys) : (s.setMem m).cur = s.cur := rfl
@[simp] theorem State.setMem_tick (m : MemSys) : (s.setMem m).tick = s.tick := rfl
@[simp] theorem State.setMem_serial (m : MemSys) : (s.setMem m).serial = s.serial := rfl

/-! ### updSlot -/
@[simp] theorem State.updSlot_mod (g n : Nat) (f : Nat → Nat) : (s.updSlot g n f).mod = s.mod := rfl
@[simp] theorem State.updSlot_mem (g n : Nat) (f : Nat → Nat) : (s.updSlot g n f).mem = s.mem := rfl
@[simp] theorem State.updSlot_xl (g n : Nat) (f : Nat → Nat) : (s.updSlot g n f).xl = s.xl := rfl
@[simp] theorem State.updSlot_queues (g n : Nat) (f : Nat → Nat) : (s.updSlot g n f).queues = s.queues := rfl
@[simp] theorem State.updSlot_grids (g n : Nat) (f : Nat → Nat) : (s.updSlot g n f).grids = s.grids := rfl
@[simp] theorem State.updSlot_teams (g n : Nat) (f : Nat → Nat) : (s.updSlot g n f).teams = s.teams := rfl
@[simp] theorem State.updSlot_groups (g n : Nat) (f : Nat → Nat) : (s.updSlot g n f).groups = s.groups.upd g (fun x => { x with sb := x.sb.set n (f (x.sb.getD n 0)) }) := rfl
@[simp] theorem State.updSlot_threads (g n : Nat) (f : Nat → Nat) : (s.updSlot g n f).threads = s.threads := rfl
@[simp] theorem State.updSlot_entries (g n : Nat) (f : Nat → Nat) : (s.updSlot g n f).entries = s.entries := rfl
@[simp] theorem State.updSlot_scheds (g n : Nat) (f : Nat → Nat) : (s.updSlot g n f).scheds = s.scheds := rfl
@[simp] theorem State.updSlot_issues (g n : Nat) (f : Nat → Nat) : (s.updSlot g n f).issues = s.issues := rfl
@[simp] theorem State.updSlot_ops (g n : Nat) (f : Nat → Nat) : (s.updSlot g n f).ops = s.ops := rfl
@[simp] theorem State.updSlot_cmds (g n : Nat) (f : Nat → Nat) : (s.updSlot g n f).cmds = s.cmds := rfl
@[simp] theorem State.updSlot_proms (g n : Nat) (f : Nat → Nat) : (s.updSlot g n f).proms = s.proms := rfl
@[simp] theorem State.updSlot_supRel (g n : Nat) (f : Nat → Nat) : (s.updSlot g n f).supRel = s.supRel := rfl
@[simp] theorem State.updSlot_passes (g n : Nat) (f : Nat → Nat) : (s.updSlot g n f).passes = s.passes := rfl
@[simp] theorem State.updSlot_recs (g n : Nat) (f : Nat → Nat) : (s.updSlot g n f).recs = s.recs := rfl
@[simp] theorem State.updSlot_pushes (g n : Nat) (f : Nat → Nat) : (s.updSlot g n f).pushes = s.pushes := rfl
@[simp] theorem State.updSlot_mail (g n : Nat) (f : Nat → Nat) : (s.updSlot g n f).mail = s.mail := rfl
@[simp] theorem State.updSlot_posts (g n : Nat) (f : Nat → Nat) : (s.updSlot g n f).posts = s.posts := rfl
@[simp] theorem State.updSlot_svflt (g n : Nat) (f : Nat → Nat) : (s.updSlot g n f).svflt = s.svflt := rfl
@[simp] theorem State.updSlot_due (g n : Nat) (f : Nat → Nat) : (s.updSlot g n f).due = s.due := rfl
@[simp] theorem State.updSlot_cur (g n : Nat) (f : Nat → Nat) : (s.updSlot g n f).cur = s.cur := rfl
@[simp] theorem State.updSlot_tick (g n : Nat) (f : Nat → Nat) : (s.updSlot g n f).tick = s.tick := rfl
@[simp] theorem State.updSlot_serial (g n : Nat) (f : Nat → Nat) : (s.updSlot g n f).serial = s.serial := rfl

/-! ### stallIssue -/
@[simp] theorem State.stallIssue_mod : (s.stallIssue).mod = s.mod := rfl
@[simp] theorem State.stallIssue_mem : (s.stallIssue).mem = s.mem := rfl
@[simp] theorem State.stallIssue_xl : (s.stallIssue).xl = s.xl := rfl
@[simp] theorem State.stallIssue_queues : (s.stallIssue).queues = s.queues := rfl
@[simp] theorem State.stallIssue_grids : (s.stallIssue).grids = s.grids := rfl
@[simp] theorem State.stallIssue_teams : (s.stallIssue).teams = s.teams := rfl
@[simp] theorem State.stallIssue_groups : (s.stallIssue).groups = s.groups := rfl
@[simp] theorem State.stallIssue_threads : (s.stallIssue).threads = s.threads := rfl
@[simp] theorem State.stallIssue_entries : (s.stallIssue).entries = s.entries := rfl
@[simp] theorem State.stallIssue_scheds : (s.stallIssue).scheds = s.scheds := rfl
@[simp] theorem State.stallIssue_issues : (s.stallIssue).issues = s.issues.upd s.cur (fun x => { x with stall := true }) := rfl
@[simp] theorem State.stallIssue_ops : (s.stallIssue).ops = s.ops := rfl
@[simp] theorem State.stallIssue_cmds : (s.stallIssue).cmds = s.cmds := rfl
@[simp] theorem State.stallIssue_proms : (s.stallIssue).proms = s.proms := rfl
@[simp] theorem State.stallIssue_supRel : (s.stallIssue).supRel = s.supRel := rfl
@[simp] theorem State.stallIssue_passes : (s.stallIssue).passes = s.passes := rfl
@[simp] theorem State.stallIssue_recs : (s.stallIssue).recs = s.recs := rfl
@[simp] theorem State.stallIssue_pushes : (s.stallIssue).pushes = s.pushes := rfl
@[simp] theorem State.stallIssue_mail : (s.stallIssue).mail = s.mail := rfl
@[simp] theorem State.stallIssue_posts : (s.stallIssue).posts = s.posts := rfl
@[simp] theorem State.stallIssue_svflt : (s.stallIssue).svflt = s.svflt := rfl
@[simp] theorem State.stallIssue_due : (s.stallIssue).due = s.due := rfl
@[simp] theorem State.stallIssue_cur : (s.stallIssue).cur = s.cur := rfl
@[simp] theorem State.stallIssue_tick : (s.stallIssue).tick = s.tick := rfl
@[simp] theorem State.stallIssue_serial : (s.stallIssue).serial = s.serial := rfl

/-! ### serve -/
@[simp] theorem State.serve_mod (pl : Nat) : (s.serve pl).mod = s.mod := rfl
@[simp] theorem State.serve_mem (pl : Nat) : (s.serve pl).mem = s.mem := rfl
@[simp] theorem State.serve_xl (pl : Nat) : (s.serve pl).xl = s.xl := rfl
@[simp] theorem State.serve_queues (pl : Nat) : (s.serve pl).queues = s.queues := rfl
@[simp] theorem State.serve_grids (pl : Nat) : (s.serve pl).grids = s.grids := rfl
@[simp] theorem State.serve_teams (pl : Nat) : (s.serve pl).teams = s.teams := rfl
@[simp] theorem State.serve_groups (pl : Nat) : (s.serve pl).groups = s.groups := rfl
@[simp] theorem State.serve_threads (pl : Nat) : (s.serve pl).threads = s.threads := rfl
@[simp] theorem State.serve_entries (pl : Nat) : (s.serve pl).entries = s.entries := rfl
@[simp] theorem State.serve_scheds (pl : Nat) : (s.serve pl).scheds = s.scheds := rfl
@[simp] theorem State.serve_issues (pl : Nat) : (s.serve pl).issues = s.issues.upd s.cur (fun x => { x with served := pl :: x.served }) := rfl
@[simp] theorem State.serve_ops (pl : Nat) : (s.serve pl).ops = s.ops := rfl
@[simp] theorem State.serve_cmds (pl : Nat) : (s.serve pl).cmds = s.cmds := rfl
@[simp] theorem State.serve_proms (pl : Nat) : (s.serve pl).proms = s.proms := rfl
@[simp] theorem State.serve_supRel (pl : Nat) : (s.serve pl).supRel = s.supRel := rfl
@[simp] theorem State.serve_passes (pl : Nat) : (s.serve pl).passes = s.passes := rfl
@[simp] theorem State.serve_recs (pl : Nat) : (s.serve pl).recs = s.recs := rfl
@[simp] theorem State.serve_pushes (pl : Nat) : (s.serve pl).pushes = s.pushes := rfl
@[simp] theorem State.serve_mail (pl : Nat) : (s.serve pl).mail = s.mail := rfl
@[simp] theorem State.serve_posts (pl : Nat) : (s.serve pl).posts = s.posts := rfl
@[simp] theorem State.serve_svflt (pl : Nat) : (s.serve pl).svflt = s.svflt := rfl
@[simp] theorem State.serve_due (pl : Nat) : (s.serve pl).due = s.due := rfl
@[simp] theorem State.serve_cur (pl : Nat) : (s.serve pl).cur = s.cur := rfl
@[simp] theorem State.serve_tick (pl : Nat) : (s.serve pl).tick = s.tick := rfl
@[simp] theorem State.serve_serial (pl : Nat) : (s.serve pl).serial = s.serial := rfl

/-! ### leaveIssue -/
@[simp] theorem State.leaveIssue_mod (sched pl : Nat) : (s.leaveIssue sched pl).mod = s.mod := rfl
@[simp] theorem State.leaveIssue_mem (sched pl : Nat) : (s.leaveIssue sched pl).mem = s.mem := rfl
@[simp] theorem State.leaveIssue_xl (sched pl : Nat) : (s.leaveIssue sched pl).xl = s.xl := rfl
@[simp] theorem State.leaveIssue_queues (sched pl : Nat) : (s.leaveIssue sched pl).queues = s.queues := rfl
@[simp] theorem State.leaveIssue_grids (sched pl : Nat) : (s.leaveIssue sched pl).grids = s.grids := rfl
@[simp] theorem State.leaveIssue_teams (sched pl : Nat) : (s.leaveIssue sched pl).teams = s.teams := rfl
@[simp] theorem State.leaveIssue_groups (sched pl : Nat) : (s.leaveIssue sched pl).groups = s.groups := rfl
@[simp] theorem State.leaveIssue_threads (sched pl : Nat) : (s.leaveIssue sched pl).threads = s.threads := rfl
@[simp] theorem State.leaveIssue_entries (sched pl : Nat) : (s.leaveIssue sched pl).entries = s.entries := rfl
@[simp] theorem State.leaveIssue_scheds (sched pl : Nat) : (s.leaveIssue sched pl).scheds = s.scheds := rfl
@[simp] theorem State.leaveIssue_issues (sched pl : Nat) : (s.leaveIssue sched pl).issues = s.issues.upd sched (fun x => { x with lanes := x.lanes.filter (· != pl) }) := rfl
@[simp] theorem State.leaveIssue_ops (sched pl : Nat) : (s.leaveIssue sched pl).ops = s.ops := rfl
@[simp] theorem State.leaveIssue_cmds (sched pl : Nat) : (s.leaveIssue sched pl).cmds = s.cmds := rfl
@[simp] theorem State.leaveIssue_proms (sched pl : Nat) : (s.leaveIssue sched pl).proms = s.proms := rfl
@[simp] theorem State.leaveIssue_supRel (sched pl : Nat) : (s.leaveIssue sched pl).supRel = s.supRel := rfl
@[simp] theorem State.leaveIssue_passes (sched pl : Nat) : (s.leaveIssue sched pl).passes = s.passes := rfl
@[simp] theorem State.leaveIssue_recs (sched pl : Nat) : (s.leaveIssue sched pl).recs = s.recs := rfl
@[simp] theorem State.leaveIssue_pushes (sched pl : Nat) : (s.leaveIssue sched pl).pushes = s.pushes := rfl
@[simp] theorem State.leaveIssue_mail (sched pl : Nat) : (s.leaveIssue sched pl).mail = s.mail := rfl
@[simp] theorem State.leaveIssue_posts (sched pl : Nat) : (s.leaveIssue sched pl).posts = s.posts := rfl
@[simp] theorem State.leaveIssue_svflt (sched pl : Nat) : (s.leaveIssue sched pl).svflt = s.svflt := rfl
@[simp] theorem State.leaveIssue_due (sched pl : Nat) : (s.leaveIssue sched pl).due = s.due := rfl
@[simp] theorem State.leaveIssue_cur (sched pl : Nat) : (s.leaveIssue sched pl).cur = s.cur := rfl
@[simp] theorem State.leaveIssue_tick (sched pl : Nat) : (s.leaveIssue sched pl).tick = s.tick := rfl
@[simp] theorem State.leaveIssue_serial (sched pl : Nat) : (s.leaveIssue sched pl).serial = s.serial := rfl

/-! ### Threads by place -/

theorem State.thread_setThread (pl pl' : Nat) (t : Thread) :
    (s.setThread pl t).thread pl' = if pl' = pl then some t else s.thread pl' := Tab.get_put _ _ _ _

theorem State.thread_updThread (pl pl' : Nat) (f : Thread → Thread) :
    (s.updThread pl f).thread pl' = if pl' = pl then (s.thread pl').map f else s.thread pl' := Tab.get_upd _ _ _ _

theorem State.op_updOp (k k' : Nat) (f : Op → Op) :
    (s.updOp k f).op k' = if k' = k then (s.op k').map f else s.op k' := Tab.get_upd _ _ _ _

theorem State.team_updTeam (k k' : Nat) (f : Team → Team) :
    (s.updTeam k f).team k' = if k' = k then (s.team k').map f else s.team k' := Tab.get_upd _ _ _ _

/-- A free value comes from the count of draws, and nothing but the count changes (log 7). -/
theorem State.draw_eq : s.draw = ({ s with tick := s.tick + 1 }, Config.freeWord s.tick) := rfl

end Sys2Proof.Machine
end

