-- ==== Sys2Proof/Laws/Clocks.lean ====
section
/-! SUPPORT. What release clocks, acquires and the 1588 clock change (R227, R232, R241, R242, R260). -/

namespace Sys2Proof.Machine

/-! ### Clocks -/

@[simp] theorem WClock.join_t (a b : WClock) : (a.join b).t = max a.t b.t := rfl
@[simp] theorem WClock.join_win (a b : WClock) : (a.join b).win = laterWin a.win b.win := rfl
theorem WClock.mem_join {a b : WClock} {p : Nat × Nat} : p ∈ (a.join b).provs ↔ p ∈ a.provs ∨ p ∈ b.provs := by
  simp only [WClock.join, List.mem_append, List.mem_filter, Bool.not_eq_true', List.contains_eq_mem, decide_eq_false_iff_not]
  by_cases h : p ∈ a.provs <;> simp [h]
@[simp] theorem laterWin_none (a : Option Nat) : laterWin a none = a := by cases a <;> rfl
@[simp] theorem WClock.join_empty (a : WClock) : a.join {} = a := by cases a; simp [WClock.join]

/-- A clock without the revocation keeps what it holds. -/
theorem WClock.settle_of_not_mem {c : WClock} {rev : Nat} (g : Nat) (h : ∀ p ∈ c.provs, p.1 ≠ rev) : c.settle rev g = c := by
  unfold WClock.settle
  rw [if_neg]
  simpa using fun x hx => h (rev, x) hx rfl

/-! ### Threads: only the clocks rise -/

/-- A thread in all but its clocks. -/
def Thread.clocked (t u : Thread) : Prop := u = { t with rclk := u.rclk, provs := u.provs, pwin := u.pwin, seen := u.seen }

theorem Thread.clocked_refl (t : Thread) : t.clocked t := rfl
theorem Thread.clocked_trans {t u v : Thread} (h : t.clocked u) (k : u.clocked v) : t.clocked v := by
  unfold Thread.clocked at *
  rw [k, h]
theorem Thread.raise_clocked (t : Thread) (w : WClock) : t.clocked (t.raise w) := rfl
@[simp] theorem Thread.raise_rclk (t : Thread) (w : WClock) : (t.raise w).rclk = max t.rclk w.t := rfl
@[simp] theorem Thread.raise_pwin (t : Thread) (w : WClock) : (t.raise w).pwin = laterWin t.pwin w.win := rfl
@[simp] theorem Thread.raise_seen (t : Thread) (w : WClock) : (t.raise w).seen = t.seen := rfl
@[simp] theorem Thread.clk_raise (t : Thread) (w : WClock) : (t.raise w).clk = t.clk.join w := rfl

/-- What an acquire takes on: the clocks of the team, or of the supervisor group of the core, and from scope d on the module's window. -/
theorem Thread.acquire_spec (t : Thread) (s : State) (pl scope : Nat) :
    t.acquire s pl scope =
      (let w := if isSup pl then s.supRel.getD (placeCore pl) {} else (s.teams.getD t.team default).rel
       let u := if isSup pl = true ∨ (s.teams.get t.team).isSome = true then t.raise w else t
       { u with pwin := if 2 ≤ scope then laterWin u.pwin s.mod.relWin else u.pwin }) := by
  unfold Thread.acquire
  dsimp only
  cases isSup pl
  · cases h : s.teams.get t.team <;> simp only [Tab.getD, h, Option.getD] <;> by_cases hs : 2 ≤ scope <;> simp [hs] <;> rfl
  · by_cases hs : 2 ≤ scope <;> simp [hs] <;> rfl
theorem Thread.acquire_clocked (t : Thread) (s : State) (pl scope : Nat) : t.clocked (t.acquire s pl scope) := by
  rw [Thread.acquire_spec]
  unfold Thread.clocked
  dsimp only
  by_cases h : isSup pl = true ∨ (s.teams.get t.team).isSome = true
  · rw [if_pos h]; rfl
  · rw [if_neg h]
theorem Thread.sees_clocked (t : Thread) (acq : Option Nat) (c : WClock) : t.clocked (t.sees acq c) := by
  unfold Thread.sees
  cases acq with
  | none => rfl
  | some sc =>
    dsimp only
    split
    · exact t.raise_clocked c
    · exact t.clocked_refl
theorem Thread.fenced_clocked (t : Thread) (scope : Nat) : t.clocked (t.fenced scope) := by
  unfold Thread.fenced
  split <;> rfl

/-! ### Releases -/

/-- A completed release gives the thread's clocks to its team or to the supervisor group of its core, and from scope d on its window to the module. -/
theorem releaseClocks_spec {s : State} {th : Nat} {t : Thread} (scope : Nat) (h : s.threads.get th = some t) :
    let r := releaseClocks s th scope
    r = { s with teams := r.teams, supRel := r.supRel, mod := { s.mod with relWin := if 2 ≤ scope then laterWin s.mod.relWin t.pwin else s.mod.relWin } } ∧
      (isSup th = true → r.teams = s.teams ∧ r.supRel = s.supRel.put (placeCore th) ((s.supRel.getD (placeCore th) {}).join t.clk)) ∧
      (isSup th = false → r.supRel = s.supRel ∧ r.teams = (s.updTeam t.team (fun tm => { tm with rel := tm.rel.join t.clk })).teams) := by
  unfold releaseClocks
  rw [h]
  dsimp only
  cases isSup th <;> by_cases hs : 2 ≤ scope <;> simp [hs, State.setMod, State.updTeam]

/-! ### The entries, and bytes that a thread has read -/

@[simp] theorem unfile_threads (s : State) (pl : Nat) : (unfile s pl).threads = s.threads := rfl
@[simp] theorem unfile_teams (s : State) (pl : Nat) : (unfile s pl).teams = s.teams := rfl
@[simp] theorem unfile_mem (s : State) (pl : Nat) : (unfile s pl).mem = s.mem := rfl
/-- A thread that has been unfiled stands in no entry, and no entry is empty. -/
theorem mem_unfile {s : State} {pl : Nat} {x : Entry} (h : x ∈ (unfile s pl).entries) : pl ∉ x.members ∧ x.members ≠ [] := by
  simp only [unfile, List.mem_filter, List.mem_map, Bool.not_eq_true'] at h
  obtain ⟨⟨y, -, rfl⟩, hx⟩ := h
  exact ⟨by simp, List.isEmpty_eq_false_iff.mp hx⟩

@[simp] theorem seeBytes_mem (s : State) (th : Nat) (acq : Option Nat) (l : Loc) (bs : List Byte) : (seeBytes s th acq l bs).mem = s.mem := rfl
@[simp] theorem seeBytes_teams (s : State) (th : Nat) (acq : Option Nat) (l : Loc) (bs : List Byte) : (seeBytes s th acq l bs).teams = s.teams := rfl
@[simp] theorem seeBytes_ops (s : State) (th : Nat) (acq : Option Nat) (l : Loc) (bs : List Byte) : (seeBytes s th acq l bs).ops = s.ops := rfl

/-! ### The 1588 clock -/

/-- Copies are capped, and nothing else changes. -/
theorem capCopies_frame (s : State) (secs : List Nat) (granted at0 : Nat) :
    let r := capCopies s secs granted at0
    r = { s with mem := { s.mem with l1 := r.mem.l1, rdc := r.mem.rdc } } := rfl

/-- No copy is lost, and no lease grows longer. -/
theorem capCopies_l1 (s : State) (secs : List Nat) (granted at0 : Nat) :
    (capCopies s secs granted at0).mem.l1 = s.mem.l1.map (fun e =>
      (e.1, { e.2 with exp := if keySector e.1 ∈ secs ∧ e.2.granted ≤ granted then min e.2.exp at0 else e.2.exp })) := by
  simp only [capCopies, State.setMem]
  refine List.map_congr_left fun e _ => ?_
  by_cases h : keySector e.1 ∈ secs ∧ e.2.granted ≤ granted
  · simp [h]
  · rw [if_neg (by simpa using h), if_neg h]
theorem capCopies_rdc (s : State) (secs : List Nat) (granted at0 : Nat) :
    (capCopies s secs granted at0).mem.rdc = s.mem.rdc.map (fun e =>
      (e.1, { e.2 with exp := if keySector e.1 ∈ secs ∧ e.2.granted ≤ granted then min e.2.exp at0 else e.2.exp })) := by
  simp only [capCopies, State.setMem]
  refine List.map_congr_left fun e _ => ?_
  by_cases h : keySector e.1 ∈ secs ∧ e.2.granted ≤ granted
  · simp [h]
  · rw [if_neg (by simpa using h), if_neg h]

/-- The clock is set, copies are capped, and nothing else changes. -/
theorem setClock_frame (s : State) (offset : Int) (m : Mod) :
    let r := setClock s offset m
    r = { s with mod := { m with ptp := offset }, mem := { s.mem with l1 := r.mem.l1, rdc := r.mem.rdc } } := by
  have key : ∀ (l : List PeerCap) (u : State),
      let r := l.foldl (fun s c => capCopies s [c.sector] c.at0 (windowEnd s.mod c.at0 c.ahead)) u
      r = { u with mem := { u.mem with l1 := r.mem.l1, rdc := r.mem.rdc } } := by
    intro l
    induction l with
    | nil => intro u; rfl
    | cons c r ih =>
      intro u
      have := ih (capCopies u [c.sector] c.at0 (windowEnd u.mod c.at0 c.ahead))
      dsimp only at this ⊢
      rw [List.foldl_cons, this]
      rfl
  have := key m.peerCaps (s.setMod { m with ptp := offset })
  dsimp only at this ⊢
  unfold setClock
  rw [this]
  rfl

end Sys2Proof.Machine
end

