-- ==== Sys2Proof/Laws/Lanes.lean ====
section
/-! SUPPORT. What running an instruction over the lanes of an issue group does: once for an instruction whose lanes touch only
their own thread, and once for a property that every lane keeps. -/

namespace Sys2Proof.Machine

/-! ### The gate sees only the thread and what no lane-local instruction changes -/

@[simp] theorem envOf_pl (s : State) (pl : Nat) (t : Thread) : (envOf s pl t).pl = pl := by
  unfold envOf; dsimp only; split <;> rfl

@[simp] theorem envOf_threads (s : State) (th : Tab Thread) (pl : Nat) (t : Thread) :
    envOf { s with threads := th } pl t = envOf s pl t := rfl

@[simp] theorem gate_threads (s : State) (th : Tab Thread) (i : Instr) (f : Info) (e : Env) (t : Thread) :
    gate { s with threads := th } i f e t = gate s i f e t := rfl

/-! ### Lane-local instructions -/

/-- What a lane-local instruction leaves at a place of its lanes. -/
def laneResult (s : State) (i : Instr) (f : Info) (g : Env → Thread → Thread) (pl : Nat) (t : Thread) : Thread :=
  if gate s i f (envOf s pl t) t = .run then g (envOf s pl t) t else t

/-- Lanes that touch only their own thread, none of which traps: each thread of the lanes that passes the gate is changed by
`g`, everything else stays. -/
theorem lanesLoop_local (i : Instr) (f : Info) (act : State → Env → Thread → Res) (g : Env → Thread → Thread) (s : State)
    (lanes : List Nat) (hn : lanes.Nodup) (th : Tab Thread) (hth : ∀ pl ∈ lanes, th.get pl = s.threads.get pl)
    (hact : ∀ pl ∈ lanes, ∀ t, s.threads.get pl = some t → gate s i f (envOf s pl t) t = .run → ∀ th : Tab Thread,
      act { s with threads := th } (envOf s pl t) t = .ok { s with threads := th.put pl (g (envOf s pl t) t) })
    (hg : ∀ pl ∈ lanes, ∀ t, s.threads.get pl = some t → ∀ tr, gate s i f (envOf s pl t) t ≠ .trap tr) :
    ∃ th', lanesLoop i f act lanes { s with threads := th } = { s with threads := th' } ∧
      ∀ pl, th'.get pl = if pl ∈ lanes then (s.threads.get pl).map (laneResult s i f g pl) else th.get pl := by
  induction lanes generalizing th with
  | nil => exact ⟨th, rfl, fun pl => by simp⟩
  | cons pl rest ih =>
    rw [List.nodup_cons] at hn
    have hrest : ∀ q ∈ rest, th.get q = s.threads.get q := fun q hq => hth q (List.mem_cons_of_mem _ hq)
    have hgr : ∀ q ∈ rest, ∀ t, s.threads.get q = some t → ∀ tr, gate s i f (envOf s q t) t ≠ .trap tr :=
      fun q hq => hg q (List.mem_cons_of_mem _ hq)
    have hpl := hth pl List.mem_cons_self
    have step : ∀ th1 : Tab Thread, (∀ q ∈ rest, th1.get q = s.threads.get q) →
        (th1.get pl = (s.threads.get pl).map (laneResult s i f g pl)) →
        (∀ q, q ≠ pl → th1.get q = th.get q) →
        lanesLoop i f act (pl :: rest) { s with threads := th } = lanesLoop i f act rest { s with threads := th1 } →
        ∃ th', lanesLoop i f act (pl :: rest) { s with threads := th } = { s with threads := th' } ∧
          ∀ q, th'.get q = if q ∈ pl :: rest then (s.threads.get q).map (laneResult s i f g q) else th.get q := by
      intro th1 h1 h2 h3 h4
      obtain ⟨th', h5, h6⟩ := ih hn.2 th1 h1 (fun q hq => hact q (List.mem_cons_of_mem _ hq)) hgr
      refine ⟨th', h4.trans h5, fun q => ?_⟩
      rw [h6 q]
      by_cases hq : q ∈ rest
      · simp [hq]
      · by_cases hqp : q = pl
        · subst hqp; simp [hq, h2]
        · simp [hq, hqp, h3 q hqp]
    cases ht : s.threads.get pl with
    | none =>
      refine step th hrest ?_ (fun q _ => rfl) ?_
      · simp [hpl, ht]
      · simp only [lanesLoop, hpl, ht]
    | some t =>
      have hnt := hg pl List.mem_cons_self t ht
      cases hgt : gate s i f (envOf s pl t) t with
      | trap tr => exact absurd hgt (hnt tr)
      | skip =>
        refine step th hrest ?_ (fun q _ => rfl) ?_
        · simp [hpl, ht, laneResult, hgt]
        · simp only [lanesLoop, hpl, ht, envOf_threads, gate_threads, hgt]
      | run =>
        refine step (th.put pl (g (envOf s pl t) t)) ?_ ?_ ?_ ?_
        · intro q hq
          rw [Tab.get_put_ne _ _ (fun h => hn.1 (by rw [← h]; exact hq))]
          exact hrest q hq
        · simp [ht, laneResult, hgt]
        · intro q hq; simp [hq]
        · simp only [lanesLoop, hpl, ht, envOf_threads, gate_threads, hgt, hact pl List.mem_cons_self t ht hgt]

/-- An instruction whose lanes touch only their own thread, over an issue group none of whose threads traps. -/
theorem execLanes_local {i : Instr} {f : Info} {x : Issue} {act : State → Env → Thread → Res} (g : Env → Thread → Thread) {s : State}
    (hi : i.info = some f) (hx : s.issues.get s.cur = some x) (hh : s.holding x = false) (hs : x.served = []) (hn : x.lanes.Nodup)
    (hact : ∀ pl ∈ x.lanes, ∀ t, s.threads.get pl = some t → gate s i f (envOf s pl t) t = .run → ∀ th : Tab Thread,
      act { s with threads := th } (envOf s pl t) t = .ok { s with threads := th.put pl (g (envOf s pl t) t) })
    (hg : ∀ pl ∈ x.lanes, ∀ t, s.threads.get pl = some t → ∀ tr, gate s i f (envOf s pl t) t ≠ .trap tr) :
    ∃ th', execLanes i s act = { s with threads := th' } ∧
      ∀ pl, th'.get pl = if pl ∈ x.lanes then (s.threads.get pl).map (laneResult s i f g pl) else s.threads.get pl := by
  have hf : x.lanes.filter (fun pl => !x.served.contains pl) = x.lanes := by simp [hs]
  obtain ⟨th', h1, h2⟩ := lanesLoop_local i f act g s x.lanes hn s.threads (fun _ _ => rfl) hact hg
  refine ⟨th', ?_, h2⟩
  simp only [execLanes, hi, hx, hh, hf, Bool.false_eq_true, if_false]
  exact h1

/-! ### A relation that every lane keeps -/

/-- A reflexive and transitive relation that every lane's action, every trap and every stall keep holds across the lanes. -/
theorem lanesLoop_rel (i : Instr) (f : Info) (act : State → Env → Thread → Res) (R : State → State → Prop)
    (refl : ∀ s, R s s) (trans : ∀ a b c, R a b → R b c → R a c)
    (hok : ∀ s e t s', act s e t = .ok s' → R s s')
    (htr : ∀ s e t s' tr, act s e t = .trap s' tr → R s s')
    (hho : ∀ s e t s', act s e t = .hold s' → R s s')
    (htrap : ∀ s pl tr, R s (s.trapAt pl tr)) (hst : ∀ s : State, R s s.stallIssue) (hsv : ∀ (s : State) g pl, R s (s.serveBefore g pl)) (lanes : List Nat) (s : State) :
    R s (lanesLoop i f act lanes s) := by
  induction lanes generalizing s with
  | nil => exact refl s
  | cons pl rest ih =>
    unfold lanesLoop
    split
    · exact ih s
    · dsimp only
      split
      · exact ih s
      · exact trans _ _ _ (htrap _ _ _) (ih _)
      · split
        · exact trans _ _ _ (hok _ _ _ _ ‹_›) (ih _)
        · exact trans _ _ _ (htr _ _ _ _ _ ‹_›) (trans _ _ _ (htrap _ _ _) (ih _))
        · exact trans _ _ _ (hho _ _ _ _ ‹_›) (trans _ _ _ (hsv _ _ _) (hst _))

/-- As `lanesLoop_rel`, for the whole instruction. -/
theorem execLanes_rel (i : Instr) (act : State → Env → Thread → Res) (R : State → State → Prop)
    (refl : ∀ s, R s s) (trans : ∀ a b c, R a b → R b c → R a c)
    (hok : ∀ s e t s', act s e t = .ok s' → R s s')
    (htr : ∀ s e t s' tr, act s e t = .trap s' tr → R s s')
    (hho : ∀ s e t s', act s e t = .hold s' → R s s')
    (htrap : ∀ s pl tr, R s (s.trapAt pl tr)) (hst : ∀ s : State, R s s.stallIssue) (hsv : ∀ (s : State) g pl, R s (s.serveBefore g pl)) (s : State) :
    R s (execLanes i s act) := by
  unfold execLanes
  split
  · split
    · exact hst s
    · exact lanesLoop_rel i _ act R refl trans hok htr hho htrap hst hsv _ s
  · exact refl s

end Sys2Proof.Machine
end

