-- ==== Sys2Proof/Laws/Operands.lean ====
section
/-! SUPPORT. What reading and writing register codes does (R40, R41, R97), for every code and width. -/

namespace Sys2Proof.Machine

theorem rd_lt (e : Env) (t : Thread) (c : Nat) : (rd e t c).1 < 2 ^ 32 := by
  unfold rd
  split
  · exact BitVec.isLt _
  · split
    · exact BitVec.isLt _
    · exact Nat.mod_lt _ (by norm_num)

@[simp] theorem rd_none (e : Env) (t : Thread) : rd e t 120 = (0, .clean) := by simp [rd]

@[simp] theorem Pois.or_clean (p : Pois) : p.or .clean = p := by cases p <;> rfl
@[simp] theorem Pois.clean_or (p : Pois) : Pois.clean.or p = p := rfl
theorem Pois.isBad_or (p q : Pois) : (p.or q).isBad = (p.isBad || q.isBad) := by cases p <;> cases q <;> rfl

theorem rdN_one (e : Env) (t : Thread) (c : Nat) : rdN e t c 1 = rd e t c := by
  unfold rdN
  by_cases h : c = 120
  · subst h; simp
  · simp [h, rdN]

theorem rdN_lt (e : Env) (t : Thread) (c n : Nat) : (rdN e t c n).1 < 2 ^ (32 * n) := by
  induction n generalizing c with
  | zero => simp [rdN]
  | succ n ih =>
    rw [rdN]
    split
    · positivity
    · have h1 := rd_lt e t c
      have h2 := ih (c + 1)
      have h3 : 2 ^ (32 * (n + 1)) = 2 ^ 32 * 2 ^ (32 * n) := by rw [← pow_add]; congr 1; ring
      simp only [h3]
      have : 2 ^ 32 * (rdN e t (c + 1) n).1 + 2 ^ 32 ≤ 2 ^ 32 * 2 ^ (32 * n) := by
        rw [← Nat.mul_succ]; exact Nat.mul_le_mul_left _ h2
      omega

/-- The poison of an operand is that of its registers. -/
theorem rdN_isBad (e : Env) (t : Thread) (c n : Nat) (h : c + n ≤ 120) :
    (rdN e t c n).2.isBad = (List.range n).any (fun i => (rd e t (c + i)).2.isBad) := by
  induction n generalizing c with
  | zero => simp [rdN, Pois.isBad]
  | succ n ih =>
    have hc : c ≠ 120 := by omega
    rw [rdN]
    simp only [beq_iff_eq, hc, if_false]
    rw [Pois.isBad_or, ih (c + 1) (by omega), List.range_succ_eq_map]
    simp [List.any_map, Function.comp_def, Nat.add_assoc, Nat.add_comm 1]

/-! ### What a write leaves of a thread -/

/-- A write changes nothing of a thread but its registers and temporaries. -/
theorem wr_frame (t : Thread) (c x : Nat) (q : Pois) : wr t c x q = { t with v := (wr t c x q).v, k := (wr t c x q).k } := by
  unfold wr; split
  · rfl
  · split <;> rfl

theorem wrN_frame (t : Thread) (c x : Nat) (q : Pois) (n : Nat) : wrN t c x q n = { t with v := (wrN t c x q n).v, k := (wrN t c x q n).k } := by
  induction n generalizing t c x with
  | zero => rfl
  | succ n ih =>
    rw [wrN]
    split
    · rfl
    · rw [ih, wr_frame t]

@[simp] theorem wrN_none (t : Thread) (x : Nat) (q : Pois) (n : Nat) : wrN t 120 x q n = t := by cases n <;> simp [wrN]
@[simp] theorem wrN_st (t : Thread) (c x : Nat) (q : Pois) (n : Nat) : (wrN t c x q n).st = t.st := by rw [wrN_frame]
@[simp] theorem wrN_pc (t : Thread) (c x : Nat) (q : Pois) (n : Nat) : (wrN t c x q n).pc = t.pc := by rw [wrN_frame]
@[simp] theorem wrN_team (t : Thread) (c x : Nat) (q : Pois) (n : Nat) : (wrN t c x q n).team = t.team := by rw [wrN_frame]
@[simp] theorem wrN_gid (t : Thread) (c x : Nat) (q : Pois) (n : Nat) : (wrN t c x q n).gid = t.gid := by rw [wrN_frame]
@[simp] theorem wrN_p (t : Thread) (c x : Nat) (q : Pois) (n : Nat) : (wrN t c x q n).p = t.p := by rw [wrN_frame]
@[simp] theorem wrN_ring (t : Thread) (c x : Nat) (q : Pois) (n : Nat) : (wrN t c x q n).ring = t.ring := by rw [wrN_frame]
@[simp] theorem wrN_rclk (t : Thread) (c x : Nat) (q : Pois) (n : Nat) : (wrN t c x q n).rclk = t.rclk := by rw [wrN_frame]

theorem wr_length_v (t : Thread) (c x : Nat) (q : Pois) : (wr t c x q).v.length = t.v.length := by
  unfold wr; split
  · simp
  · split <;> rfl
@[simp] theorem wrN_length_v (t : Thread) (c x : Nat) (q : Pois) (n : Nat) : (wrN t c x q n).v.length = t.v.length := by
  induction n generalizing t c x with
  | zero => rfl
  | succ n ih =>
    rw [wrN]
    split
    · rfl
    · rw [ih, wr_length_v]

/-! ### Two's complement -/

theorem toSigned_toNat {n : Nat} (a : BitVec n) (h : 0 < n) : toSigned n a.toNat = a.toInt := by
  have := a.isLt
  unfold toSigned
  rw [BitVec.toInt_eq_toNat_cond, Nat.mod_eq_of_lt this]
  have h2 : 2 ^ n = 2 * 2 ^ (n-1) := by rw [← Nat.pow_succ']; congr; omega
  split <;> split <;> first | rfl | omega

end Sys2Proof.Machine
end

