-- ==== Sys2Proof/Laws/Ops.lean ====
section
/-! SUPPORT. What the shared operations change: issuing and ending an operation, delivering a result, posting a record, and taking a
trap (R99, R100, R341 to R345). -/

namespace Sys2Proof.Machine

/-! ### Threads changed one by one -/

/-- Updates of threads that are listed once each. -/
theorem fold_updThread (l : List Nat) (f : Thread → Thread) (s : State) :
    ∃ th, l.foldl (fun s pl => s.updThread pl f) s = { s with threads := th } ∧
      (l.Nodup → ∀ pl, th.get pl = if pl ∈ l then (s.threads.get pl).map f else s.threads.get pl) := by
  induction l generalizing s with
  | nil => exact ⟨s.threads, rfl, fun _ pl => by simp⟩
  | cons a r ih =>
    obtain ⟨th, h1, h2⟩ := ih (s.updThread a f)
    refine ⟨th, by simpa [State.updThread] using h1, fun hn pl => ?_⟩
    rw [List.nodup_cons] at hn
    rw [h2 hn.2 pl]
    simp only [State.updThread, Tab.get_upd, List.mem_cons]
    by_cases hp : pl = a
    · subst hp; simp [hn.1]
    · simp [hp]

/-- Updates of slots change groups only. -/
theorem fold_updSlot (l : List Nat) (k : Nat) (f : Nat → Nat) (s : State) :
    ∃ gs, l.foldl (fun s g => s.updSlot g k f) s = { s with groups := gs } := by
  induction l generalizing s with
  | nil => exact ⟨s.groups, rfl⟩
  | cons a r ih =>
    obtain ⟨gs, h⟩ := ih (s.updSlot a k f)
    exact ⟨gs, by simpa [State.updSlot] using h⟩

/-! ### Operations (R99, R100) -/

/-- Issuing an operation: it stands in the table under the next number, its threads' destinations are pending, and beside slots
nothing else changes. -/
theorem addOp_spec (s : State) (o : Op) :
    ∃ gs th, s.addOp o = { s with ops := s.ops.put s.serial (o.atWord s), serial := s.serial + 1, groups := gs, threads := th } ∧
      (o.ths.Nodup → ∀ pl, th.get pl = if pl ∈ o.ths then (s.threads.get pl).map (fun t => t.addPend o.dst o.nd) else s.threads.get pl) := by
  unfold State.addOp
  dsimp only
  cases hs : o.slot with
  | none =>
    dsimp only
    obtain ⟨th, h1, h2⟩ := fold_updThread o.ths (fun t => t.addPend o.dst o.nd) { s with ops := s.ops.put s.serial (o.atWord s), serial := s.serial + 1 }
    exact ⟨s.groups, th, h1, h2⟩
  | some k =>
    dsimp only
    obtain ⟨gs, hg⟩ := fold_updSlot (o.grps.filter (fun g => !(s.ops.any (fun e => e.2.batch == o.batch && e.2.grps.contains g)))) k (· + 1)
      { s with ops := s.ops.put s.serial (o.atWord s), serial := s.serial + 1 }
    obtain ⟨th, h1, h2⟩ := fold_updThread o.ths (fun t => t.addPend o.dst o.nd)
      { s with ops := s.ops.put s.serial (o.atWord s), serial := s.serial + 1, groups := gs }
    rw [hg]
    exact ⟨gs, th, h1, h2⟩

/-- Ending an operation: it is gone, its threads' destinations are pending once less, and beside slots nothing else changes. -/
theorem endOp_spec {s : State} {k : Nat} {o : Op} (h : s.ops.get k = some o) :
    ∃ gs th, s.endOp k = { s with ops := s.ops.del k, groups := gs, threads := th } ∧
      (o.ths.Nodup → ∀ pl, th.get pl = if pl ∈ o.ths then (s.threads.get pl).map (fun t => t.subPend o.dst o.nd) else s.threads.get pl) := by
  unfold State.endOp
  rw [h]
  dsimp only
  cases hs : o.slot with
  | none =>
    dsimp only
    obtain ⟨th, h1, h2⟩ := fold_updThread o.ths (fun t => t.subPend o.dst o.nd) { s with ops := s.ops.del k }
    exact ⟨s.groups, th, h1, h2⟩
  | some n =>
    dsimp only
    obtain ⟨gs, hg⟩ := fold_updSlot (o.grps.filter (fun g => !((s.ops.del k).any (fun e => e.2.batch == o.batch && e.2.grps.contains g)))) n (· - 1)
      { s with ops := s.ops.del k }
    rw [hg]
    obtain ⟨th, h1, h2⟩ := fold_updThread o.ths (fun t => t.subPend o.dst o.nd) { s with ops := s.ops.del k, groups := gs }
    exact ⟨gs, th, h1, h2⟩

/-- Ending an operation that is not outstanding does nothing. -/
theorem endOp_none {s : State} {k : Nat} (h : s.ops.get k = none) : s.endOp k = s := by simp [State.endOp, h]

/-- Delivering a result changes the one thread, and only while it has not exited. -/
theorem deliver_spec (s : State) (pl dst n x : Nat) (q : Pois) :
    s.deliver pl dst n x q = { s with threads := s.threads.upd pl (fun t => if t.st == .exited then t else wrN t dst x q n) } := by
  simp only [State.deliver, State.updThread]

/-! ### Records (R342) -/

/-- Posting a record adds it under the next number and changes nothing else. -/
theorem post_spec (s : State) (p : Post) : s.post p = { s with posts := s.posts.put s.serial p, serial := s.serial + 1 } := rfl

@[simp] theorem Post.again_unit (p : Post) : p.again.unit = p.unit := rfl
@[simp] theorem Post.again_code (p : Post) : p.again.mrec.code = p.mrec.code := rfl

/-- Posting an event changes the posts and the next number only: one of the unit's records of that code waits. -/
theorem postEvent_spec (s : State) (core unit : Nat) (r : MRec) :
    ∃ ps n, s.postEvent core unit r = { s with posts := ps, serial := n } ∧ s.serial ≤ n ∧
      ∃ k p, ps.get k = some p ∧ p.unit = unit ∧ p.mrec.code = r.code := by
  unfold State.postEvent
  extract_lets free held
  clear_value held
  split
  · rename_i k p h
    have hm := List.find?_some h
    simp only [Bool.and_eq_true, beq_iff_eq] at hm
    exact ⟨s.posts.put k p.again, s.serial, rfl, le_refl _, k, p.again, Tab.get_put_self _ _ _, by simpa using hm.1, by simpa using hm.2⟩
  · exact ⟨_, s.serial + 1, rfl, Nat.le_succ _, s.serial, _, Tab.get_put_self _ _ _, rfl, rfl⟩

/-- The event of a faulting access (R344). -/
theorem postFault_spec (s : State) (core unit : Nat) (r : FRec) :
    ∃ ps n, s.postFault core unit r = { s with posts := ps, serial := n } ∧ s.serial ≤ n ∧
      ∃ k p, ps.get k = some p ∧ p.unit = unit ∧ p.mrec.code = r.cause := postEvent_spec s core unit _

/-! ### Traps (R341, R345) -/

/-- A user thread that takes a trap is suspended with it, and its record is posted under the next number. -/
theorem suspend_user {s : State} {pl : Nat} {t : Thread} (tr : Trap) (pos : Option (Nat × Nat)) (h : s.threads.get pl = some t)
    (hu : isSup pl = false) :
    ∃ r, s.suspend pl tr pos = { s with
        threads := s.threads.put pl { t with
          st := .susp, next := none, newWaits := if pos.isSome then t.newWaits else []
          susp := some { code := tr.code, detail := tr.detail, payload := tr.payload, pos := pos, fetch := tr.fetch, acc := tr.acc,
                         coll := tr.coll, waits := tr.waits } }
        posts := s.posts.put s.serial { core := placeCore pl, mrec := r, th := some pl }, serial := s.serial + 1 } ∧
      r.kind = 0 ∧ r.code = tr.code ∧ r.detail = tr.detail ∧ r.payload = tr.payload := by
  unfold State.suspend
  rw [h]
  simp only [hu, Bool.false_eq_true, if_false]
  exact ⟨_, rfl, rfl, rfl, rfl, rfl⟩

/-- A trap in the supervisor group stops it: memory, teams, operations and posts stay, and `SVFLT` holds the first trap's code. -/
theorem suspend_sup {s : State} {pl : Nat} {t : Thread} (tr : Trap) (pos : Option (Nat × Nat)) (h : s.threads.get pl = some t)
    (hu : isSup pl = true) : s.suspend pl tr pos = s.stopSup (placeCore pl) tr.code := by
  simp [State.suspend, h, hu]

theorem stopSup_svflt (s : State) (core code : Nat) :
    (s.stopSup core code).svflt.getD core 0 = if s.svflt.has core then s.svflt.getD core 0 else code := by
  unfold State.stopSup
  by_cases hs : s.svflt.has core
  · simp [hs]
  · simp [hs, Tab.getD]

/-- A thread that is not there takes no trap. -/
theorem suspend_none {s : State} {pl : Nat} (tr : Trap) (pos : Option (Nat × Nat)) (h : s.threads.get pl = none) : s.suspend pl tr pos = s := by
  simp [State.suspend, h]

@[simp] theorem suspend_mem (s : State) (pl : Nat) (tr : Trap) (pos : Option (Nat × Nat)) : (s.suspend pl tr pos).mem = s.mem := by
  unfold State.suspend; split
  · rfl
  · split <;> rfl
@[simp] theorem suspend_teams (s : State) (pl : Nat) (tr : Trap) (pos : Option (Nat × Nat)) : (s.suspend pl tr pos).teams = s.teams := by
  unfold State.suspend; split
  · rfl
  · split <;> rfl
@[simp] theorem suspend_ops (s : State) (pl : Nat) (tr : Trap) (pos : Option (Nat × Nat)) : (s.suspend pl tr pos).ops = s.ops := by
  unfold State.suspend; split
  · rfl
  · split <;> rfl
@[simp] theorem trapAt_mem (s : State) (pl : Nat) (tr : Trap) : (s.trapAt pl tr).mem = s.mem := by
  unfold State.trapAt; split <;> simp
@[simp] theorem trapAt_teams (s : State) (pl : Nat) (tr : Trap) : (s.trapAt pl tr).teams = s.teams := by
  unfold State.trapAt; split <;> simp
@[simp] theorem trapAt_ops (s : State) (pl : Nat) (tr : Trap) : (s.trapAt pl tr).ops = s.ops := by
  unfold State.trapAt; split <;> simp

/-! ### Fault records (R339) -/

/-- A new record stands in the ring under the tag that is returned. -/
theorem newRec_recOf (t : Thread) (r : FRec) (lost : Bool) (h : t.ring.length = 4) (hn : t.ringNext < 4) :
    (t.newRec r lost).1.recOf (t.newRec r lost).2 = (r, lost) := by
  have h4 : (BitVec.ofNat 2 t.ringNext).toNat = t.ringNext := by simp only [BitVec.toNat_ofNat]; omega
  simp only [Thread.newRec, Thread.recOf, h4]
  rw [List.getD_eq_getElem?_getD, List.getElem?_set_self (by omega)]
  simp

/-- It changes poison, the ring and its next place only. -/
theorem newRec_frame (t : Thread) (r : FRec) (lost : Bool) :
    (t.newRec r lost).1 = { t with
      v := (t.newRec r lost).1.v, k := (t.newRec r lost).1.k, p := (t.newRec r lost).1.p, ring := (t.newRec r lost).1.ring
      ringNext := (t.ringNext + 1) % 4 } := rfl

end Sys2Proof.Machine
end

