-- ==== Sys2Proof/Laws/Issue.lean ====
section
/-! SUPPORT. From what an instruction does on one lane to what it does for its issue group: once for instructions that touch only their
own threads, once for those that issue an operation for each thread (R99, R100). -/

namespace Sys2Proof.Machine

open Sys2Proof.Spec

/-- An instruction whose lanes each change their own thread by `g`. -/
theorem laneOp_of {i : Instr} {ok : State → Env → Thread → Prop} {g : State → Env → Thread → Thread} (act : State → State → Env → Thread → Res)
    (hexec : ∀ s, exec i s = .next (execLanes i s (act s)))
    (hact : ∀ (s : State) (f : Info) (pl : Nat) (t : Thread) (th : Tab Thread), i.info = some f → gate s i f (envOf s pl t) t = .run →
      ok s (envOf s pl t) t →
      act s { s with threads := th } (envOf s pl t) t = .ok { s with threads := th.put pl (g s (envOf s pl t) t) }) :
    LaneOp i ok g := by
  intro s f x ha hn hok
  obtain ⟨th', h1, h2⟩ := execLanes_local (act := act s) (g s) ha.info ha.issue ha.free ha.fresh ha.nodup
    (fun pl hpl t ht hg th => hact s f pl t th ha.info hg (hok pl t ⟨hpl, ht, hg⟩)) hn
  refine ⟨{ s with threads := th' }, by rw [hexec, h1], rfl, ?_, ?_⟩
  · rintro pl t ⟨hpl, ht, hg⟩
    show th'.get pl = _
    simp [h2 pl, hpl, ht, laneResult, hg]
  · intro pl hnr
    show th'.get pl = _
    rw [h2 pl]
    by_cases hpl : pl ∈ x.lanes
    · simp only [hpl, if_true]
      cases ht : s.threads.get pl with
      | none => rfl
      | some t =>
        have : gate s i f (envOf s pl t) t ≠ .run := fun hg => hnr t ⟨hpl, ht, hg⟩
        simp [laneResult, this]
    · simp [hpl]

/-! ### Operands as bit vectors -/

theorem srcW_toNat (e : Env) (t : Thread) (c : BitVec 7) : (srcW e t c).toNat = (rd e t c.toNat).1 := by
  simp only [srcW, BitVec.toNat_ofNat]; exact Nat.mod_eq_of_lt (rd_lt _ _ _)
theorem srcD_toNat (e : Env) (t : Thread) (c : BitVec 7) : (srcD e t c).toNat = (rdN e t c.toNat 2).1 := by
  simp only [srcD, BitVec.toNat_ofNat]; exact Nat.mod_eq_of_lt (rdN_lt _ _ _ 2)
theorem rd_eq (e : Env) (t : Thread) (c : BitVec 7) : rd e t c.toNat = ((srcW e t c).toNat, srcP e t c) := by rw [srcW_toNat]; rfl
theorem rdN1_eq (e : Env) (t : Thread) (c : BitVec 7) : rdN e t c.toNat 1 = ((srcW e t c).toNat, srcP e t c) := by rw [rdN_one, rd_eq]
theorem rdN2_eq (e : Env) (t : Thread) (c : BitVec 7) : rdN e t c.toNat 2 = ((srcD e t c).toNat, srcDP e t c) := by rw [srcD_toNat]; rfl

/-! ### Tables of operations -/

theorem Tab.mem_put {α : Type} {t : Tab α} {k : Nat} {v : α} {e : Nat × α} (h : e ∈ t.put k v) : e = (k, v) ∨ e ∈ t := by
  induction t with
  | nil => simpa [Tab.put] using h
  | cons a r ih =>
    obtain ⟨j, x⟩ := a
    unfold Tab.put at h
    split at h
    · simp only [List.mem_cons] at h ⊢; tauto
    · split at h
      · simp only [List.mem_cons] at h ⊢; tauto
      · simp only [List.mem_cons] at h ⊢
        rcases h with h | h
        · tauto
        · rcases ih h with h | h <;> tauto

theorem Tab.get_of_rising {α : Type} {t : Tab α} {k : Nat} (h : ∀ e ∈ t, e.1 < k) : t.get k = none := by
  induction t with
  | nil => rfl
  | cons a r ih =>
    have h1 := h a List.mem_cons_self
    have h2 : (a.1 == k) = false := by simp; omega
    obtain ⟨j, x⟩ := a
    simp only [Tab.get_cons]
    rw [if_neg (by simpa using h2)]
    exact ih (fun e he => h e (List.mem_cons_of_mem _ he))

/-! ### Instructions that issue an operation for each thread -/

/-- What holds while an instruction has been issued to some of the threads, `done`, of its issue group. -/
structure Issuing (i : Instr) (f : Info) (slot : Nat) (g : State → Env → Thread → Thread) (o : State → Env → Thread → Op → Prop)
    (s s1 : State) (done : List Nat) : Prop where
  rest : s1 = { s with threads := s1.threads, ops := s1.ops, groups := s1.groups, serial := s1.serial }
  grows : s.serial ≤ s1.serial
  made : ∀ pl ∈ done, ∀ t, s.threads.get pl = some t → gate s i f (envOf s pl t) t = .run →
    ∃ k y, s.serial ≤ k ∧ k < s1.serial ∧ s1.ops.get k = some y ∧ o s (envOf s pl t) t y ∧ y.th = pl ∧ y.slot = some slot ∧
      y.batch = s.batch ∧ y.grps = [placeGroup pl] ∧ s1.threads.get pl = some ((g s (envOf s pl t) t).addPend y.dst y.nd)
  others : ∀ pl, (pl ∉ done ∨ ∀ t, s.threads.get pl = some t → gate s i f (envOf s pl t) t ≠ .run) → s1.threads.get pl = s.threads.get pl
  earlier : ∀ k, k < s.serial → s1.ops.get k = s.ops.get k
  later : ∀ e ∈ s1.ops, e ∈ s.ops ∨ (s.serial ≤ e.1 ∧ e.1 < s1.serial ∧ e.2.batch = s.batch ∧ e.2.grps = [placeGroup e.2.th] ∧
    e.2.th ∈ done ∧ ∃ t, s.threads.get e.2.th = some t ∧ gate s i f (envOf s e.2.th t) t = .run)
  groups : ∀ gr z, s.groups.get gr = some z →
    ((∃ pl ∈ done, ∃ t, s.threads.get pl = some t ∧ gate s i f (envOf s pl t) t = .run ∧ placeGroup pl = gr) →
      s1.groups.get gr = some { z with sb := z.sb.set slot (z.sb.getD slot 0 + 1) }) ∧
    ((∀ pl ∈ done, ∀ t, s.threads.get pl = some t → gate s i f (envOf s pl t) t = .run → placeGroup pl ≠ gr) → s1.groups.get gr = some z)

/-- Before the first thread. -/
theorem Issuing.start {i : Instr} {f : Info} {slot : Nat} {g : State → Env → Thread → Thread} {o : State → Env → Thread → Op → Prop}
    {s : State} : Issuing i f slot g o s s [] where
  rest := rfl
  grows := le_refl _
  made := by simp
  others := fun _ _ => rfl
  earlier := fun _ _ => rfl
  later := fun e he => Or.inl he
  groups := fun gr z hz => ⟨by simp, fun _ => hz⟩

/-- A thread that does not execute the instruction changes nothing. -/
theorem Issuing.skip {i : Instr} {f : Info} {slot : Nat} {g : State → Env → Thread → Thread} {o : State → Env → Thread → Op → Prop}
    {s s1 : State} {done : List Nat} (h : Issuing i f slot g o s s1 done) (pl : Nat)
    (hr : ∀ t, s.threads.get pl = some t → gate s i f (envOf s pl t) t ≠ .run) : Issuing i f slot g o s s1 (pl :: done) where
  rest := h.rest
  grows := h.grows
  made := by
    intro q hq t ht hg
    rcases List.mem_cons.mp hq with rfl | hq
    · exact absurd hg (hr t ht)
    · exact h.made q hq t ht hg
  others := by
    intro q hq
    refine h.others q ?_
    rcases hq with hq | hq
    · exact Or.inl (fun hd => hq (List.mem_cons_of_mem _ hd))
    · exact Or.inr hq
  earlier := h.earlier
  later := by
    intro e he
    rcases h.later e he with h1 | ⟨a, b, c, d, e1, e2⟩
    · exact Or.inl h1
    · exact Or.inr ⟨a, b, c, d, List.mem_cons_of_mem _ e1, e2⟩
  groups := by
    intro gr z hz
    obtain ⟨h1, h2⟩ := h.groups gr z hz
    refine ⟨?_, fun hn => h2 (fun q hq => hn q (List.mem_cons_of_mem _ hq))⟩
    rintro ⟨q, hq, t, ht, hg, hp⟩
    rcases List.mem_cons.mp hq with rfl | hq
    · exact absurd hg (hr t ht)
    · exact h1 ⟨q, hq, t, ht, hg, hp⟩

open Classical in
/-- A thread that executes the instruction issues one operation more. -/
theorem Issuing.step {i : Instr} {f : Info} {slot : Nat} {g : State → Env → Thread → Thread} {o : State → Env → Thread → Op → Prop}
    {s s1 : State} {done : List Nat} (h : Issuing i f slot g o s s1 done) (fresh : FreshOps s) {pl : Nat} (hd : pl ∉ done) {t : Thread}
    (ht : s.threads.get pl = some t) (hg : gate s i f (envOf s pl t) t = .run) {y : Op} {th : Tab Thread}
    (hth : th.get pl = some (g s (envOf s pl t) t)) (hoth : ∀ q, q ≠ pl → th.get q = s1.threads.get q)
    (ho : o s (envOf s pl t) t (y.atWord s)) (hy : y.th = pl) (hs : y.slot = some slot) (hb : y.batch = s.batch) (hgr : y.grps = [placeGroup pl])
    (hths : y.ths = [pl] ∨ (y.ths = [] ∧ 112 ≤ y.dst)) :
    Issuing i f slot g o s ({ s1 with threads := th }.addOp y) (pl :: done) := by
  have hops : ∀ e ∈ s1.ops, e.1 < s1.serial := by
    intro e he
    rcases h.later e he with h1 | ⟨_, h2, _⟩
    · exact lt_of_lt_of_le (fresh e h1).1 h.grows
    · exact h2
  -- whether an earlier thread of the same group has been counted
  have hany : (s1.ops.any (fun e => e.2.batch == y.batch && e.2.grps.contains (placeGroup pl))) = true ↔
      ∃ q ∈ done, ∃ u, s.threads.get q = some u ∧ gate s i f (envOf s q u) u = .run ∧ placeGroup q = placeGroup pl := by
    rw [List.any_eq_true]
    constructor
    · rintro ⟨e, he, hc⟩
      simp only [Bool.and_eq_true, beq_iff_eq, List.contains_iff_mem] at hc
      rcases h.later e he with h1 | ⟨_, _, _, h4, h5, u, h6, h7⟩
      · exact absurd (hc.1.trans hb) (fresh e h1).2
      · rw [h4, List.mem_singleton] at hc
        exact ⟨e.2.th, h5, u, h6, h7, hc.2.symm⟩
    · rintro ⟨q, hq, u, hu, hgu, hpq⟩
      obtain ⟨k, z, _, _, hz, _, _, _, hzb, hzg, _⟩ := h.made q hq u hu hgu
      refine ⟨(k, z), Tab.mem_of_get hz, ?_⟩
      simp [hzb, hb, hzg, hpq]
  obtain ⟨gs, th', he, hpend⟩ : ∃ gs th', ({ s1 with threads := th }.addOp y) =
      { s1 with ops := s1.ops.put s1.serial (y.atWord s), serial := s1.serial + 1, groups := gs, threads := th' } ∧
      (th'.get pl = some ((g s (envOf s pl t) t).addPend y.dst y.nd)) ∧ (∀ q, q ≠ pl → th'.get q = s1.threads.get q) ∧
      gs = (if (∃ q ∈ done, ∃ u, s.threads.get q = some u ∧ gate s i f (envOf s q u) u = .run ∧ placeGroup q = placeGroup pl) then s1.groups
        else s1.groups.upd (placeGroup pl) (fun z => { z with sb := z.sb.set slot (z.sb.getD slot 0 + 1) })) := by
    have hw : y.atWord { s1 with threads := th } = y.atWord s := by unfold Op.atWord; rw [h.rest]
    unfold State.addOp
    rw [hw]
    simp only [hs, hgr, List.filter_cons, List.filter_nil]
    have key : ∀ s3 : State, s3.threads = th → ∃ th', y.ths.foldl (fun s pl => s.updThread pl (fun t => t.addPend y.dst y.nd)) s3 = { s3 with threads := th' } ∧
        (th'.get pl = some ((g s (envOf s pl t) t).addPend y.dst y.nd)) ∧ (∀ q, q ≠ pl → th'.get q = s1.threads.get q) := by
      intro s3 h3
      rcases hths with h1 | ⟨h1, h2⟩
      · rw [h1]
        refine ⟨s3.threads.upd pl (fun t => t.addPend y.dst y.nd), rfl, ?_, ?_⟩
        · rw [Tab.get_upd_self, h3, hth]; rfl
        · intro q hq; rw [Tab.get_upd_ne _ _ hq, h3, hoth q hq]
      · rw [h1]
        refine ⟨s3.threads, rfl, ?_, ?_⟩
        · rw [h3, hth, Thread.addPend, if_neg (by omega)]
        · intro q hq; rw [h3, hoth q hq]
    by_cases hc : (s1.ops.any (fun e => e.2.batch == y.batch && e.2.grps.contains (placeGroup pl))) = true
    · rw [if_pos (hany.mp hc)]
      simp only [hc, Bool.not_true, Bool.false_eq_true, if_false, List.foldl_nil]
      obtain ⟨th', h1, h2, h3⟩ := key { s1 with threads := th, ops := s1.ops.put s1.serial (y.atWord s), serial := s1.serial + 1 } rfl
      exact ⟨s1.groups, th', h1, h2, h3, rfl⟩
    · rw [if_neg (fun hn => hc (hany.mpr hn))]
      simp only [hc, Bool.not_false, if_true, List.foldl_cons, List.foldl_nil, State.updSlot]
      obtain ⟨th', h1, h2, h3⟩ := key { s1 with threads := th, ops := s1.ops.put s1.serial (y.atWord s), serial := s1.serial + 1,
                                                 groups := s1.groups.upd (placeGroup pl) (fun z => { z with sb := z.sb.set slot (z.sb.getD slot 0 + 1) }) } rfl
      exact ⟨_, th', h1, h2, h3, rfl⟩
  obtain ⟨hp1, hp2, hgs⟩ := hpend
  rw [he]
  have hr := h.rest
  refine ⟨?_, ?_, ?_, ?_, ?_, ?_, ?_⟩
  · rw [hr]
  · exact Nat.le_succ_of_le h.grows
  · intro q hq u hu hgu
    show ∃ k z, s.serial ≤ k ∧ k < s1.serial + 1 ∧ (s1.ops.put s1.serial (y.atWord s)).get k = some z ∧ _
    rcases List.mem_cons.mp hq with rfl | hq
    · rw [ht] at hu; obtain rfl := Option.some.inj hu
      exact ⟨s1.serial, y.atWord s, h.grows, Nat.lt_succ_self _, Tab.get_put_self _ _ _, ho, hy, hs, hb, hgr, hp1⟩
    · obtain ⟨k, z, h1, h2, h3, h4, h5, h6, h7, h8, h9⟩ := h.made q hq u hu hgu
      refine ⟨k, z, h1, by omega, ?_, h4, h5, h6, h7, h8, ?_⟩
      · rw [Tab.get_put_ne _ _ (by omega)]; exact h3
      · show th'.get q = _
        rw [hp2 q (fun hqp => hd (hqp ▸ hq))]; exact h9
  · intro q hq
    show th'.get q = s.threads.get q
    by_cases hqp : q = pl
    · subst hqp
      rcases hq with hq | hq
      · exact absurd List.mem_cons_self hq
      · exact absurd hg (hq t ht)
    · rw [hp2 q hqp]
      refine h.others q ?_
      rcases hq with hq | hq
      · exact Or.inl (fun hdq => hq (List.mem_cons_of_mem _ hdq))
      · exact Or.inr hq
  · intro k hk
    show (s1.ops.put s1.serial (y.atWord s)).get k = _
    rw [Tab.get_put_ne _ _ (by have := h.grows; omega)]
    exact h.earlier k hk
  · intro e hmem
    rcases Tab.mem_put hmem with rfl | h1
    · refine Or.inr ⟨h.grows, Nat.lt_succ_self _, hb, (show y.grps = [placeGroup y.th] by rw [hgr, hy]), ?_, ?_⟩
      · show y.th ∈ _; rw [hy]; exact List.mem_cons_self
      · show ∃ t, s.threads.get y.th = some t ∧ gate s i f (envOf s y.th t) t = .run
        rw [hy]; exact ⟨t, ht, hg⟩
    · rcases h.later e h1 with h2 | ⟨a, b, c, d, e1, e2⟩
      · exact Or.inl h2
      · exact Or.inr ⟨a, by show e.1 < s1.serial + 1; omega, c, d, List.mem_cons_of_mem _ e1, e2⟩
  · intro gr z hz
    obtain ⟨h1, h2⟩ := h.groups gr z hz
    show (_ → gs.get gr = _) ∧ (_ → gs.get gr = _)
    rw [hgs]
    by_cases hgp : gr = placeGroup pl
    · subst hgp
      refine ⟨fun _ => ?_, fun hn => absurd rfl (hn pl List.mem_cons_self t ht hg)⟩
      split
      · rename_i hc; exact h1 hc
      · rename_i hc
        rw [Tab.get_upd_self, h2 (fun q hq u hu hgu hpq => hc ⟨q, hq, u, hu, hgu, hpq⟩)]; rfl
    · have hsame : (if (∃ q ∈ done, ∃ u, s.threads.get q = some u ∧ gate s i f (envOf s q u) u = .run ∧ placeGroup q = placeGroup pl) then s1.groups
          else s1.groups.upd (placeGroup pl) (fun z => { z with sb := z.sb.set slot (z.sb.getD slot 0 + 1) })).get gr = s1.groups.get gr := by
        split
        · rfl
        · rw [Tab.get_upd_ne _ _ hgp]
      rw [hsame]
      refine ⟨?_, fun hn => h2 (fun q hq => hn q (List.mem_cons_of_mem _ hq))⟩
      rintro ⟨q, hq, u, hu, hgu, hpq⟩
      rcases List.mem_cons.mp hq with rfl | hq
      · exact absurd hpq.symm hgp
      · exact h1 ⟨q, hq, u, hu, hgu, hpq⟩

/-- What one lane does, wherever the instruction has got to: it issues the operation that `o` describes and leaves its thread as `g` says. -/
def LaneIssues (i : Instr) (slot : Nat) (ok : State → Env → Thread → Prop) (g : State → Env → Thread → Thread)
    (o : State → Env → Thread → Op → Prop) (act : State → State → Env → Thread → Res) : Prop :=
  ∀ (s : State) (f : Info) (pl : Nat) (t : Thread) (s1 : State), i.info = some f → gate s i f (envOf s pl t) t = .run → ok s (envOf s pl t) t →
    s.threads.get pl = some t → s1.threads.get pl = some t →
    s1 = { s with threads := s1.threads, ops := s1.ops, groups := s1.groups, serial := s1.serial } →
    ∃ y th, act s s1 (envOf s pl t) t = .ok ({ s1 with threads := th }.addOp y) ∧
      th.get pl = some (g s (envOf s pl t) t) ∧ (∀ q, q ≠ pl → th.get q = s1.threads.get q) ∧
      o s (envOf s pl t) t (y.atWord s) ∧ y.th = pl ∧ y.slot = some slot ∧ y.batch = s.batch ∧ y.grps = [placeGroup pl] ∧
      (y.ths = [pl] ∨ (y.ths = [] ∧ 112 ≤ y.dst))

/-- Over the lanes that are left. -/
theorem lanesLoop_issuing {i : Instr} {f : Info} {slot : Nat} {ok : State → Env → Thread → Prop} {g : State → Env → Thread → Thread}
    {o : State → Env → Thread → Op → Prop} {act : State → State → Env → Thread → Res} {s : State} (hact : LaneIssues i slot ok g o act)
    (hi : i.info = some f) (fresh : FreshOps s) (lanes : List Nat) (hn : lanes.Nodup) (s1 : State) (done : List Nat)
    (h : Issuing i f slot g o s s1 done) (hd : ∀ q ∈ lanes, q ∉ done)
    (hg : ∀ q ∈ lanes, ∀ t, s.threads.get q = some t → ∀ tr, gate s i f (envOf s q t) t ≠ .trap tr)
    (hok : ∀ q ∈ lanes, ∀ t, s.threads.get q = some t → gate s i f (envOf s q t) t = .run → ok s (envOf s q t) t) :
    ∃ done', Issuing i f slot g o s (lanesLoop i f (act s) lanes s1) done' ∧ ∀ q, q ∈ done' ↔ q ∈ done ∨ q ∈ lanes := by
  induction lanes generalizing s1 done with
  | nil => exact ⟨done, h, by simp⟩
  | cons pl rest ih =>
    rw [List.nodup_cons] at hn
    have hpl := hd pl List.mem_cons_self
    have hsame : s1.threads.get pl = s.threads.get pl := h.others pl (Or.inl hpl)
    have henv : ∀ t, envOf s1 pl t = envOf s pl t := fun t => by rw [h.rest]; rfl
    have hgate : ∀ e t, gate s1 i f e t = gate s i f e t := fun e t => by rw [h.rest]; rfl
    have next : ∀ s2, Issuing i f slot g o s s2 (pl :: done) → ∃ done', Issuing i f slot g o s (lanesLoop i f (act s) rest s2) done' ∧
        ∀ q, q ∈ done' ↔ q ∈ done ∨ q ∈ pl :: rest := by
      intro s2 h2
      obtain ⟨d', h3, h4⟩ := ih hn.2 s2 (pl :: done) h2
        (fun q hq hm => by rcases List.mem_cons.mp hm with rfl | hm; exacts [hn.1 hq, hd q (List.mem_cons_of_mem _ hq) hm])
        (fun q hq => hg q (List.mem_cons_of_mem _ hq)) (fun q hq => hok q (List.mem_cons_of_mem _ hq))
      refine ⟨d', h3, fun q => ?_⟩
      rw [h4 q]; simp only [List.mem_cons]; tauto
    cases ht : s.threads.get pl with
    | none =>
      have : lanesLoop i f (act s) (pl :: rest) s1 = lanesLoop i f (act s) rest s1 := by simp only [lanesLoop, hsame, ht]
      rw [this]
      exact next s1 (h.skip pl (fun t h1 => by rw [ht] at h1; cases h1))
    | some t =>
      cases hgt : gate s i f (envOf s pl t) t with
      | trap tr => exact absurd hgt (hg pl List.mem_cons_self t ht tr)
      | skip =>
        have : lanesLoop i f (act s) (pl :: rest) s1 = lanesLoop i f (act s) rest s1 := by
          simp only [lanesLoop, hsame, ht, henv, hgate, hgt]
        rw [this]
        exact next s1 (h.skip pl (fun u h1 => by rw [ht] at h1; obtain rfl := Option.some.inj h1; simp [hgt]))
      | run =>
        obtain ⟨y, th, ha, hth, hoth, ho, hy, hs, hb, hgr, hths⟩ :=
          hact s f pl t s1 hi hgt (hok pl List.mem_cons_self t ht hgt) ht (hsame.trans ht) h.rest
        have : lanesLoop i f (act s) (pl :: rest) s1 = lanesLoop i f (act s) rest ({ s1 with threads := th }.addOp y) := by
          simp only [lanesLoop, hsame, ht, henv, hgate, hgt, ha]
        rw [this]
        exact next _ (h.step fresh hpl ht hgt hth hoth ho hy hs hb hgr hths)

/-- A word that no lane has done and that has no operation of its own has counted on no slot. -/
theorem not_counted {i : Instr} {s : State} {f : Info} {x : Issue} (ha : AtWord s i f x) (hf : FreshOps s) : s.counted = false := by
  unfold State.counted
  simp only [ha.issue, ha.fresh, List.isEmpty_nil, Bool.not_true, Bool.false_or, List.any_eq_false, Bool.and_eq_true, beq_iff_eq, not_and]
  exact fun e he hb => absurd hb (hf e he).2

/-- An instruction whose lanes each issue an operation. -/
theorem issues_of {i : Instr} {slot : BitVec 3} {ok : State → Env → Thread → Prop} {g : State → Env → Thread → Thread}
    {o : State → Env → Thread → Op → Prop} (act : State → State → Env → Thread → Res)
    (hexec : ∀ s, exec i s = .next (execSlot i s slot.toNat (act s))) (hact : LaneIssues i slot.toNat ok g o act) :
    Issues i slot ok g o := by
  constructor
  · intro s f x ha hf h
    rw [hexec, execSlot, not_counted ha hf, h]
    rfl
  · intro s f x ha hn fresh hf hok
    obtain ⟨done, h, hdone⟩ := lanesLoop_issuing hact ha.info fresh x.lanes ha.nodup s [] Issuing.start (by simp)
      (fun q hq t ht tr => hn q hq t ht tr) (fun q hq t ht hg => hok q t ⟨hq, ht, hg⟩)
    have hdone' : ∀ q, q ∈ done ↔ q ∈ x.lanes := fun q => by rw [hdone q]; simp
    have hlanes : execLanes i s (act s) = lanesLoop i f (act s) x.lanes s := by
      simp [execLanes, ha.info, ha.issue, ha.free, ha.fresh]
    refine ⟨lanesLoop i f (act s) x.lanes s, ?_, h.rest, ?_, ?_, h.earlier, ?_, ?_⟩
    · rw [hexec, execSlot, hlanes]
      have hiss : (lanesLoop i f (act s) x.lanes s).issues.get (lanesLoop i f (act s) x.lanes s).cur = some x := by
        rw [h.rest]; exact ha.issue
      simp [hf, State.anchor, hiss, ha.go]
    · rintro pl t ⟨hpl, ht, hg⟩
      obtain ⟨k, y, h1, h2, h3, h4, h5, h6, h7, h8, h9⟩ := h.made pl ((hdone' pl).mpr hpl) t ht hg
      exact ⟨k, y, h1, h2, h3, h4, h5, h6, h7, h8, h9⟩
    · intro pl hnr
      refine h.others pl ?_
      by_cases hpl : pl ∈ x.lanes
      · exact Or.inr (fun t ht hg => hnr t ⟨hpl, ht, hg⟩)
      · exact Or.inl (fun hd => hpl ((hdone' pl).mp hd))
    · intro k y hk hy
      rcases h.later _ (Tab.mem_of_get hy) with h1 | ⟨_, _, _, _, h5, t, h6, h7⟩
      · exact absurd (fresh _ h1).1 (by simpa using hk)
      · exact ⟨t, (hdone' _).mp h5, h6, h7⟩
    · intro gr z hz
      obtain ⟨h1, h2⟩ := h.groups gr z hz
      refine ⟨?_, ?_⟩
      · rintro ⟨pl, t, ⟨hpl, ht, hg⟩, hp⟩
        exact h1 ⟨pl, (hdone' pl).mpr hpl, t, ht, hg, hp⟩
      · intro hn2
        exact h2 (fun q hq u hu hgu => hn2 q u ⟨(hdone' q).mp hq, hu, hgu⟩)

end Sys2Proof.Machine
end

