-- ==== Sys2Proof/Laws/Memory.lean ====
section
/-! SUPPORT. Every operation on memory keeps its canonical form (R68, R206). -/

namespace Sys2Proof.Machine

open Sys2Proof.Spec

/-- A state with the same memory and the same scratchpads. -/
theorem canonical_of_eq {s s' : State} (hm : s'.mem.cells = s.mem.cells) (ht : s'.teams = s.teams) (h : MemoryCanonical s) : MemoryCanonical s' := by
  obtain ⟨h1, h2⟩ := h
  exact ⟨hm ▸ h1, ht ▸ h2⟩

/-- Updating a team keeps the form where the update keeps its scratchpad's. -/
theorem canonical_updTeam {s : State} (k : Nat) (f : Team → Team) (hf : ∀ t, Memory.wf t.scratch = true → Memory.wf (f t).scratch = true)
    (h : MemoryCanonical s) : MemoryCanonical (s.updTeam k f) := by
  refine ⟨h.1, fun e he => ?_⟩
  simp only [State.updTeam, Tab.upd, List.mem_map] at he
  obtain ⟨x, hx, rfl⟩ := he
  have := h.2 x hx
  split
  · exact hf _ this
  · exact this

theorem scratchWrite_canonical {s : State} (team off : Nat) (bs : List Byte) (mark : Option Nat) (h : MemoryCanonical s) :
    MemoryCanonical (scratchWrite s team off bs mark) :=
  canonical_updTeam _ _ (fun _ ht => Memory.wf_write ht off bs) h

/-- A fold keeps what each of its steps keeps. -/
theorem foldl_keeps {α σ : Type} (P : σ → Prop) (f : σ → α → σ) (hf : ∀ s a, P s → P (f s a)) (l : List α) (s : σ) (h : P s) : P (l.foldl f s) := by
  induction l generalizing s with
  | nil => exact h
  | cons a r ih => exact ih _ (hf s a h)

/-! ### Lines that go (R205, R211, R333) -/

theorem towUnused_canonical {s : State} (id : Nat) (h : MemoryCanonical s) : MemoryCanonical (towUnused s id) := h

theorem l2Lost_canonical {s : State} (line keep : Nat) (h : MemoryCanonical s) : MemoryCanonical (l2Lost s line keep) := by
  unfold l2Lost
  split
  · exact foldl_keeps MemoryCanonical _ (fun _ (e : Nat × Nat) hs => towUnused_canonical e.2 hs) _ _ (canonical_of_eq (s := s) rfl rfl h)
  · exact h

theorem llcAdd_canonical {s : State} (a d : Nat) (h : MemoryCanonical s) : MemoryCanonical (llcAdd s a d) := by
  unfold llcAdd
  dsimp only
  split
  · exact h
  · split
    · exact h
    · split <;> exact h

theorem dropL2_canonical {s : State} (line : Nat) (h : MemoryCanonical s) : MemoryCanonical (dropL2 s line) := by
  unfold dropL2
  dsimp only
  have h1 := l2Lost_canonical line 0 h
  generalize l2Lost s line 0 = s1 at h1 ⊢
  split
  · exact h1
  · exact canonical_of_eq (s := llcAdd s1 (line * 256) _) rfl rfl (llcAdd_canonical _ _ h1)

@[simp] theorem dropL1_cells (m : MemSys) (core sector : Nat) : (dropL1 m core sector).cells = m.cells := by
  unfold dropL1; dsimp only; split <;> rfl

theorem killL1_canonical {s : State} (core sector : Nat) (h : MemoryCanonical s) : MemoryCanonical (killL1 s core sector) := by
  unfold killL1
  dsimp only
  split
  · exact h
  · split
    · exact canonical_of_eq (s := s) rfl rfl h
    · exact canonical_of_eq (s := s) (dropL1_cells _ _ _) rfl h

theorem dropDieL1_canonical {s : State} (die sector : Nat) (h : MemoryCanonical s) : MemoryCanonical (dropDieL1 s die sector) :=
  foldl_keeps MemoryCanonical _ (fun _ _ hs => killL1_canonical _ sector hs) _ _ h

theorem dropAllL1_canonical {s : State} (sector : Nat) (h : MemoryCanonical s) : MemoryCanonical (dropAllL1 s sector) :=
  foldl_keeps MemoryCanonical _ (fun _ d hs => dropDieL1_canonical d sector hs) _ _ h

theorem dropRdc_canonical {s : State} (die sector : Nat) (h : MemoryCanonical s) : MemoryCanonical (dropRdc s die sector) := by
  unfold dropRdc
  dsimp only
  split
  · exact h
  · rename_i c _
    have h1 : Memory.wf (if c.dirty = true then { s.mem with cells := Memory.write s.mem.cells (sector * 64) c.data, pois := setOpt s.mem.pois sector c.pois } else s.mem).cells = true := by
      split
      · exact Memory.wf_write h.1 _ _
      · exact h.1
    have h2 : ∀ m : MemSys, Memory.wf m.cells = true → MemoryCanonical (s.setMem m) := fun m hm => ⟨hm, h.2⟩
    generalize (if c.dirty = true then { s.mem with cells := Memory.write s.mem.cells (sector * 64) c.data, pois := setOpt s.mem.pois sector c.pois } else s.mem) = m at h1 ⊢
    have h3 : ∀ b : Prop, [Decidable b] → ∀ x : Tab Nat, MemoryCanonical (s.setMem (if b then { dirDel { m with rdc := m.rdc.del (die * 2 ^ 56 + sector) } sector (192 + die) with counts := x } else dirDel { m with rdc := m.rdc.del (die * 2 ^ 56 + sector) } sector (192 + die))) := by
      intro b _ x
      refine h2 _ ?_
      split <;> exact h1
    split
    · exact towUnused_canonical _ (h3 _ _)
    · exact h3 _ _

theorem dropRdcLine_canonical {s : State} (die line : Nat) (h : MemoryCanonical s) : MemoryCanonical (dropRdcLine s die line) := by
  refine foldl_keeps MemoryCanonical _ (fun s x hs => dropRdc_canonical die x ?_) _ _ h
  split
  · exact dropAllL1_canonical x hs
  · exact hs

theorem rdcRoom_canonical {s s' : State} {die a : Nat} (h : MemoryCanonical s) (hr : rdcRoom s die a = some s') : MemoryCanonical s' := by
  unfold rdcRoom at hr
  dsimp only at hr
  split at hr
  · cases hr; exact h
  · split at hr
    · cases hr; exact dropRdcLine_canonical die _ (canonical_of_eq (s := s) rfl rfl h)
    · cases hr

theorem l2Add_canonical {s : State} (a : Nat) (first : Bool) (h : MemoryCanonical s) : MemoryCanonical (l2Add s a first) := by
  unfold l2Add
  dsimp only
  split
  · exact h
  · refine canonical_of_eq (s := ite _ s _) rfl rfl ?_
    split
    · exact h
    · split
      · exact dropL2_canonical _ (canonical_of_eq (s := s) rfl rfl h)
      · exact h

theorem writtenAt_canonical {s : State} (pol a : Nat) (h : MemoryCanonical s) : MemoryCanonical (writtenAt s pol a) := by
  unfold writtenAt
  dsimp only
  have h1 : MemoryCanonical (if (!l2Holds s.mem a && pol == 0) = true then llcAdd s a 0 else s) := by
    split
    · exact llcAdd_canonical _ _ h
    · exact h
  generalize (if (!l2Holds s.mem a && pol == 0) = true then llcAdd s a 0 else s) = s1 at h1 ⊢
  split
  · exact canonical_of_eq (s := l2Add s1 a (pol == 1)) rfl rfl (l2Add_canonical _ _ h1)
  · exact llcAdd_canonical _ _ h1

/-! ### Writes at homes (R208, R226) -/

theorem writeBehind_canonical {s : State} (a : Nat) (bs : List Byte) (mark : Option Nat) (h : MemoryCanonical s) :
    MemoryCanonical (writeBehind s a bs mark) := ⟨Memory.wf_write h.1 a bs, h.2⟩

theorem writeSector_canonical {s : State} (q : Writer) (a : Nat) (bs : List Byte) (mark : Option Nat) (h : MemoryCanonical s) :
    MemoryCanonical (writeSector s q a bs mark) := by
  unfold writeSector
  dsimp only
  split
  · split
    · rename_i s1 hr
      exact canonical_of_eq (s := s1) rfl rfl (rdcRoom_canonical h hr)
    · exact writeBehind_canonical a bs mark h
  · exact writeBehind_canonical a bs mark h

theorem homeWrite_canonical {s : State} (a : Nat) (bs : List Byte) (mark : Option Nat) (h : MemoryCanonical s) :
    MemoryCanonical (homeWrite s a bs mark) :=
  foldl_keeps MemoryCanonical _ (fun _ p hs => writeSector_canonical {} p.2.1 _ mark hs) _ s h

theorem writeThrough_canonical {s : State} (core a : Nat) (bs : List Byte) (mark : Option Nat) (h : MemoryCanonical s) :
    MemoryCanonical (writeThrough s core a bs mark) := by
  have put : ∀ m : MemSys, m.cells = s.mem.cells → MemoryCanonical (s.setMem m) := fun m hm => canonical_of_eq (s := s) hm rfl h
  unfold writeThrough
  dsimp only
  have hm : (if s.mem.l1.has (copyKey core a) = true then
      clearCount { s.mem with l1 := s.mem.l1.upd (copyKey core a) (fun c => c.update (a % 64) bs mark) } core a else s.mem).cells = s.mem.cells := by
    split <;> rfl
  generalize (if s.mem.l1.has (copyKey core a) = true then
      clearCount { s.mem with l1 := s.mem.l1.upd (copyKey core a) (fun c => c.update (a % 64) bs mark) } core a else s.mem) = m at hm ⊢
  split
  · split
    · split
      · exact towUnused_canonical _ (put _ hm)
      · exact put _ hm
    · exact put m hm
  · exact put m hm

theorem performSector_canonical {s : State} (q : Writer) (a : Nat) (bs : List Byte) (mark : Option Nat) (h : MemoryCanonical s) :
    MemoryCanonical (performSector s q a bs mark).1 := by
  unfold performSector
  dsimp only
  have h1 := writeSector_canonical q a bs mark h
  generalize writeSector s q a bs mark = s1 at h1 ⊢
  have h2 : MemoryCanonical (s1.setMem (clearCount s1.mem (if spaceOf a == 2 then 200 + homeDie a else 300) a)) := canonical_of_eq (s := s1) rfl rfl h1
  generalize s1.setMem (clearCount s1.mem (if spaceOf a == 2 then 200 + homeDie a else 300) a) = s2 at h2 ⊢
  have h3 : MemoryCanonical (if (spaceOf a == 0) = true then writtenAt (l2Lost s2 (a / 256) (15 ^^^ 2 ^ (a / 64 % 4))) q.pol a else s2) := by
    split
    · exact writtenAt_canonical _ a (l2Lost_canonical _ _ h2)
    · exact h2
  generalize (if (spaceOf a == 0) = true then writtenAt (l2Lost s2 (a / 256) (15 ^^^ 2 ^ (a / 64 % 4))) q.pol a else s2) = s3 at h3 ⊢
  split
  · rename_i c _
    have h4 := writeThrough_canonical c a bs mark h3
    split
    · exact canonical_of_eq rfl rfl h4
    · exact h4
  · split
    · exact canonical_of_eq (s := s3) rfl rfl h3
    · exact h3

theorem perform_canonical {s : State} (q : Writer) (a : Nat) (bs : List Byte) (mark : Option Nat) (h : MemoryCanonical s) :
    MemoryCanonical (perform s q a bs mark).1 := by
  unfold perform
  refine foldl_keeps (fun x : State × WClock => MemoryCanonical x.1) _ ?_ _ _ h
  rintro ⟨s, c⟩ p hs
  have := performSector_canonical q p.2.1 ((bs.drop p.1).take p.2.2) mark hs
  dsimp only
  split <;> exact this

/-! ### Ranges, rings and tables -/

theorem lostStore_canonical {s : State} (core : Option Nat) (y : Nat) (h : MemoryCanonical s) : MemoryCanonical (lostStore s core y) := by
  unfold lostStore
  dsimp only
  refine canonical_of_eq (s := match core with | some c => writeThrough (writeSector s {} y [] (some 0x19)) c y [] (some 0x19) | none => writeSector s {} y [] (some 0x19)) rfl rfl ?_
  have h1 := writeSector_canonical {} y [] (some 0x19) h
  cases core with
  | none => exact h1
  | some c => exact writeThrough_canonical c y [] _ h1

theorem writePiece_canonical {s : State} (q : Writer) (l : Loc) (bs : List Byte) (mark : Option Nat) (h : MemoryCanonical s) :
    MemoryCanonical (writePiece s q l bs mark).1 := by
  unfold writePiece
  cases l with
  | scratch t o => exact scratchWrite_canonical t o bs mark h
  | phys y =>
    dsimp only
    split
    · exact homeWrite_canonical y bs mark h
    · split
      · exact lostStore_canonical q.core y h
      · exact perform_canonical q y bs mark h

theorem tagWrite_canonical {s : State} (team a ord : Nat) (tow : Bool) (h : MemoryCanonical s) : MemoryCanonical (tagWrite s team a ord tow) := by
  unfold tagWrite
  split
  · exact h
  · split
    · exact h
    · dsimp only
      split
      · exact h
      · exact canonical_of_eq (s := s) rfl rfl h

theorem writeLoc_canonical {s : State} (q : Writer) (l : Loc) (bs : List PByte) (team : Nat) (tow : Bool) (h : MemoryCanonical s) :
    MemoryCanonical (writeLoc s q l bs team tow).1 := by
  unfold writeLoc
  refine foldl_keeps (fun x : State × WClock => MemoryCanonical x.1) _ ?_ _ _ h
  rintro ⟨s, g⟩ p hs
  dsimp only
  cases l with
  | scratch t o => exact writePiece_canonical q _ _ _ hs
  | phys y => exact tagWrite_canonical _ _ _ _ (writePiece_canonical q _ _ _ hs)

/-- Writing a range of virtual addresses keeps the form. -/
theorem writeRange_canonical {s s1 : State} {w : Who} {va akind : Nat} {g : WClock} {bs : List PByte} {core : Option Nat} (h : MemoryCanonical s)
    (hw : writeRange s w va bs akind core = .ok (s1, g)) : MemoryCanonical s1 := by
  unfold writeRange at hw
  split at hw
  · cases hw
  · rename_i ls _
    simp only [Except.ok.injEq, Prod.mk.injEq] at hw
    obtain ⟨rfl, -⟩ := hw
    refine foldl_keeps (fun x : State × WClock × List PByte => MemoryCanonical x.1) _ ?_ ls _ h
    rintro ⟨s, g, rest⟩ p hs
    exact writeLoc_canonical _ _ _ _ _ hs

theorem setEntryState_canonical {s : State} (q e st : Nat) (h : MemoryCanonical s) : MemoryCanonical (setEntryState s q e st) := by
  unfold setEntryState ringWrite
  split
  · exact writeLoc_canonical _ _ _ _ _ h
  · exact h

theorem deviceWrite_canonical {s : State} (pa : Nat) (bs : List Byte) (h : MemoryCanonical s) : MemoryCanonical (deviceWrite s pa bs) := by
  unfold deviceWrite
  split
  · exact writeLoc_canonical _ _ _ _ _ h
  · exact h

end Sys2Proof.Machine
end

