-- ==== Sys2Proof/Laws/PerInstr.lean ====
section
/-! SUPPORT. The layout of every instruction as syntax (R32 to R38): its encoding starts with a word of
its own opcode, has the extension word that the opcode calls for, and an event has no words. -/

namespace Sys2Proof.Laws.Layout

/-- The opcode is one of the instruction opcodes (R46) and the extension word is of the kind that the
opcode's group has (R33). -/
def opFits (op : Nat) (e : Ext) : Bool :=
  decide (op < 128) && !opReserved op && !(op == 0x7C) && !(op == 0x7D) && ((opExt op == .none) == (encExt e).isNone)

/-- What the layout of an instruction promises: its first word has its opcode, that opcode is a legal
one, and the words are as many as the decoder counts; an event has none. -/
def Statement (i : Instr) : Prop :=
  match i.info with
  | none => encode i = []
  | some f => opFits f.op f.ext = true ∧ ∃ v rest, encode i = v :: rest ∧ opOf v = f.op ∧ rest.length + 1 = wordsOf v

/-- Reading the opcode of an encoded word gives it back (R32). -/
theorem opOf_encW1 (op : Nat) (w : W1) (h : op < 128) : opOf (encW1 op w) = op := by
  have h1 := w.g.isLt; have h2 := w.d.isLt; have h3 := w.a.isLt; have h4 := w.b.isLt
  simp [opOf, encW1]; omega

/-- The layout of any instruction whose opcode fits. -/
theorem of_info {i : Instr} {f : Info} (h : i.info = some f) (hf : opFits f.op f.ext = true) : Statement i := by
  simp only [Statement, h]
  refine ⟨hf, encW1 f.op f.w, (encExt f.ext).toList, by simp [encode, h], ?_, ?_⟩
  all_goals simp only [opFits, Bool.and_eq_true, decide_eq_true_eq, Bool.not_eq_true', beq_iff_eq] at hf
  · exact opOf_encW1 _ _ hf.1.1.1.1
  · obtain ⟨⟨⟨⟨h1, h2⟩, -⟩, -⟩, h3⟩ := hf
    rw [wordsOf, opOf_encW1 _ _ h1, h2, h3, Bool.false_or]
    cases encExt f.ext <;> rfl

/-- The layout of an event. -/
theorem of_event {i : Instr} (h : i.info = none) : Statement i := by
  simp [Statement, encode, h]

theorem chooseRun (sched : Nat) : Statement (.chooseRun sched) := of_event rfl
theorem nop (w : W1) : Statement (.nop w) := of_info rfl rfl
theorem iadd (w : W1) : Statement (.iadd w) := of_info rfl rfl
theorem isub (w : W1) : Statement (.isub w) := of_info rfl rfl
theorem imul (w : W1) : Statement (.imul w) := of_info rfl rfl
theorem imulh (w : W1) : Statement (.imulh w) := of_info rfl rfl
theorem imulhu (w : W1) : Statement (.imulhu w) := of_info rfl rfl
theorem imad (w : W1) (x : ExtA) : Statement (.imad w x) := of_info rfl rfl
theorem imin (w : W1) : Statement (.imin w) := of_info rfl rfl
theorem imax (w : W1) : Statement (.imax w) := of_info rfl rfl
theorem iminu (w : W1) : Statement (.iminu w) := of_info rfl rfl
theorem imaxu (w : W1) : Statement (.imaxu w) := of_info rfl rfl
theorem and (w : W1) : Statement (.and w) := of_info rfl rfl
theorem or (w : W1) : Statement (.or w) := of_info rfl rfl
theorem xor (w : W1) : Statement (.xor w) := of_info rfl rfl
theorem shl (w : W1) : Statement (.shl w) := of_info rfl rfl
theorem shr (w : W1) : Statement (.shr w) := of_info rfl rfl
theorem sar (w : W1) : Statement (.sar w) := of_info rfl rfl
theorem iadd64 (w : W1) : Statement (.iadd64 w) := of_info rfl rfl
theorem isub64 (w : W1) : Statement (.isub64 w) := of_info rfl rfl
theorem imadw (w : W1) (x : ExtA) : Statement (.imadw w x) := of_info rfl rfl
theorem sel (w : W1) (x : ExtA) : Statement (.sel w x) := of_info rfl rfl
theorem movi (w : W1) (imm : Word) : Statement (.movi w imm) := of_info rfl rfl
theorem iaddi (w : W1) (imm : Word) : Statement (.iaddi w imm) := of_info rfl rfl
theorem icmp (w : W1) (x : ExtA) : Statement (.icmp w x) := of_info rfl rfl
theorem bool3 (w : W1) (x : ExtA) : Statement (.bool3 w x) := of_info rfl rfl
theorem dsh (w : W1) (x : ExtA) : Statement (.dsh w x) := of_info rfl rfl
theorem bitf (w : W1) : Statement (.bitf w) := of_info rfl rfl
theorem pbool (w : W1) (x : ExtA) : Statement (.pbool w x) := of_info rfl rfl
theorem v2p (w : W1) : Statement (.v2p w) := of_info rfl rfl
theorem p2v (w : W1) : Statement (.p2v w) := of_info rfl rfl
theorem mov (w : W1) : Statement (.mov w) := of_info rfl rfl
theorem rdsp (w : W1) : Statement (.rdsp w) := of_info rfl rfl
theorem faddF32 (w : W1) : Statement (.faddF32 w) := of_info rfl rfl
theorem fsubF32 (w : W1) : Statement (.fsubF32 w) := of_info rfl rfl
theorem fmulF32 (w : W1) : Statement (.fmulF32 w) := of_info rfl rfl
theorem ffmaF32 (w : W1) (x : ExtA) : Statement (.ffmaF32 w x) := of_info rfl rfl
theorem fminF32 (w : W1) : Statement (.fminF32 w) := of_info rfl rfl
theorem fmaxF32 (w : W1) : Statement (.fmaxF32 w) := of_info rfl rfl
theorem fcmpF32 (w : W1) (x : ExtA) : Statement (.fcmpF32 w x) := of_info rfl rfl
theorem funaF32 (w : W1) : Statement (.funaF32 w) := of_info rfl rfl
theorem faddF64 (w : W1) : Statement (.faddF64 w) := of_info rfl rfl
theorem fsubF64 (w : W1) : Statement (.fsubF64 w) := of_info rfl rfl
theorem fmulF64 (w : W1) : Statement (.fmulF64 w) := of_info rfl rfl
theorem ffmaF64 (w : W1) (x : ExtA) : Statement (.ffmaF64 w x) := of_info rfl rfl
theorem fminF64 (w : W1) : Statement (.fminF64 w) := of_info rfl rfl
theorem fmaxF64 (w : W1) : Statement (.fmaxF64 w) := of_info rfl rfl
theorem fcmpF64 (w : W1) (x : ExtA) : Statement (.fcmpF64 w x) := of_info rfl rfl
theorem funaF64 (w : W1) : Statement (.funaF64 w) := of_info rfl rfl
theorem pkadd (w : W1) (x : ExtA) : Statement (.pkadd w x) := of_info rfl rfl
theorem pkmul (w : W1) (x : ExtA) : Statement (.pkmul w x) := of_info rfl rfl
theorem pkfma (w : W1) (x : ExtA) : Statement (.pkfma w x) := of_info rfl rfl
theorem pkmin (w : W1) (x : ExtA) : Statement (.pkmin w x) := of_info rfl rfl
theorem pkmax (w : W1) (x : ExtA) : Statement (.pkmax w x) := of_info rfl rfl
theorem pkcmp (w : W1) (x : ExtA) : Statement (.pkcmp w x) := of_info rfl rfl
theorem sfu (w : W1) (x : ExtA) : Statement (.sfu w x) := of_info rfl rfl
theorem fdiv (w : W1) (x : ExtA) : Statement (.fdiv w x) := of_info rfl rfl
theorem fsqrt (w : W1) (x : ExtA) : Statement (.fsqrt w x) := of_info rfl rfl
theorem sfuComplete (op : Nat) : Statement (.sfuComplete op) := of_event rfl
theorem cvt (w : W1) (x : ExtA) : Statement (.cvt w x) := of_info rfl rfl
theorem cvtn (w : W1) (x : ExtA) : Statement (.cvtn w x) := of_info rfl rfl
theorem cvtw (w : W1) (x : ExtA) : Statement (.cvtw w x) := of_info rfl rfl
theorem cbload (w : W1) (x : ExtE) : Statement (.cbload w x) := of_info rfl rfl
theorem cbloadComplete (op : Nat) : Statement (.cbloadComplete op) := of_event rfl
theorem cblu (w : W1) (x : ExtA) : Statement (.cblu w x) := of_info rfl rfl
theorem dot2 (w : W1) (x : ExtA) : Statement (.dot2 w x) := of_info rfl rfl
theorem shfl (w : W1) (x : ExtA) : Statement (.shfl w x) := of_info rfl rfl
theorem xgath (w : W1) (x : ExtA) : Statement (.xgath w x) := of_info rfl rfl
theorem vote (w : W1) (x : ExtA) : Statement (.vote w x) := of_info rfl rfl
theorem matchLanes (w : W1) (x : ExtA) : Statement (.matchLanes w x) := of_info rfl rfl
theorem compact (w : W1) (x : ExtA) : Statement (.compact w x) := of_info rfl rfl
theorem redx (w : W1) (x : ExtA) : Statement (.redx w x) := of_info rfl rfl
theorem scanx (w : W1) (x : ExtA) : Statement (.scanx w x) := of_info rfl rfl
theorem ld (w : W1) (x : ExtM) : Statement (.ld w x) := of_info rfl rfl
theorem homeRead (op : Nat) : Statement (.homeRead op) := of_event rfl
theorem loadComplete (op : Nat) : Statement (.loadComplete op) := of_event rfl
theorem st (w : W1) (x : ExtM) : Statement (.st w x) := of_info rfl rfl
theorem storePerform (op : Nat) : Statement (.storePerform op) := of_event rfl
theorem revocationReceive (rev holder : Nat) : Statement (.revocationReceive rev holder) := of_event rfl
theorem revocationAck (rev : Nat) : Statement (.revocationAck rev) := of_event rfl
theorem releaseComplete (op : Nat) : Statement (.releaseComplete op) := of_event rfl
theorem lds (w : W1) (x : ExtM) : Statement (.lds w x) := of_info rfl rfl
theorem sts (w : W1) (x : ExtM) : Statement (.sts w x) := of_info rfl rfl
theorem ldln (w : W1) (x : ExtM) : Statement (.ldln w x) := of_info rfl rfl
theorem atom (w : W1) (x : ExtT) : Statement (.atom w x) := of_info rfl rfl
theorem cas (w : W1) (x : ExtT) : Statement (.cas w x) := of_info rfl rfl
theorem red (w : W1) (x : ExtT) : Statement (.red w x) := of_info rfl rfl
theorem atomicPerform (op : Nat) : Statement (.atomicPerform op) := of_event rfl
theorem atomicComplete (op : Nat) : Statement (.atomicComplete op) := of_event rfl
theorem atomicopCompletion (op : Nat) (ok : Bool) : Statement (.atomicopCompletion op ok) := of_event rfl
theorem fence (w : W1) (x : ExtM) : Statement (.fence w x) := of_info rfl rfl
theorem fenceComplete (op : Nat) : Statement (.fenceComplete op) := of_event rfl
theorem pref (w : W1) (x : ExtM) : Statement (.pref w x) := of_info rfl rfl
theorem cflush (w : W1) (x : ExtM) : Statement (.cflush w x) := of_info rfl rfl
theorem cflushComplete (op : Nat) : Statement (.cflushComplete op) := of_event rfl
theorem sleept (w : W1) : Statement (.sleept w) := of_info rfl rfl
theorem sleepWake (th : Nat) : Statement (.sleepWake th) := of_event rfl
theorem ferryCopy (w : W1) (x : ExtE) : Statement (.ferryCopy w x) := of_info rfl rfl
theorem ferryMcast (w : W1) (x : ExtE) : Statement (.ferryMcast w x) := of_info rfl rfl
theorem ferryGather (w : W1) (x : ExtE) : Statement (.ferryGather w x) := of_info rfl rfl
theorem ferryScatter (w : W1) (x : ExtE) : Statement (.ferryScatter w x) := of_info rfl rfl
theorem ferryExp24 (w : W1) (x : ExtE) : Statement (.ferryExp24 w x) := of_info rfl rfl
theorem ferryCmp24 (w : W1) (x : ExtE) : Statement (.ferryCmp24 w x) := of_info rfl rfl
theorem ferryTier (w : W1) (x : ExtE) : Statement (.ferryTier w x) := of_info rfl rfl
theorem ferryAccept (op : Nat) : Statement (.ferryAccept op) := of_event rfl
theorem ferryChunkComplete (cmd chunk : Nat) : Statement (.ferryChunkComplete cmd chunk) := of_event rfl
theorem ferryChunkFault (cmd chunk : Nat) : Statement (.ferryChunkFault cmd chunk) := of_event rfl
theorem fwaitTest (w : W1) (x : ExtE) : Statement (.fwaitTest w x) := of_info rfl rfl
theorem fwaitWait (w : W1) (x : ExtE) : Statement (.fwaitWait w x) := of_info rfl rfl
theorem fwaitWaitp (w : W1) (x : ExtE) : Statement (.fwaitWaitp w x) := of_info rfl rfl
theorem fwaitPromiseMissed (th : Nat) : Statement (.fwaitPromiseMissed th) := of_event rfl
theorem lmark (w : W1) (x : ExtE) : Statement (.lmark w x) := of_info rfl rfl
theorem mxop (w : W1) (x : ExtE) : Statement (.mxop w x) := of_info rfl rfl
theorem mxdrainRegs (w : W1) (x : ExtE) : Statement (.mxdrainRegs w x) := of_info rfl rfl
theorem mxdrainScratch (w : W1) (x : ExtE) : Statement (.mxdrainScratch w x) := of_info rfl rfl
theorem mxdrainPeer (w : W1) (x : ExtE) : Statement (.mxdrainPeer w x) := of_info rfl rfl
theorem mxdrainPeerord (w : W1) (x : ExtE) : Statement (.mxdrainPeerord w x) := of_info rfl rfl
theorem mxpod (w : W1) (x : ExtE) : Statement (.mxpod w x) := of_info rfl rfl
theorem mxrelOne (w : W1) (x : ExtE) : Statement (.mxrelOne w x) := of_info rfl rfl
theorem mxrelAll (w : W1) (x : ExtE) : Statement (.mxrelAll w x) := of_info rfl rfl
theorem engineGrant (cluster : Nat) : Statement (.engineGrant cluster) := of_event rfl
theorem enginePassComplete (pass : Nat) : Statement (.enginePassComplete pass) := of_event rfl
theorem drainPassComplete (pass : Nat) : Statement (.drainPassComplete pass) := of_event rfl
theorem podPassComplete (pass : Nat) : Statement (.podPassComplete pass) := of_event rfl
theorem podTrapDeliver (th : Nat) : Statement (.podTrapDeliver th) := of_event rfl
theorem peerAddArrive (pass : Nat) : Statement (.peerAddArrive pass) := of_event rfl
theorem peerordApply (pass : Nat) : Statement (.peerordApply pass) := of_event rfl
theorem mxrelRelease (team crew coll : Nat) : Statement (.mxrelRelease team crew coll) := of_event rfl
theorem bra (w : W1) (imm : Word) : Statement (.bra w imm) := of_info rfl rfl
theorem brx (w : W1) : Statement (.brx w) := of_info rfl rfl
theorem call (w : W1) (imm : Word) : Statement (.call w imm) := of_info rfl rfl
theorem callx (w : W1) : Statement (.callx w) := of_info rfl rfl
theorem ret (w : W1) : Statement (.ret w) := of_info rfl rfl
theorem exit (w : W1) : Statement (.exit w) := of_info rfl rfl
theorem barSync (w : W1) (x : ExtE) : Statement (.barSync w x) := of_info rfl rfl
theorem barArrive (w : W1) (x : ExtE) : Statement (.barArrive w x) := of_info rfl rfl
theorem barWait (w : W1) (x : ExtE) : Statement (.barWait w x) := of_info rfl rfl
theorem launch (w : W1) (x : ExtE) : Statement (.launch w x) := of_info rfl rfl
theorem launchComplete (op : Nat) : Statement (.launchComplete op) := of_event rfl
theorem svc (w : W1) (x : ExtE) : Statement (.svc w x) := of_info rfl rfl
theorem trap (w : W1) (x : ExtE) : Statement (.trap w x) := of_info rfl rfl
theorem mailboxPost (post : Nat) : Statement (.mailboxPost post) := of_event rfl
theorem towrec (w : W1) (x : ExtE) : Statement (.towrec w x) := of_info rfl rfl
theorem towiter (w : W1) (x : ExtE) : Statement (.towiter w x) := of_info rfl rfl
theorem towplay (w : W1) (x : ExtE) : Statement (.towplay w x) := of_info rfl rfl
theorem towstop (w : W1) (x : ExtE) : Statement (.towstop w x) := of_info rfl rfl
theorem towstat (w : W1) (x : ExtE) : Statement (.towstat w x) := of_info rfl rfl
theorem towdrop (w : W1) (x : ExtE) : Statement (.towdrop w x) := of_info rfl rfl
theorem pushInstall (push : Nat) : Statement (.pushInstall push) := of_event rfl
theorem mapsync (w : W1) (x : ExtE) : Statement (.mapsync w x) := of_info rfl rfl
theorem mapsyncComplete (op : Nat) : Statement (.mapsyncComplete op) := of_event rfl
theorem refit (w : W1) (x : ExtE) : Statement (.refit w x) := of_info rfl rfl
theorem refitPassPublish (refit : Nat) : Statement (.refitPassPublish refit) := of_event rfl
theorem xlq (w : W1) (x : ExtE) : Statement (.xlq w x) := of_info rfl rfl
theorem mbxrd (w : W1) (x : ExtE) : Statement (.mbxrd w x) := of_info rfl rfl
theorem mbxrdComplete (op : Nat) : Statement (.mbxrdComplete op) := of_event rfl
theorem mbxwr (w : W1) (x : ExtE) : Statement (.mbxwr w x) := of_info rfl rfl
theorem lockwaitRetry (th : Nat) : Statement (.lockwaitRetry th) := of_event rfl
theorem ctxSave (w : W1) (x : ExtE) : Statement (.ctxSave w x) := of_info rfl rfl
theorem ctxLoad (w : W1) (x : ExtE) : Statement (.ctxLoad w x) := of_info rfl rfl
theorem ctxPreempt (w : W1) (x : ExtE) : Statement (.ctxPreempt w x) := of_info rfl rfl
theorem ctxResume (w : W1) (x : ExtE) : Statement (.ctxResume w x) := of_info rfl rfl
theorem ctxAbort (w : W1) (x : ExtE) : Statement (.ctxAbort w x) := of_info rfl rfl
theorem teamStopped (team : Nat) : Statement (.teamStopped team) := of_event rfl
theorem srmovRead (w : W1) (x : ExtE) : Statement (.srmovRead w x) := of_info rfl rfl
theorem srmovWrite (w : W1) (x : ExtE) : Statement (.srmovWrite w x) := of_info rfl rfl
theorem lqclaim (q : Nat) : Statement (.lqclaim q) := of_event rfl
theorem packetTake (q : Nat) : Statement (.packetTake q) := of_event rfl
theorem dependenceRead (grid : Nat) : Statement (.dependenceRead grid) := of_event rfl
theorem teamPlace (grid : Nat) : Statement (.teamPlace grid) := of_event rfl
theorem teamStart (team : Nat) : Statement (.teamStart team) := of_event rfl
theorem gridComplete (grid : Nat) : Statement (.gridComplete grid) := of_event rfl
theorem leaseExpire (lvl key : Nat) : Statement (.leaseExpire lvl key) := of_event rfl
theorem scrubVisit (lvl key : Nat) : Statement (.scrubVisit lvl key) := of_event rfl
theorem cacheWake (lvl place slept : Nat) : Statement (.cacheWake lvl place slept) := of_event rfl
theorem timeFaultStart (die : Nat) : Statement (.timeFaultStart die) := of_event rfl
theorem timeFaultEnd (die : Nat) : Statement (.timeFaultEnd die) := of_event rfl
theorem desynchronise (offset : Int) : Statement (.desynchronise offset) := of_event rfl
theorem resynchronise (offset : Int) : Statement (.resynchronise offset) := of_event rfl
theorem hostMemRead (pa size : Nat) : Statement (.hostMemRead pa size) := of_event rfl
theorem hostMemWrite (pa : Nat) (bytes : List Byte) : Statement (.hostMemWrite pa bytes) := of_event rfl
theorem hostAtomicopRequest (pa : Nat) : Statement (.hostAtomicopRequest pa) := of_event rfl
theorem hostSnoop (hpa : Nat) (bytes : List Byte) : Statement (.hostSnoop hpa bytes) := of_event rfl
theorem featureNegotiation : Statement (.featureNegotiation) := of_event rfl
theorem cxlioRegisterWrite (off : Nat) (v : BitVec 64) : Statement (.cxlioRegisterWrite off v) := of_event rfl
theorem cxlPortDown (port : Nat) : Statement (.cxlPortDown port) := of_event rfl
theorem cxlPortUp (port : Nat) : Statement (.cxlPortUp port) := of_event rfl
theorem linkPartnerDetect (link lanes : Nat) : Statement (.linkPartnerDetect link lanes) := of_event rfl
theorem linkEqualized (link rtt : Nat) : Statement (.linkEqualized link rtt) := of_event rfl
theorem linkIdent (link peer fwin : Nat) (feat : BitVec 64) (roleOk : Bool) : Statement (.linkIdent link peer fwin feat roleOk) := of_event rfl
theorem linkTimesync (link : Nat) (offset : Int) : Statement (.linkTimesync link offset) := of_event rfl
theorem linkLaneFail (link lanes : Nat) : Statement (.linkLaneFail link lanes) := of_event rfl
theorem linkRetrained (link : Nat) : Statement (.linkRetrained link) := of_event rfl
theorem linkTimeout (link : Nat) : Statement (.linkTimeout link) := of_event rfl
theorem flitReceive (link vl : Nat) : Statement (.flitReceive link vl) := of_event rfl
theorem pauseFlit (link vl : Nat) : Statement (.pauseFlit link vl) := of_event rfl
theorem resumeFlit (link vl : Nat) : Statement (.resumeFlit link vl) := of_event rfl
theorem peerRequest (link : Nat) (req : PeerReq) : Statement (.peerRequest link req) := of_event rfl
theorem reset (fw cfg : Bool) (badChannels : List Nat) : Statement (.reset fw cfg badChannels) := of_event rfl
theorem supervisorLoad (entry : BitVec 64) (ok : Bool) : Statement (.supervisorLoad entry ok) := of_event rfl
theorem coreFault (core : Nat) : Statement (.coreFault core) := of_event rfl
theorem softErrorCorrected : Statement (.softErrorCorrected) := of_event rfl
theorem powerLimitReached : Statement (.powerLimitReached) := of_event rfl
theorem uncorrectableSoftError (space sector : Nat) : Statement (.uncorrectableSoftError space sector) := of_event rfl
theorem xlqComplete (op : Nat) : Statement (.xlqComplete op) := of_event rfl
theorem towlineRequestServed (op : Nat) : Statement (.towlineRequestServed op) := of_event rfl
theorem contextSaveComplete (op : Nat) : Statement (.contextSaveComplete op) := of_event rfl
theorem contextLoadComplete (op : Nat) : Statement (.contextLoadComplete op) := of_event rfl
theorem prefComplete (op : Nat) : Statement (.prefComplete op) := of_event rfl
theorem peerAddPassComplete (pass : Nat) : Statement (.peerAddPassComplete pass) := of_event rfl
theorem resumeFlitSend (link vl : Nat) : Statement (.resumeFlitSend link vl) := of_event rfl
theorem signedFirmwareUpdate (ok : Bool) : Statement (.signedFirmwareUpdate ok) := of_event rfl

end Sys2Proof.Laws.Layout
end

