-- ==== Sys2Proof/Tests/Samples.lean ====
section
/-! SUPPORT. Small states and sample instructions for the tests, and how one decidable check gives the premises that the statements
about an instruction have in common. -/

namespace Sys2Proof.Tests

open Sys2Proof.Machine Sys2Proof.Spec

/-! ### Fields -/

/-- An instruction word with a true guard. -/
def w1 (d a b : BitVec 7) : W1 := ⟨12, d, a, b⟩
/-- Extension words whose other fields are unused. -/
def xa (fn : BitVec 8) (c : BitVec 7 := 120) (cnd : BitVec 4 := 0) : ExtA := ⟨c, 0, 0, 0, false, false, cnd, 0, false, fn⟩
def xs (fn : BitVec 8) : ExtA := ⟨120, 0, 0, 0, false, false, 0, 1, true, fn⟩
def xm (size : BitVec 3) (cache : BitVec 3 := 0) (sem : BitVec 2 := 0) (scope : BitVec 3 := 0) : ExtM := ⟨0, size, sem, scope, 1, cache⟩
def xt (aop ty : BitVec 4) (c : BitVec 7 := 120) : ExtT := ⟨c, aop, ty, 2, 0, 1, 0⟩
def xe (fn : BitVec 9) (imm : BitVec 13) (c : BitVec 7 := 120) (slot : BitVec 3 := 1) : ExtE := ⟨c, fn, slot, imm⟩
/-- One without a slot. -/
def xz (fn : BitVec 9) (imm : BitVec 13) (c : BitVec 7 := 120) : ExtE := ⟨c, fn, 0, imm⟩

/-! ### States -/

/-- 112 registers, zero but for those listed. -/
def regs (l : List (Nat × Nat)) : List Reg := (upto 112).map (fun i => { val := BitVec.ofNat 32 ((Tab.get l i).getD 0) })

/-- A packet of one producer group and one crew of two consumer groups, one page of scratchpad and one tile for the crew. -/
def pkt : Packet := { code := 0x10000, groups := 3, prod := 1, crew := 2, budp := 112, budc := 112, scru := 1, tiles := 1, args := 0x77 }
/-- A running team of that packet on core 0. -/
def team : Team := { grid := 1, index := 0, core := 0, slots := [0, 1, 2], pkt := pkt, st := .running, crews := [{ tiles := [{}] }] }
/-- A thread of it with the registers listed, in the issue group of scheduler 0. -/
def user (gid : Nat) (l : List (Nat × Nat)) : Thread := { Thread.fresh 1 gid 112 0x10000 0 with st := .issuing 0, v := regs l }
/-- A thread of a supervisor group in the issue group of scheduler 0. -/
def supThread (l : List (Nat × Nat)) : Thread := { Thread.fresh 0 0 112 0x10000 0 with st := .issuing 0, v := regs l }

/-- The run being issued to one thread. -/
def run (pl : Nat) : Issue := { lanes := [pl], hdr := 0x10000, count := 24, cls := 5, park := false, sup := isSup pl, body := [] }

/-- Translations under ASID 1 and under ASID 0, 16 pages each, read, write, execute and atomics permitted: device memory from 0, that of peer 1
from 0x10_0000, coherent host memory from 0x20_0000, other host memory from 0x30_0000, and device memory to be read only from 0x40_0000. -/
def space : Space :=
  { valid := true, segs := [⟨0, 0x10, 0, 1, ⟨15, 0, 0, false⟩⟩, ⟨0x10, 0x10, 0x800000, 1, ⟨15, 1, 0, false⟩⟩, ⟨0x20, 0x10, 0x20, 1, ⟨15, 2, 0, false⟩⟩,
    ⟨0x30, 0x10, 0x30, 1, ⟨15, 3, 0, false⟩⟩, ⟨0x40, 0x10, 0, 1, ⟨1, 0, 0, false⟩⟩] }

/-- The module as it is in use: time runs, the features are enabled, the supervisor is loaded and the host is there. -/
def modul : Mod := { now := 1000000, fen := [0xFF, 0, 0, 0], fack := 2, boot := { step := 8, supLoaded := true }, ports := [{ up := true }, {}] }

/-- One thread stands at a word of its run; its group and its team are resident. -/
def at1 (pl : Nat) (t : Thread) : State :=
  { mod := modul, xl := { spaces := [(0, space), (1, space)] }, teams := [(1, team)],
    groups := [(0, { team := 1, gid := 0 }), (1, { team := 1, gid := 1 }), (2, { team := 1, gid := 2 }), (47, { team := 0, gid := 0 })],
    threads := [(pl, t)], issues := [(0, run pl)], serial := 5 }

/-- A producer, a consumer and a supervisor thread with the registers listed. -/
def prodAt (l : List (Nat × Nat)) : State := at1 0 (user 0 l)
def consAt (l : List (Nat × Nat)) : State := at1 32 (user 1 l)
def supAt (l : List (Nat × Nat)) : State := at1 1504 (supThread l)

/-! ### The premises in common -/

/-- The thread at `pl` is alone in the issue group, and executes `i`. -/
def Alone (i : Instr) (s : State) (pl : Nat) (t : Thread) : Prop :=
  ∃ f x, AtWord s i f x ∧ NoTrap s i f x ∧ FreshOps s ∧ Runs s i f x pl t ∧ (∀ q u, Runs s i f x q u → q = pl ∧ u = t) ∧
    (∀ q ∈ x.lanes, ∃ u, Runs s i f x q u)

/-- The same as a check. -/
def alone (i : Instr) (s : State) (pl : Nat) (t : Thread) : Bool :=
  match i.info, s.issues.get s.cur with
  | some f, some x =>
    x.lanes == [pl] && s.threads.get pl == some t && !s.holding x && x.served == [] && !x.stall && gate s i f (envOf s pl t) t == .run &&
      s.ops.all (fun e => decide (e.1 < s.serial) && decide (e.2.batch ≠ s.batch))
  | _, _ => false

theorem alone_sound {i : Instr} {s : State} {pl : Nat} {t : Thread} (h : alone i s pl t = true) : Alone i s pl t := by
  unfold alone at h
  split at h
  · rename_i f x hi hx
    simp only [Bool.and_eq_true, beq_iff_eq, Bool.not_eq_true', decide_eq_true_eq, List.all_eq_true] at h
    obtain ⟨⟨⟨⟨⟨⟨hl, ht⟩, hh⟩, hs⟩, hst⟩, hg⟩, ho⟩ := h
    refine ⟨f, x, ⟨hi, hx, hh, hs, hst, by simp [hl]⟩, ?_, ho, ⟨by simp [hl], ht, hg⟩, ?_, ?_⟩
    · intro q hq u hu tr
      obtain rfl : q = pl := by simpa [hl] using hq
      obtain rfl : t = u := by simpa [ht] using hu
      simp [hg]
    · rintro q u ⟨hq, hu, -⟩
      obtain rfl : q = pl := by simpa [hl] using hq
      exact ⟨rfl, by simpa [ht] using hu.symm⟩
    · intro q hq
      obtain rfl : q = pl := by simpa [hl] using hq
      exact ⟨t, by simp [hl], ht, hg⟩
  · cases h

/-- Where one thread acts for the issue group: the thread alone in it is the one. -/
theorem led_sound {i : Instr} {s : State} {slot : BitVec 3} {pl : Nat} {t : Thread} (h : alone i s pl t = true) (hl : leader i s = some pl)
    (hr : (ledParticipants i s).all (fun p => match s.groups.get (placeGroup p.1.pl) with
      | some g => decide (g.sb.getD slot.toNat 0 < 63)
      | none => true) = true) : ∃ f x, Led s i f x slot pl := by
  obtain ⟨f, x, hw, hn, hf, hru, -, hall⟩ := alone_sound h
  have hlanes : x.lanes = [pl] := by
    unfold alone at h
    simp only [hw.info, hw.issue, Bool.and_eq_true, beq_iff_eq] at h
    exact h.1.1.1.1.1.1
  refine ⟨f, x, hw, hf, by simp [hlanes], hl, ?_, ?_⟩
  · intro q hq u hu tr
    obtain rfl : q = pl := by simpa [hlanes] using hq
    rw [if_pos (le_refl _)]
    exact hn q hq u hu tr
  · intro p hp g hg
    have := List.all_eq_true.mp hr p hp
    simpa [hg] using this

/-! ### One legal instruction of each row -/

/-- Integer, move and predicate instructions. -/
def integerSamples : List Instr :=
  [.nop (w1 120 120 120), .iadd (w1 4 2 3), .isub (w1 4 2 3), .imul (w1 4 2 3), .imulh (w1 4 2 3), .imulhu (w1 4 2 3),
   .imad (w1 4 2 3) (xa 0 5), .imin (w1 4 2 3), .imax (w1 4 2 3), .iminu (w1 4 2 3), .imaxu (w1 4 2 3), .and (w1 4 2 3), .or (w1 4 2 3),
   .xor (w1 4 2 3), .shl (w1 4 2 3), .shr (w1 4 2 3), .sar (w1 4 2 3), .iadd64 (w1 4 2 6), .isub64 (w1 4 2 6), .imadw (w1 4 2 3) (xa 0 6),
   .sel (w1 4 2 3) (xa 0 120 1), .movi (w1 4 120 120) 9, .iaddi (w1 4 2 120) 9, .icmp (w1 1 2 3) (xa 0 120 2), .bool3 (w1 4 2 3) (xa 0xE8 5),
   .dsh (w1 4 2 3) (xa 0 5), .bitf (w1 4 2 0), .pbool (w1 1 2 3) (xa 0xE8 4), .v2p (w1 120 2 3), .p2v (w1 4 120 120), .mov (w1 4 2 120),
   .rdsp (w1 4 120 7)]
/-- Float instructions and conversions. -/
def floatSamples : List Instr :=
  [.faddF32 (w1 4 2 3), .fsubF32 (w1 4 2 3), .fmulF32 (w1 4 2 3), .ffmaF32 (w1 4 2 3) (xa 0 5), .fminF32 (w1 4 2 3), .fmaxF32 (w1 4 2 3),
   .fcmpF32 (w1 1 2 3) (xa 0 120 2), .funaF32 (w1 4 2 1), .faddF64 (w1 4 2 6), .fsubF64 (w1 4 2 6), .fmulF64 (w1 4 2 6),
   .ffmaF64 (w1 4 2 6) (xa 0 8), .fminF64 (w1 4 2 6), .fmaxF64 (w1 4 2 6), .fcmpF64 (w1 1 2 6) (xa 0 120 2), .funaF64 (w1 4 2 1),
   .pkadd (w1 4 2 3) (xa 0), .pkmul (w1 4 2 3) (xa 0), .pkfma (w1 4 2 3) (xa 0 5), .pkmin (w1 4 2 3) (xa 1), .pkmax (w1 4 2 3) (xa 1),
   .pkcmp (w1 1 2 3) (xa 0 120 2), .cvt (w1 4 2 120) (xa 0x40), .cvtn (w1 4 2 3) (xa 0x64), .cvtw (w1 4 2 120) (xa 0x46),
   .cblu (w1 4 2 120) (xa 0), .dot2 (w1 4 2 3) (xa 0 5)]
/-- Across lanes, and control. -/
def laneSamples : List Instr :=
  [.shfl (w1 4 2 3) (xa 0), .xgath (w1 4 2 3) (xa 4), .vote (w1 1 120 120) (xa 0 120 1), .matchLanes (w1 4 2 120) (xa 0),
   .compact (w1 4 120 120) (xa 0 120 1), .redx (w1 4 2 120) (xa 0x10 120 12), .scanx (w1 4 2 120) (xa 0x18 120 12),
   .bra (w1 120 120 120) 0x40, .brx (w1 120 2 120), .call (w1 4 120 120) 0x40, .callx (w1 4 2 120), .ret (w1 120 2 120),
   .exit (w1 120 120 120), .sleept (w1 120 2 120), .fwaitTest (w1 1 2 3) (xz 0 0), .fwaitWait (w1 120 2 3) (xz 1 0),
   .fwaitWaitp (w1 120 2 3) (xz 2 0 6)]
/-- Those that touch only registers. -/
def registerSamples : List Instr := integerSamples ++ (floatSamples ++ laneSamples)

/-- Those of user threads that issue an operation, wait or trap. -/
def operationSamples : List Instr :=
  [.sfu (w1 4 2 120) (xs 0), .fdiv (w1 4 2 3) (xs 0), .fsqrt (w1 4 2 120) (xs 0), .cbload (w1 120 2 120) (xe 0 3), .ld (w1 4 2 120) (xm 2),
   .st (w1 120 2 3) (xm 2), .lds (w1 4 2 120) (xm 2), .sts (w1 120 2 3) (xm 2), .ldln (w1 4 2 120) (xm 5), .atom (w1 4 2 6) (xt 0 1),
   .cas (w1 4 2 6) (xt 0 1 7), .red (w1 120 2 6) (xt 0 1), .fence (w1 120 120 120) (xm 0 0 0 2), .pref (w1 120 2 120) (xm 0),
   .cflush (w1 120 2 6) (xm 0), .xlq (w1 4 2 120) (xe 0 0), .launch (w1 4 2 120) (xe 0 3), .svc (w1 4 2 3) (xe 0 9 5),
   .barSync (w1 120 120 120) (xz 0 1), .barArrive (w1 120 120 120) (xz 1 1), .barWait (w1 120 120 120) (xz 2 1), .trap (w1 120 2 120) (xz 0 9),
   .towrec (w1 4 2 3) (xe 0 2), .towiter (w1 120 120 120) (xe 0 2), .towplay (w1 4 120 120) (xe 0 2), .towstop (w1 4 120 120) (xe 0 2),
   .towstat (w1 4 120 120) (xe 0 2), .towdrop (w1 4 120 120) (xe 0 2)]

/-- Those of producers. -/
def producerSamples : List Instr :=
  [.ferryCopy (w1 4 2 120) (xe 0 0), .ferryMcast (w1 4 2 120) (xe 1 0), .ferryGather (w1 4 2 120) (xe 2 0), .ferryScatter (w1 4 2 120) (xe 3 0),
   .ferryExp24 (w1 4 2 120) (xe 4 0), .ferryCmp24 (w1 4 2 120) (xe 5 0), .ferryTier (w1 4 2 120) (xe 6 0), .lmark (w1 120 2 120) (xe 0 0)]

/-- Those of consumers in a crew. -/
def crewSamples : List Instr :=
  [.mxop (w1 120 8 40) (xe 4 0 2), .mxdrainRegs (w1 16 2 120) (xe 0 0), .mxdrainScratch (w1 120 2 120) (xe 1 0),
   .mxdrainPeer (w1 120 2 120) (xe 2 0), .mxdrainPeerord (w1 120 2 120) (xe 3 0), .mxpod (w1 120 2 120) (xe 0 0),
   .mxrelOne (w1 120 120 120) (xe 0 0), .mxrelAll (w1 120 120 120) (xe 1 0)]

/-- Those of the supervisor. -/
def supervisorSamples : List Instr :=
  [.mapsync (w1 4 2 6) (xe 0 0 7), .refit (w1 4 2 6) (xe 0 0 7), .mbxrd (w1 4 2 120) (xe 0 0), .mbxwr (w1 4 2 3) (xe 0 0 6),
   .ctxSave (w1 4 2 6) (xe 0 0), .ctxLoad (w1 4 2 6) (xe 1 0), .ctxPreempt (w1 4 120 6) (xe 2 0), .ctxResume (w1 4 120 6) (xe 3 0),
   .ctxAbort (w1 4 120 6) (xe 4 0), .srmovRead (w1 4 120 120) (xe 0 0x110), .srmovWrite (w1 120 2 120) (xe 1 0x110)]

end Sys2Proof.Tests
end

