-- ==== Sys2Proof/Tests/Witnesses.lean ====
section
/-! SUPPORT. For every statement with hypotheses, a concrete state and operands that meet all of them together, and for each clause of
one with several, values at the ends of its range where it has a range. -/

namespace Sys2Proof.Tests

open Sys2Proof Sys2Proof.Machine Sys2Proof.Spec

set_option maxRecDepth 20000
set_option Elab.async false

/-! ### Encodings, runs and checks -/

/-- DecodeOfEncode: every sample is well-formed. -/
theorem witness_well_formed : ∀ i ∈ registerSamples ++ operationSamples ++ producerSamples ++ crewSamples ++ supervisorSamples,
    i.wf = true ∧ i.isEvent = false := by decide +kernel

/-- EncodeOfDecode: IADD r12, r1, r2 decodes. -/
theorem witness_decodes : decodeWords 0x03830082 none = .ok (.iadd ⟨12, 12, 1, 2⟩) := by decide +kernel

/-- StepRunsTheInstruction: a turn of scheduler 0 at a one-word instruction, and an event's turn. -/
theorem witness_step :
    let x : Issue := { run 0 with count := 1, body := [0x03830082] }
    let s : State := { prodAt [] with due := [.issue 0], issues := [(0, x)] }
    s.due = .issue 0 :: [] ∧ s.issues.get 0 = some x ∧ x.skip = false ∧ x.body[x.wix]? = some 0x03830082 ∧
      decodeWords 0x03830082 x.body[x.wix + 1]? = .ok (.iadd ⟨12, 12, 1, 2⟩) ∧
      ({ s with due := [.ev .powerLimitReached] } : State).due = .ev .powerLimitReached :: [] ∧ Instr.isEvent .powerLimitReached = true := by
  decide +kernel

/-- RunsAndHeaders: the header of one ALU word (R30), and a run that the walk finds good. -/
theorem witness_header : (headerOf 0xF8200000).isSome = true := by decide +kernel
/-- A memory with the run of one IADD at 0x10000. -/
def code : List Host.Cell := [(0x10002, 0x20), (0x10003, 0xF8), (0x10004, 0x82), (0x10006, 0x83), (0x10007, 0x03)]
/-- A producer that stands at that run, filed. -/
def waiting : State :=
  { prodAt [] with
    mem := { cells := code }, issues := []
    threads := [(0, { user 0 [] with st := .ready })]
    entries := [{ core := 0, team := 1, role := 0, addr := 0x10000, slot := none, members := [0], hdr := 0xF8200000, cls := 0 }] }
theorem witness_run_good : ∃ h, walkRun waiting 1 0x10000 false = .good h [0x03830082] := ⟨_, rfl⟩

/-- IssueGroups: scheduler 0 of that state chooses it. -/
theorem witness_choose_run :
    let s0 := refile waiting 0
    0 < 768 ∧ waiting.issues.get 0 = none ∧ ∃ c, chosen s0 (s0.scheds.getD 0 {}) (candidates s0 0) = some c ∧
      (∃ h body, walkRun s0 1 c.entry.addr c.sup = .good h body) ∧ c.group = [0] ∧
      ∃ t, c.group.head?.bind s0.threads.get = some t ∧ t.st = .ready := by
  refine ⟨by decide, rfl, _, rfl, ⟨_, _, rfl⟩, rfl, _, rfl, rfl⟩

/-- GuardAndChecks: an operand set for each outcome of the checks. -/
theorem witness_checks :
    let t := user 0 []
    let s := prodAt []
    let e := envOf s 0 t
    let low : Env := { e with budget := 8 }
    let bad : Thread := { t with p := t.p.set 3 { pois := .bad 0 false } }
    let f := fun (i : Instr) => i.info.getD default
    let i1 : Instr := .iadd ⟨3, 4, 2, 3⟩
    gate s (.iadd (w1 4 2 3)) (f (.iadd (w1 4 2 3))) e t = .run ∧ gate s i1 (f i1) e t = .skip ∧
      ((f i1).w.g.toNat < 12 ∧ (bad.p.getD 3 {}).pois.isBad = true) ∧ (f (.iadd ⟨13, 4, 2, 3⟩)).w.g.toNat = 13 ∧
      ((f (.cblu (w1 4 2 120) (xa 0))).feat = some 7 ∧ ({ s with mod := { modul with fack := 0 } } : State).feature 7 = false) ∧
      (f (.nop (w1 4 120 120))).enc = false ∧ (infoRegs (f (.iadd (w1 4 2 8)))).any (fun c => decide (c < 112 ∧ low.budget ≤ c)) = true ∧
      (infoRegs (f (.iadd (w1 4 2 3)))).any (fun c => (t.addPend 3 1).pending c) = true := by decide +kernel

/-! ### Arithmetic, moves, predicates, lanes and control -/

/-- The statements of one form about instructions that touch only registers hold at every sample of theirs. -/
theorem witness_registers (i : Instr) (h : i ∈ registerSamples) : Alone i (prodAt []) 0 (user 0 []) :=
  alone_sound ((by decide +kernel : ∀ i ∈ registerSamples, alone i (prodAt []) 0 (user 0 []) = true) i h)

/-- PackedResults: zeros do not overflow, under any policy, and a policy may be other than TRAP. -/
theorem witness_halves : let s := prodAt []; let e := envOf s 0 (user 0 [])
    halvesOk (w1 4 2 3) 120 (halfAdd (xa 0)) s e (user 0 []) ∧ halvesOk (w1 4 2 3) 120 (halfMul (xa 0)) s e (user 0 []) ∧
      halvesOk (w1 4 2 3) 5 (halfFma (xa 0 5)) s e (user 0 []) ∧ (xa 0).ovf ≠ 3 := by
  simp only [halvesOk]; decide +kernel

/-- ConversionResults: zero converts; slot 0 of the team's codebooks is there to be read. -/
theorem witness_conversions : let s := prodAt []; let t := user 0 []; let e := envOf s 0 t
    (cvtSrc 0x40 ≠ 10 ∧ (element (xa 0x40) (scaleVal e t (xa 0x40)) (cvtSource (w1 4 2 120) (xa 0x40) e t)).isSome = true) ∧
      (cvtSrc 0x4A = 10 ∧ Alone (.cvt (w1 4 2 120) (xa 0x4A)) s 0 t ∧ ∃ b, bookAt s e 0 = some b ∧
        (convert 4 0 0 none (fmtBits 4 < fmtBits 10) (fBF16.dec (bookValue b (code4 (srcW e t 2) 0)))).isSome = true) ∧
      (∀ a ∈ cvtnElems (w1 4 2 3) (xa 0x64) e t, (convert 6 0 0 none true (fmtDec 4 a)).isSome = true) ∧
      (∀ a ∈ cvtwElems (w1 4 2 120) (xa 0x46) e t, (convert 4 0 0 none false (fmtDec 6 a)).isSome = true) ∧
      (bookAt s e 0).isSome = true ∧ (dot2Round (xa 0 5) (dot2Value (xa 0 5) (srcW e t 2) (srcW e t 3) (srcW e t 5))).isSome = true := by
  refine ⟨by decide +kernel, ⟨rfl, alone_sound (by decide +kernel), _, rfl, by decide +kernel⟩, by decide +kernel, by decide +kernel,
    by decide +kernel, by decide +kernel⟩

/-- FloatSpecials: in each format a NaN, both infinities, zeros and numbers. -/
theorem witness_specials : ∀ f ∈ [fF64, fF32, fF16, fBF16],
    (f.qnan < 2 ^ f.width ∧ f.dec f.qnan = .nan) ∧ (f.infBits false < 2 ^ f.width ∧ f.dec (f.infBits false) = .inf false) ∧
      (f.infBits true < 2 ^ f.width ∧ f.dec (f.infBits true) = .inf true) ∧ (∃ e, f.dec 0 = .fin false 0 e) ∧
      (∃ e, f.dec f.signBit = .fin true 0 e) ∧ f.dec (f.maxBits false) ≠ .nan ∧ f.dec (f.maxBits false) ≠ .inf false ∧
      f.dec (f.maxBits false) ≠ .inf true := by
  intro f hf
  fin_cases hf <;> exact ⟨by decide, by decide, by decide, ⟨_, rfl⟩, ⟨_, rfl⟩, by decide, by decide, by decide⟩
theorem witness_representable : ∀ f ∈ [fF64, fF32, fF16, fBF16, fF8A, fF8B], f.maxBits true < 2 ^ f.width ∧ f.dec (f.maxBits true) ≠ .nan := by
  decide +kernel

/-- ReductionTree: the sum is associative. -/
theorem witness_tree : (∀ a b c : Nat, a + b + c = a + (b + c)) ∧ (List.replicate 32 (some 1)).length = 32 :=
  ⟨Nat.add_assoc, rfl⟩

/-- RegistersAndRecords: a pair at the edge of each range of codes. -/
theorem witness_register_write : let t := user 0 []
    t.k.length = 8 ∧ (110 + 2 ≤ t.v.length ∧ t.v.length ≤ 112) ∧ (112 ≤ 118 ∧ 118 + 2 ≤ 120) := by decide +kernel
/-- A ring at its last place, with a register whose tag names it and one whose tag names another. -/
theorem witness_new_record :
    let t : Thread := { user 0 [] with ringNext := 3, v := [{ pois := .bad 3 false }, { pois := .bad 1 true }] }
    t.ring.length = 4 ∧ t.ringNext < 4 ∧ (t.v.getD 0 {}).pois = .bad 3 false ∧ (t.v.getD 1 {}).pois = .bad 1 true ∧
      (3 : BitVec 2).toNat = t.ringNext ∧ (1 : BitVec 2).toNat ≠ t.ringNext := by decide +kernel

/-- SpecialAndControl: a clean pair. -/
theorem witness_clean_pair : cleanPair (w1 4 2 120) (prodAt []) (envOf (prodAt []) 0 (user 0 [])) (user 0 []) := by
  simp only [cleanPair]; decide +kernel

/-- RunEnds: the last word of a run of one. -/
theorem witness_run_ends :
    let x : Issue := { run 0 with count := 1 }
    let s : State := { prodAt [] with issues := [(0, x)] }
    s.issues.get 0 = some x ∧ x.stall = false ∧ x.lanes ≠ [] ∧ x.lanes.Nodup ∧ x.count ≤ x.wix + 1 ∧
      ∃ t, s.threads.get 0 = some t ∧ t.st ≠ .exited ∧ t.exiting = false := by
  refine ⟨rfl, rfl, by decide, by decide, by decide, _, rfl, by decide, rfl⟩
theorem witness_run_ends_exiting : ({ user 0 [] with exiting := true } : Thread).st ≠ .exited := by decide

/-- Barriers: SYNC of the team, ARRIVE of the consumers, WAIT of the crew. -/
def bars : List (Instr × ExtE) :=
  [(.barSync (w1 120 120 120) (xz 0 1), xz 0 1), (.barArrive (w1 120 120 120) (xz 9 1), xz 9 1), (.barWait (w1 120 120 120) (xz 14 1), xz 14 1)]
theorem witness_barriers : ∀ i ∈ bars, let s := consAt []
    (Alone i.1 s 32 (user 1 []) ∧ inScope s (envOf s 32 (user 1 [])) (barScope i.2) = true) ∧ isSup 32 = false ∧ ([32].map placeLane).Nodup ∧
      s.teams.get (user 1 []).team = some team ∧ s.ops = [] := by
  intro i hi
  have h := (by decide +kernel : ∀ i ∈ bars, alone i.1 (consAt []) 32 (user 1 []) = true ∧
    inScope (consAt []) (envOf (consAt []) 32 (user 1 [])) (barScope i.2) = true) i hi
  exact ⟨⟨alone_sound h.1, h.2⟩, rfl, by decide, rfl, rfl⟩
/-- An instance at which the thread has arrived. -/
theorem witness_arrived : let y := xz 0 1
    let s := consAt []
    let key := barInst s (envOf s 32 (user 1 [])) y
    let s1 : State := { s with teams := [(1, { team with bars := [(key, { arrived := [tidOf 32 (user 1 [])] })] })] }
    hasArrived s1 32 (user 1 []) key = true ∧ hasArrived s 32 (user 1 []) key = false := by decide +kernel

/-- BarrierPhases: a phase for which the one live thread has arrived, and one for which it has not. -/
theorem witness_phase :
    let b : Barrier := { arrived := [32] }
    let tm : Team := { team with bars := [(16, b), (32, {})] }
    let s : State := { consAt [] with teams := [(1, tm)] }
    s.teams.get 1 = some tm ∧ tm.bars.get 16 = some b ∧ tm.bars.get 32 = some {} ∧ (barPlaces tm 16).filter s.live = [32] ∧ b.owed = 0 ∧
      (∀ pl ∈ [32], ∃ t, s.threads.get pl = some t ∧ tidOf pl t ∈ b.arrived) := by
  refine ⟨rfl, rfl, rfl, by decide +kernel, rfl, ?_⟩
  intro pl h
  obtain rfl : pl = 32 := by simpa using h
  exact ⟨_, rfl, by decide⟩

/-- Two threads of one issue group. -/
def two (t u : Thread) : State :=
  { consAt [] with threads := [(32, t), (33, u)], issues := [(0, { run 32 with lanes := [32, 33] })] }
/-- BarMixedGuards: p0 is true in one thread and false in the other. -/
theorem witness_mixed :
    let i : Instr := .barSync ⟨0, 120, 120, 120⟩ (xz 0 1)
    let t : Thread := { user 1 [] with p := (user 1 []).p.set 0 { val := true } }
    let s := two t (user 1 [])
    ∃ f x, AtWord s i f x ∧ f.enc = true ∧ x.lanes = [32, 33] ∧ (∀ pl ∈ x.lanes, isSup pl = false) ∧
      s.threads.get 32 = some t ∧ s.threads.get 33 = some (user 1 []) ∧ gate s i f (envOf s 32 t) t = .run ∧
      gate s i f (envOf s 33 (user 1 [])) (user 1 []) = .skip :=
  ⟨_, _, ⟨rfl, rfl, rfl, rfl, rfl, by decide⟩, by decide, rfl, by decide, rfl, rfl, by decide +kernel, by decide +kernel⟩

/-- TrapsTaken: a guard that does not exist, and one that is false; TRAP with a clean operand and with a poisoned one. -/
theorem witness_traps :
    let i : Instr := .iadd ⟨13, 4, 2, 3⟩
    let t := user 1 []
    let s := consAt []
    (∃ f x, AtWord s i f x ∧ f.op < 0x47 ∧ x.lanes = [32] ∧ isSup 32 = false ∧ ∃ tr, gate s i f (envOf s 32 t) t = .trap tr) ∧
      (∃ f, (Instr.iadd ⟨0, 4, 2, 3⟩).info = some f ∧ gate s (.iadd ⟨0, 4, 2, 3⟩) f (envOf s 32 t) t = .skip) ∧
      (Alone (.trap (w1 120 2 120) (xz 0 9)) s 32 t ∧ (srcP (envOf s 32 t) t 2).isBad = false) ∧
      (let u : Thread := { t with v := t.v.set 2 { pois := .bad 0 false } }
       Alone (.trap (w1 120 2 120) (xz 0 9)) (at1 32 u) 32 u ∧ (srcP (envOf (at1 32 u) 32 u) u 2).isBad = true) := by
  refine ⟨⟨_, _, ⟨rfl, rfl, rfl, rfl, rfl, by decide⟩, by decide, rfl, rfl, _, rfl⟩, ⟨_, rfl, by decide +kernel⟩,
    ⟨alone_sound (by decide +kernel), by simp only [srcP]; decide +kernel⟩, ⟨alone_sound (by decide +kernel), by simp only [srcP]; decide +kernel⟩⟩
/-! ### Memory instructions -/

theorem lockTrap_none {s : State} (h : s.mem.locks = []) (a : Acc) (g k : Nat) (w : Bool) : lockTrap s a g k w = none := by
  simp only [lockTrap, lockHit, h, List.findSome?_nil]
theorem unlocked_of {s : State} (h : s.mem.locks = []) (e : Env) (r : Except FRec Acc) (k : Nat) (w : Bool) : unlocked s e r k w :=
  fun _ _ => lockTrap_none h _ _ _ _

/-- The statements about instructions that issue an operation: each stands at a word, with a slot that has room. -/
theorem witness_operations (i : Instr) (h : i ∈ operationSamples) :
    Alone i (prodAt []) 0 (user 0 []) ∧ slotFull i (prodAt []) 1 = false := by
  have := (by decide +kernel : ∀ i ∈ operationSamples, alone i (prodAt []) 0 (user 0 []) = true ∧ slotFull i (prodAt []) 1 = false) i h
  exact ⟨alone_sound this.1, this.2⟩
/-- The same where the slot is full. -/
theorem witness_slot_full : let s : State := { prodAt [] with groups := [(0, { team := 1, gid := 0, sb := [0, 63, 0, 0, 0, 0, 0, 0] })] }
    ∀ i ∈ operationSamples, alone i s 0 (user 0 []) = true ∧ slotFull i s 1 = true ∧ s.ops = [] := by decide +kernel

/-- A page of device memory to be written, one of a peer, of coherent and of other host memory, and one to be read only. -/
def dev : List (Nat × Nat) := [(2, 0x1000), (6, 64)]
def peer : List (Nat × Nat) := [(2, 0x100000), (6, 64)]
def other : List (Nat × Nat) := [(2, 0x300000), (6, 64)]
def readOnly : List (Nat × Nat) := [(2, 0x400000), (6, 64)]
def envP (l : List (Nat × Nat)) : Env := envOf (prodAt l) 0 (user 0 l)

/-- LoadsAndStoresIssue: loads that pass their checks, at scope t and at fabric scope, and one that fails. -/
theorem witness_loads : loadOk (prodAt dev) (envP dev) (user 0 dev) (w1 4 2 120) (xm 2) (loadCheck (prodAt dev) (envP dev) (user 0 dev) (w1 4 2 120) (xm 2)) ∧
    (∃ a, loadCheck (prodAt dev) (envP dev) (user 0 dev) (w1 4 2 120) (xm 2) = .ok a) ∧
    loadOk (prodAt dev) (envP dev) (user 0 dev) (w1 4 2 120) (xm 5 1 1 3) (lineCheck (prodAt dev) (envP dev) (user 0 dev) (w1 4 2 120) (xm 5 1 1 3)) ∧
    (∃ r, loadCheck (prodAt [(2, 0x900000)]) (envP [(2, 0x900000)]) (user 0 [(2, 0x900000)]) (w1 4 2 120) (xm 2) = .error r) := by
  refine ⟨⟨by decide +kernel, by decide +kernel, .inr ?_, unlocked_of rfl _ _ _ _⟩, ⟨_, rfl⟩,
    ⟨by decide +kernel, by decide +kernel, .inr ?_, unlocked_of rfl _ _ _ _⟩, ⟨_, rfl⟩⟩
  · intro h; exact absurd h (by decide)
  · intro _ _; exact ⟨rfl, fun h => absurd h (by decide)⟩
theorem witness_scratch_loads : (srcP (envP []) (user 0 []) 2).isBad = false ∧
    unlocked (prodAt []) (envP []) (ldsCheck (envP []) (user 0 []) (w1 4 2 120) (xm 2)) 0 false ∧
    ∃ a, ldsCheck (envP []) (user 0 []) (w1 4 2 120) (xm 2) = .ok a :=
  ⟨by decide +kernel, unlocked_of rfl _ _ _ _, _, rfl⟩
/-- Stores that pass their checks, and one onto a page that may only be read. -/
theorem witness_stores :
    storeOk (prodAt dev) (envP dev) (user 0 dev) (w1 120 2 3) (xm 2) (stCheck (prodAt dev) (envP dev) (user 0 dev) (w1 120 2 3) (xm 2)) ∧
    storeOk (prodAt []) (envP []) (user 0 []) (w1 120 2 3) (xm 2) (stsCheck (envP []) (user 0 []) (w1 120 2 3) (xm 2)) ∧
    (∃ r, stCheck (prodAt readOnly) (envP readOnly) (user 0 readOnly) (w1 120 2 3) (xm 2) = .error r) ∧
    (Alone (.st (w1 120 2 3) (xm 2)) (prodAt readOnly) 0 (user 0 readOnly) ∧ isSup 0 = false) :=
  ⟨⟨by decide +kernel, unlocked_of rfl _ _ _ _, _, rfl, by decide +kernel⟩, ⟨by decide +kernel, unlocked_of rfl _ _ _ _, _, rfl, by decide +kernel⟩,
    ⟨_, rfl⟩, alone_sound (by decide +kernel), rfl⟩
/-- A store to a peer within reach of link 0. -/
def linked (s : State) : State := { s with mod := { s.mod with links := s.mod.links.set 0 { st := .active, lanes := 8, peer := 1 } } }
theorem witness_peer_store :
    ∃ a, stCheck (linked (prodAt peer)) (envP peer) (user 0 peer) (w1 120 2 3) (xm 2) = .ok a ∧
      peerLost (linked (prodAt peer)) a = false ∧ a.kind = 1 := ⟨_, rfl, by decide +kernel, by decide +kernel⟩

/-- AccessChecks: an address for each clause. -/
theorem witness_access_checks : let s := prodAt []; let w := (envP []).who
    windowOf 0x1000 = windowOf 0x1003 ∧ 0x1000 % 4 = 0 ∧ windowOf 0x1000 ≠ 1 ∧ 0x1002 % 4 ≠ 0 ∧
    windowOf (scratchBase - 2) ≠ windowOf ((scratchBase - 2 + 4 - 1) % 2 ^ 64) ∧
    (windowOf (scratchBase + 4096) = 1 ∧ w.bound < scratchBase + 4096 - scratchBase + 4) ∧
    (windowOf (scratchBase + 4092) = 1 ∧ scratchBase + 4092 - scratchBase + 4 ≤ w.bound) ∧
    (transVa s w.asid (globalVa s w 0x900000)).page = none ∧
    (∃ p a, (transVa s w.asid (globalVa s w 0x400000)).page = some (p, a) ∧ a.perm.testBit 1 = false) ∧
    (∃ p a, (transVa s w.asid (globalVa s w 0xFFFFC)).page = some (p, a) ∧ a.perm.testBit 1 = true) := by
  refine ⟨by decide +kernel, by decide, by decide +kernel, by decide, by decide +kernel, by decide +kernel, by decide +kernel, by decide +kernel,
    ⟨_, _, rfl, by decide +kernel⟩, ⟨_, _, rfl, by decide +kernel⟩⟩

/-- AtomicsIssue: an atomic in device memory, and one that goes out as a PCIe AtomicOp (a fetch and add of scope s). -/
theorem witness_atomics : (∀ p ∈ [(false, xt 0 1), (true, xt 0 1 7)], atomOk p.1 (prodAt dev) (envP dev) (user 0 dev) (w1 4 2 6) p.2) := by
  intro p hp
  fin_cases hp <;> exact ⟨by decide +kernel, by decide +kernel, by decide +kernel, .inr (fun h => absurd h (by decide)), unlocked_of rfl _ _ _ _,
    _, _, rfl, by decide +kernel, rfl, by decide +kernel⟩
theorem witness_pcie : let x : ExtT := { xt 0 1 with scope := 4 }
    Alone (.atom (w1 4 2 6) x) (prodAt other) 0 (user 0 other) ∧ (∀ port, pcieOut (prodAt other) port + 1 ≤ 64) ∧
    (srcDP (envP other) (user 0 other) 2).isBad = false ∧ (x.scope = 3 → False) ∧
    ∃ a, atomCheck (prodAt other) (envP other) (user 0 other) (w1 4 2 6) x = .ok a ∧ peerLost (prodAt other) a = false ∧
      atomPlace (prodAt other) a.kind 4 false 0 1 = some .pcie :=
  ⟨alone_sound (by decide +kernel), fun _ => (by decide : 0 + 1 ≤ 64), by decide +kernel, fun h => absurd h (by decide), _, rfl, by decide +kernel, by decide +kernel⟩

/-- LongFunctions: F32 and F64 forms are among the samples and these; special operands as for FloatSpecials. -/
theorem witness_long : ∀ i ∈ [Instr.sfu (w1 4 2 120) (xs 8), .fdiv (w1 4 2 6) (xs 1), .fsqrt (w1 4 2 120) (xs 1)],
    alone i (prodAt []) 0 (user 0 []) = true := by decide +kernel
theorem witness_long_specials : sfuSpecial 1 0 = some 0x7F800000 ∧ (∀ fn < 8, sfuSpecial fn 0x40400000 = none) ∧ (∃ n m e, fF32.dec 0x40400000 = .fin n m e) ∧ (0 < 2 ^ 32 ∧ fF32.dec 0 ≠ .nan) ∧ (∀ f ∈ [fF32, fF64],
    (∃ k e, f.dec (f.maxBits false) = .fin false (k + 1) e) ∧ (∃ k e, f.dec (f.maxBits true) = .fin true (k + 1) e)) := by
  refine ⟨by decide +kernel, by decide +kernel, ⟨_, _, _, rfl⟩, by decide +kernel, ?_⟩
  intro f hf
  fin_cases hf <;> exact ⟨⟨_, _, rfl⟩, ⟨_, _, rfl⟩⟩

/-- OtherIssue: XLQ by a user, PREF and CFLUSH with something to do and with nothing, CBLOAD of a mapped and of an unmapped address. -/
theorem witness_other_issue :
    ((srcDP (envP dev) (user 0 dev) 2).isBad = false ∧ (srcP (envP dev) (user 0 dev) 120).isBad = false) ∧
    (∃ a, checkAcc (prodAt dev) (envP dev).who (addrM (envP dev) (user 0 dev) (w1 120 2 120) (xm 0)) 1 0 0 1 0 0 = .ok a ∧ a.kind ≠ 1 ∧ a.kind ≠ 4) ∧
    (∃ a, checkAcc (prodAt peer) (envP peer).who (addrM (envP peer) (user 0 peer) (w1 120 2 120) (xm 0)) 1 0 0 1 0 0 = .ok a ∧ a.kind = 1) ∧
    (Alone (.cflush (w1 120 2 6) (xm 0)) (prodAt other) 0 (user 0 other) ∧ (srcW (envP other) (user 0 other) 6).toNat = 64 ∧
      ∃ a y, checkAcc (prodAt other) (envP other).who (addrM (envP other) (user 0 other) (w1 120 2 6) (xm 0)) 1 0 0 1 0 0 = .ok a ∧
        a.loc = .phys y ∧ a.kind = 3) ∧
    ((srcW (envP []) (user 0 []) 6).toNat = 0) ∧
    (∃ a, checkAcc (prodAt dev) (envP dev).who 0x1000 32 0 8 32 0 0 = .ok a) ∧ (∃ r, checkAcc (prodAt dev) (envP dev).who 0x900000 32 0 8 32 0 0 = .error r) ∧
    (∃ f z, Led (prodAt dev) (.cbload (w1 120 2 120) (xe 0 3)) f z 1 0) ∧ (srcDP (envP dev) (user 0 dev) 2).isBad = false := by
  refine ⟨by decide +kernel, ⟨_, rfl, by decide +kernel, by decide +kernel⟩, ⟨_, rfl, by decide +kernel⟩,
    ⟨alone_sound (by decide +kernel), by decide +kernel, _, _, rfl, rfl, by decide +kernel⟩, by decide +kernel, ⟨_, rfl⟩, ⟨_, rfl⟩,
    led_sound (t := user 0 dev) (by decide +kernel) (by decide +kernel) (by decide +kernel), by decide +kernel⟩
/-! ### Outstanding operations -/

/-- An operation of the thread at place 0, numbered 2, with a destination r4 where `n` is not 0. -/
def opOf' (k : OpKind) (n : Nat) : Op :=
  { kind := k, th := 0, ths := if n = 0 then [] else [0], grps := [0], slot := some 1, batch := 2, dst := if n = 0 then 120 else 4, nd := n }
def withOp (s : State) (o : Op) : State :=
  { s with ops := [(2, o)], groups := [(0, { team := 1, gid := 0, sb := [0, 1, 0, 0, 0, 0, 0, 0] })], issues := [],
           threads := [(0, ({ user 0 [] with st := .ready } : Thread).addPend o.dst o.nd)] }
def accOf (l : Loc) (n : Nat) : Acc := ⟨l, 0x1000, n, 0, 0, false, 0, 1, 0, 1, 0⟩
def inScratch : Acc := { accOf (.scratch 1 8) 4 with kind := 4 }
def inDevice : Acc := accOf (.phys 0x1000) 4
def inPeer : Acc := { accOf (.phys (physOf 1 (2 ^ 39))) 4 with kind := 1 }
def inHost : Acc := { accOf (.phys (physOf 2 0x300000)) 4 with kind := 3 }

/-- LoadsAndLeases, clause by clause. -/
theorem witness_load_complete :
    (let o := opOf' (.loadBad {}) 1; OwnOp (withOp (prodAt []) o) 2 o) ∧
    (let o := opOf' (.load inScratch false none) 1; OwnOp (withOp (prodAt []) o) 2 o ∧ blocked (withOp (prodAt []) o) 2 o = false) ∧
    (let o := opOf' (.load inDevice false (some ([1, 2, 3, 4], none))) 1; OwnOp (withOp (prodAt []) o) 2 o ∧ spaceOf 0x1000 ≠ 1) ∧
    (let o := opOf' (.load inScratch true none) 1
     let s : State := { withOp (prodAt []) o with ops := [(2, o), (3, { o with th := 1, ths := [1] })] }
     OwnOp s 2 o ∧ (s.ops.map (·.1)).Nodup ∧ (lineMates s 2 o inScratch true).map (·.1) = [2, 3] ∧ blocked s 2 o = false ∧ blocked s 3 { o with th := 1, ths := [1] } = false) ∧
    (let o := opOf' (.load inPeer false none) 1; OwnOp (withOp (prodAt []) o) 2 o ∧ blocked (withOp (prodAt []) o) 2 o = false ∧
      spaceOf (physOf 1 (2 ^ 39)) = 1 ∧ sendHeld (linked (withOp (prodAt []) o)) (peerOf (physOf 1 (2 ^ 39))) = false ∧
      peerLost (linked (withOp (prodAt []) o)) inPeer = false ∧
      (let s : State := { withOp (prodAt []) o with mod := { modul with desync := true } }
       sendHeld s (peerOf (physOf 1 (2 ^ 39))) = false ∧ peerLost s inPeer = true)) := by
  refine ⟨⟨rfl, rfl, by decide⟩, ⟨⟨rfl, rfl, by decide⟩, by decide +kernel⟩, ⟨⟨rfl, rfl, by decide⟩, by decide +kernel⟩,
    ⟨⟨rfl, rfl, by decide⟩, by decide +kernel, by decide +kernel, by decide +kernel, by decide +kernel⟩, ⟨rfl, rfl, by decide⟩, by decide +kernel, by decide +kernel, by decide +kernel, by decide +kernel, by decide +kernel, by decide +kernel⟩
/-- A copy in the L1 of core 0 whose lease runs, of a line in use. -/
def copy : Copy := { data := zeros 64, exp := 1001600, granted := 900000 }
theorem witness_hit :
    let o := opOf' (.load inDevice false none) 1
    let s : State := { withOp (prodAt []) o with mem := { l1 := [(copyKey 0 0x1000, copy)] } }
    OwnOp s 2 o ∧ s.mem.l1.get (copyKey (placeCore o.th) 0x1000) = some copy ∧ copy.leased s.mod = true ∧
      (∃ t, s.threads.get o.th = some t ∧ t.fenceAt ≤ copy.granted) ∧ ∀ e ∈ s.ops, e.1 < 2 → holdsBack e.2 o = false :=
  ⟨⟨rfl, rfl, by decide⟩, by decide +kernel, by decide +kernel, ⟨_, rfl, by decide⟩, by decide +kernel⟩
/-- The same with an earlier store of the thread to that line on its way. -/
theorem witness_hit_behind :
    let o := opOf' (.load inDevice false none) 1
    let p := { opOf' (.store inDevice [1, 2, 3, 4]) 0 with sent := some 1 }
    holdsBack p o = true ∧ p.allOut = true ∧ p.acq = none := by decide +kernel
/-- A line of die 1 in the RDC of die 0. -/
theorem witness_rdc_hit :
    let y := 0x1800000000
    let o := opOf' (.load { inDevice with loc := .phys y } false none) 1
    let s : State := { withOp (prodAt []) o with mem := { rdc := [(copyKey 0 y, copy)] } }
    s.mem.l1.get (copyKey 0 y) = none ∧ remote 0 y = true ∧ s.mem.rdc.get (copyKey (dieOf 0) y) = some copy ∧ blocked s 2 o = false ∧ spaceOf y ≠ 1 := by
  decide +kernel
theorem witness_leases :
    leased { prodAt [] with mod := { modul with timeFault := [true, false, false, false] } } (dieOf 0) = false ∧ leased (prodAt []) (dieOf 0) = true ∧
      (l1Room (prodAt []) 0 0x1000).isSome = true ∧ copy.exp % 16 = 0 ∧ modul.lsrdc < 2 ^ 27 - 32 ∧ modul.now < copy.exp ∧ copy.exp ≤ leaseEnd modul.now modul.lsrdc := by
  decide +kernel
theorem witness_home_read :
    let o := opOf' (.load inDevice false none) 1
    let s := withOp (prodAt []) o
    s.ops.get 2 = some o ∧ spaceOf 0x1000 ≠ 1 ∧ blocked s 2 o = false ∧ l1Copy s (askOf s o.th inDevice) 0x1000 = none ∧
      rdcCopy s (askOf s o.th inDevice) 0x1000 = none := by
  decide +kernel

/-- StorePerforms: in the scratchpad; in device memory with another core as a holder whose lease runs, and with none. -/
theorem witness_store_perform :
    (let o := opOf' (.store inScratch [1, 2, 3, 4]) 0
     let s := withOp (prodAt []) o
     s.ops.get 2 = some o ∧ o.ths = [] ∧ o.grps.Nodup ∧ blocked s 2 o = false ∧ Memory.wf s.mem.cells = true ∧ s.teams.get 1 = some team ∧
       Memory.wf team.scratch = true) ∧
    (let o := opOf' (.store inDevice [1, 2, 3, 4]) 0
     let s := withOp (prodAt []) o
     let t : State := { s with mem := { dir := [(0x40, { holders := [(5, 2000000)] })], l1 := [(copyKey 5 0x1000, copy)] } }
     s.ops.get 2 = some o ∧ blocked s 2 o = false ∧ spaceOf 0x1000 = 0 ∧ 0x1000 % 64 + 4 ≤ 64 ∧ behindStore s (placeCore o.th) 0x1000 4 o.sent = false ∧ blocked t 2 o = false ∧
       behindStore t (placeCore o.th) 0x1000 4 o.sent = false ∧
       256 < holderExp t (5, 2000000) - t.mod.now ∧ holderDeaf t (5, 2000000) = false) := by decide +kernel

/-- Revocation: a core's L1, an RDC, and the last acknowledgement. -/
theorem witness_revocation :
    let r : Rev := { sector := 0x40, left := [5, 193, 0], e := 2000000 }
    let o := { opOf' (.store inDevice [1, 2, 3, 4]) 0 with sent := some 1 }
    let s : State := { prodAt [] with
      ops := [(2, o)]
      mem := { revs := [(3, r), (4, { r with left := [] })], l1 := [(copyKey 0 0x1000, copy), (copyKey 5 0x1000, copy), (copyKey 60 0x1000, copy)] } }
    s.mem.revs.get 3 = some r ∧ (5 ∈ r.left ∧ 5 < 192 ∧ s.mem.l1.get (5 * 2 ^ 56 + 0x40) = some copy ∧ pinned s 5 0x40 = false) ∧
      (0 ∈ r.left ∧ pinned s 0 0x40 = true ∧ s.mem.l1.get (0 * 2 ^ 56 + 0x40) = some copy) ∧ (∀ i < 48, pinned s (48 + i) 0x40 = false) ∧
      (193 ∈ r.left ∧ 192 ≤ 193 ∧ s.mem.l1.get (60 * 2 ^ 56 + 0x40) = some copy) ∧ s.mem.revs.get 4 = some { r with left := [] } ∧
      s.threads.get 0 = some (user 0 []) := by decide +kernel

/-- Releases: of a store at the scopes t and d, ready; and at d before the thread's release clock. -/
theorem witness_releases :
    ∀ sc ∈ [1, 2], let o := { opOf' (.store inDevice [1, 2, 3, 4]) 0 with rel := some sc }
      let s := withOp (prodAt []) o
      s.ops.get 2 = some o ∧ releaseReady s 2 o = true ∧ blocked s 2 o = false ∧ s.threads.get o.th = some { user 0 [] with st := .ready } ∧
        s.teams.get 1 = some team ∧
        releaseReady { s with threads := [(0, { user 0 [] with rclk := 2000000 })] } 2 { o with rel := some 2 } = false := by decide +kernel

/-- AtomicsEnd: performed in the scratchpad, clean and poisoned; completed; and a PCIe AtomicOp. -/
def part : Part := { th := 0, lane := 0, dst := 4, opnd := 5, cmp := 0 }
theorem witness_atomic_perform :
    let o := opOf' (.atomic inScratch .array false 0 1 [part] false) 1
    let s := withOp (prodAt []) o
    s.ops.get 2 = some o ∧ blocked s 2 o = false ∧ s.teams.get 1 = some team ∧ scratchPois s 1 8 4 = none ∧ Memory.wf team.scratch = true ∧
      (atomSerial (atomStep o false 0 1 4 false) [part] 0).2.2.isSome = true ∧ o.out = none ∧ oneAccess false 0 1 ∧
      (let h := opOf' (.atomic inScratch .array false 0 6 [part] false) 1
       (withOp (prodAt []) h).ops.get 2 = some h ∧ blocked (withOp (prodAt []) h) 2 h = false ∧ ¬ oneAccess false 0 6 ∧ h.half = none ∧
         ∀ k ≤ 1, (atomStep { h with half := some k } false 0 6 4 false).half = some (1 - k)) ∧
      scratchPois { s with teams := [(1, { team with spois := [(0, 5)] })] } 1 8 4 = some 5 := by
  unfold oneAccess; decide +kernel
theorem witness_atomic_complete :
    let p : Part := { part with old := some (7, none) }
    let o := opOf' (.atomic inScratch .array false 0 1 [p] true) 1
    let q := { opOf' (.atomic inHost .pcie false 0 1 [part] false) 1 with ths := [0] }
    (withOp (prodAt []) o).ops.get 2 = some o ∧ o.ths = [p.th] ∧ o.ord = none ∧ o.grps.Nodup ∧ p.dst = o.dst ∧
      (withOp (prodAt []) q).ops.get 2 = some q ∧ q.ths = [part.th] ∧ q.nd ≠ 0 ∧ blocked (withOp (prodAt []) q) 2 q = false ∧
      (hostPort (withOp (prodAt []) q) (physOf 2 0x300000)).isSome = true := by decide +kernel

/-- OperationsEnd. -/
theorem witness_fence :
    let o := { opOf' (.fence 0 2 0) 0 with rel := some 2, relDone := true }
    let s := withOp (prodAt []) o
    s.ops.get 2 = some o ∧ o.ths = [] ∧ o.grps.Nodup ∧ fenceLoads s 2 o = false ∧
      (let w : Nat := s.window; fenceLoads s 2 { o with kind := .fence 0 3 w } = false ∧ w ≠ 0) := by decide +kernel
theorem witness_other_completions :
    (let o := opOf' (.sfu 9) 1; OwnOp (withOp (prodAt []) o) 2 o ∧ (withOp (prodAt []) o).threads.get o.th ≠ none) ∧
    (let o := opOf' (.xlq 0x1000 1 true) 4; OwnOp (withOp (prodAt []) o) 2 o) ∧
    (∀ acc ∈ [none, some { inScratch with size := 32 }, some { inDevice with size := 32 }], let o := opOf' (.cbload 3 acc {}) 0
      (withOp (prodAt []) o).ops.get 2 = some o ∧ blocked (withOp (prodAt []) o) 2 o = false) ∧
    (scratchPois (prodAt []) 1 8 32 = none ∧ (homeValue (prodAt []) 0x1000 32).2 = none ∧
      (homeValue { prodAt [] with mem := { pois := [(0x40, 5)] } } 0x1000 32).2 = some 5) ∧
    (let o := opOf' (.pref (some inDevice)) 0; (withOp (prodAt []) o).ops.get 2 = some o) ∧
    (let o := opOf' (.cflush (physOf 2 0x300000) 64 1 0) 0
     (withOp (prodAt []) o).ops.get 2 = some o ∧ 0 < 64 ∧ ∀ e ∈ (withOp (prodAt []) o).ops, e.1 < 2 → o.th ∉ e.2.threads) ∧
    ((user 0 []).wake ≤ (prodAt []).mod.now ∧ (prodAt []).mod.now < ({ user 0 [] with wake := 2000000 } : Thread).wake) := by
  refine ⟨⟨⟨rfl, rfl, by decide⟩, by decide +kernel⟩, ⟨rfl, rfl, by decide⟩, by decide +kernel, by decide +kernel, by decide +kernel,
    by decide +kernel, by decide +kernel⟩
/-! ### Ferries and matrix engines -/

theorem witness_producers (i : Instr) (h : i ∈ producerSamples) :
    Alone i (prodAt []) 0 (user 0 []) ∧ slotFull i (prodAt []) 1 = false ∧ (envP []).sup = false ∧ (envP []).role = 0 ∧
      (srcP (envP []) (user 0 []) 2).isBad = false ∧ (srcW (envP []) (user 0 []) 2).toNat = 0 ∧ 0 + 64 ≤ (envP []).scru * 4096 := by
  have := (by decide +kernel : ∀ i ∈ producerSamples, alone i (prodAt []) 0 (user 0 []) = true ∧ slotFull i (prodAt []) 1 = false) i h
  exact ⟨alone_sound this.1, this.2, by decide +kernel⟩
theorem witness_ferry_first : ∃ rest, participants (.ferryCopy (w1 4 2 120) (xe 0 0)) (prodAt []) = (envP [], user 0 []) :: rest := ⟨_, rfl⟩

/-- Parameter blocks of a COPY of 512 bytes, of a TIER of one entry, and one that names no scope. -/
def copyBlock : List Byte := bytesOf 0x1000 8 ++ bytesOf 0x2000 8 ++ bytesOf 512 4 ++ bytesOf 0xFFFFFFFF 4 ++ bytesOf 1 4 ++ zeros 36
def tierBlock : List Byte := zeros 24 ++ bytesOf 1 4 ++ zeros 4 ++ bytesOf 0x1000 8 ++ bytesOf 1 4 ++ bytesOf 1 4 ++ zeros 16
/-- A producer whose team has a block at offset 0, and its FERRY. -/
def withBlock (fn : Nat) (b : List Byte) : State :=
  { withOp (prodAt []) (opOf' (.ferry fn 0 0 true true) 2) with teams := [(1, { team with scratch := Memory.write [] 0 b })] }
def ready : Thread := ({ user 0 [] with st := .ready } : Thread).addPend 4 2
def check (fn : Nat) (b : List Byte) : Option Nat :=
  let s := withBlock fn b
  let c := blockCmd s (opOf' (.ferry fn 0 0 true true) 2) fn 0 0 ready
  blockCheck s c team.bound (cmdTargets s 1 fn c.blk)
/-- FerryAccepts: a command that is rejected, one that is accepted, and a TIER. -/
theorem witness_ferry_accept : (∀ p ∈ [(0, copyBlock), (0, zeros 64), (6, tierBlock)],
      let s := withBlock p.1 p.2
      let o := opOf' (.ferry p.1 0 0 true true) 2
      s.ops.get 2 = some o ∧ o.ths = [o.th] ∧ o.grps.Nodup ∧ s.threads.get o.th = some ready ∧ engineHeld s 2 o.th = false ∧
        queueBefore s 2 (placeCore o.th) 0 = false ∧ cmdRoom s (blockCmd s o p.1 0 0 ready) = true) ∧
    Memory.wf (Memory.write [] 0 copyBlock) = true ∧ check 0 copyBlock = none ∧ check 0 (zeros 64) = some 1 ∧ check 6 tierBlock = none := by
  decide +kernel

/-- FerryChunks: one chunk of several, the last one, and one that faults. -/
def cmd (len : Nat) (src : Nat) : Cmd :=
  { team := 1, core := 0, th := 0, fn := 0, q := 0, blk := bytesOf src 8 ++ bytesOf 0x4000 8 ++ bytesOf len 4 ++ bytesOf 0xFFFFFFFF 4 ++ bytesOf 1 4 ++ zeros 36,
    blkAt := 0, blkScratch := true, promise := 0, targets := [1] }
def chunkIn (c : Cmd) : State := { prodAt [] with cmds := [(2, c)] }
theorem witness_chunks : (∀ len ∈ [512, 1024], ∃ o, chunkTry (chunkIn (cmd len 0x1000)) (cmd len 0x1000) 0 = .ok o ∧
      chunkReady (chunkIn (cmd len 0x1000)) 2 (cmd len 0x1000) 0 o.writes = true) ∧
    (cmd 512 0x1000).nchunks = 1 ∧ (cmd 1024 0x1000).nchunks = 2 ∧
    (∃ f, chunkTry (chunkIn (cmd 512 0x900000)) (cmd 512 0x900000) 0 = .error f) ∧
    chunkReady (chunkIn (cmd 512 0x900000)) 2 (cmd 512 0x900000) 0 [] = true := by
  refine ⟨?_, by decide +kernel, by decide +kernel, ⟨_, rfl⟩, by decide +kernel⟩
  intro len h
  fin_cases h <;> exact ⟨_, rfl, by decide +kernel⟩
/-- A chunk on its way, of one and of two, and the last one of a command that has faulted. -/
theorem witness_flight :
    let w : FWrite := { team := 1, loc := .phys 0x2000, kind := 0, tow := false, bytes := [(1, false)] }
    let f : Flight := { chunk := 0, gen := 0, writes := [w], count := 0, pois := none }
    let fly := fun len => { cmd len 0x1000 with flight := [f] }
    (∀ len ∈ [512, 1024], (fly len).flight.find? (fun f => f.chunk == 0) = some f) ∧ spaceOf 0x2000 ≠ 1 ∧ (fly 1024).bad = none ∧
      ({ fly 512 with bad := some ({}, 1) } : Cmd).flight.filter (fun f => f.chunk != 0) = [] := by decide +kernel
/-- FerryWaits: a promise that has passed while its condition does not hold. -/
theorem witness_promise :
    let c : FWaitC := { off := 0, mask := 1, promise := some 5, missed := true }
    let t : Thread := { user 0 [] with st := .ready, waits := [c] }
    isSup 0 = false ∧ t.st = .ready ∧ (at1 0 t).threads.get 0 = some t ∧ (at1 0 t).teams.get t.team = some team ∧ team.st ≠ .stopped ∧ c ∈ t.waits ∧
      (srcW (envP []) (user 0 []) 2).toNat % 4 = 0 ∧ (srcW (envP []) (user 0 []) 2).toNat < (envP []).scru * 4096 ∧
      (srcDP (envP []) (user 0 []) 6).isBad = false := by decide +kernel

/-- CollectivesIssue: each collective stands at its word, in a crew with room and a tile that is held, and meets no reason to trap. -/
theorem witness_collectives :
    (∀ i ∈ crewSamples, alone i (consAt []) 32 (user 1 []) = true ∧ slotFull i (consAt []) 1 = false) ∧
    (let s := consAt []; let e := envOf s 32 (user 1 [])
     s.teams.get e.team = some team ∧ team.crewOf e.gid = some 0 ∧ team.crews[0]? = some { tiles := [{}] } ∧
     mxopOwn (.mxop (w1 120 8 40) (xe 4 0 2)) (xe 4 0 2) s e (user 1 []) = none ∧ offOwn (w1 120 2 120) s e (user 1 []) = none ∧
     (fragRegs 4 2).isNone = false ∧ collReason s e (user 1 []) s.runAddr (fun c => (fragRegs 4 c).isNone) (some 0) = none ∧
     collReason s e (user 1 []) s.runAddr (fun _ => false) none = none) := by decide +kernel

/-- Passes of the crew of team 1 on its tile 0, granted. -/
def pass (k : CollKind) (b : List Byte) : Pass :=
  { cluster := 0, team := 1, crew := 0, k := 0, kind := k, tile := 0, blkOff := 0, blk := b, elected := 32, arr := [⟨32, 0, 2, k, 0⟩], cls := 1, core := 0,
    posted := some 5, granted := true }
def withPass (p : Pass) : State := { consAt [] with passes := [(3, p)], threads := [(32, { user 1 [] with st := .ready })] }
/-- Blocks of a drain of one row: to the scratchpad at 512, and to a tile of the team of index 1. -/
def drainBlock : List Byte := bytesOf 512 4 ++ bytesOf 0xFFFFFFFF 4 ++ [0, 1, 0, 0] ++ zeros 4 ++ bytesOf 1 8 ++ [0, 0, 0, 1] ++ zeros 4
theorem pass_ready (k : CollKind) (b : List Byte) : PassReady (withPass (pass k b)) 3 (pass k b) team {} :=
  ⟨rfl, rfl, rfl, rfl, rfl, rfl, by simp [tileBusy, withPass], rfl⟩
theorem witness_passes :
    (pass (.mxop 4 0 8 40 true) (zeros 16)).spois = false ∧ (pass (.mxop 4 0 8 40 true) (zeros 16)).book.pois = false ∧ (team.crewPlaces 0).Nodup ∧
    (team.crewPlaces 0)[0]? = some 32 ∧ ({} : Tile).pois = false ∧
    (let p := pass (.drain 1 0) drainBlock
     fieldAt p.blk 4 4 = 0xFFFFFFFF ∧
     (passLocks (withPass p) p 3).any (fun l => l.ranges.any (fun r => lockedBefore (withPass p) (dieOf p.core) 3 true r)) = false ∧ 0 + 0x0C < fieldAt p.blk 0 4) ∧
    (let p := pass (.drain 2 0) drainBlock; peerTarget (withPass p) p false ≠ .wait) := by decide +kernel
/-- EnginePasses: two passes wait for the engine of cluster 0. -/
theorem witness_grant :
    let p : Pass := { pass (.mxrel true) [] with granted := false }
    let s : State := { consAt [] with passes := [(3, p), (4, { p with cls := 2, k := 1 })] }
    let ready := s.passes.filter (fun e => e.2.cluster == 0 && e.2.posted.isSome && !e.2.granted && (if e.2.add.isSome then !addBehind s e.1 e.2 else !tileBusy s e.1 e.2))
    ready ≠ [] ∧ ∀ e ∈ ready, e.2.cls ≤ 3 ∧ e.2.posted.getD 0 < 2 ^ 100 ∧ e.2.core < 256 := by decide +kernel

/-- PodsAndPeers: a stream of one empty row, and one that is malformed. -/
def podBlock : List Byte := bytesOf 0x1000 8 ++ bytesOf 2 4 ++ bytesOf 512 4 ++ zeros 8 ++ [1, 1, 0, 0, 1, 0, 0, 0] ++ zeros 32
def podPass : Pass := pass .mxpod podBlock
theorem witness_pods :
    let s : State := { withPass podPass with mem := { cells := [(0x1000, 0xFF), (0x1001, 0xFF)] } }
    let stream := fun toks : List (Nat × Bool) => podRead podPass.tokBad (fun ix => 0x1000 + 2 * ix) 0 1 1 1 toks 0 none {}
    fieldAt podPass.blk 0 8 = 0x1000 ∧ fieldAt podPass.blk 0x12 2 % 4096 = 0 ∧ fieldAt podPass.blk 0x18 1 = 1 ∧ fieldAt podPass.blk 0x19 1 = 1 ∧
      fieldAt podPass.blk 8 4 / 2 = 1 ∧ fieldAt podPass.blk 0x1A 1 / 128 = 0 ∧ stream [(0xFFFF, false)] = some (.rows [[]]) ∧
      podPoisoned s podPass [[]] = false ∧ (∃ ix tok reason row, stream [(0, false)] = some (.bad ix tok reason row)) ∧ podPass.tokBad = none ∧
      podPass.toks.length = 256 * 0 ∧ (∃ t, (withPass podPass).threads.get podPass.elected = some t ∧ t.st ≠ .exited) ∧
      (passLocks s podPass 3).any (fun l => l.ranges.any (fun r => lockedBefore s (dieOf podPass.core) 3 true r)) = false ∧
      rangeHeld s (teamWho s 1 podPass.elected) 0x1000 2 = false :=
  ⟨by decide +kernel, by decide +kernel, by decide +kernel, by decide +kernel, by decide +kernel, by decide +kernel, by decide +kernel, by decide +kernel,
    ⟨_, _, _, _, rfl⟩, rfl, rfl, ⟨_, rfl, by decide⟩, by decide +kernel, by decide +kernel⟩
/-- Another team of the same grid, of index 1, on core 1. -/
def team2 : Team := { team with index := 1, core := 1 }
def peers (p : Pass) (more : Tab Pass) : State := { withPass p with teams := [(1, team), (2, team2)], passes := (3, p) :: more, serial := 9 }
theorem witness_peers :
    (let t : Thread := { user 1 [] with st := .ready, podTraps := [⟨0, 0, 0, 1, 0, 0, false⟩] }
     (at1 32 t).threads.get 32 = some t ∧ t.podTraps = ⟨0, 0, 0, 1, 0, 0, false⟩ :: [] ∧ t.st = .ready ∧ isSup 32 = false) ∧
    (let p : Pass := { pass (.drain 2 0) drainBlock with rows := some [[]] }
     p.sent = false ∧ p.add = none ∧ peerTarget (peers p []) p true = .found 2 ∧ (peers p []).teams.get 2 = some team2 ∧
       engineUsed (peers p []) (clusterOf team2.core) < 32 ∧ 3 < (peers p []).serial) ∧
    (let d : Pass := { pass (.drain 2 0) drainBlock with rows := some [[]], sent := true }
     let a : Pass := { d with team := 0, k := 0, add := some (2, 0, 0, 3) }
     let s := peers d [(4, a)]
     s.passes.get 4 = some a ∧ a.granted = true ∧ s.passes.get 3 = some d ∧ 3 ≠ 4 ∧ d.ordered = false ∧ s.tile 2 0 0 = some {} ∧ s.teams.get 2 = some team2 ∧
       ({} : Tile).held = true ∧ team2.ended = false) ∧
    (let p : Pass := { pass (.drain 3 0) (drainBlock.set 0x1B 2) with rows := some [] }
     let s := peers p []
     peerTarget s p false = .found 2 ∧ s.tile 2 0 0 = some {} ∧ s.tile 1 0 0 = some {} ∧ ({} : Tile).expect = none ∧
       ({} : Tile).next = fieldAt p.blk 0x1A 1 ∧ ordBehind s p 2 = false ∧ 3 < s.serial ∧ p.sent = false ∧
       engineUsed s (clusterOf team2.core) < 32 ∧ s.teams.get 2 = some team2 ∧
       (let t : Tile := { expect := some 3 }
        let s1 : State := { s with teams := [(1, team), (2, { team2 with crews := [{ tiles := [t] }] })] }
        s1.tile 2 0 0 = some t ∧ peerTarget s1 p false = .found 2 ∧ 3 ≠ fieldAt p.blk 0x1B 1 ∧ t.next ≤ fieldAt p.blk 0x1A 1 ∧ ordBehind s1 p 2 = false)) ∧
    (let p : Pass := { pass (.drain 3 0) (drainBlock.set 0x1B 2) with rows := some [], sent := true }
     let a : Pass := { p with add := some (2, 0, 0, 3), rows := some [[]] }
     let s := peers p [(4, a)]
     s.passes.get 3 = some p ∧ p.add = none ∧
       (s.passes.find (fun _ a => a.granted && (match a.add with | some (_, _, _, src) => src == 3 | none => false))).head? = some (4, a) ∧
       s.tile 2 0 0 = some {} ∧ s.teams.get 2 = some team2 ∧ ({} : Tile).held = true ∧ team2.ended = false) ∧
    (let p := pass (.mxrel true) []
     (withPass p).passes.filter (fun e => e.2.team == 1 && e.2.crew == 0 && e.2.k == 0 && e.2.kind.isRel) = [(3, p)] ∧
       (withPass p).crew 1 0 = some { tiles := [{}] } ∧ ∀ e ∈ (withPass p).passes, ¬ e.1 < 3) := by decide +kernel
/-! ### Launching, services and the supervisor -/

/-- A launch queue whose ring lies in device memory from 0x8000 on, with 16 entries. -/
def queue : Queue := { base := 0x8000, log2 := 4, isOpen := true }
def withQueue (s : State) (q : Queue) : State := { s with queues := [(3, q)] }
/-- TowlineIssue, Launching: at each word an operand set; a queue with a free entry and one that is closed. -/
theorem witness_group_ops (i : Instr) (h : i ∈ [Instr.towrec (w1 4 2 3) (xe 0 2), .towiter (w1 120 120 120) (xe 0 2), .towplay (w1 4 120 120) (xe 0 2),
      .towstop (w1 4 120 120) (xe 0 2), .towstat (w1 4 120 120) (xe 0 2), .towdrop (w1 4 120 120) (xe 0 2)]) :
    (∃ f x, Led (prodAt []) i f x 1 0) ∧ ∀ c ∈ [2, 3, 120], (srcP (envP []) (user 0 []) c).isBad = false := by
  refine ⟨?_, by decide +kernel⟩
  fin_cases h <;> exact led_sound (t := user 0 []) (by decide +kernel) (by decide +kernel) (by decide +kernel)
theorem witness_launch :
    let i : Instr := .launch (w1 4 2 120) (xe 0 3)
    let s := withQueue (prodAt []) queue
    alone i s 0 (user 0 []) = true ∧ slotFull i s 1 = false ∧ s.queues.get 3 = some queue ∧ queue.tail < 2 ^ queue.log2 ∧
      (participants i s).length = 1 ∧ entryFree (entryState s queue 0) = true ∧ (srcDP (envP []) (user 0 []) 2).isBad = false ∧
      claimEntry (withQueue s { queue with isOpen := false }) 3 = none ∧ s.mem.locks = [] := by decide +kernel
theorem witness_service :
    let i : Instr := .svc (w1 4 2 3) (xe 0 9 5)
    let s := prodAt []
    let full : State := { s with mail := (upto 56).map (fun e => (mailKey 0 e, ({ mrec := {}, order := 0, th := some 0 } : MEnt))) }
    alone i s 0 (user 0 []) = true ∧ (participants i s).length = 1 ∧ (envP []).core = 0 ∧ s.posts = [] ∧ 1 ≤ freeRequests s 0 ∧
      alone i full 0 (user 0 []) = true ∧ freeRequests full 0 = 0 ∧
      ∀ c ∈ [2, 3, 5], (srcP (envP []) (user 0 []) c).isBad = false := by decide +kernel
def inRing : Queue := queue
theorem in_device : InDevice queue := ⟨by decide, by decide, rfl⟩
/-- A LAUNCH of the packet at 0x1000, whose release is done: a clean source, a poisoned one and one that faults. -/
theorem witness_launch_complete :
    let src := [{ inDevice with size := 0x78 }]
    let o := { opOf' (.launch 3 0 src none) 1 with rel := some 2, relDone := true }
    let s := withQueue (withOp (prodAt []) o) queue
    s.ops.get 2 = some o ∧ blocked s 2 o = false ∧ s.queues.get 3 = some queue ∧ Memory.wf s.mem.cells = true ∧
      (readSource s o src).2.2 = none ∧ (readSource s o src).2.1.length = 0x78 ∧
      (readSource { s with mem := { pois := [(0x40, 5)] } } o src).2.2.isSome = true ∧
      (let q := { o with kind := .launch 3 0 [] (some {}) }; blocked (withQueue (withOp (prodAt []) q) queue) 2 q = false) ∧
      (peerLost s inPeer = true ∧ physOf 1 (2 ^ 39) % 64 + 4 ≤ 64) ∧ (0x1000 % 64 + 4 ≤ 64 ∧ s.mem.l1.get (copyKey 0 0x1000) = none ∧
        s.mem.rdc.get (copyKey (dieOf 0) 0x1000) = none ∧ s.mem.l1at.get (countKey 0 0x1000) = none) := by decide +kernel

/-- The supervisor's instructions stand at their words with clean operands. -/
theorem witness_supervisor (i : Instr) (h : i ∈ supervisorSamples) :
    Alone i (supAt []) 1504 (supThread []) ∧ slotFull i (supAt []) 1 = false ∧ (supThread []).st ≠ .exited := by
  have := (by decide +kernel : ∀ i ∈ supervisorSamples, alone i (supAt []) 1504 (supThread []) = true ∧ slotFull i (supAt []) 1 = false) i h
  exact ⟨alone_sound this.1, this.2, by decide⟩
def envS : Env := envOf (supAt []) 1504 (supThread [])
theorem witness_clean_operands : (∀ c ∈ [2, 3, 6, 7], (srcP envS (supThread []) c).isBad = false ∧ (srcDP envS (supThread []) c).isBad = false) ∧
    participants (.ctxAbort (w1 4 120 6) (xe 4 0)) (supAt []) = [(envS, supThread [])] := by decide +kernel

/-- ContextControl: targets that name no team, a running, a stopped and an ended team, and a core that does not exist. -/
def teamIn (st : CtxState) (ended : Bool) : State := { supAt [] with teams := [(1, { team with st := st, ended := ended })] }
theorem witness_contexts :
    ctxTeam (supAt []) (5 * 256) = none ∧ ctxTeam (supAt []) 0 = some (1, team) ∧ team.st = .running ∧ team.ended = false ∧ team.aborted = false ∧
    ctxTeam (teamIn .stopped false) 0 = some (1, { team with st := .stopped }) ∧ ctxTeam (teamIn .running true) 0 = some (1, { team with ended := true }) ∧
    192 ≤ 192 % 256 ∧ 191 % 256 < 192 ∧ (supAt []).teams.map (·.1) = [1] ∧
    (let tm := { team with st := .stopped }
     gangStopped (teamIn .stopped false) tm = true ∧ resumeRoom (teamIn .stopped false) (gangLive (teamIn .stopped false) tm) = true ∧
       gangStopped (supAt []) team = false) ∧
    (isSup 1504 = true ∧ gangMembers (supAt []) team = [(1, team)] ∧ (supAt []).cmds = [] ∧ (supAt []).passes = [] ∧
      (∀ c ∈ team.crews, c.colls = []) ∧ (supAt []).ops = []) := by decide +kernel
/-- A stopped team with a command, where the die has no lock entry left. -/
theorem witness_no_lock_room :
    let tm := { team with st := .stopped }
    let l : Lock := { cmd := 9, pass := false, dest := true, ranges := [], order := 0 }
    let s : State := { teamIn .stopped false with
      cmds := [(2, { team := 1, core := 0, th := 0, fn := 0, q := 0, blk := bytesOf 0x1000 8 ++ bytesOf 0x4000 8 ++ bytesOf 512 4 ++ zeros 44, blkAt := 0,
                     blkScratch := true, promise := 0 })]
      mem := { locks := (upto 4096).map (fun k => (k, l)) } }
    gangStopped s tm = true ∧ resumeRoom s (gangLive s tm) = false := by decide +kernel

/-! ### The mailbox, replies and system registers -/

/-- MailboxAndReplies: an event and a thread's record wait, where an entry is free and where none is. -/
theorem witness_post :
    let e : Post := { core := 0, mrec := {}, th := none }
    let r : Post := { core := 0, mrec := {}, th := some 0 }
    let s : State := { prodAt [] with posts := [(3, e), (4, r)] }
    let full : State := { s with mail := (upto 64).map (fun e => (mailKey 0 e, ({ mrec := {}, order := 0, th := some 0 } : MEnt))) }
    s.posts.get 3 = some e ∧ s.posts.get 4 = some r ∧ s.mail.get (mailKey 0 56) = none ∧ s.mail.get (mailKey 0 0) = none ∧
      releasedAt s (r.op.getD s.serial) 0 2 = true ∧ freeRequests s 0 ≠ 0 ∧ (∀ k ∈ (upto 8).map (56 + ·), full.mail.get (mailKey 0 k) ≠ none) ∧
      freeRequests full 0 = 0 := by decide +kernel
/-- A supervisor thread's operation with destination r4. -/
def supOp (k : OpKind) (n : Nat) : Op :=
  { kind := k, th := 1504, ths := if n = 0 then [] else [1504], grps := [47], slot := some 1, batch := 2, dst := if n = 0 then 120 else 4, nd := n }
def supReady : Thread := { supThread [] with st := .ready }
def withSup (o : Op) : State := { supAt [] with ops := [(2, o)], issues := [], threads := [(0, { user 0 [] with st := .ready }), (1504, supReady)] }
theorem witness_mailbox_read :
    let o := supOp (.mbxrd 0x1000) 1
    let m : MEnt := { mrec := { kind := 2, code := 0x19 }, order := 1, th := none }
    let s : State := { withSup o with mail := [(56, m)] }
    s.ops.get 2 = some o ∧ s.threads.get o.th = some supReady ∧ 56 / 64 = placeCore o.th ∧ m.read = false ∧ blocked s 2 o = false ∧ 0x1000 % 64 = 0 ∧
      rangeHeld s (envOf s o.th supReady).who 0x1000 64 = false ∧ rangeHeld s (envOf s o.th supReady).who 0x900000 64 = false ∧ Rising s.mail ∧
      (match writeRange s (envOf s o.th supReady).who 0x1000 (cleanBytes (m.mrec.bytes 56)) 1 (some 0) with | .ok _ => true | .error _ => false) = true ∧
      (match writeRange s (envOf s o.th supReady).who 0x900000 (cleanBytes (m.mrec.bytes 56)) 1 (some 0) with | .ok _ => false | .error _ => true) = true ∧
      0x1001 % 64 ≠ 0 := by unfold Rising; decide +kernel
/-- A reply in its release, to a user thread suspended at an instruction and at a boundary. -/
def rep (word : Nat) : Op := { supOp (.mbxwr 0 word 0x10000) 1 with rel := some 2 }
def held (pos : Option (Nat × Nat)) : Thread := { user 0 [] with st := .susp, susp := some ⟨0x0A, 0, [], pos, false, some (1, 0x1000, 4, false, true), false, []⟩ }
def withReply (word : Nat) (pos : Option (Nat × Nat)) (kind : Nat) : State :=
  { withSup (rep word) with
    threads := [(0, held pos), (1504, supReady)]
    mail := [(0, { mrec := { kind := kind, code := 0x0A }, order := 1, th := some 0 })] }
theorem witness_releases_reply (word : Nat) (h : word ∈ [0, 1, 2, 10, 3, 4, 5]) (pos : Option (Nat × Nat)) (hp : pos = none ∨ pos = some (0x10000, 0)) :
    Releases (withReply word pos 0) 2 (rep word) supReady := by
  have := (by decide +kernel : ∀ word ∈ [0, 1, 2, 10, 3, 4, 5], ∀ pos ∈ [none, some (0x10000, 0)],
    releaseReady (withReply word pos 0) 2 (rep word) = true ∧ blocked (withReply word pos 0) 2 (rep word) = false) word h pos (by simpa using hp)
  exact ⟨rfl, by simp [rep, supOp], rfl, this.1, this.2, rfl, rfl⟩
theorem witness_replies :
    let m : MRec := { kind := 0, code := 0x0A }
    (5 ≤ 5 % 8 ∨ 5 / 32 ≠ 0) ∧ replyValid m 5 = false ∧ (replyValid m 4 = true ∧ replyAllowed m false (4 % 8) = false) ∧
      (∀ word ∈ [0, 1, 2, 10, 3], replyValid m word = true ∧ replyAllowed m false (word % 8) = true) ∧
      (held none).st ≠ .exited ∧ (held none).exiting = false := by decide +kernel
/-- A reply to a service. -/
theorem witness_service_reply :
    let b : Op := { opOf' (.svc 4) 1 with batch := 1 }
    let m : MEnt := { mrec := { kind := 1 }, order := 1, th := some 0, op := some 1 }
    ∀ word ∈ [4, 20, 3], let s : State := { withSup (rep word) with ops := [(1, b), (2, rep word)], mail := [(0, m)] }
      releaseReady s 2 (rep word) = true ∧ blocked s 2 (rep word) = false ∧ s.mail.get (mailKey 0 0) = some m ∧ replyValid m.mrec word = true ∧
        s.ops.get 1 = some b ∧ b.ths = [0] ∧ b.nd = 1 := by decide +kernel
theorem witness_lock_wait :
    let t : Thread := { held (some (0x10000, 0)) with st := .lockwait }
    let s := at1 0 t
    let l : Lock := { cmd := 9, pass := false, dest := true, ranges := [⟨false, 1, 0x1000, 512⟩], order := 0 }
    let locked : State := { s with mem := { locks := [(0, l)] }, cmds := [(9, cmd 512 0x1000)] }
    s.threads.get 0 = some t ∧ lockHit s false 1 0x1000 4 true = none ∧ lockHit locked false 1 0x1000 4 true ≠ none := by decide +kernel
/-- SupervisorInstructions: a write of a system register in its release, an open and a closed queue, features acknowledged and not. -/
theorem witness_register_write_release :
    let o : Op := { supOp (.srmovW 0x110 128) 0 with rel := some 2 }
    releaseReady (withSup o) 2 o = true ∧ blocked (withSup o) 2 o = false ∧ (withSup o).threads.get o.th = some supReady ∧
      (withSup o).teams.get supReady.team = none ∧ (withQueue (prodAt []) queue).queues.get 3 = some queue ∧ modul.fack = 2 ∧ modul.fen.length = 4 ∧
      ({} : Mod).fack ≠ 2 := by decide +kernel
theorem witness_arrival :
    let o : Op := { opOf' (.barRel 16) 0 with grps := [], slot := none, rel := some 1 }
    let s := withOp (prodAt []) o
    s.ops.get 2 = some o ∧ releaseReady s 2 o = true ∧ blocked s 2 o = false ∧ (s.threads.get o.th).isSome = true ∧ s.teams.get 1 = some team := by
  decide +kernel
/-! ### The map, Towline and contexts -/

/-- A descriptor of ASID 1 at 0x4_0040 with a map rooted at 0x6_0000, in which page 0 is mapped and the rest is not. -/
def mapped : List Host.Cell := Memory.write (Memory.write (Memory.write (Memory.write [] 0x40040 (bytesOf 0x60001 8)) 0x60000 (bytesOf 0x70001 8))
  0x70000 (bytesOf 0x80001 8)) 0x80000 (bytesOf 0x10007 8)
def withMap (s : State) : State := { s with xl := { xasb := 0x40000 }, mem := { cells := mapped } }
def sync (n asid : Nat) : Op := { supOp (.mapsync 0 n asid 0 0 none) 1 with rel := some 4 }
/-- MapUpkeep: MAPSYNC in its release, of a valid ASID and of one that is not, of no page and of one; its table poisoned, and its page new. -/
theorem witness_mapsync :
    (∀ p ∈ [(1, 1), (0, 1), (1, 2)], let s := withMap (withSup (sync p.1 p.2))
      releaseReady s 2 (sync p.1 p.2) = true ∧ blocked s 2 (sync p.1 p.2) = false ∧ s.threads.get 1504 = some supReady ∧ s.teams.get supReady.team = none) ∧
    (let s := withMap (withSup (sync 1 1))
     (readSpace s 1).valid = true ∧ (readSpace s 2).valid = false ∧ (1 ≤ 65536 ∧ 0 / 2 ^ 16 + 1 ≤ 2 ^ 40) ∧
       leafOf (loadSpace s 1) ((loadSpace s 1).xl.spaces.getD 1 {}) 0 ≠ currentLeaf (loadSpace s 1) 1 0 ∧
       leafOf (loadSpace s 1) ((loadSpace s 1).xl.spaces.getD 1 {}) 0 ≠ .poison ∧
       placeAll (loadSpace s 1).xl [{ vpn := 0, asid := 1, ppn := 1, attr := ⟨3, 0, 0, false⟩, ev := true, igen := 1 }] ≠ none ∧
       (let t : State := { s with mem := { s.mem with pois := [(0x60000 / 64, 5)] } }
        leafOf (loadSpace t 1) ((loadSpace t 1).xl.spaces.getD 1 {}) 0 = .poison)) := by decide +kernel
/-- Translation state whose exception entries, on-die and spilled, are all taken by ASID 2. -/
def taken : Exc := { vpn := 0, asid := 2, ppn := 0, attr := ⟨0, 0, 0, false⟩, ev := false, igen := 0 }
theorem lowestFree_range (n i : Nat) : lowestFree i ((List.range' i n).map (fun k => (k, taken))) = i + n := by
  induction n generalizing i with
  | zero => simp [lowestFree]
  | succ n ih => simp [List.range'_succ, lowestFree, ih]; omega
def fullXl (sp : Tab Space) : Xl :=
  { xasb := 0x40000, exc := (List.range' 0 32768).map (fun k => (k, taken)), spill := (upto 8).map (fun k => (k, taken)), spaces := sp }
theorem taken_find (l : List Nat) (vpn : Nat) : Tab.find (l.map (fun k => (k, taken))) (fun _ e => e.vpn == vpn && e.asid == 1) = [] := by
  simp [Tab.find, taken]
theorem fullXl_excOf (sp : Tab Space) (vpn : Nat) : excOf (fullXl sp) 1 vpn = none := by simp [excOf, fullXl, taken_find]
theorem witness_no_room (sp : Tab Space) (e : Exc) (h : e.asid = 1) : placeAll (fullXl sp) [e] = none := by
  have h1 : lowestFree 0 (fullXl sp).exc = 32768 := lowestFree_range 32768 0
  have h2 : spillSlot (fullXl sp) 0 = none :=
    (by decide +kernel : spillSlot { spill := (upto 8).map (fun k => (k, taken)) } 0 = none)
  have h3 : ∀ a v, spillBucket (fullXl sp) a v = 0 := fun a v => by simp [spillBucket, fullXl, Nat.mod_one]
  simp [placeAll, placeExc, h, fullXl_excOf, h1, h2, h3]
/-- MAPSYNC_COMPLETE with its release done, and with an access of an older generation in flight; REFIT and its pass. -/
theorem witness_map_complete :
    (let o : Op := { supOp (.mapsync 0 1 1 0 1 (some 1)) 1 with rel := some 4, relDone := true }
     let s := withSup o
     (s.ops.get 2 = some o ∧ oldFlight s 1 1 = false) ∧ oldFlight { s with ops := (1, opOf' (.store inDevice [1]) 0) :: s.ops } 1 1 = true) ∧
    (∀ p ∈ [(1, 0), (0, 2)], let o : Op := { supOp (.refit 0 p.1 1 0 none) 1 with rel := some 4 }
     let s := withMap (withSup o)
     releaseReady s 2 o = true ∧ blocked s 2 o = false ∧ mapStatus (readSpace s 1) 0 p.1 = p.2) ∧
    (let o : Op := { supOp (.refit 0 1 1 0 (some 0)) 1 with rel := some 4 }
     let s := withMap (withSup o)
     releaseReady s 2 o = true ∧ blocked s 2 o = false ∧ mapStatus (readSpace s 1) 0 1 = 0) ∧
    (let o : Op := { supOp (.refit 0 1 1 0 none) 1 with rel := some 4 }
     let p : RefitPass := { key := 7, req := { asid := 1, first := 0, last := 9, op := none }, at0 := 9, lo := 0, hi := 9 }
     let s : State := { withSup o with xl := { pass := some p } }
     s.ops.get 2 = some o ∧ o.relDone = false ∧ s.xl.refits = [] ∧ (publishPass { s with xl := { s.xl with pass := none } } p).2 = 0 ∧ 2 < p.at0) ∧
    (let o : Op := { supOp (.refit 0 1 1 0 none) 1 with rel := some 4, relDone := true }
     let r : RefitReq := { asid := 1, first := 0, last := 0, op := some 2 }
     let s : State := { withSup o with xl := { refits := [(3, r)] } }
     s.xl.refits.get 3 = some r ∧ r.op.isSome = true ∧ supActive s = true ∧ supActive { s with ops := [], threads := [] } = false ∧ s.ops.get 2 = some o ∧ s.threads.get o.th = some supReady ∧ s.xl.pass = none ∧ nextRefit s 3 r = true ∧
       Rising s.xl.refits ∧ ∀ e ∈ s.xl.refits, ¬ e.1 ≠ 3) ∧
    (let q : RefitReq := { asid := 1, first := 0, last := 0, op := some 1 }
     let r : RefitReq := { asid := 1, first := 5, last := 9, op := none }
     let p : RefitPass := { key := 7, req := r, at0 := 9, lo := 0, hi := 9 }
     p.serves 3 q = true ∧ p.serves 3 { q with last := 10 } = false ∧ p.status = 0 ∧ { p with status := 4 }.status ≠ 0) ∧
    (fitPass (fun v => .page v ⟨3, 0, 0, false⟩) 3 0 4 0 []).length = 1 := by unfold Rising; decide +kernel

/-- TowlineControl: the oldest request and one behind another; recordings of every state, one's own and another's. -/
theorem witness_towline :
    let o := opOf' (.tow 0 2 0 1 false) 1
    let s := withOp (prodAt []) o
    s.ops.get 2 = some o ∧ o.grps.Nodup ∧ o.ths.Nodup ∧ (s.threads.get o.th).isSome = true ∧ (∀ e ∈ s.ops, ¬ e.1 < 2) ∧
      (∀ st ∈ [TowState.free, .armed, .recording, .recorded, .playing, .departed],
        ({ s with recs := [(2, { st := st, owner := 1 })] } : State).recs.getD 2 {} = { st := st, owner := 1 }) ∧ s.teams.get 1 = some team := by
  decide +kernel
/-- A push to the home's die, and one to another die that holds no copy. -/
theorem witness_push :
    let p := fun d : Nat => ({ id := 2, ent := ⟨0x40, 1, 1, d, 0, 1⟩ } : Push)
    let s : State := { prodAt [] with pushes := [(3, p 0), (4, p 1)] }
    s.pushes.get 3 = some (p 0) ∧ (p 0).ent.die = homeDie (0x40 * 64) ∧ s.pushes.get 4 = some (p 1) ∧ (p 1).ent.die ≠ homeDie (0x40 * 64) ∧
      leased s 1 = true ∧ s.mem.rdc.get (copyKey 1 (0x40 * 64)) = none ∧ (rdcRoom s 1 (0x40 * 64)).isSome = true ∧ (rdcLines s 1).length < 131072 ∧
      leased { s with mod := { modul with timeFault := [false, true, false, false] } } 1 = false := by decide +kernel

/-- Contexts: a stopping team at rest and one with a load outstanding. -/
theorem witness_stopping :
    let tm : Team := { team with st := .stopping }
    let s : State := { withSup (supOp (.ctx 2 0 0 0 1) 1) with teams := [(1, tm)] }
    s.teams.get 1 = some tm ∧ tm.ended = false ∧ teamRests s 1 = true ∧
      teamRests { s with ops := (1, opOf' (.load inDevice false none) 1) :: s.ops } 1 = false ∧ Rising s.ops ∧
      s.threads.get 1504 = some supReady ∧ (∀ e ∈ s.ops, e.1 = 2) := by unfold Rising; decide +kernel

/-- A team without groups, whose context is small. -/
def small : Team := { grid := 1, index := 0, core := 0, slots := [], pkt := { code := 0x10000, groups := 0, prod := 0 }, st := .stopped }
def withCtx (k : OpKind) (st : CtxState) : State := { withSup (supOp k 1) with teams := [(1, { small with st := st })] }
theorem small_length : (teamCtx (withCtx (.ctx 0 0x10000 0 0 1) .stopped) 1 small).length = 13568 := by decide +kernel
theorem writeRange_ok {s : State} {w : Who} {va k n : Nat} {bs : List PByte} {core : Option Nat} (hn : bs.length = n)
    (h : (match rangeAt s w va n 1 k with | .ok _ => true | .error _ => false) = true) : ∃ s1 g, writeRange s w va bs k core = .ok (s1, g) := by
  subst hn
  cases hr : rangeAt s w va bs.length 1 k with
  | error f => rw [hr] at h; cases h
  | ok ls => simp only [writeRange, hr]; exact ⟨_, _, rfl⟩
/-- ContextSaves: no such team, a team that is not stopped, a misaligned area, one that cannot be written, and one that can. -/
theorem witness_save :
    let o := supOp (.ctx 0 0x10000 0 0 1) 1
    let s := withCtx o.kind .stopped
    s.ops.get 2 = some o ∧ s.threads.get o.th = some supReady ∧ ofTeam s 1 o.th = false ∧ s.teams.get 1 = some small ∧ 0x10000 % 256 = 0 ∧
      0x10001 % 256 ≠ 0 ∧ (supAt []).teams.get 2 = none ∧ (withCtx o.kind .running).teams.get 1 = some { small with st := .running } ∧
      (match rangeAt s (ctxWho s o.th 0) 0x400000 256 1 1 with | .ok _ => true | .error _ => false) = false ∧
      ∃ s1 g, writeRange s (ctxWho s o.th 0) 0x10000 (teamCtx s 1 small) 1 (some 0) = .ok (s1, g) := by
  refine ⟨?_, ?_, ?_, ?_, ?_, ?_, ?_, ?_, ?_, writeRange_ok small_length ?_⟩ <;> decide +kernel
theorem witness_save_sent : let s := withCtx (.ctx 0 0x10000 0 0 1) .stopped
    ∀ a ∈ [0x10000, 0x400000], rangeHeld s (ctxWho s 1504 0) a (teamCtx s 1 small).length = false := by
  intro s a ha
  rw [show (teamCtx s 1 small).length = 13568 from small_length]
  revert a; decide +kernel

/-- A packet of the least team. -/
def least : Packet := { code := 0x10000, groups := 2, prod := 1, budp := 8, budc := 8, asid := 1 }
/-- The same with a page of scratchpad; the header of the context of a team of it lies at 0x1_0000, or elsewhere, of a memory in which ASID 1 is valid. -/
def wide : Packet := { least with scru := 1 }
def saved : Team := { grid := 1, index := 0, core := 0, slots := [], pkt := wide, st := .stopped }
def savedAt (a : Nat) : List Host.Cell := Memory.write (Memory.write [] 64 (bytesOf 1 8)) a (ctxHeader saved 0)
def savedMem : List Host.Cell := savedAt 0x10000
def kept : Kept := { index := 0, asid := 0, save := 0x10000, team := saved, threads := [], colls := [], cmds := [] }
def withLoad (gd : Tab Grid) : State := { withSup (supOp (.ctx 1 0x10000 0 0 1) 1) with teams := [], mem := { cells := savedMem }, grids := gd, xl := { (supAt []).xl with xasb := 0 } }
theorem homeBytes_drop (m : MemSys) (a i n : Nat) : (homeBytes m a (i + n)).drop i = homeBytes m (a + i) n := by
  induction i generalizing a with
  | zero => simp
  | succ i ih => rw [Nat.add_right_comm]; simp [homeBytes, ih, Nat.add_assoc, Nat.add_comm 1]
theorem homeBytes_length (m : MemSys) (a n : Nat) : (homeBytes m a n).length = n := by induction n generalizing a <;> simp [homeBytes, *]
theorem zip_clean {α : Type} (l : List α) (n : Nat) : (l.zip (List.replicate n false)).any (·.2) = false := by
  induction l generalizing n with
  | nil => simp
  | cons a l ih => cases n <;> simp [List.replicate, ih]
theorem take_clean {l : List PByte} (h : anyPois l = false) (n : Nat) : anyPois (l.take n) = false ∧ anyPois (l.drop n) = false := by
  unfold anyPois at *
  rw [List.any_eq_false] at h
  constructor <;> rw [List.any_eq_false] <;> intro x hx
  · exact h x (List.mem_of_mem_take hx)
  · exact h x (List.mem_of_mem_drop hx)
/-- A range of memory without poison, in one page, reads as its bytes. -/
theorem readRange_clean {s : State} {w : Who} {va n a k : Nat} (h : rangeAt s w va n 0 k = .ok [⟨.phys a, n, 0⟩]) (hp : s.mem.pois = []) (hr : s.mem.rdc = [])
    (ha : ∀ y, hostGone s y = false) : ∃ bs, readRange s w va n k = .ok bs ∧ anyPois bs = false ∧ plain bs = homeBytes s.mem a n := by
  have hc : locBytes s (.phys a) n = (homeBytes s.mem a n).zip (List.replicate n false) := by
    have h2 : ∀ b, homePois s.mem b = none := fun b => by simp [homePois, proxyCopy, hp, hr, Tab.get]
    simp only [locBytes, h2]
    congr 1
    rw [List.eq_replicate_iff]
    simp [upto, ha]
  refine ⟨locBytes s (.phys a) n, by simp [readRange, h], ?_, ?_⟩
  · rw [hc]; exact zip_clean _ _
  · rw [hc, plain, List.map_fst_zip]; simp [homeBytes_length]
theorem fieldAt_homeByte (m : MemSys) (a i n : Nat) : fieldAt (homeBytes m a (i + (n + 1))) i 1 = (homeByte m (a + i)).toNat := by
  rw [fieldAt, homeBytes_drop]; simp [homeBytes, leNat]
/-- ContextLoads of a good area, for a state whose memory is `savedMem`. -/
def GoodHeader (s : State) (a : Nat) : Prop :=
  ∃ hd, readRange s (ctxWho s 1504 0) a 256 0 = .ok hd ∧ anyPois hd = false ∧
    (let h := plain hd
     let p := Packet.ofBytes ((h.drop 0x10).take 0x78)
     fieldAt h 0 4 = 1 ∧ packetCause s p = none ∧ fieldAt h 4 4 = ctxSize p (fieldAt h 0x92 1) ∧ fieldAt h 0x92 1 ≤ 128 ∧ fieldAt h 8 8 = 0 ∧
       p = wide ∧ ctxSize p (fieldAt h 0x92 1) = 210)
def LoadsFrom (s : State) : Prop := GoodHeader s 0x10000 ∧
  ∃ bs, readRange s (ctxWho s 1504 0) 0x10000 (256 * 210) 0 = .ok bs ∧ (∀ n, anyPois (bs.take n) = false ∧ anyPois (bs.drop n) = false) ∧
    fieldAt (plain bs) 0x92 1 = 0
theorem homeBytes_eq {m : MemSys} {c : List Host.Cell} (hr : m.rdc = []) (hm : m.cells = c) (n a : Nat) : homeBytes m a n = homeBytes { cells := c } a n := by
  induction n generalizing a with
  | zero => rfl
  | succ n ih => simp [homeBytes, homeByte, proxyCopy, hr, hm, Tab.get, ih]
theorem good_header {s : State} {a : Nat} (ha : a ∈ [0x10000, 0xFFF00]) (h1 : rangeAt s (ctxWho s 1504 0) a 256 0 0 = .ok [⟨.phys a, 256, 0⟩])
    (hg : ∀ y, hostGone s y = false) (hp : s.mem.pois = []) (hr : s.mem.rdc = []) (hm : s.mem.cells = savedAt a)
    (hc : packetCause s wide = none) : GoodHeader s a := by
  obtain ⟨hd, a1, a2, a3⟩ := readRange_clean h1 hp hr hg
  rw [homeBytes_eq hr hm] at a3
  have hw : Packet.ofBytes (((homeBytes { cells := savedAt a } a 256).drop 0x10).take 0x78) = wide := by
    fin_cases ha <;> decide +kernel
  refine ⟨hd, a1, a2, ?_⟩
  rw [a3]
  refine ⟨?_, by rw [hw]; exact hc, ?_, ?_, ?_, hw, ?_⟩ <;> (fin_cases ha <;> decide +kernel)
theorem loads_from {s : State} (h1 : rangeAt s (ctxWho s 1504 0) 0x10000 256 0 0 = .ok [⟨.phys 0x10000, 256, 0⟩])
    (h2 : rangeAt s (ctxWho s 1504 0) 0x10000 (256 * 210) 0 0 = .ok [⟨.phys 0x10000, 256 * 210, 0⟩])
    (hg : ∀ y, hostGone s y = false) (hp : s.mem.pois = []) (hr : s.mem.rdc = []) (hm : s.mem.cells = savedMem)
    (hc : packetCause s wide = none) : LoadsFrom s := by
  obtain ⟨bs, b1, b2, b3⟩ := readRange_clean h2 hp hr hg
  refine ⟨good_header (by simp) h1 hg hp hr hm hc, bs, b1, fun n => take_clean b2 n, ?_⟩
  rw [b3, homeBytes_eq hr hm, show (256 * 210 : Nat) = 0x92 + (53613 + 1) from rfl, fieldAt_homeByte]
  decide +kernel
theorem host_there {s : State} (h : s.mod.ports = [{ up := true }, {}]) (y : Nat) : hostGone s y = false := by
  unfold hostGone hostPort
  rw [h]
  cases (homeDie y % 2) <;> simp
/-- ContextLoads: a misaligned area; an area of zeros; a poisoned header; one whose rest cannot be read or is poisoned; a good area of a team that is
not saved, of one that is and has no room on the core, of one that has, and of one whose unit holds a line that must stay. -/
theorem witness_load :
    let gd : Grid := { queue := 0, entry := 0, pkt := wide, saved := [kept] }
    let a := withLoad []
    let b := withLoad [(1, gd)]
    let c : State := { b with mod := { b.mod with fenced := [0] } }
    let d : State := { b with
      teams := [(5, { team with grid := 9, slots := [], units := (upto 128).drop 1 })]
      mem := { b.mem with l1at := [(countKey 0 0x2000, 0)] }
      ops := (1, { opOf' (.store { inDevice with loc := .phys 0x2000 } [1]) 0 with sent := some 1 }) :: b.ops }
    LoadsFrom a ∧ LoadsFrom b ∧ LoadsFrom c ∧ LoadsFrom d ∧ keptFor a wide 0 0 0x10000 = none ∧ keptFor b wide 0 0 0x10000 = some (1, gd, kept) ∧
      keptFor c wide 0 0 0x10000 = some (1, gd, kept) ∧ keptFor d wide 0 0 0x10000 = some (1, gd, kept) ∧
      (loadFits b wide 1 0 0 = true ∧ ∀ u ∈ (unitsInOrder b 0).take 1, unitLines (reclaim b 0 ((unitsInOrder b 0).take 1)) 0 u = []) ∧
      loadFits c wide 1 0 0 = false ∧
      (loadFits d wide 1 0 0 = true ∧ ∃ u ∈ (unitsInOrder d 0).take 1, unitLines (reclaim d 0 ((unitsInOrder d 0).take 1)) 0 u ≠ []) ∧
      (∀ bs : List Byte, fieldAt bs 0x92 1 = 0 → cmdsFit b wide bs 0 = true ∧ cmdsFit d wide bs 0 = true) ∧ 0x10001 % 256 ≠ 0 ∧ placeSlot 1504 = 47 ∧
      (2 < b.serial ∧ b.serial = d.serial) ∧
      a.ops.get 2 = some (supOp (.ctx 1 0x10000 0 0 1) 1) ∧ a.threads.get 1504 = some supReady := by
  refine ⟨loads_from ?_ ?_ (host_there rfl) rfl rfl rfl ?_, loads_from ?_ ?_ (host_there rfl) rfl rfl rfl ?_, loads_from ?_ ?_ (host_there rfl) rfl rfl rfl ?_,
    loads_from ?_ ?_ (host_there rfl) rfl rfl rfl ?_, ?_, ?_, ?_, ?_, ?_, ?_, ?_, ?_, ?_, ?_, ?_, ?_, ?_⟩
  any_goals decide +kernel
  intro bs h
  simp only [cmdsFit, h]
  exact ⟨rfl, rfl⟩
theorem readRange_one {s : State} {w : Who} {va n a k : Nat} (h : rangeAt s w va n 0 k = .ok [⟨.phys a, n, 0⟩]) :
    readRange s w va n k = .ok (locBytes s (.phys a) n) := by simp [readRange, h]
theorem poison_behind {s : State} {a n k i : Nat} (hn : i < n) (hk : i < k) (hp : (homePois s.mem (a + i)).isSome = true) :
    anyPois ((locBytes s (.phys a) n).take k) = true := by
  unfold anyPois
  rw [List.any_eq_true]
  have : ((locBytes s (.phys a) n).take k)[i]? = some ((homeBytes s.mem a n)[i]'(by rw [homeBytes_length]; exact hn), true) := by
    rw [List.getElem?_take_of_lt hk]
    simp [locBytes, upto, homeBytes_length, hn, hp]
  exact ⟨_, List.mem_of_getElem? this, rfl⟩
/-- The areas of these loads are not in a peer's memory. -/
theorem witness_load_sent : let b := withLoad [(1, { queue := 0, entry := 0, pkt := wide, saved := [kept] })]
    ∀ s ∈ [withLoad [], b, { b with mod := { b.mod with fenced := [0] } }], ∀ a ∈ [0x10000, 0xFFF00, 0x900000], ∀ n ∈ [256, 256 * 210],
      rangeHeld s (ctxWho s 1504 0) a n = false := by decide +kernel
/-- Areas that answer 4 and 5: poison in the header, an area of zeros, one whose rest cannot be read, and one with poison behind the header. -/
theorem witness_bad_areas :
    let a := withLoad []
    let e : State := { a with mem := { cells := savedAt 0xFFF00 } }
    let q : State := { a with mem := { cells := savedMem, pois := [(0x404, 5)] } }
    (∀ x ∈ [({ cells := savedMem, pois := [(0x400, 5)] } : MemSys), { cells := [] }], ∃ hd, readRange { a with mem := x } (ctxWho a 1504 0) 0x10000 256 0 = .ok hd ∧
        (anyPois hd = true ∨ fieldAt (plain hd) 0 4 ≠ 1)) ∧
      GoodHeader e 0xFFF00 ∧ (∃ f, readRange e (ctxWho e 1504 0) 0xFFF00 (256 * 210) 0 = .error f) ∧ (∃ f, readRange a (ctxWho a 1504 0) 0x900000 256 0 = .error f) ∧
      ∃ bs, readRange q (ctxWho q 1504 0) 0x10000 (256 * 210) 0 = .ok bs ∧ anyPois (bs.take (scratchSpan wide).1) = true := by
  refine ⟨?_, good_header (by simp) (by decide +kernel) (host_there rfl) rfl rfl rfl (by decide +kernel), ⟨_, rfl⟩, ⟨_, rfl⟩, ?_⟩
  · intro x hx
    fin_cases hx
    · exact ⟨_, rfl, Or.inl (by decide +kernel)⟩
    · exact ⟨_, rfl, Or.inr (by decide +kernel)⟩
  · have h : rangeAt { withLoad [] with mem := { cells := savedMem, pois := [(0x404, 5)] } } (ctxWho (withLoad []) 1504 0) 0x10000 (256 * 210) 0 0 =
        .ok [⟨.phys 0x10000, 256 * 210, 0⟩] := by decide +kernel
    refine ⟨_, readRange_one h, poison_behind (i := 256) (by decide) (by decide +kernel) (by decide +kernel)⟩
/-- A loaded thread that comes back: one at a run boundary with the reset records and an FWAIT. -/
theorem witness_saved_thread :
    let c : FWaitC := { off := 4, mask := 1, promise := some 5 }
    let t : Thread := { user 0 [(3, 7)] with st := .ready, waits := [c], pwin := some 3 }
    112 ≤ 112 ∧ t.st = .ready ∧ t.v.length = 112 ∧ (∀ r ∈ t.v, r.pend = 0) ∧ t.k.length = 8 ∧ (∀ r ∈ t.k, r.pend = 0) ∧ t.p.length = 12 ∧ t.ring.length = 4 ∧
      t.wake < 2 ^ 64 ∧ t.susp = none ∧ t.newWaits = [] ∧ t.waits.length ≤ 12 ∧
      (∀ now ∈ [0, 2 ^ 63], now ≤ t.clk.latest + 2 ^ 63 ∧ t.clk.latest < now + 2 ^ 63) ∧
      (∀ c ∈ t.waits, c.off < 2 ^ 32 ∧ c.mask < 2 ^ 32 ∧ c.missed = false ∧ c.promise = some 5) ∧ (5 < 2 ^ 64 - 1 ∧ t.pwin = some 3) ∧
      (∀ x ∈ t.ring, x.record.va < 2 ^ 64 ∧ x.record.akind < 256 ∧ x.record.cause < 256 ∧ x.record.asid < 2 ^ 16 ∧
        x.record.src < 8 ∧ x.record.index < 2 ^ 29 ∧ x.record.gen < 2 ^ 32) := by decide +kernel

/-! ### Launches -/

def ring : Queue := { base := 0x100000, log2 := 4, isOpen := true, head := 3, tail := 15 }
/-- A state with that queue, a grid in it, and a few bytes of memory: `STATE` of the head and of the tail. -/
def atQueue (hs ts : Nat) (gd : Tab Grid) : State :=
  { at1 0 { user 0 [] with st := .ready } with
    teams := [], groups := [], threads := [], issues := [], queues := [(0, ring)], grids := gd, xl := { spaces := [(1, space)] },
    mem := { cells := Memory.write (Memory.write (Memory.write [] 64 (bytesOf 1 8)) (0x100000 + 3 * 128 + 0x78) (bytesOf hs 1)) (0x100000 + 15 * 128 + 0x78) (bytesOf ts 1) } }
/-- LaunchQueues: a claim with the tail entry free and with it taken, of a closed queue, and of one that does not exist. -/
theorem witness_claim :
    let s := atQueue 0 0 []
    (s.mod.ports.getD 0 {}).up = true ∧ s.queues.get 0 = some ring ∧ ring.isOpen = true ∧ entryFree (entryState s ring 15) = true ∧
      entryFree (entryState (atQueue 0 2 []) ring 15) = false ∧ s.queues.get 1 = none ∧ InDevice ring ∧ ring.head < 2 ^ 12 ∧
      Memory.wf s.mem.cells = true ∧ entryState s ring 3 ≠ 1 ∧ entryState (atQueue 1 0 []) ring 3 = 1 := by unfold InDevice; decide +kernel
/-- PacketCauses: for each cause a packet that it rejects first, and one that none rejects. -/
theorem witness_causes :
    let s := atQueue 0 0 []
    packetCause s { least with groups := 1 } = some 1 ∧ packetCause s { least with budp := 4 } = some 2 ∧ packetCause s { least with scru := 129 } = some 3 ∧
      packetCause s { least with prio := 4 } = some 4 ∧ packetCause s { least with code := 2 } = some 5 ∧ packetCause s { least with asid := 2 } = some 6 ∧
      packetCause s { least with feat := [0x100, 0, 0, 0] } = some 7 ∧ packetCause s least = none := by decide +kernel
/-- PacketsTaken: a packet that a check rejects and one that passes, with a dependence word and without. -/
def withPacket (p : Packet) : State :=
  let s := atQueue 0 0 []
  { s with mem := { cells := Memory.write s.mem.cells (0x100000 + 3 * 128) (p.bytes ++ bytesOf 1 1) } }
theorem witness_taken :
    (∀ x ∈ [(least, none), ({ least with depa := 0x20000 }, none), ({ least with groups := 1 }, some 1)],
      let s := withPacket x.1
      s.queues.get 0 = some ring ∧ entryState s ring 3 = 1 ∧ (∀ e ∈ s.grids, ¬ (e.2.queue = 0 ∧ e.2.phase ≠ .placed)) ∧ Memory.wf s.mem.cells = true ∧
        packetCause (setEntryState s 0 3 2) (Packet.ofBytes (homeBytes s.mem (ringAt ring 3 0) 128)) = x.2) := by decide +kernel

def grid (ph : GridPhase) (p : Packet) : Grid := { queue := 0, entry := 3, pkt := p, phase := ph }
theorem gridOf {s : State} {g : Grid} (h : s.grids.get 1 = some g) (hq : s.queues.get g.queue = some ring) (he : g.entry < 2 ^ 12) (hm : Memory.wf s.mem.cells = true) :
    GridOf s 1 g ring := ⟨h, hq, by unfold InDevice; decide, he, hm⟩
/-- GridsRun: the grids of the following witnesses are grids of the queue. -/
theorem witness_grids : ∀ ph ∈ [GridPhase.waiting, .placing, .placed], ∀ p ∈ [least, { least with gang := 2, gx := 4 }, { least with done := 0x30000 }, { least with depa := 0x20000, asid := 2 }],
    GridOf (atQueue 1 2 [(1, grid ph p)]) 1 (grid ph p) ring := by
  intro ph hph p hp
  exact gridOf (by simp [atQueue, Tab.get]) rfl (by decide +revert) (by show Memory.wf (atQueue 1 2 []).mem.cells = true; decide +kernel)
/-- DependencesRead: a word that has its value and one that has not, one that faults, a poisoned one, one in peer memory, and an invalid ASID; a write
of the word whose thread's earlier writes are not yet visible, and one that names other bytes. -/
theorem witness_dependence :
    let g := fun (a v k : Nat) => grid .waiting { least with depa := a, depv := v, asid := k }
    let s := fun (x : Grid) => atQueue 1 2 [(1, x)]
    let acc := fun (a : Nat) => checkAcc (s (g a 0 1)) { asid := 1, team := 0, bound := 0, privNo := 0 } a 8 0 9 8 0 0
    asidOk (s (g 0 0 1)) 1 = true ∧ asidOk (s (g 0 0 2)) 2 = false ∧ (s (g 0 0 1)).workingCore 0 192 = some 0 ∧ (g 0 0 1).aborted = false ∧
      (∀ x ∈ [(0x20000, 0), (0x100000, 1)], (match acc x.1 with | .ok a => a.kind == x.2 && a.loc != .scratch 0 0 | .error _ => false) = true) ∧
      (match acc 0x20001 with | .ok _ => false | .error f => f.cause == 0x10) = true ∧
      homeValue (s (g 0x20000 0 1)) 0x20000 8 = ([0, 0, 0, 0, 0, 0, 0, 0], none) ∧ leNat [(0 : Byte)] < 1 ∧ 0 ≤ leNat [(0 : Byte)] ∧
      (homeValue { s (g 0x20000 0 1) with mem := { cells := [], pois := [(0x800, 5)] } } 0x20000 8).2 ≠ none ∧
      (let wrote := fun (n : Nat) => ({ s (g 0x20000 0 1) with
          threads := [(0, { user 0 [] with rclk := 1000001 })], mem := { wrote := [{ th := 0, op := 1, addr := n, len := 8, clk := some { t := 1000001 } }] } } : State)
       depWaits (s (g 0x20000 0 1)) 0x20000 = false ∧ depWaits (wrote 0x20000) 0x20000 = true ∧ depWaits (wrote 0x20008) 0x20000 = false ∧
        depWaits (wrote 0x1FFF9) 0x20000 = true) := by decide +kernel
/-- Placement and TeamsPlaced: a team alone, a gang of two, the last of a grid and one before it; and no core that fits. -/
theorem witness_placement :
    let p2 : Packet := { least with gang := 2, gx := 4 }
    let s := fun (x : Grid) => atQueue 1 2 [(1, x)]
    chooseCores (s (grid .placing least)) least = some [0] ∧ chooseCores (s (grid .placing p2)) p2 = some [0, 1] ∧ asidOk (s (grid .placing least)) 1 = true ∧
      coresIn (s (grid .placing p2)) p2 47 2 = some [188, 189] ∧ coreFits (s (grid .placing least)) least 191 = true ∧
      least.crews * least.tiles ≤ tilesFree (s (grid .placing least)) (clusterOf 191) ∧
      least.gang = 1 ∧ 0 < p2.gang ∧ (grid .placing least).aborted = false ∧ 0 + least.gang = least.teams ∧ 0 + p2.gang ≠ p2.teams ∧ slotsFor [] 3 = [0, 12, 24] ∧
      (s (grid .placing least)).mod.boot.supLoaded = true ∧
      asidOk { s (grid .placing { least with asid := 2 }) with serial := 7 } 2 = false ∧
      chooseCores { s (grid .placing least) with mod := { modul with fenced := upto 192 } } least = none := by decide +kernel
/-- TeamsStart: a team alone that is placed, one that runs already, a gang of two of which one member is not yet placed, and a team one of whose units
holds a line that a store on its way keeps there. -/
theorem witness_start :
    let a : Team := { grid := 1, index := 0, core := 0, slots := [0, 12], pkt := least, st := .placed }
    let b : Team := { a with pkt := { least with gang := 2, gx := 2 } }
    let s : State := { atQueue 1 2 [(1, grid .placed least)] with teams := [(5, a)] }
    let h : State := { atQueue 1 2 [(1, grid .placed least)] with
      teams := [(5, { a with units := [0] })], mem := { l1 := [(copyKey 0 0x2000, { data := zeros 64 })], l1at := [(countKey 0 0x2000, 0)] },
      ops := [(2, { opOf' (.store { inDevice with loc := .phys 0x2000 } [1, 2, 3, 4]) 0 with sent := some 1 })] }
    Rising s.teams ∧ s.teams.get 5 = some a ∧ a.pkt.gang ≤ (s.teams.filter (fun e => decide (e.2.grid = 1 ∧ e.2.index / 1 = 0))).length ∧
      (∀ e ∈ s.teams, e.2.slots.Nodup ∧ e.2.slots.length = e.2.pkt.groups ∧ ∀ x ∈ e.2.slots, x < 47) ∧ (s.teams.map (·.2.core)).Nodup ∧
      (∀ e ∈ s.teams, ∀ u ∈ e.2.units, unitLines s e.2.core u = []) ∧
      Rising h.teams ∧ unitLines (reclaim h 0 [0]) 0 0 ≠ [] ∧ (h.teams.map (·.2.units)) = [[0]] ∧
      ({ a with st := .running } : Team).st ≠ .placed ∧ [b].length < b.pkt.gang := by unfold Rising; decide +kernel
/-- GridsComplete: a grid not finished; finished ones, aborted, without DONE, with a DONE that faults, with one that does not, with one that no atomic
reaches, and with one in host memory whose ports are down; and one whose DONE has been raised, before and after that write is visible. -/
theorem witness_complete :
    let g := fun (p : Packet) (ab : Bool) => ({ grid .placed p with placed := 1, ended := 1, aborted := ab } : Grid)
    let fin := fun (x : Grid) => let s := atQueue 4 2 [(1, x)]
      x.fin = none ∧ x.ended = x.placed ∧ x.saved = [] ∧ (x.phase = .placed ∨ x.aborted = true) ∧ gridVisible s 1 x = true
    let acc := fun (a : Nat) => checkAcc (atQueue 4 2 [(1, g { least with done := a } false)]) { asid := 1, team := 0, bound := 0, privNo := 0 } a 8 3 2 8 0 0
    let s := fun (up : Bool) => ({ atQueue 4 2 [] with mod := { modul with ports := [{ up := up }, {}] } } : State)
    fin (g least false) ∧ fin (g least true) ∧ fin (g { least with done := 0x30000 } false) ∧ fin (g { least with done := 0x800000 } false) ∧
      ¬ fin { g least false with ended := 0 } ∧
      (match acc 0x30000 with | .ok a => a.loc == .phys 0x30000 && a.kind == 0 | .error _ => false) = true ∧
      (match acc 0x800000 with | .ok _ => false | .error f => f.cause == 0x0C) = true ∧
      spaceOf 0x30000 = 0 ∧ 0x30000 % 8 = 0 ∧ homePois { cells := [] } 0x30000 = none ∧ 0x30000 + 8 ≤ ringAt ring 3 0x78 ∧
      (match acc 0x100000 with | .ok a => a.kind == 1 && atomPlace (s true) 1 4 false 0 1 == none | .error _ => false) = true ∧
      (match acc 0x300000 with | .ok a => a.loc == .phys (physOf 2 0x300000) && a.kind == 3 | .error _ => false) = true ∧
      atomPlace (s false) 3 4 false 0 1 = some .pcie ∧ hostGone (s false) (physOf 2 0x300000) = true ∧
      (let x := { g least false with fin := some 5, clock := { t := 1000000 } }; x.fin = some 5 ∧ x.clock.passed (s true) = true) ∧
      ({ g least false with fin := some 5, clock := { t := 1000001 } } : Grid).clock.passed (s true) = false := by decide +kernel

/-! ### The module: caches, clocks, the host, links, start-up and faults -/

def copyAt (e : Nat) : Copy := { data := zeros 64, exp := e }
def atRest : State := { at1 0 { user 0 [] with st := .ready } with issues := [] }
/-- LeasesExpire: an L1 copy and an RDC copy that serve a load; a lease that runs and one that is over; a pushed copy whose lease is over, of a recording
that is played, of one frozen and of one armed; and one that nobody pushed. -/
theorem witness_lease_ends :
    let q : Ask := { core := 0 }
    let s : State := { atRest with mem := { l1 := [(copyKey 0 0x1000, copyAt 1000016)] } }
    let r : State := { atRest with mem := { rdc := [(copyKey 0 0x1800000000, copyAt 1000016)] } }
    let p : State := { atRest with mem := { rdc := [(64, { copyAt 1000000 with pushed := some 2 })] } }
    l1Copy s q 0x1000 = some (copyAt 1000016) ∧ rdcCopy r q 0x1800000000 = some (copyAt 1000016) ∧
      (copyAt 1000016).exp % 16 = 0 ∧ modul.lsrdc ≤ 8192 ∧ modul.now < 1000016 ∧ 1000016 ≤ leaseEnd modul.now modul.lsrdc ∧ 1000000 ≤ modul.now ∧
      modul.now + modul.lsrdc + 32 < 1000000 + 2 ^ 28 ∧
      p.mem.rdc.get 64 = some { copyAt 1000000 with pushed := some 2 } ∧ ({ copyAt 1000000 with pushed := some 2 } : Copy).exp ≤ p.mod.now ∧
      (∀ x ∈ [(true, false), (true, true), (false, false)], ({ p with recs := [(2, { played := x.1, frozen := x.2 })] } : State).recs.get 2 =
        some { played := x.1, frozen := x.2 }) ∧
      r.mem.rdc.get 64 = none := by decide +kernel
/-- ScrubAndWake: copies with a lease and past it, in an L1, where one has a write-through on its way, and in an RDC, of device and of host memory. -/
theorem witness_scrub :
    let s : State := { atRest with
      mem := { l1 := [(64, copyAt 1000000), (68, copyAt 1000016), (72, copyAt 1000000)],
               rdc := [(64, copyAt 1000000), (65, copyAt 1000016), (2 ^ 51, { copyAt 0 with dirty := true })] },
      ops := [(2, { opOf' (.store { inDevice with loc := .phys (72 * 64 + 128) } [1, 2, 3, 4]) 0 with sent := some 1 })] }
    (∀ k ∈ [64, 68, 72], (s.mem.l1.get k).isSome = true) ∧ (∀ k ∈ [64, 65, 2 ^ 51], (s.mem.rdc.get k).isSome = true) ∧ Rising s.mem.l1 ∧ Rising s.mem.rdc ∧
      pinned s 0 64 = false ∧ pinned s 0 72 = true ∧ (copyAt 1000000).exp ≤ s.mod.now ∧ s.mod.now < (copyAt 1000016).exp ∧
      leasedSector (64 % 2 ^ 56) = true ∧ leasedSector (2 ^ 51 % 2 ^ 56) = false ∧ (∀ e ∈ s.mem.rdc, e.2.data.length = 64) ∧
      Memory.wf s.mem.cells = true ∧ 134217728 < 134217729 ∧ 134217728 ≤ 134217728 ∧ 64 / 2 ^ 56 = 0 := by unfold Rising; decide +kernel
/-- TimeFaults and Synchronisation: a die with a time fault and one without; offsets at both sides of the band. -/
theorem witness_time :
    let s : State := { atRest with mod := { modul with timeFault := [false, true, false, false] } }
    s.mod.timeFault.length = 4 ∧ s.mod.timeFault.getD 0 false = false ∧ s.mod.timeFault.getD 1 false = true ∧ (64 : Int).natAbs ≤ 64 ∧ 64 < (65 : Int).natAbs ∧
      64 < (-65 : Int).natAbs ∧ (-64 : Int).natAbs ≤ 64 := by decide +kernel
/-- HostAccesses and HostSnoops: the end of device memory from both sides, a write within a sector, acknowledgements that are due and not due; a host
sector without copies, and one held as host-noncoherent. -/
theorem witness_host :
    let past := fun (h : WClock) => h.t ≤ atRest.mod.now ∧ ∀ p ∈ h.provs, p.2 ≤ atRest.mod.now ∨ atRest.mem.revs.get p.1 = none
    let y := physOf 2 0x20000
    let n : State := { atRest with mem := { rdc := [(copyKey (homeDie y) y, { copyAt 0 with nc := true, dirty := true })] } }
    hostUp atRest = true ∧ hostUp { atRest with mod := { modul with ports := [{}, {}] } } = false ∧ 0x5FFFFFFFC0 + 64 ≤ 0x6000000000 ∧
      0x6000000000 < 0x5FFFFFFFC0 + 65 ∧ 0x5FFFFFFFC0 % 64 + 64 ≤ 64 ∧ zeros 64 ≠ [] ∧ (zeros 64).length = 64 ∧ Memory.wf atRest.mem.cells = true ∧
      (∀ e ∈ [({ t := 1000000 } : WClock), { t := 7, provs := [(3, 1000001)] }], past e) ∧ ¬ past { t := 1000001 } ∧
      (hostPort atRest y).isSome = true ∧ 0x20000 < 2 ^ 52 ∧ 0x20000 % 64 + 64 ≤ 64 ∧ proxyCopy atRest.mem y = none ∧ atRest.mem.l1 = [] ∧
      (let p : State := { atRest with mem := { l1 := [(copyKey 0 y, copyAt 0)] },
                                      ops := [(2, { opOf' (.store { inHost with loc := .phys y } [1, 2, 3, 4]) 0 with sent := some 1 })] }
       pinned p 0 (y / 64) = true ∧ pinned p 1 (y / 64) = false ∧ p.mem.l1.get (copyKey 0 y) = some (copyAt 0)) ∧
      proxyCopy n.mem y = some { copyAt 0 with nc := true, dirty := true } ∧ (hostPort n y).isSome = true ∧ (∀ e ∈ n.mem.rdc, e.2.data.length = 64) := by
  decide +kernel
/-- Negotiation: an offer and one too many, fabric scope with a peer that has it and with one that has not, in step 7 of start-up and after it. -/
theorem witness_negotiation :
    let m := fun (w : Nat) (f : Bool) => ({ modul with fack := 1, fen := [w, 0, 0, 0], links := List.replicate 18 { st := .active, peerFabric := f } } : Mod)
    (m 0xFF true).fack = 1 ∧ (∀ b < 16, (0xFF : Nat).testBit b = true → b < 8) ∧ (0x100 : Nat).testBit 8 = true ∧ (∀ k ∈ (m 0xFF true).links, k.peerFabric = true) ∧
      (∃ k ∈ (m 4 false).links, k.st = .active ∧ k.peerFabric = false) ∧ modul.fack ≠ 1 ∧ (modul.ports.getD 0 {}).up = true ∧
      ({ m 0xFF true with boot := { step := 7 } } : Mod).boot.step = 7 ∧ (m 0xFF true).boot.step ≠ 7 ∧
      (0xFFF < 0x1000 ∨ 0x1200 ≤ 0xFFF) ∧ (0x1200 < 0x1000 ∨ 0x1200 ≤ 0x1200) := by decide +kernel
/-- Ports: the last port and one of two; a port that comes up in step 4 and later. -/
theorem witness_ports :
    let s : State := { atRest with mod := { modul with ports := [{ up := true }, { up := true }] } }
    let b : State := { atRest with mod := { modul with ports := [{}, {}], boot := { step := 4 } } }
    atRest.mod.ports.length = 2 ∧ (atRest.mod.ports.getD 0 {}).up = true ∧ (atRest.mod.ports.getD 1 {}).up = false ∧ (s.mod.ports.getD 1 {}).up = true ∧
      (∀ e ∈ atRest.posts, e.1 < atRest.serial) ∧ b.mod.boot.failed = 0 ∧ 4 ≤ b.mod.boot.step ∧ 4 ≤ atRest.mod.boot.step ∧ atRest.mod.boot.failed = 0 := by
  decide +kernel
/-- LinksAndPeers: a link in each state, with all lanes, with fewer and without; one that is enabled and one that is not; an access to a peer that only
that link reaches, and one elsewhere; a buffer with a flit's room, paused and not; a peer that has paused the responses. -/
theorem witness_links :
    let s := fun (k : Link) => ({ atRest with mod := { modul with links := List.replicate 18 k } } : State)
    let one : State := { atRest with mod := { modul with links := { st := .active, peer := 1 } :: List.replicate 17 {} },
                                     ops := [(2, opOf' (.load inPeer false none) 1), (3, opOf' (.load inDevice false none) 1)] }
    let cut : State := { one with mod := { one.mod with links := one.mod.links.set 0 { st := .down, peer := 1 } } }
    (∀ x ∈ [LinkState.detect, .equalize, .ident, .timesync, .active, .degraded, .down], ∀ n ∈ [0, 2, 7, 8], (s { st := x, lanes := n }).mod.links.length = 18 ∧
      ((s { st := x, lanes := n }).mod.links.getD 0 {}) = { st := x, lanes := n } ∧ ((s { st := x, lanes := n }).mod.links.getD 17 {}).vls.length = 3) ∧
      modul.cfg.enables.getD 0 false = true ∧ ({ modul.cfg with enables := [] } : CfgRec).enables.getD 0 false = false ∧ 5 < modul.boot.step ∧
      (one.mod.links.getD 0 {}).lanes = 0 ∧ peerOf (physOf 1 (2 ^ 39)) = 1 ∧ routed one 1 = true ∧ routed cut 1 = false ∧ spaceOf 0x1000 ≠ 1 ∧
      256 ≤ (((s {}).mod.links.getD 0 {}).vls.getD 0 {}).free ∧
      (((s { vls := [{ pauseSent := true }, {}, {}] }).mod.links.getD 0 {}).vls.getD 0 {}).pauseSent = true ∧
      (((s { st := .active, vls := [{}, { paused := true }, {}] }).mod.links.getD 0 {}).vls.getD 1 {}).paused = true ∧
      (300 : Nat) ≤ 300 ∧ 2 ≤ 8 ∧ (64 : Int).natAbs ≤ 64 ∧ 64 < (65 : Int).natAbs ∧ atRest.mod.devid ≠ 5 ∧ Memory.wf atRest.mem.cells = true ∧ atRest.mem.pois.get (0x1000 / 64) = none ∧
      0x1000 + 8 ≤ 0x6000000000 ∧ 0x1000 % (4 * typeRegs 3) = 0 ∧ (atomNew false 0 1 5 6 0).isSome = true ∧ modul.desync = false ∧
      twoHalves false 0 6 = true ∧ twoHalves false 0 1 = false ∧
      (let st : State := { one with ops := [(2, opOf' (.store inPeer [1, 2, 3, 4]) 0)] }
       st.ops.get 2 = some (opOf' (.store inPeer [1, 2, 3, 4]) 0) ∧ (opOf' (.store inPeer [1, 2, 3, 4]) 0).accs = [inPeer] ∧ inPeer.loc = .phys (physOf 1 (2 ^ 39)) ∧
        spaceOf (physOf 1 (2 ^ 39)) = 1 ∧ (st.threads.get 0).isSome = true) ∧
      (∀ h ∈ [0, 1], let x : PeerHalf := { link := 0, pa := 0x1000, aop := 0, ty := 6, opnd := 7, half := h, old := 3 }
       ({ one.mod with peerHalves := [x] } : Mod).peerHalves.head? = some x ∧ x.half < 2 ∧ x.pa % 4 = 0 ∧ x.pa + 4 ≤ 0x6000000000) := by decide +kernel
/-- StartUpAndFaults: start-up in step 6, in recovery, a working core and a fenced one. -/
theorem witness_startup :
    let b : State := { atRest with mod := { modul with boot := { step := 6 }, fenced := [191] } }
    b.mod.boot.step = 6 ∧ b.mod.boot.supLoaded = false ∧ b.mod.fack = 2 ∧ ({ b.mod with fack := 0 } : Mod).fack ≠ 2 ∧ atRest.mod.boot.step ≠ 6 ∧
      ({ b with mod := { b.mod with boot := { step := 1, recovery := true } } } : State).mod.boot.recovery = true ∧ b.mod.boot.recovery = false ∧
      0x17FFFFFFF * 64 < 0x6000000000 ∧ 191 ∈ b.mod.fenced ∧ 0 ∉ b.mod.fenced ∧ Rising b.teams ∧ b.workingCore 144 192 = some 144 := by
  unfold Rising; decide +kernel
/-- CoreFaults: a gang on two cores. -/
theorem witness_gang :
    let a : Team := { grid := 1, index := 0, core := 0, slots := [0, 12], pkt := { least with gang := 2, gx := 2 }, st := .running }
    let s : State := { atRest with teams := [(1, a), (2, { a with index := 1, core := 1 })] }
    s.teams.get 1 = some a ∧ s.teams.get 2 = some { a with index := 1, core := 1 } ∧ 1 / a.pkt.gang = 0 / a.pkt.gang ∧ a.ended = false ∧ a.st ≠ .placed ∧ Rising s.teams := by
  unfold Rising; decide +kernel
/-- MemoryCanonicalKept and TablesTidyKept: from reset, a step with an instruction in its place, which goes on. -/
theorem witness_invariants :
    let s := State.reset.withFetchWord 32 0x6001A0C
    (MemoryCanonical s) ∧ (match step s with | .next _ => true | _ => false) = true := by
  unfold MemoryCanonical; decide +kernel
theorem witness_tidy :
    let s := State.reset.withFetchWord 32 0x6001A0C
    Tidy s ∧ ∃ x, s.issues.get 0 = some x ∧ x.batch = 0 := by
  refine ⟨⟨?_, ?_, ?_, ?_, ?_, ?_, ?_, ?_, ?_, ?_, ?_, ?_, ?_⟩, ?_⟩
  all_goals first | (unfold Rising; decide +kernel) | decide +kernel

end Sys2Proof.Tests
end

