-- ==== Sys2Proof/Tests/MoreWitnesses.lean ====
section
/-! SUPPORT. Witnesses for the statements about traps, about the order of choices, and about what engines and Ferries leave. -/

namespace Sys2Proof.Tests

open Sys2Proof Sys2Proof.Machine Sys2Proof.Spec

set_option maxRecDepth 20000
set_option Elab.async false

/-! ### Groups in which some threads trap -/

/-- A group of two threads, at a word of instruction `i` that both execute, one of them with what `bad` finds. -/
def Mixed (i : Instr) (bad : State → Env → Thread → Option (Trap × Thread)) (s : State) : Prop :=
  ∃ f x t u, AtWord s i f x ∧ FreshOps s ∧ x.lanes = [32, 33] ∧ (∀ pl ∈ x.lanes, isSup pl = false) ∧ (∀ port, pcieOut s port + x.lanes.length ≤ 64) ∧
    s.threads.get 32 = some t ∧ s.threads.get 33 = some u ∧ gate s i f (envOf s 32 t) t = .run ∧ gate s i f (envOf s 33 u) u = .run ∧
    (bad s (envOf s 32 t) t).isSome = true ∧ (bad s (envOf s 33 u) u).isNone = true
/-- The same as a check. -/
def mixed (i : Instr) (bad : State → Env → Thread → Option (Trap × Thread)) (s : State) : Bool :=
  match i.info, s.issues.get s.cur, s.threads.get 32, s.threads.get 33 with
  | some f, some x, some t, some u =>
    x.lanes == [32, 33] && !s.holding x && x.served == [] && !x.stall && s.ops == [] &&
      gate s i f (envOf s 32 t) t == .run && gate s i f (envOf s 33 u) u == .run && (bad s (envOf s 32 t) t).isSome && (bad s (envOf s 33 u) u).isNone
  | _, _, _, _ => false
theorem mixed_sound {i : Instr} {bad : State → Env → Thread → Option (Trap × Thread)} {s : State} (h : mixed i bad s = true) : Mixed i bad s := by
  unfold mixed at h
  split at h
  · rename_i f x t u hi hx ht hu
    simp only [Bool.and_eq_true, beq_iff_eq, Bool.not_eq_true'] at h
    obtain ⟨⟨⟨⟨⟨⟨⟨⟨hl, hh⟩, hs⟩, hst⟩, ho⟩, h1⟩, h2⟩, h3⟩, h4⟩ := h
    refine ⟨f, x, t, u, ⟨hi, hx, hh, hs, hst, by simp [hl]⟩, by simp [FreshOps, ho], hl, by rw [hl]; decide, ?_, ht, hu, h1, h2, h3, h4⟩
    intro port
    simp [pcieOut, Tab.find, ho, hl]
  · cases h

/-- A thread with a poisoned r2 and r3, and one without, at addresses of device memory. -/
def ill : Thread := let t := user 1 dev; { t with v := (t.v.set 2 { pois := .bad 0 false }).set 3 { pois := .bad 0 false } }
def pair : State := two ill (user 1 dev)
/-- LoadsAndStoresIssue, TrapsTaken, AtomicsIssue: in a group with a slot free, one thread traps and the other goes on. -/
theorem witness_access_traps :
    Mixed (.ld (w1 4 2 120) (xm 2))
      (fun s e t => loadBad s e t (addrM e t (w1 4 2 120) (xm 2)) (srcDP e t 2) (countP e t (w1 4 2 120) (xm 2)) (fabM e t (w1 4 2 120) (xm 2) 1)
        (loadCheck s e t (w1 4 2 120) (xm 2))) pair ∧
    Mixed (.ldln (w1 4 2 120) (xm 5))
      (fun s e t => loadBad s e t (addrM e t (w1 4 2 120) (xm 5)) (srcDP e t 2) (countP e t (w1 4 2 120) (xm 5)) (fabM e t (w1 4 2 120) (xm 5) 1)
        (lineCheck s e t (w1 4 2 120) (xm 5))) pair ∧
    Mixed (.lds (w1 4 3 120) (xm 2)) (fun s e t => loadBad s e t 0 (srcP e t 3) .clean false (ldsCheck e t (w1 4 3 120) (xm 2))) pair ∧
    Mixed (.st (w1 120 2 6) (xm 2))
      (fun s e t => storeBad s e t (addrM e t (w1 120 2 6) (xm 2)) (srcDP e t 2) (rdN e t 6 (sizeRegs 2)).2 (fabM e t (w1 120 2 6) (xm 2) 2)
        (stCheck s e t (w1 120 2 6) (xm 2))) pair ∧
    Mixed (.sts (w1 120 3 6) (xm 2)) (fun s e t => storeBad s e t 0 (srcP e t 3) (rdN e t 6 (sizeRegs 2)).2 false (stsCheck e t (w1 120 3 6) (xm 2))) pair ∧
    Mixed (.atom (w1 4 2 6) (xt 0 1)) (atomBad false (w1 4 2 6) (xt 0 1)) pair ∧
    Mixed (.cas (w1 4 2 6) (xt 0 1 7)) (atomBad true (w1 4 2 6) (xt 0 1 7)) pair ∧
    Mixed (.red (w1 120 2 6) (xt 0 1)) (atomBad false (w1 120 2 6) (xt 0 1)) pair ∧
    (slotFull (.ld (w1 4 2 120) (xm 2)) pair 1 = false ∧ slotFull (.ldln (w1 4 2 120) (xm 5)) pair 1 = false ∧
      slotFull (.lds (w1 4 3 120) (xm 2)) pair 1 = false ∧ slotFull (.st (w1 120 2 6) (xm 2)) pair 1 = false ∧
      slotFull (.sts (w1 120 3 6) (xm 2)) pair 1 = false ∧ slotFull (.atom (w1 4 2 6) (xt 0 1)) pair 1 = false ∧
      slotFull (.cas (w1 4 2 6) (xt 0 1 7)) pair 1 = false ∧ slotFull (.red (w1 120 2 6) (xt 0 1)) pair 1 = false) := by
  refine ⟨mixed_sound ?_, mixed_sound ?_, mixed_sound ?_, mixed_sound ?_, mixed_sound ?_, mixed_sound ?_, mixed_sound ?_, mixed_sound ?_, ?_⟩ <;>
    decide +kernel
/-- A lock that a load meets, and fabric scope with the fabric out of step. -/
theorem witness_lock_trap :
    (∃ a tr, loadCheck (prodAt dev) (envP dev) (user 0 dev) (w1 4 2 120) (xm 2) = .ok a ∧
      lockTrap { prodAt dev with mem := { locks := [(0, { cmd := 9, pass := false, dest := true, ranges := [⟨false, 1, 0x1000, 512⟩], order := 0 })] },
                                 cmds := [(9, cmd 512 0x1000)] } a 0x1000 0 false = some tr) ∧
    (fabM (envP dev) (user 0 dev) (w1 4 2 120) (xm 2 0 1 3) 1 = true ∧ ({ modul with desync := true } : Mod).desync = true) := by
  exact ⟨⟨_, _, rfl, rfl⟩, by decide +kernel, rfl⟩
/-- PoisonedTargets. -/
theorem witness_poisoned_targets :
    let bad := fun (d : Nat) (_ : State) (e : Env) (t : Thread) => if (srcDP e t 2).isBad then asIs t (poisonTrap t (srcDP e t 2) d) else none
    Mixed (.brx (w1 120 2 120)) (bad 4) pair ∧ Mixed (.callx (w1 4 2 120)) (bad 4) pair ∧ Mixed (.ret (w1 120 2 120)) (bad 4) pair ∧
      Mixed (.sleept (w1 120 2 120)) (bad 7) pair := by
  refine ⟨mixed_sound ?_, mixed_sound ?_, mixed_sound ?_, mixed_sound ?_⟩ <;> decide +kernel
/-- PackedResults, ConversionResults: under TRAP the largest halves overflow in one thread and zeros do not in the other. -/
def trapping (fn : BitVec 8) (c : BitVec 7 := 120) : ExtA := { xa fn c with ovf := 3 }
def big : State := two (user 1 [(2, 0x7BFF7BFF), (3, 0x7BFF7BFF)]) (user 1 [])
def overflows (fits : State → Env → Thread → Bool) (s : State) (e : Env) (t : Thread) : Option (Trap × Thread) :=
  if fits s e t then none else asIs t { code := 0x11 }
theorem witness_overflow :
    Mixed (.pkadd (w1 4 2 3) (trapping 0)) (overflows (halvesFit (w1 4 2 3) 120 (halfAdd (trapping 0)))) big ∧
    Mixed (.pkmul (w1 4 2 3) (trapping 0)) (overflows (halvesFit (w1 4 2 3) 120 (halfMul (trapping 0)))) big ∧
    Mixed (.pkfma (w1 4 2 3) (trapping 0 5)) (overflows (halvesFit (w1 4 2 3) 5 (halfFma (trapping 0 5)))) big := by
  refine ⟨mixed_sound ?_, mixed_sound ?_, mixed_sound ?_⟩ <;> decide +kernel
theorem witness_conversion_overflow :
    let convs := fun (x : ExtA) (elems : Env → Thread → List Nat) (nar : Bool) => overflows (fun _ e t => (elems e t).all (fun a =>
      (convert (cvtDst x.fn) x.rnd.toNat x.ovf.toNat (scaleVal e t x) nar (fmtDec (cvtSrc x.fn) a)).isSome))
    let x := trapping 0x64
    let y := trapping 0x0B 5
    let z := trapping 0x8A
    let d := trapping 2 5
    let f32 := two (user 1 [(2, 0x7F7FFFFF)]) (user 1 [])
    let bytes := two (user 1 [(2, 0x7F), (5, 0xFE)]) (user 1 [])
    let book : State := { two (user 1 [(2, 1)]) (user 1 []) with
      teams := [(1, { team with books := team.books.set 0 { ents := (List.replicate 16 0).set 1 0x7F7F } })] }
    Mixed (.cvt (w1 4 2 120) x) (overflows (fun _ e t => (element x (scaleVal e t x) (cvtSource (w1 4 2 120) x e t)).isSome)) f32 ∧
    Mixed (.cvtn (w1 4 2 3) x) (convs x (cvtnElems (w1 4 2 3) x) true) f32 ∧
    Mixed (.cvtw (w1 4 2 120) y) (convs y (cvtwElems (w1 4 2 120) y) false) bytes ∧
    (Mixed (.cvt (w1 4 2 120) z) (overflows (fun s e t => (convert 8 0 z.ovf.toNat (scaleVal e t z) (fmtBits 8 < fmtBits 10)
      (fBF16.dec (bookValue ((bookAt s e 0).getD {}) (code4 (srcW e t 2) 0)))).isSome)) book ∧ cvtSrc z.fn = 10 ∧
      ∀ pl ∈ [32, 33], ∀ t ∈ book.threads.get pl, (bookAt book (envOf book pl t) 0).isSome = true) ∧
    Mixed (.dot2 (w1 4 2 3) d) (overflows (fun _ e t => (dot2Round d (dot2Value d (srcW e t 2) (srcW e t 3) (srcW e t 5))).isSome)) big := by
  refine ⟨mixed_sound ?_, mixed_sound ?_, mixed_sound ?_, ⟨mixed_sound ?_, ?_, ?_⟩, mixed_sound ?_⟩ <;> decide +kernel

/-! ### Records, and what a scheduler chooses -/

/-- RegistersAndRecords: a mask register and a predicate whose tags name the place that is taken, and others. -/
theorem witness_kept_tags :
    let t : Thread := { user 0 [] with ringNext := 3, k := (List.replicate 8 {}).set 7 { pois := .bad 3 false }, p := (user 0 []).p.set 2 { pois := .bad 1 true } }
    t.ring.length = 4 ∧ t.ringNext < 4 ∧ 7 < t.k.length ∧ (t.k.getD 7 {}).pois = .bad 3 false ∧ 2 < t.p.length ∧ (t.p.getD 2 {}).pois = .bad 1 true ∧
      (3 : BitVec 2).toNat = t.ringNext ∧ (1 : BitVec 2).toNat ≠ t.ringNext := by decide +kernel

/-- A run's members: two threads that share a lane, of which the later one waits longer. -/
def sharing : State :=
  { waiting with threads := [(0, { user 0 [] with st := .ready, since := 9 }), (32, { user 1 [] with st := .ready, since := 5 })],
                 entries := [{ core := 0, team := 1, role := 0, addr := 0x10000, slot := none, members := [0, 32], hdr := 0xF8200000, cls := 0 }] }
/-- IssueGroups: the longer wait stands in the lane; candidates of every kind, and both orders of the supervisor's. -/
theorem witness_choice :
    (∀ x ∈ sharing.entries, 32 ∈ issueGroup sharing x ∧ 0 ∈ x.members ∧ eligible sharing x 0 = true ∧ placeLane 0 = placeLane 32 ∧
      (sharing.threads.get 0).isSome = true ∧ (sharing.threads.get 32).isSome = true) ∧
    (let e := fun (c r : Nat) (sup : Bool) => ({ core := 0, team := if sup then 0 else 1, role := 0, addr := 0x10000, slot := none, members := [0], hdr := 0, cls := c, ready := some r } : Entry)
     let c := fun (n c' r : Nat) (sup : Bool) => ({ entry := e c' r sup, group := [0], slot := n } : Cand)
     let cs := [c 0 0 5 false, c 1 3 7 false, c 2 3 7 false, c 3 3 9 false, c 4 1 1 true]
     (∃ c ∈ cs, c.sup = true) ∧ (∃ c ∈ cs, c.sup = false) ∧ (∀ d ∈ cs, d.entry.cls ≤ 3 ∧ d.entry.ready.getD 0 < 2 ^ 120) ∧
       (chosen sharing { sups := 14 } cs).map (·.slot) = some 4 ∧ (chosen sharing { sups := 15 } cs).map (·.slot) = some 1 ∧
       (chosen sharing { sups := 15, ptr := 2 } cs).map (·.slot) = some 2) := by decide +kernel

/-! ### Ferries -/

/-- FerryIssue: a producer beside threads of another role, with a poisoned offset, one that is misaligned, and one past the scratchpad. -/
theorem witness_ferry_traps :
    (let t := user 1 []; let s := consAt []; (ferryBad (w1 4 2 120) s (envOf s 32 t) t).isSome = true ∧ (lmarkBad (w1 120 2 120) s (envOf s 32 t) t).isSome = true ∧
      alone (.ferryCopy (w1 4 2 120) (xe 0 0)) s 32 t = true ∧ slotFull (.ferryCopy (w1 4 2 120) (xe 0 0)) s 1 = false ∧
      alone (.lmark (w1 120 2 120) (xe 0 0)) s 32 t = true ∧ slotFull (.lmark (w1 120 2 120) (xe 0 0)) s 1 = false) ∧
    (∀ n ∈ [32, 4096 - 32, 4096], let t := user 0 [(2, n)]; let s := prodAt [(2, n)]
      (ferryBad (w1 4 2 120) s (envOf s 0 t) t).isSome = true ∧ lmarkBad (w1 120 2 120) s (envOf s 0 t) t = none ∧
        alone (.ferryCopy (w1 4 2 120) (xe 0 0)) s 0 t = true) := by decide +kernel
/-- FerryChunks: the flight of one write, to device memory and to a scratchpad whose chunk map lies elsewhere, in a tidy state. -/
def mapBlock : List Byte := bytesOf 0x1000 8 ++ bytesOf 0x4000 8 ++ bytesOf 1024 4 ++ bytesOf 0x100 4 ++ bytesOf 1 4 ++ zeros 36
theorem witness_flight_bytes :
    let w : FWrite := { team := 1, loc := .phys 0x2000, kind := 0, tow := false, bytes := [(1, false)] }
    let v : FWrite := { w with loc := .scratch 1 0x200 }
    let fly := fun (x : FWrite) => ({ cmd 1024 0x1000 with blk := mapBlock, flight := [{ chunk := 1, gen := 0, writes := [x], count := 0, pois := none }] } : Cmd)
    let s := chunkIn (fly w)
    (fly w).flight.find? (fun f => f.chunk == 1) = some { chunk := 1, gen := 0, writes := [w], count := 0, pois := none } ∧
      (fly v).flight.find? (fun f => f.chunk == 1) = some { chunk := 1, gen := 0, writes := [v], count := 0, pois := none } ∧
      s.cmds.get 2 = some (fly w) ∧ (fly w).chunks.length + 1 ≠ (fly w).nchunks ∧ (fly w).bad = none ∧ Memory.wf s.mem.cells = true ∧
      (∀ e ∈ s.teams, Memory.wf e.2.scratch = true) ∧ spaceOf 0x2000 = 0 ∧ 0x2000 % 65536 + 1 ≤ 65536 ∧ blkCmap mapBlock = 0x100 ∧
      (fly w).targets = [1] ∧ (s.teams.get 1).isSome = true ∧ 0x100 + 4 * (1 / 32) + 4 ≤ 0x200 ∧ (fly w).blkScratch = true := by decide +kernel

/-! ### Collectives and engines -/

/-- A crew whose threads meet each reason: no crew, one too narrow, an address that differs, a tile that is absent, one that is released. -/
theorem witness_reasons :
    let e := envOf (consAt []) 32 (user 1 [])
    let t := user 1 []
    let c : Coll := { k := 0, addr := 0x20000, kind := .mxpod, tile := 0, arr := [⟨33, 0, 2, .mxpod, 0⟩] }
    let s := fun (cr : Crew) => ({ consAt [] with teams := [(1, { team with crews := [cr] })] } : State)
    collReason (prodAt []) (envP []) (user 0 []) 0x10000 (fun _ => false) none = some 2 ∧
      collReason { consAt [] with teams := [] } e t 0x10000 (fun _ => false) none = some 2 ∧
      collReason (s { tiles := [{}] }) e t 0x10000 (fun n => n == 2) none = some 3 ∧
      collReason (s { tiles := [{}], colls := [c] }) e t 0x10000 (fun _ => false) none = some 4 ∧
      collReason (s { tiles := [{}] }) e t 0x10000 (fun _ => false) (some 1) = some 5 ∧
      collReason (s { tiles := [{ held := false }] }) e t 0x10000 (fun _ => false) (some 0) = some 5 ∧
      collReason (s { tiles := [{}] }) e t 0x10000 (fun _ => false) (some 0) = none := by decide +kernel
/-- CollectivesIssue: a defect of the thread's own; a reason; guards of both kinds; and four collections open, none of which is the thread's next. -/
theorem witness_collective_traps :
    let i : Instr := .mxpod (w1 120 2 120) (xe 0 0)
    let bad : Thread := let t := user 1 []; { t with v := t.v.set 2 { pois := .bad 0 false } }
    let four : State := { consAt [] with teams := [(1, { team with crews := [{ tiles := [{}], colls := (List.range 4).map (fun k => { k := k + 1, addr := 0x10000, kind := .mxpod, tile := 0 }) }] })] }
    let j : Instr := .mxpod ⟨0, 120, 2, 120⟩ (xe 0 0)
    let p : Thread := { user 1 [] with p := (user 1 []).p.set 0 { val := true } }
    let both := two p (user 1 [])
    (alone i (at1 32 bad) 32 bad = true ∧ slotFull i (at1 32 bad) 1 = false ∧ (offOwn (w1 120 2 120) (at1 32 bad) (envOf (at1 32 bad) 32 bad) bad).isSome = true) ∧
    (let k : Instr := .mxpod (w1 120 2 120) (xe 0 3)
     alone k (consAt []) 32 (user 1 []) = true ∧ collReason (consAt []) (envOf (consAt []) 32 (user 1 [])) (user 1 []) (consAt []).runAddr (fun _ => false) (some 3) = some 5) ∧
    (slotFull j both 1 = false ∧ (∀ f ∈ j.info, gate both j f (envOf both 32 p) p = .run ∧ gate both j f (envOf both 33 (user 1 [])) (user 1 []) = .skip) ∧
      offOwn ⟨0, 120, 2, 120⟩ both (envOf both 32 p) p = none) ∧
    (alone i four 32 (user 1 []) = true ∧ slotFull i four 1 = false ∧ (user 1 []).susp = none ∧
      collReason four (envOf four 32 (user 1 [])) (user 1 []) four.runAddr (fun _ => false) (some 0) = none ∧
      ∀ tm ∈ four.teams.get 1, tm.crewOf (envOf four 32 (user 1 [])).gid = some 0 ∧
        ∀ cr ∈ tm.crews[0]?, 4 ≤ cr.colls.length ∧ ∀ c ∈ cr.colls, c.k ≠ (user 1 []).ncoll) := by decide +kernel
/-- EnginePasses: every shape has a crew width that it takes. -/
theorem witness_shapes : (∀ shape < 5, (fragRegs shape 4).isSome = true) ∧ (List.replicate 1632 (0 : Word)).length = 1632 ∧ 127 < 128 ∧ 63 < 64 := by
  refine ⟨by decide, List.length_replicate .., by decide, by decide⟩
/-- PodsAndPeers: a pod of a value and two positions, an end, and the next pod; the first and the last row and column of a tile. -/
theorem witness_pod_rows :
    (0x800 ≤ 0x8001 ∧ 0x8001 ≠ 0xC000 ∧ (∀ x ∈ [3, 0x7FF], x < 0x800) ∧ (∀ y ∈ [0x8002].head?, 0x800 ≤ y ∧ y ≠ 0xC000)) ∧
    Rising ([(0, 1), (16383, 2)] : Tab Word) ∧
    (∀ b ∈ [podBlock, (podBlock.set 0x1A 127).set 0x1B 127], 0 < fieldAt b 0x1C 1 % 128 ∧ fieldAt b 0x1B 1 % 128 + 0 < 128) := by
  unfold Rising; decide +kernel

/-! ### Other events -/

/-- OperationsEnd: a dirty host sector in the range that a CFLUSH names; a thread whose wake time has come and one whose time has not. -/
theorem witness_flush :
    let y := physOf 2 0x300000
    let o := opOf' (.cflush y 64 1 0) 0
    let s : State := { withOp (prodAt []) o with mem := { rdc := [(copyKey (homeDie (y / 256 * 256)) y, { copy with dirty := true })] } }
    s.ops.get 2 = some o ∧ y + 64 ≤ 2 ^ 62 ∧ Memory.wf s.mem.cells = true ∧ (∀ e ∈ s.mem.rdc, e.2.data.length = 64) ∧
      s.mem.rdc.get (copyKey (homeDie (y / 256 * 256)) y) = some { copy with dirty := true } ∧ (∀ e ∈ s.ops, ¬ e.1 < 2) := by decide +kernel
theorem witness_flush_host : ∀ y, hostGone (withOp (prodAt []) (opOf' (.cflush (physOf 2 0x300000) 64 1 0) 0)) y = false := host_there rfl
theorem witness_wake : (user 0 []).wake ≤ time64 (prodAt []).mod.now ∧ time64 (prodAt []).mod.now < ({ user 0 [] with wake := 2000000 } : Thread).wake := by
  decide +kernel
/-- AtomicsEnd: nothing is being issued to the atomic's lanes. -/
theorem witness_atomic_issued :
    let o := opOf' (.atomic inScratch .array false 0 1 [part] false) 1
    (∀ e ∈ (withOp (prodAt []) o).issues, e.2.batch = 0 ∨ e.2.batch ≠ o.batch) ∧
      (∀ e ∈ ({ withOp (prodAt []) o with issues := [(0, { run 0 with batch := 3 })] } : State).issues, e.2.batch = 0 ∨ e.2.batch ≠ o.batch) := by
  decide +kernel
/-- FerryWaits: of two missed promises the earlier. -/
theorem witness_two_promises :
    let c : FWaitC := { off := 0, mask := 1, promise := some 9, missed := true }
    let t : Thread := { user 0 [] with st := .ready, waits := [c, { c with promise := some 5, mask := 2 }] }
    (at1 0 t).threads.get 0 = some t ∧ c ∈ t.waits ∧ c.missed = true ∧ (at1 0 t).teams.get t.team = some team ∧ team.st ≠ .stopped := by decide +kernel

end Sys2Proof.Tests
end

