-- ==== Sys2Proof/Tests/HomeWitnesses.lean ====
section
/-! SUPPORT. Witnesses for the statements about what is performed at a home, and about the order in which fences, adds and traps come. -/

namespace Sys2Proof.Tests

open Sys2Proof Sys2Proof.Machine Sys2Proof.Spec

set_option maxRecDepth 20000
set_option Elab.async false

/-! ### Stores -/

/-- A location in host memory, and one at peer 1. -/
def hostY : Nat := physOf 2 0x300000
def peerY : Nat := physOf 1 (2 ^ 39)
/-- Accesses to coherent host memory under policies normal and uncached. -/
def inCoherent (pol : Nat) : Acc := { accOf (.phys hostY) 4 with kind := 2, pol := pol }
/-- No port to the host is up. -/
def portless (s : State) : State := { s with mod := { s.mod with ports := [{}, {}] } }
/-- A store of four bytes, alone. -/
def storeAt (a : Acc) : State := withOp (prodAt []) { opOf' (.store a [1, 2, 3, 4]) 0 with win := some 488 }

theorem store_ready (s : State) (o : Op) (a : Acc) (h : s.ops.get 2 = some o) (hk : o.kind = .store a [1, 2, 3, 4]) (ht : o.ths = []) (hg : o.grps.Nodup)
    (hr : o.rel = none) (hb : blocked s 2 o = false) (hw : Memory.wf s.mem.cells = true) : StoreReady s 2 o a [1, 2, 3, 4] :=
  ⟨h, hk, ht, hg, hb, by simp [hr], by decide, hw⟩

/-- StorePerforms: in device and host memory, with a copy in the proxy RDC and without, under policies normal and uncached. -/
theorem witness_store_home : (∀ a ∈ [inDevice, inCoherent 0, inCoherent 3, inHost], StoreReady (storeAt a) 2 { opOf' (.store a [1, 2, 3, 4]) 0 with win := some 488 } a [1, 2, 3, 4]) ∧
    spaceOf hostY = 2 ∧ hostGone (storeAt inHost) hostY = false ∧ hostY % 64 + 4 ≤ 64 ∧ behindStore (storeAt inHost) 0 hostY 4 none = false ∧
    proxyCopy (storeAt inHost).mem hostY = none ∧ (rdcRoom (storeAt inHost) (homeDie hostY) hostY).isSome = true ∧ (rdcLines (storeAt inHost) (homeDie hostY)).length < 131072 ∧
    (proxyFill (storeAt inHost) hostY true).data.length = 64 ∧
    proxyCopy ({ rdc := [(copyKey (homeDie hostY) hostY, copy)] } : MemSys) hostY ≠ none := by
  refine ⟨fun a ha => ?_, by decide +kernel⟩
  fin_cases ha <;> exact store_ready _ _ _ rfl rfl rfl (by decide) rfl (by decide +kernel) rfl
/-- StorePerforms: at a peer that is routed and at one that is not, in the window that it was issued in; and with no port to the host. -/
theorem witness_store_away :
    StoreReady (linked (storeAt inPeer)) 2 { opOf' (.store inPeer [1, 2, 3, 4]) 0 with win := some 488 } inPeer [1, 2, 3, 4] ∧
    StoreReady (portless (storeAt inHost)) 2 { opOf' (.store inHost [1, 2, 3, 4]) 0 with win := some 488 } inHost [1, 2, 3, 4] ∧
    spaceOf peerY = 1 ∧ peerY % 64 + 4 ≤ 64 ∧ sendHeld (linked (storeAt inPeer)) (peerOf peerY) = false ∧ routed (linked (storeAt inPeer)) (peerOf peerY) = true ∧
    (linked (storeAt inPeer)).mod.desync = false ∧ (linked (storeAt inPeer)).window = 488 ∧
    (let cut : State := { storeAt inPeer with mod := { modul with desync := true, links := [] } }
     routed cut (peerOf peerY) = false ∧ sendHeld cut (peerOf peerY) = false) ∧
    hostGone (portless (storeAt inHost)) hostY = true ∧ behindStore (portless (storeAt inHost)) 0 hostY 4 none = false ∧
    (rdcRoom (portless (storeAt inHost)) (homeDie hostY) hostY).isSome = true :=
  ⟨store_ready _ _ _ rfl rfl rfl (by decide) rfl (by decide +kernel) rfl, store_ready _ _ _ rfl rfl rfl (by decide) rfl (by decide +kernel) rfl,
    by decide +kernel⟩

/-! ### Atomics -/

/-- An add of 5, whole or on halves, at a place; and a CAS that does not find its value. -/
def addAt (a : Acc) (pl : APlace) (ty : Nat) : Op := opOf' (.atomic a pl false 0 ty [part] false) 1
def casAt (a : Acc) (pl : APlace) : Op := opOf' (.atomic a pl true 0 1 [{ part with cmp := 9 }] false) 1

theorem atomic_ready (s : State) (o : Op) (a : Acc) (pl : APlace) (cas : Bool) (aop ty : Nat) (ps : List Part) (h : s.ops.get 2 = some o)
    (hk : o.kind = .atomic a pl cas aop ty ps false) (hp : pl ≠ .pcie) (ho : o.out = none) (hb : blocked s 2 o = false) (hi : s.issues = [])
    (hr : o.rel = none) (hs : a.size ≠ 0) (hw : Memory.wf s.mem.cells = true) : AtomicReady s 2 o a pl cas aop ty ps :=
  ⟨h, hk, hp, ho, hb, by simp [hi], by simp [hr], hs, hw⟩

/-- AtomicsEnd: ready at every place, as one access, on halves, and as a CAS that fails. -/
theorem witness_atomic_ready : ∀ x ∈ [(inScratch, APlace.array), (inDevice, .home), (inCoherent 0, .proxy), (inCoherent 0, .proxySys), (inDevice, .l1), (inCoherent 0, .l1), (inPeer, .peer)],
    (∀ ty ∈ [1, 6], AtomicReady (withOp (prodAt []) (addAt x.1 x.2 ty)) 2 (addAt x.1 x.2 ty) x.1 x.2 false 0 ty [part]) ∧
    AtomicReady (withOp (prodAt []) (casAt x.1 x.2)) 2 (casAt x.1 x.2) x.1 x.2 true 0 1 [{ part with cmp := 9 }] := by
  intro x hx
  fin_cases hx <;> refine ⟨fun ty ht => ?_, atomic_ready _ _ _ _ _ _ _ _ rfl rfl (by decide) rfl (by decide +kernel) rfl rfl (by decide) rfl⟩ <;>
    fin_cases ht <;> exact atomic_ready _ _ _ _ _ _ _ _ rfl rfl (by decide) rfl (by decide +kernel) rfl rfl (by decide) rfl
/-- AtomicsEnd at a home: clean, poisoned and lost; a lane that writes and none; a sector with a holder whose lease runs. -/
theorem witness_atomic_home :
    let s := withOp (prodAt []) (addAt inDevice .home 1)
    let h := withOp (prodAt []) (addAt (inCoherent 0) .proxy 1)
    hostGone s 0x1000 = false ∧ spaceOf 0x1000 = 0 ∧ 0x1000 % 64 + 4 ≤ 64 ∧ behindStore s 0 0x1000 4 none = false ∧ homePois s.mem 0x1000 = none ∧
      homePois ({ pois := [(0x40, 5)] } : MemSys) 0x1000 = some 5 ∧ hostGone h hostY = false ∧ hostGone (portless h) hostY = true ∧
      (atomSerial (atomStep (addAt inDevice .home 1) false 0 1 4 false) [part] 0).2.2.isSome = true ∧
      (atomSerial (atomStep (casAt inDevice .home) true 0 1 4 false) [{ part with cmp := 9 }] 0).2.2 = none ∧
      (let t : State := { s with mem := { dir := [(0x40, { holders := [(5, 2000000)] })] } }
       256 < holderExp t (5, 2000000) - t.mod.now ∧ holderDeaf t (5, 2000000) = false) := by decide +kernel
/-- AtomicsEnd in an L1: with a copy there, with one in the RDC, and with none; then the write, of the word or of its first or second half. -/
theorem witness_atomic_l1 :
    let q : Ask := { core := 0 }
    let s := withOp (prodAt []) (addAt inDevice .l1 1)
    let far := { inDevice with loc := .phys 0x1800000000 }
    let sent := fun (ty : Nat) (z : Nat) (bs : List Byte) => ({ addAt inDevice .l1 ty with sent := some 4, out := some (z, bs) } : Op)
    { askOf s 0 inDevice with pol := 0, rc := 0 } = q ∧ l1Copy s q 0x1000 = none ∧ rdcCopy s q 0x1000 = none ∧ (∀ die < 4, (rdcLines s die).length < 131072) ∧
      l1Copy { s with mem := { l1 := [(copyKey 0 0x1000, copy)] } } q 0x1000 = some copy ∧
      (let r : State := { withOp (prodAt []) (addAt far .l1 1) with mem := { rdc := [(copyKey 0 0x1800000000, copy)] } }
       l1Copy r q 0x1800000000 = none ∧ rdcCopy r q 0x1800000000 = some copy ∧ ∀ e ∈ r.mem.rdc, e.2.data.length = 64) ∧
      (∀ x ∈ [(1, 0x1000, [(5 : Byte), 0, 0, 0]), (6, 0x1000, [5, 0]), (6, 0x1002, [0, 0])], let o := sent x.1 x.2.1 x.2.2
        o.out = some x.2 ∧ x.2.2 ≠ [] ∧ (withOp (prodAt []) o).ops.get 2 = some o ∧ behindStore (withOp (prodAt []) o) 0 x.2.1 x.2.2.length o.sent = false) ∧
      ({ sent 6 0x1002 [0, 0] with half := some 0 } : Op).half.isSome = true := by decide +kernel
/-- AtomicsEnd at a peer: routed, in its window, and not. -/
theorem witness_atomic_peer :
    let o := { addAt inPeer .peer 1 with win := some 488 }
    let s := linked (withOp (prodAt []) o)
    spaceOf peerY = 1 ∧ sendHeld s (peerOf peerY) = false ∧ routed s (peerOf peerY) = true ∧ o.lost = none ∧ homePois s.mem peerY = none ∧ s.mod.desync = false ∧
      homePois ({ pois := [(peerY / 64, 5)] } : MemSys) peerY = some 5 ∧ routed { s with mod := { s.mod with links := [] } } (peerOf peerY) = false ∧
      ({ o with lost := some 0x1A } : Op).lost.isSome = true := by decide +kernel

/-! ### Barriers, releases and fences -/

/-- Barriers: a token at the phase, one below it, an arrival of the id on its way, and neither. -/
theorem witness_tokens :
    let key := barInst (consAt []) (envOf (consAt []) 32 (user 1 [])) (xz 0 1)
    let s := fun (n phase : Nat) => ({ consAt [] with teams := [(1, { team with bars := [(key, { phase := phase })] })], threads := [(32, { user 1 [] with toks := [(1, n)] })] } : State)
    let rel : State := { consAt [] with ops := [(2, { opOf' (.barRel key) 0 with th := 32 })] }
    barId (xz 0 1) = 1 ∧ barWaits (s 3 3) 32 { user 1 [] with toks := [(1, 3)] } key = true ∧ barWaits (s 3 4) 32 { user 1 [] with toks := [(1, 3)] } key = false ∧
      barWaits rel 32 (user 1 []) key = true ∧ barWaits (consAt []) 32 (user 1 []) key = false ∧ Rising rel.ops := by unfold Rising; decide +kernel
/-- Releases: of a supervisor thread. -/
theorem witness_supervisor_release :
    let o : Op := { opOf' (.fence 2 2 0) 0 with th := 1504, rel := some 2, grps := [47] }
    let t : Thread := { supThread [] with st := .ready, rclk := 7 }
    let s : State := { supAt [] with ops := [(2, o)], issues := [], threads := [(1504, t)] }
    s.ops.get 2 = some o ∧ releaseReady s 2 o = true ∧ blocked s 2 o = false ∧ s.threads.get o.th = some t ∧ isSup o.th = true ∧ s.teams.get t.team = none := by decide +kernel
/-- OperationsEnd: sc fences of fabric scope of an earlier window, of this one from another home lane, and of a later one; and of scope d, where one
of a later lane has completed in this nanosecond, and where it did before. -/
theorem witness_fence_order :
    let f := fun (th sc w : Nat) => ({ opOf' (.fence 0 sc w) 0 with th := th, rel := some sc, relDone := true } : Op)
    let rank := fun th : Nat => placeCore th * 32 + placeLane th
    let s : State := { withOp (prodAt []) (f 0 2 0) with mod := { modul with fences := [{ inst := fenceInst (prodAt []) 0 2, at0 := 1000000, rank := 7 }] } }
    (∀ w ∈ [487, 488], ∃ e ∈ [(2, f 3 3 488), (3, f 1 3 w)], ∃ x, e.2.kind = .fence 0 3 x ∧ x ≠ 0 ∧ (x < 488 ∨ x = 488 ∧ rank e.2.th < rank 3)) ∧
      (¬ ∃ e ∈ [(2, f 3 3 488), (3, f 1 3 489)], e.2.kind = .fence 0 3 487 ∨ e.2.kind = .fence 0 3 488 ∧ rank e.2.th < rank 3) ∧
      (∃ x ∈ s.mod.fences, x.inst = fenceInst s 0 2 ∧ x.at0 = s.mod.now ∧ rank 0 < x.rank) ∧
      ¬ ∃ x ∈ ({ s.mod with now := 1000001 } : Mod).fences, x.at0 = 1000001 := by
  refine ⟨fun w h => ?_, ?_, ?_, ?_⟩
  · fin_cases h <;> exact ⟨_, .tail _ (.head _), _, rfl, by decide, by decide⟩
  all_goals decide +kernel

/-! ### Engines and Ferries -/

/-- FerryChunks: a block at a peer whose lane of requests is paused; and a command whose chunks are all done. -/
theorem witness_ferry_held :
    let c : Cmd := { cmd 512 0x1000 with blkScratch := false, blkAt := 0x100000 }
    let k : Link := { st := .active, lanes := 8, peer := 1, vls := [{ paused := true }, {}, {}] }
    let s : State := { chunkIn c with mod := { modul with links := modul.links.set 0 k } }
    c.blockHeld s = true ∧ c.blockHeld (linked (chunkIn c)) = false ∧ c.cancelled = false ∧ s.cmds.get 2 = some c ∧
      (let d : Cmd := { c with chunks := [0] }; d.flight = [] ∧ d.chunks.length = d.nchunks ∧ d.blockHeld (linked (chunkIn d)) = false) := by decide +kernel
/-- EnginePasses and PodsAndPeers: a PEER add of a tile that waits behind another, and the first; a thread parked at a word with a trap 0x12 that is late
before one that is not, and with late ones only. -/
theorem witness_arrival_order :
    let d : Pass := { pass (.drain 2 0) drainBlock with rows := some [[]], sent := true }
    let a : Pass := { d with add := some (2, 0, 0, 3) }
    let s := peers d [(4, a), (5, a)]
    addBehind s 5 a = true ∧ addBehind s 4 a = false ∧ a.add = some (2, 0, 0, 3) ∧
      (let x : PodTrap := ⟨0, 0, 0, 1, 0, 0, true⟩
       let t : Thread := { user 1 [] with st := .resume 0 0, collPark := true, podTraps := [x, { x with late := false }] }
       isSup 32 = false ∧ t.st ≠ .ready ∧ ((at1 32 t).parkedAt 32 t).isSome = true ∧ t.podTraps.find? (fun x => !x.late) = some { x with late := false } ∧
         ∀ y ∈ ({ t with podTraps := [x] } : Thread).podTraps, y.late = true) := by decide +kernel
/-- TowlineControl: a push of a sector that its home slice holds, and of one that it does not hold. -/
theorem witness_push_sector :
    let a := 0x40 * 64
    let s : State := { prodAt [] with mem := { l2 := [(a / 256, { secs := 1 })] } }
    l2Holds s.mem a = true ∧ l2Holds s.mem (a + 64) = false ∧ l2Holds (prodAt []).mem a = false ∧ (2 : Nat) < 16 := by decide +kernel
/-- CachesAndClocks and LinksAndPeers: a peer's write that is kept, and copies from before and after it. -/
theorem witness_clock_set :
    let s : State := { atRest with
      mod := { modul with peerCaps := [{ sector := 0x40, at0 := 999000, ahead := 1 }] }
      mem := { l1 := [(copyKey 0 0x1000, { copyAt 1001600 with granted := 5 }), (copyKey 1 0x1000, { copyAt 1001600 with granted := 999500 })] } }
    ∀ c ∈ s.mod.peerCaps, (copyKey 0 0x1000) % 2 ^ 56 = c.sector ∧ 5 ≤ c.at0 ∧ windowEnd s.mod c.at0 c.ahead < 1001600 ∧ ¬ 999500 ≤ c.at0 := by decide +kernel

end Sys2Proof.Tests
end

