-- ==== Sys2Proof/Tests/Slice0.lean ====
section
/-! SUPPORT. Tests: ill-formed terms refused, a word decoded for every instruction, and one step of an instruction against values
calculated by hand from the spec's rules or taken from its worked examples. -/

namespace Sys2Proof.Tests

open Sys2Proof Sys2Proof.Machine

set_option maxRecDepth 20000
set_option Elab.async false

/-- Decodes a word that has an extension word after it. -/
def dec (w e : Word) : Except DecodeError Instr := decodeWords w (some e)
/-- The state after an instruction. -/
def next (i : Instr) (s : State) : State :=
  match exec i s with
  | .next t => t
  | _ => s
/-- Register r of a thread. -/
def val (s : State) (pl r : Nat) : Nat := ((s.threads.get pl).map (fun t => (t.v.getD r {}).val.toNat)).getD 0
/-- Register r, a pair, and the true predicates, after an instruction of the producer thread whose registers are listed. -/
def out (i : Instr) (l : List (Nat × Nat)) (r : Nat) : Nat := val (next i (prodAt l)) 0 r
def out2 (i : Instr) (l : List (Nat × Nat)) (r : Nat) : Nat × Nat := (out i l r, out i l (r + 1))
def outP (i : Instr) (l : List (Nat × Nat)) : List Nat :=
  (upto 12).filter (fun k => ((((next i (prodAt l)).threads.get 0).map (fun t => (t.p.getD k {}).val)).getD false))
/-- The target set for the end of the run, and the thread's slot 1 after an instruction. -/
def target (i : Instr) (l : List (Nat × Nat)) : Option Nat := ((next i (prodAt l)).threads.get 0).bind (fun t => t.next.map (·.toNat))
def slotAfter (i : Instr) (l : List (Nat × Nat)) : Nat := (((next i (prodAt l)).groups.get 0).map (fun g => g.sb.getD 1 0)).getD 99
/-- Eight lanes of a group, as in the example under R176: v8 holds the values, p2 the segment heads. -/
def eight : State :=
  { prodAt [] with
    threads := ([3, 1, 4, 1, 5, 9, 2, 6] : List Nat).mapIdx (fun l v =>
      (l, { user 0 [(8, v), (9, 3), (13, 36)] with p := (upto 12).map (fun k => { val := k == 2 && (l == 0 || l == 3 || l == 6) }) }))
    issues := [(0, { run 0 with lanes := [0, 1, 2, 3, 4, 5, 6, 7] })] }
def lanesOut (i : Instr) (r : Nat) : List Nat := (upto 8).map (fun l => val (next i eight) l r)

/-! ### Words written out from R32 to R38 and R46 -/

/-- Every sample is well-formed, and none of them is an event. -/
theorem test_samples_wf : (registerSamples ++ operationSamples ++ producerSamples ++ crewSamples ++ supervisorSamples).all (fun i => i.wf && !i.isEvent) = true := by
  decide +kernel

theorem test_decode_integer :
    decodeWords 0x019E3C78 none = .ok (.nop (w1 120 120 120)) ∧
    decodeWords 0x03810103 none = .ok (.iadd (w1 4 2 3)) ∧
    decodeWords 0x05810103 none = .ok (.isub (w1 4 2 3)) ∧
    decodeWords 0x07810103 none = .ok (.imul (w1 4 2 3)) ∧
    decodeWords 0x09810103 none = .ok (.imulh (w1 4 2 3)) ∧
    decodeWords 0x0B810103 none = .ok (.imulhu (w1 4 2 3)) ∧
    dec 0x0D810103 0x0A000000 = .ok (.imad (w1 4 2 3) (xa 0 5)) ∧
    decodeWords 0x0F810103 none = .ok (.imin (w1 4 2 3)) ∧
    decodeWords 0x11810103 none = .ok (.imax (w1 4 2 3)) ∧
    decodeWords 0x13810103 none = .ok (.iminu (w1 4 2 3)) ∧
    decodeWords 0x15810103 none = .ok (.imaxu (w1 4 2 3)) ∧
    decodeWords 0x17810103 none = .ok (.and (w1 4 2 3)) ∧
    decodeWords 0x19810103 none = .ok (.or (w1 4 2 3)) ∧
    decodeWords 0x1B810103 none = .ok (.xor (w1 4 2 3)) ∧
    decodeWords 0x1D810103 none = .ok (.shl (w1 4 2 3)) ∧
    decodeWords 0x1F810103 none = .ok (.shr (w1 4 2 3)) := by decide +kernel
theorem test_decode_predicates_and_moves :
    decodeWords 0x21810103 none = .ok (.sar (w1 4 2 3)) ∧
    decodeWords 0x23810106 none = .ok (.iadd64 (w1 4 2 6)) ∧
    decodeWords 0x25810106 none = .ok (.isub64 (w1 4 2 6)) ∧
    dec 0x27810103 0x0C000000 = .ok (.imadw (w1 4 2 3) (xa 0 6)) ∧
    dec 0x29810103 0xF0001000 = .ok (.sel (w1 4 2 3) (xa 0 120 1)) ∧
    dec 0x2B813C78 0x00000009 = .ok (.movi (w1 4 120 120) 9) ∧
    dec 0x2D810178 0x00000009 = .ok (.iaddi (w1 4 2 120) 9) ∧
    dec 0x2F804103 0xF0002000 = .ok (.icmp (w1 1 2 3) (xa 0 120 2)) ∧
    dec 0x31810103 0x0A0000E8 = .ok (.bool3 (w1 4 2 3) (xa 0xE8 5)) ∧
    dec 0x33810103 0x0A000000 = .ok (.dsh (w1 4 2 3) (xa 0 5)) ∧
    decodeWords 0x35810100 none = .ok (.bitf (w1 4 2 0)) ∧
    dec 0x37804103 0x080000E8 = .ok (.pbool (w1 1 2 3) (xa 0xE8 4)) ∧
    decodeWords 0x399E0103 none = .ok (.v2p (w1 120 2 3)) ∧
    decodeWords 0x3B813C78 none = .ok (.p2v (w1 4 120 120)) ∧
    decodeWords 0x3D810178 none = .ok (.mov (w1 4 2 120)) ∧
    decodeWords 0x3F813C07 none = .ok (.rdsp (w1 4 120 7)) := by decide +kernel
theorem test_decode_floats :
    decodeWords 0x41810103 none = .ok (.faddF32 (w1 4 2 3)) ∧
    decodeWords 0x43810103 none = .ok (.fsubF32 (w1 4 2 3)) ∧
    decodeWords 0x45810103 none = .ok (.fmulF32 (w1 4 2 3)) ∧
    dec 0x47810103 0x0A000000 = .ok (.ffmaF32 (w1 4 2 3) (xa 0 5)) ∧
    decodeWords 0x49810103 none = .ok (.fminF32 (w1 4 2 3)) ∧
    decodeWords 0x4B810103 none = .ok (.fmaxF32 (w1 4 2 3)) ∧
    dec 0x4D804103 0xF0002000 = .ok (.fcmpF32 (w1 1 2 3) (xa 0 120 2)) ∧
    decodeWords 0x4F810101 none = .ok (.funaF32 (w1 4 2 1)) ∧
    decodeWords 0x51810106 none = .ok (.faddF64 (w1 4 2 6)) ∧
    decodeWords 0x53810106 none = .ok (.fsubF64 (w1 4 2 6)) ∧
    decodeWords 0x55810106 none = .ok (.fmulF64 (w1 4 2 6)) ∧
    dec 0x57810106 0x10000000 = .ok (.ffmaF64 (w1 4 2 6) (xa 0 8)) ∧
    decodeWords 0x59810106 none = .ok (.fminF64 (w1 4 2 6)) ∧
    decodeWords 0x5B810106 none = .ok (.fmaxF64 (w1 4 2 6)) ∧
    dec 0x5D804106 0xF0002000 = .ok (.fcmpF64 (w1 1 2 6) (xa 0 120 2)) ∧
    decodeWords 0x5F810101 none = .ok (.funaF64 (w1 4 2 1)) := by decide +kernel
theorem test_decode_packed_and_conversions :
    dec 0x61810103 0xF0000000 = .ok (.pkadd (w1 4 2 3) (xa 0)) ∧
    dec 0x63810103 0xF0000000 = .ok (.pkmul (w1 4 2 3) (xa 0)) ∧
    dec 0x65810103 0x0A000000 = .ok (.pkfma (w1 4 2 3) (xa 0 5)) ∧
    dec 0x67810103 0xF0000001 = .ok (.pkmin (w1 4 2 3) (xa 1)) ∧
    dec 0x69810103 0xF0000001 = .ok (.pkmax (w1 4 2 3) (xa 1)) ∧
    dec 0x6B804103 0xF0002000 = .ok (.pkcmp (w1 1 2 3) (xa 0 120 2)) ∧
    dec 0x73810178 0xF0000040 = .ok (.cvt (w1 4 2 120) (xa 0x40)) ∧
    dec 0x75810103 0xF0000064 = .ok (.cvtn (w1 4 2 3) (xa 0x64)) ∧
    dec 0x77810178 0xF0000046 = .ok (.cvtw (w1 4 2 120) (xa 0x46)) ∧
    dec 0x7B810178 0xF0000000 = .ok (.cblu (w1 4 2 120) (xa 0)) ∧
    dec 0x7D810103 0x0A000000 = .ok (.dot2 (w1 4 2 3) (xa 0 5)) := by decide +kernel
theorem test_decode_lanes_and_control :
    dec 0x81810103 0xF0000000 = .ok (.shfl (w1 4 2 3) (xa 0)) ∧
    dec 0x83810103 0xF0000004 = .ok (.xgath (w1 4 2 3) (xa 4)) ∧
    dec 0x85807C78 0xF0001000 = .ok (.vote (w1 1 120 120) (xa 0 120 1)) ∧
    dec 0x87810178 0xF0000000 = .ok (.matchLanes (w1 4 2 120) (xa 0)) ∧
    dec 0x89813C78 0xF0001000 = .ok (.compact (w1 4 120 120) (xa 0 120 1)) ∧
    dec 0x8B810178 0xF000C010 = .ok (.redx (w1 4 2 120) (xa 0x10 120 12)) ∧
    dec 0x8D810178 0xF000C018 = .ok (.scanx (w1 4 2 120) (xa 0x18 120 12)) ∧
    dec 0xC19E3C78 0x00000040 = .ok (.bra (w1 120 120 120) 0x40) ∧
    decodeWords 0xC39E0178 none = .ok (.brx (w1 120 2 120)) ∧
    dec 0xC5813C78 0x00000040 = .ok (.call (w1 4 120 120) 0x40) ∧
    decodeWords 0xC7810178 none = .ok (.callx (w1 4 2 120)) ∧
    decodeWords 0xC99E0178 none = .ok (.ret (w1 120 2 120)) ∧
    decodeWords 0xCB9E3C78 none = .ok (.exit (w1 120 120 120)) ∧
    decodeWords 0xA79E0178 none = .ok (.sleept (w1 120 2 120)) ∧
    dec 0xB3804103 0xF0000000 = .ok (.fwaitTest (w1 1 2 3) (xz 0 0)) ∧
    dec 0xB39E0103 0xF0010000 = .ok (.fwaitWait (w1 120 2 3) (xz 1 0)) ∧
    dec 0xB39E0103 0x0C020000 = .ok (.fwaitWaitp (w1 120 2 3) (xz 2 0 6)) := by decide +kernel
theorem test_decode_operations :
    dec 0x6D810178 0xF0000300 = .ok (.sfu (w1 4 2 120) (xs 0)) ∧
    dec 0x6F810103 0xF0000300 = .ok (.fdiv (w1 4 2 3) (xs 0)) ∧
    dec 0x71810178 0xF0000300 = .ok (.fsqrt (w1 4 2 120) (xs 0)) ∧
    dec 0x799E0178 0xF0002003 = .ok (.cbload (w1 120 2 120) (xe 0 3)) ∧
    dec 0x91810178 0x00001008 = .ok (.ld (w1 4 2 120) (xm 2)) ∧
    dec 0x939E0103 0x00001008 = .ok (.st (w1 120 2 3) (xm 2)) ∧
    dec 0x95810178 0x00001008 = .ok (.lds (w1 4 2 120) (xm 2)) ∧
    dec 0x979E0103 0x00001008 = .ok (.sts (w1 120 2 3) (xm 2)) ∧
    dec 0x99810178 0x00002808 = .ok (.ldln (w1 4 2 120) (xm 5)) ∧
    dec 0x9B810106 0xF0028200 = .ok (.atom (w1 4 2 6) (xt 0 1)) ∧
    dec 0x9D810106 0x0E028200 = .ok (.cas (w1 4 2 6) (xt 0 1 7)) ∧
    dec 0x9F9E0106 0xF0028200 = .ok (.red (w1 120 2 6) (xt 0 1)) ∧
    dec 0xA19E3C78 0x00000088 = .ok (.fence (w1 120 120 120) (xm 0 0 0 2)) ∧
    dec 0xA39E0178 0x00000008 = .ok (.pref (w1 120 2 120) (xm 0)) ∧
    dec 0xA59E0106 0x00000008 = .ok (.cflush (w1 120 2 6) (xm 0)) ∧
    dec 0xF1810178 0xF0002000 = .ok (.xlq (w1 4 2 120) (xe 0 0)) ∧
    dec 0xCF810178 0xF0002003 = .ok (.launch (w1 4 2 120) (xe 0 3)) ∧
    dec 0xD1810103 0x0A002009 = .ok (.svc (w1 4 2 3) (xe 0 9 5)) := by decide +kernel
theorem test_decode_control_and_recordings :
    dec 0xCD9E3C78 0xF0000001 = .ok (.barSync (w1 120 120 120) (xz 0 1)) ∧
    dec 0xCD9E3C78 0xF0010001 = .ok (.barArrive (w1 120 120 120) (xz 1 1)) ∧
    dec 0xCD9E3C78 0xF0020001 = .ok (.barWait (w1 120 120 120) (xz 2 1)) ∧
    dec 0xD39E0178 0xF0000009 = .ok (.trap (w1 120 2 120) (xz 0 9)) ∧
    dec 0xE1810103 0xF0002002 = .ok (.towrec (w1 4 2 3) (xe 0 2)) ∧
    dec 0xE39E3C78 0xF0002002 = .ok (.towiter (w1 120 120 120) (xe 0 2)) ∧
    dec 0xE5813C78 0xF0002002 = .ok (.towplay (w1 4 120 120) (xe 0 2)) ∧
    dec 0xE7813C78 0xF0002002 = .ok (.towstop (w1 4 120 120) (xe 0 2)) ∧
    dec 0xE9813C78 0xF0002002 = .ok (.towstat (w1 4 120 120) (xe 0 2)) ∧
    dec 0xEB813C78 0xF0002002 = .ok (.towdrop (w1 4 120 120) (xe 0 2)) ∧
    dec 0xB1810178 0xF0002000 = .ok (.ferryCopy (w1 4 2 120) (xe 0 0)) := by decide +kernel
theorem test_decode_engines :
    dec 0xB1810178 0xF0012000 = .ok (.ferryMcast (w1 4 2 120) (xe 1 0)) ∧
    dec 0xB1810178 0xF0022000 = .ok (.ferryGather (w1 4 2 120) (xe 2 0)) ∧
    dec 0xB1810178 0xF0032000 = .ok (.ferryScatter (w1 4 2 120) (xe 3 0)) ∧
    dec 0xB1810178 0xF0042000 = .ok (.ferryExp24 (w1 4 2 120) (xe 4 0)) ∧
    dec 0xB1810178 0xF0052000 = .ok (.ferryCmp24 (w1 4 2 120) (xe 5 0)) ∧
    dec 0xB1810178 0xF0062000 = .ok (.ferryTier (w1 4 2 120) (xe 6 0)) ∧
    dec 0xB59E0178 0xF0002000 = .ok (.lmark (w1 120 2 120) (xe 0 0)) ∧
    dec 0xB79E0428 0x04042000 = .ok (.mxop (w1 120 8 40) (xe 4 0 2)) ∧
    dec 0xB9840178 0xF0002000 = .ok (.mxdrainRegs (w1 16 2 120) (xe 0 0)) ∧
    dec 0xB99E0178 0xF0012000 = .ok (.mxdrainScratch (w1 120 2 120) (xe 1 0)) ∧
    dec 0xB99E0178 0xF0022000 = .ok (.mxdrainPeer (w1 120 2 120) (xe 2 0)) ∧
    dec 0xB99E0178 0xF0032000 = .ok (.mxdrainPeerord (w1 120 2 120) (xe 3 0)) ∧
    dec 0xBB9E0178 0xF0002000 = .ok (.mxpod (w1 120 2 120) (xe 0 0)) ∧
    dec 0xBD9E3C78 0xF0002000 = .ok (.mxrelOne (w1 120 120 120) (xe 0 0)) ∧
    dec 0xBD9E3C78 0xF0012000 = .ok (.mxrelAll (w1 120 120 120) (xe 1 0)) ∧
    dec 0xED810106 0x0E002000 = .ok (.mapsync (w1 4 2 6) (xe 0 0 7)) := by decide +kernel
theorem test_decode_supervisor :
    dec 0xEF810106 0x0E002000 = .ok (.refit (w1 4 2 6) (xe 0 0 7)) ∧
    dec 0xF3810178 0xF0002000 = .ok (.mbxrd (w1 4 2 120) (xe 0 0)) ∧
    dec 0xF5810103 0x0C002000 = .ok (.mbxwr (w1 4 2 3) (xe 0 0 6)) ∧
    dec 0xF7810106 0xF0002000 = .ok (.ctxSave (w1 4 2 6) (xe 0 0)) ∧
    dec 0xF7810106 0xF0012000 = .ok (.ctxLoad (w1 4 2 6) (xe 1 0)) ∧
    dec 0xF7813C06 0xF0022000 = .ok (.ctxPreempt (w1 4 120 6) (xe 2 0)) ∧
    dec 0xF7813C06 0xF0032000 = .ok (.ctxResume (w1 4 120 6) (xe 3 0)) ∧
    dec 0xF7813C06 0xF0042000 = .ok (.ctxAbort (w1 4 120 6) (xe 4 0)) ∧
    dec 0xFD813C78 0xF0002110 = .ok (.srmovRead (w1 4 120 120) (xe 0 0x110)) ∧
    dec 0xFD9E0178 0xF0012110 = .ok (.srmovWrite (w1 120 2 120) (xe 1 0x110)) := by decide +kernel

/-- Words that the spec itself gives, beside those of SpecWordsDecode. -/
theorem test_decode_given_1 :
    dec 0x47828082 0x06400000 = .ok (.ffmaF32 ⟨12, 10, 1, 2⟩ ⟨3, 1, 0, 0, false, false, 0, 0, false, 0⟩) ∧
    dec 0xCD9E3C78 0xF0080003 = .ok (.barSync ⟨12, 120, 120, 120⟩ ⟨120, 8, 0, 3⟩) ∧
    decodeWords 0xC39E0378 none = .ok (.brx ⟨12, 120, 6, 120⟩) ∧
    dec 0xC582BC78 0x00000040 = .ok (.call ⟨12, 10, 120, 120⟩ 0x00000040) ∧
    decodeWords 0xC7828378 none = .ok (.callx ⟨12, 10, 6, 120⟩) ∧
    decodeWords 0xC99E0578 none = .ok (.ret ⟨12, 120, 10, 120⟩) ∧
    decodeWords 0xCB9E3C78 none = .ok (.exit ⟨12, 120, 120, 120⟩) ∧
    dec 0xCF850378 0xF0004005 = .ok (.launch ⟨12, 20, 6, 120⟩ ⟨120, 0, 2, 5⟩) ∧
    dec 0xD1878409 0x14008007 = .ok (.svc ⟨12, 30, 8, 9⟩ ⟨10, 0, 4, 7⟩) ∧
    dec 0xD39E3C78 0xF0000009 = .ok (.trap ⟨12, 120, 120, 120⟩ ⟨120, 0, 0, 9⟩) ∧
    dec 0xED850206 0x0E004000 = .ok (.mapsync ⟨12, 20, 4, 6⟩ ⟨7, 0, 2, 0⟩) ∧
    dec 0xEF854206 0x0E004000 = .ok (.refit ⟨12, 21, 4, 6⟩ ⟨7, 0, 2, 0⟩) := by decide +kernel
/-- More of them. -/
theorem test_decode_given_2 :
    dec 0xF1860178 0xF0002000 = .ok (.xlq ⟨12, 24, 2, 120⟩ ⟨120, 0, 1, 0⟩) ∧
    dec 0x958140F8 0x00401018 = .ok (.lds ⟨12, 5, 1, 120⟩ ⟨256, 2, 0, 0, 3, 0⟩) ∧
    dec 0x99840178 0x00002800 = .ok (.ldln ⟨12, 16, 2, 120⟩ ⟨0, 5, 0, 0, 0, 0⟩) ∧
    dec 0xA39E0109 0x00000021 = .ok (.pref ⟨12, 120, 2, 9⟩ ⟨0, 0, 0, 0, 4, 1⟩) ∧
    dec 0xA19E3C78 0x00000488 = .ok (.fence ⟨12, 120, 120, 120⟩ ⟨0, 0, 2, 2, 1, 0⟩) ∧
    dec 0x9D82010C 0x20113400 = .ok (.cas ⟨12, 8, 2, 12⟩ ⟨16, 0, 8, 4, 3, 2, 0⟩) ∧
    dec 0x9F9E0107 0xF0424003 = .ok (.red ⟨12, 120, 2, 7⟩ ⟨120, 2, 1, 1, 0, 0, 3⟩) ∧
    dec 0x9B818107 0xF0088200 = .ok (.atom ⟨12, 6, 2, 7⟩ ⟨120, 0, 4, 2, 0, 1, 0⟩) ∧
    dec 0xB18500F8 0xF0004000 = .ok (.ferryCopy ⟨12, 20, 1, 120⟩ ⟨120, 0, 2, 0⟩) ∧
    dec 0xB3804286 0xF0000000 = .ok (.fwaitTest ⟨12, 1, 5, 6⟩ ⟨120, 0, 0, 0⟩) ∧
    dec 0xB39E0286 0xF0010000 = .ok (.fwaitWait ⟨12, 120, 5, 6⟩ ⟨120, 1, 0, 0⟩) ∧
    dec 0xB39E0286 0x28020000 = .ok (.fwaitWaitp ⟨12, 120, 5, 6⟩ ⟨20, 2, 0, 0⟩) := by decide +kernel
/-- More of them. -/
theorem test_decode_given_3 :
    dec 0xB59E03F8 0xF0006000 = .ok (.lmark ⟨12, 120, 7, 120⟩ ⟨120, 0, 3, 0⟩) ∧
    dec 0xB79E0428 0x04208013 = .ok (.mxop ⟨12, 120, 8, 40⟩ ⟨2, 32, 4, 19⟩) ∧
    dec 0xB9920178 0xF000A003 = .ok (.mxdrainRegs ⟨12, 72, 2, 120⟩ ⟨120, 0, 5, 3⟩) ∧
    dec 0xB99E0178 0xF001A003 = .ok (.mxdrainScratch ⟨12, 120, 2, 120⟩ ⟨120, 1, 5, 3⟩) ∧
    dec 0xB99E0178 0xF003A003 = .ok (.mxdrainPeerord ⟨12, 120, 2, 120⟩ ⟨120, 3, 5, 3⟩) ∧
    dec 0xBD9E3C78 0xF000C003 = .ok (.mxrelOne ⟨12, 120, 120, 120⟩ ⟨120, 0, 6, 3⟩) ∧
    dec 0xBD9E3C78 0xF001C000 = .ok (.mxrelAll ⟨12, 120, 120, 120⟩ ⟨120, 1, 6, 0⟩) ∧
    dec 0xBB9E0178 0xF000A003 = .ok (.mxpod ⟨12, 120, 2, 120⟩ ⟨120, 0, 5, 3⟩) ∧
    dec 0xE1828205 0xF0002002 = .ok (.towrec ⟨12, 10, 4, 5⟩ ⟨120, 0, 1, 2⟩) ∧
    dec 0xE39E3C78 0xF0002002 = .ok (.towiter ⟨12, 120, 120, 120⟩ ⟨120, 0, 1, 2⟩) ∧
    dec 0xE582BC78 0xF0002002 = .ok (.towplay ⟨12, 10, 120, 120⟩ ⟨120, 0, 1, 2⟩) ∧
    dec 0xE782BC78 0xF0002002 = .ok (.towstop ⟨12, 10, 120, 120⟩ ⟨120, 0, 1, 2⟩) := by decide +kernel
/-- More of them. -/
theorem test_decode_given_4 :
    dec 0xE9833C78 0xF0002002 = .ok (.towstat ⟨12, 12, 120, 120⟩ ⟨120, 0, 1, 2⟩) ∧
    dec 0xEB82BC78 0xF0002002 = .ok (.towdrop ⟨12, 10, 120, 120⟩ ⟨120, 0, 1, 2⟩) ∧
    decodeWords 0x0382C409 none = .ok (.iadd ⟨12, 11, 8, 9⟩) ∧
    decodeWords 0x3D817C78 none = .ok (.mov ⟨12, 5, 120, 120⟩) ∧
    dec 0xF20AC278 0xF0002000 = .ok (.mbxrd ⟨0, 43, 4, 120⟩ ⟨120, 0, 1, 0⟩) ∧
    dec 0xF40B15AD 0xF0004000 = .ok (.mbxwr ⟨0, 44, 43, 45⟩ ⟨120, 0, 2, 0⟩) ∧
    decodeWords 0x23848514 none = .ok (.iadd64 ⟨12, 18, 10, 20⟩) ∧
    dec 0x37814308 0x18000088 = .ok (.pbool ⟨12, 5, 6, 8⟩ ⟨12, 0, 0, 0, false, false, 0, 0, false, 136⟩) ∧
    dec 0xA59E1407 0x00000028 = .ok (.cflush ⟨12, 120, 40, 7⟩ ⟨0, 0, 0, 0, 5, 0⟩) ∧
    dec 0xB0863C78 0xF0024000 = .ok (.ferryGather ⟨4, 24, 120, 120⟩ ⟨120, 2, 2, 0⟩) ∧
    dec 0x8B9D3878 0xF000C014 = .ok (.redx ⟨12, 116, 112, 120⟩ ⟨120, 0, 0, 0, false, false, 12, 0, false, 20⟩) ∧
    decodeWords 0x459C0207 none = .ok (.fmulF32 ⟨12, 112, 4, 7⟩) := by decide +kernel
/-- More of them. -/
theorem test_decode_given_5 :
    dec 0x81824472 0xF0000000 = .ok (.shfl ⟨12, 9, 8, 114⟩ ⟨120, 0, 0, 0, false, false, 0, 0, false, 0⟩) ∧
    dec 0x298244F8 0xF0006000 = .ok (.sel ⟨12, 9, 9, 120⟩ ⟨120, 0, 0, 0, false, false, 6, 0, false, 0⟩) ∧
    dec 0x799E0278 0xF0002002 = .ok (.cbload ⟨12, 120, 4, 120⟩ ⟨120, 0, 1, 2⟩) ∧
    dec 0x7B81B878 0xF0002000 = .ok (.cblu ⟨12, 6, 112, 120⟩ ⟨120, 0, 0, 0, false, false, 2, 0, false, 0⟩) ∧
    dec 0x2D8040F8 0x00000001 = .ok (.iaddi ⟨12, 1, 1, 120⟩ 0x00000001) := by decide +kernel

/-! ### Ill-formed instructions: one for each check (R32, R39 to R45, R62 item 4) -/

/-- Guard codes 13 to 15 name nothing (R32). -/
theorem test_wf_guard : Instr.wf (.iadd ⟨13, 4, 2, 3⟩) = false ∧ Instr.wf (.iadd ⟨12, 4, 2, 3⟩) = true := by decide +kernel
/-- NOP and other unused fields must hold 120 (R42, R110, R107). -/
theorem test_wf_unused : Instr.wf (.nop (w1 120 0 120)) = false ∧ Instr.wf (.movi (w1 3 5 120) 1) = false ∧
    Instr.wf (.sel (w1 4 2 3) (xa 0 9 1)) = false ∧ Instr.wf (.v2p (w1 4 2 3)) = false := by decide +kernel
/-- Codes 121 to 127 cannot be written (R40). -/
theorem test_wf_written : Instr.wf (.iadd (w1 121 2 3)) = false ∧ Instr.wf (.iadd (w1 120 121 127)) = true := by decide +kernel
/-- Pairs are even, quads multiples of four (R41). -/
theorem test_wf_pairs : Instr.wf (.iadd64 (w1 7 2 6)) = false ∧ Instr.wf (.rdsp (w1 3 120 3)) = false ∧
    Instr.wf (.cvtw (w1 13 2 120) (xa 0x48)) = false ∧ Instr.wf (.faddF64 (w1 4 3 6)) = false := by decide +kernel
/-- A k register takes no long-latency result (R94). -/
theorem test_wf_long : Instr.wf (.fdiv (w1 112 2 3) (xs 0)) = false ∧ Instr.wf (.ld (w1 114 2 120) (xm 3)) = false := by decide +kernel
/-- Predicate pairs are 0 to 5, predicate operands 0 to 12 (R43, R115, R109). -/
theorem test_wf_predicates : Instr.wf (.icmp (w1 6 2 3) (xa 0 120 2)) = false ∧ Instr.wf (.pbool (w1 1 120 3) (xa 0 12)) = false ∧
    Instr.wf (.sel (w1 4 2 3) (xa 0 120 13)) = false := by decide +kernel
/-- Conditions: integer compares take 0 to 9, float compares 0 to 5, 10 and 11 (R45). -/
theorem test_wf_conditions : Instr.wf (.icmp (w1 1 2 3) (xa 0 120 10)) = false ∧ Instr.wf (.fcmpF32 (w1 1 2 3) (xa 0 120 6)) = false ∧
    Instr.wf (.fcmpF32 (w1 1 2 3) (xa 0 120 11)) = true := by decide +kernel
/-- Minor functions outside their tables (R51 to R55). -/
theorem test_wf_functions : Instr.wf (.bitf (w1 4 2 9)) = false ∧ Instr.wf (.funaF32 (w1 4 2 8)) = false ∧
    Instr.wf (.shfl (w1 4 2 3) (xa 9)) = false ∧ Instr.wf (.redx (w1 4 2 120) (xa 0x18 120 12)) = false ∧
    Instr.wf (.redx (w1 4 2 120) (xa 0x43 120 12)) = false ∧ Instr.wf (.xgath (w1 4 2 3) (xa 0)) = false := by decide +kernel
/-- What completes within its issue has `SLOT` and `SEN` zero; a special function has `SEN` set (R39, R102, R120). -/
theorem test_wf_slots : Instr.wf (.imad (w1 4 2 3) (xs 0)) = false ∧ Instr.wf (.sfu (w1 4 2 120) (xa 0)) = false := by decide +kernel
/-- Rounding and overflow fields where they have no meaning (R119, R126, R138). -/
theorem test_wf_rounding : Instr.wf (.pkmin (w1 4 2 3) ⟨120, 1, 0, 0, false, false, 0, 0, false, 0⟩) = false ∧
    Instr.wf (.ffmaF32 (w1 4 2 3) ⟨5, 0, 3, 0, false, false, 0, 0, false, 0⟩) = false ∧
    Instr.wf (.dot2 (w1 4 2 3) ⟨5, 0, 1, 0, false, false, 0, 0, false, 1⟩) = false := by decide +kernel
/-- Conversions: no C4 destination, no scale mode without a scale (R130, R132, R133). -/
theorem test_wf_conversions : Instr.wf (.cvt (w1 4 2 120) (xa 0xA4)) = false ∧
    Instr.wf (.cvt (w1 4 2 120) ⟨120, 0, 0, 2, false, false, 0, 0, false, 0x64⟩) = false ∧
    Instr.wf (.cvtn (w1 4 2 6) (xa 0x96)) = false := by decide +kernel
/-- Memory: scopes 0 to 4, sizes of the access, pairings of `AOP` and `TYPE` (R36, R57, R212). -/
theorem test_wf_memory : Instr.wf (.ld (w1 4 2 120) (xm 2 0 1 5)) = false ∧ Instr.wf (.ld (w1 5 2 120) (xm 3)) = false ∧
    Instr.wf (.atom (w1 4 2 6) (xt 3 4)) = false ∧ Instr.wf (.ld (w1 4 2 9) (xm 2)) = false := by decide +kernel
/-- Engines: the function bits that the shape does not use, an unused `C` (R59, R280). -/
theorem test_wf_engines : Instr.wf (.mxop (w1 120 8 40) (xe 5 0 2)) = false ∧ Instr.wf (.ferryCopy (w1 4 2 120) (xe 0 0 9)) = false ∧
    Instr.wf (.ferryCopy (w1 5 2 120) (xe 0 0)) = false := by decide +kernel
/-- Only the listed system registers (R355). -/
theorem test_wf_system_registers : Instr.wf (.srmovRead (w1 4 120 120) (xe 0 0x106)) = false := by decide +kernel
/-- Events name units that exist (R4, R339, R362). -/
theorem test_wf_events : Instr.wf (.chooseRun 768) = false ∧ Instr.wf (.chooseRun 767) = true ∧ Instr.wf (.coreFault 192) = false ∧
    Instr.wf (.timeFaultStart 4) = false ∧ Instr.wf (.cxlPortDown 2) = false := by decide +kernel

/-! ### Words that do not decode (R46, R58, R60) -/

/-- Opcode 0x6F is reserved, 0x7D is a header's, MOVI needs its immediate, and FERRY has functions 0 to 6. -/
theorem test_decode_refuses : decodeWords 0xDF9E3C78 none = .error .reserved ∧ decodeWords 0xFB9E3C78 none = .error .headerWord ∧
    decodeWords 0x2B80FC78 none = .error .short ∧ dec 0xB1820078 0xF0072000 = .error .badFn := by decide +kernel
/-- The run header of R30's example: three words, class MEM, waiting for slot 0; COUNT 0 is malformed (R60). -/
theorem test_header : headerOf 0xF8640400 = some ⟨3, 1, 1, false⟩ ∧ headerOf 0xF8040000 = none := by decide +kernel

/-! ### Effects: integer and predicate instructions -/

/-- R103: 0xFFFF_FFFF + 2 wraps to 1; 2 - 3 is 0xFFFF_FFFF. -/
theorem test_iadd_wraps : out (.iadd (w1 4 2 3)) [(2, 0xFFFFFFFF), (3, 2)] 4 = 1 := by decide +kernel
theorem test_isub_wraps : out (.isub (w1 4 2 3)) [(2, 2), (3, 3)] 4 = 0xFFFFFFFF := by decide +kernel
/-- A source that is also the destination is read first. -/
theorem test_isub_same : out (.isub (w1 3 2 3)) [(2, 2), (3, 3)] 3 = 0xFFFFFFFF := by decide +kernel
/-- zr discards what is written and reads zero (R40). -/
theorem test_iadd_zr : out (.iadd (w1 120 2 3)) [(2, 2), (3, 3)] 0 = 0 ∧ out (.iadd (w1 4 120 3)) [(3, 3)] 4 = 3 := by decide +kernel
/-- R103: 0x1_0000 × 0x1_0001 = 0x1_0001_0000, low word 0x1_0000. -/
theorem test_imul : out (.imul (w1 4 2 3)) [(2, 0x10000), (3, 0x10001)] 4 = 0x10000 := by decide +kernel
/-- (-1) × 2 = -2, high word all ones signed; unsigned 0xFFFF_FFFF × 2 has high word 1. -/
theorem test_imulh : out (.imulh (w1 4 2 3)) [(2, 0xFFFFFFFF), (3, 2)] 4 = 0xFFFFFFFF := by decide +kernel
theorem test_imulhu : out (.imulhu (w1 4 2 3)) [(2, 0xFFFFFFFF), (3, 2)] 4 = 1 := by decide +kernel
/-- R105: -5 × 3 + 20 = 5 with `NA`; 5 × 3 - 20 = -5 with `NC`. -/
theorem test_imad : out (.imad (w1 4 2 3) ⟨5, 0, 0, 0, true, false, 0, 0, false, 0⟩) [(2, 5), (3, 3), (5, 20)] 4 = 5 := by decide +kernel
theorem test_imad_nc : out (.imad (w1 4 2 3) ⟨5, 0, 0, 0, false, true, 0, 0, false, 0⟩) [(2, 5), (3, 3), (5, 20)] 4 = 0xFFFFFFFB := by
  decide +kernel
/-- Of -1 and 1: signed minimum -1, maximum 1; unsigned the other way. -/
theorem test_min_max : out (.imin (w1 4 2 3)) [(2, 0xFFFFFFFF), (3, 1)] 4 = 0xFFFFFFFF ∧ out (.imax (w1 4 2 3)) [(2, 0xFFFFFFFF), (3, 1)] 4 = 1 ∧
    out (.iminu (w1 4 2 3)) [(2, 0xFFFFFFFF), (3, 1)] 4 = 1 ∧ out (.imaxu (w1 4 2 3)) [(2, 0xFFFFFFFF), (3, 1)] 4 = 0xFFFFFFFF := by
  decide +kernel
theorem test_logic : out (.and (w1 4 2 3)) [(2, 12), (3, 10)] 4 = 8 ∧ out (.or (w1 4 2 3)) [(2, 12), (3, 10)] 4 = 14 ∧
    out (.xor (w1 4 2 3)) [(2, 12), (3, 10)] 4 = 6 := by decide +kernel
/-- R103 and the table of uses: SHL by 40 gives 0; SAR of 0x8000_0000 by 0xFFFF_FFFF gives all ones; SHR by 32 gives 0. -/
theorem test_shifts : out (.shl (w1 4 2 3)) [(2, 1), (3, 40)] 4 = 0 ∧ out (.sar (w1 4 2 3)) [(2, 0x80000000), (3, 0xFFFFFFFF)] 4 = 0xFFFFFFFF ∧
    out (.shr (w1 4 2 3)) [(2, 0xFFFFFFFF), (3, 32)] 4 = 0 := by decide +kernel
/-- R112's example: SHL of 0x89AB_CDEF by 8. -/
theorem test_shl : out (.shl (w1 8 4 6)) [(4, 0x89ABCDEF), (6, 8)] 8 = 0xABCDEF00 := by decide +kernel
/-- R104: a carry and a borrow between the words. -/
theorem test_iadd64 : out2 (.iadd64 (w1 4 2 6)) [(2, 0xFFFFFFFF), (6, 1), (7, 2)] 4 = (0, 3) := by decide +kernel
theorem test_isub64 : out2 (.isub64 (w1 4 2 6)) [(6, 1)] 4 = (0xFFFFFFFF, 0xFFFFFFFF) := by decide +kernel
/-- R106's example. -/
theorem test_imadw_signed : out2 (.imadw (w1 4 2 3) (xa 0 6)) [(2, 0xFFFFFFFF), (3, 2), (7, 1)] 4 = (0xFFFFFFFE, 0) := by decide +kernel
theorem test_imadw_unsigned : out2 (.imadw (w1 4 2 3) (xa 1 6)) [(2, 0xFFFFFFFF), (3, 2), (7, 1)] 4 = (0xFFFFFFFE, 2) := by decide +kernel
/-- R109: a false predicate selects B, code 12 selects A. -/
theorem test_sel : out (.sel (w1 4 2 3) (xa 0 120 1)) [(2, 7), (3, 9)] 4 = 9 ∧ out (.sel (w1 4 2 3) (xa 0 120 12)) [(2, 7), (3, 9)] 4 = 7 := by
  decide +kernel
theorem test_immediates : out (.movi (w1 4 120 120) 0xFF) [] 4 = 0xFF ∧ out (.iaddi (w1 1 1 120) 0xFFFFFFFF) [(1, 1)] 1 = 0 := by decide +kernel
/-- R114: -1 < 1 signed and not unsigned; both predicates of the pair. -/
theorem test_icmp : outP (.icmp (w1 1 2 3) (xa 0 120 2)) [(2, 0xFFFFFFFF), (3, 1)] = [2] ∧
    outP (.icmp (w1 1 2 3) (xa 0 120 6)) [(2, 0xFFFFFFFF), (3, 1)] = [3] := by decide +kernel
/-- R111: table 0xD8 takes B where A is 1, else C. -/
theorem test_bool3 : out (.bool3 (w1 9 1 2) (xa 0xD8 3)) [(1, 0xF0), (2, 0x33), (3, 0xCC)] 9 = 0x3C := by decide +kernel
/-- R112's example, and a count of 40. -/
theorem test_dsh : out (.dsh (w1 7 5 6) (xa 0 4)) [(4, 0x89ABCDEF), (5, 0x01234567), (6, 8)] 7 = 0x23456789 ∧
    out (.dsh (w1 7 5 6) (xa 0 4)) [(4, 0x89ABCDEF), (5, 0x01234567), (6, 40)] 7 = 0xABCDEF00 := by decide +kernel
/-- DR of 1:0 by 4 is 0x1000_0000; DRA fills with the sign. -/
theorem test_dsh_right : out (.dsh (w1 7 5 6) (xa 1 4)) [(5, 1), (6, 4)] 7 = 0x10000000 ∧
    out (.dsh (w1 7 5 6) (xa 2 4)) [(5, 0x80000000), (6, 36)] 7 = 0xF8000000 := by decide +kernel
/-- R113: count, leading and trailing zeros, reversals. -/
theorem test_bitf : out (.bitf (w1 4 2 0)) [(2, 0x70)] 4 = 3 ∧ out (.bitf (w1 4 2 1)) [(2, 0x70)] 4 = 25 ∧ out (.bitf (w1 4 2 2)) [(2, 0x70)] 4 = 4 ∧
    out (.bitf (w1 4 2 3)) [(2, 0x70)] 4 = 0x0E000000 ∧ out (.bitf (w1 4 2 4)) [(2, 0x01020304)] 4 = 0x04030201 := by decide +kernel
theorem test_bitf64 : out (.bitf (w1 4 2 6)) [(2, 1)] 4 = 63 ∧ out (.bitf (w1 4 2 7)) [] 4 = 64 ∧ out2 (.bitf (w1 4 2 8)) [(2, 1)] 4 = (0, 0x80000000) := by
  decide +kernel
/-- R115 and R116: all predicates false, then a truth table and a mask. -/
theorem test_pbool : outP (.pbool (w1 1 0 2) (xa 0x88 12)) [] = [3] ∧ outP (.pbool (w1 1 12 12) (xa 0x88 12)) [] = [2] := by decide +kernel
theorem test_v2p : outP (.v2p (w1 120 2 3)) [(2, 0xFFF), (3, 0x805)] = [0, 2, 11] := by decide +kernel
/-- P2V of predicates all false; MOV; RDSP 7 is the core and 18 the predicates (R53, R108). -/
theorem test_moves : out (.p2v (w1 4 120 120)) [(4, 9)] 4 = 0 ∧ out (.mov (w1 4 2 120)) [(2, 77)] 4 = 77 ∧
    out (.rdsp (w1 4 120 14)) [(4, 9)] 4 = 112 ∧ out (.rdsp (w1 4 120 12)) [] 4 = 0xFFFFFFFF := by decide +kernel

/-! ### Effects: floats and conversions. 1.0 is 0x3F80_0000, 3.0 is 0x4040_0000 -/

/-- R121: 1 + 3 = 4, 1 - 3 = -2, 3 × 3 = 9; ∞ - ∞ is the canonical NaN. -/
theorem test_f32 : out (.faddF32 (w1 4 2 3)) [(2, 0x3F800000), (3, 0x40400000)] 4 = 0x40800000 ∧
    out (.fsubF32 (w1 4 2 3)) [(2, 0x3F800000), (3, 0x40400000)] 4 = 0xC0000000 ∧
    out (.fmulF32 (w1 4 2 3)) [(2, 0x40400000), (3, 0x40400000)] 4 = 0x41100000 ∧
    out (.faddF32 (w1 4 2 3)) [(2, 0x7F800000), (3, 0xFF800000)] 4 = 0x7FC00000 := by decide +kernel
/-- R123: 3 × 3 + 1 = 10 fused. -/
theorem test_ffma : out (.ffmaF32 (w1 4 2 3) (xa 0 5)) [(2, 0x40400000), (3, 0x40400000), (5, 0x3F800000)] 4 = 0x41200000 := by decide +kernel
/-- R122: +0 and -0 are ordered, a NaN is passed over. -/
theorem test_fmin_fmax : out (.fminF32 (w1 4 2 3)) [(3, 0x80000000)] 4 = 0x80000000 ∧ out (.fmaxF32 (w1 4 2 3)) [(3, 0x80000000)] 4 = 0 ∧
    out (.fminF32 (w1 4 2 3)) [(2, 0x7FC00000), (3, 0xC0400000)] 4 = 0xC0400000 := by decide +kernel
/-- R124: unordered operands: LT false, UNORD (11) true. -/
theorem test_fcmp : outP (.fcmpF32 (w1 1 2 3) (xa 0 120 2)) [(2, 0x7FC00000)] = [3] ∧ outP (.fcmpF32 (w1 1 2 3) (xa 0 120 0)) [(2, 0x80000000)] = [2] := by
  decide +kernel
/-- R125: FLOOR and CEIL of -0.3, CLASS of -0. -/
theorem test_funa : out (.funaF32 (w1 4 2 2)) [(2, 0xBE99999A)] 4 = 0xBF800000 ∧ out (.funaF32 (w1 4 2 3)) [(2, 0xBE99999A)] 4 = 0x80000000 ∧
    out (.funaF32 (w1 4 2 6)) [(2, 0x80000000)] 4 = 8 := by decide +kernel
/-- The same in F64: 1.0 is 0x3FF0_0000 in its high word. -/
theorem test_f64 : out2 (.faddF64 (w1 4 2 6)) [(3, 0x3FF00000), (7, 0x40080000)] 4 = (0, 0x40100000) ∧
    out2 (.fsubF64 (w1 4 2 6)) [(3, 0x3FF00000), (7, 0x40080000)] 4 = (0, 0xC0000000) ∧
    out2 (.fmulF64 (w1 4 2 6)) [(3, 0x40080000), (7, 0x40080000)] 4 = (0, 0x40220000) ∧
    out2 (.ffmaF64 (w1 4 2 6) (xa 0 8)) [(3, 0x40080000), (7, 0x40080000), (9, 0x3FF00000)] 4 = (0, 0x40240000) := by decide +kernel
theorem test_f64_order : out2 (.fminF64 (w1 4 2 6)) [(3, 0x3FF00000), (7, 0x40080000)] 4 = (0, 0x3FF00000) ∧
    out2 (.fmaxF64 (w1 4 2 6)) [(3, 0x3FF00000), (7, 0x40080000)] 4 = (0, 0x40080000) ∧
    outP (.fcmpF64 (w1 1 2 6) (xa 0 120 2)) [(3, 0x3FF00000), (7, 0x40080000)] = [2] ∧
    out2 (.funaF64 (w1 4 2 0)) [(3, 0x3FF00000)] 4 = (0, 0xBFF00000) := by decide +kernel
/-- R126: halves of F16, 1.0 is 0x3C00, 2.0 is 0x4000, 3.0 is 0x4200. -/
theorem test_packed : out (.pkadd (w1 4 2 3) (xa 0)) [(2, 0x40003C00), (3, 0x3C003C00)] 4 = 0x42004000 ∧
    out (.pkmul (w1 4 2 3) (xa 0)) [(2, 0x40003C00), (3, 0x3C003C00)] 4 = 0x40003C00 ∧
    out (.pkfma (w1 4 2 3) (xa 0 5)) [(2, 0x40003C00), (3, 0x3C003C00), (5, 0x3C003C00)] 4 = 0x42004000 ∧
    out (.pkmin (w1 4 2 3) (xa 0)) [(2, 0x40003C00), (3, 0x3C004000)] 4 = 0x3C003C00 ∧
    out (.pkmax (w1 4 2 3) (xa 0)) [(2, 0x40003C00), (3, 0x3C004000)] 4 = 0x40004000 := by decide +kernel
/-- The table of uses: 0x7BFF + 0x7BFF overflows to the NaN under `ovf=nan`, the other half computed alone. -/
theorem test_pkadd_overflow : out (.pkadd (w1 4 2 3) ⟨120, 0, 2, 0, false, false, 0, 0, false, 0⟩) [(2, 0x3C007BFF), (3, 0x3C007BFF)] 4 = 0x40007E00 := by
  decide +kernel
/-- R127: one half less, not both. -/
theorem test_pkcmp : outP (.pkcmp (w1 1 2 3) (xa 0 120 2)) [(2, 0x40003C00), (3, 0x3C004000)] = [2] ∧
    outP (.pkcmp (w1 1 2 3) (xa 4 120 2)) [(2, 0x40003C00), (3, 0x3C004000)] = [3] := by decide +kernel
/-- R132: 3.0 from S32 to F32, and 3.0 from F32 to F16. -/
theorem test_cvt : out (.cvt (w1 4 2 120) (xa 0x40)) [(2, 3)] 4 = 0x40400000 ∧ out (.cvt (w1 4 2 120) (xa 0x64)) [(2, 0x40400000)] 4 = 0x4200 := by
  decide +kernel
/-- The scaled round trip under R134: 0.1, -3.0, 7.9 and 0.0 narrowed with scale byte 0x7A. -/
theorem test_cvtn : out (.cvtn (w1 8 4 6) ⟨9, 0, 0, 1, false, false, 0, 0, false, 0x84⟩)
    [(4, 0x3DCCCCCD), (5, 0xC0400000), (6, 0x40FCCCCD), (9, 0x7A00)] 8 = 0x007FF44D := by decide +kernel
/-- And widened again: 0.1015625, -3.0, 7.5 and 0.0. -/
theorem test_cvtw : (fun s => (val s 0 12, val s 0 13, val s 0 14, val s 0 15))
    (next (.cvtw (w1 12 8 120) ⟨9, 0, 0, 1, false, false, 0, 0, false, 0x48⟩) (prodAt [(8, 0x007FF44D), (9, 0x7A00)])) =
      (0x3DD00000, 0xC0400000, 0x40F00000, 0) := by decide +kernel
/-- A slot never loaded decodes to zeros (R77). -/
theorem test_cblu : out (.cblu (w1 4 2 120) (xa 0 120 2)) [(2, 0x3210), (4, 9)] 4 = 0 := by decide +kernel
/-- R138: 1 × 1 + 2 × 3 + 1 = 8 from F16 pairs. -/
theorem test_dot2 : out (.dot2 (w1 4 2 3) (xa 0 5)) [(2, 0x40003C00), (3, 0x42003C00), (5, 0x3F800000)] 4 = 0x41000000 := by decide +kernel

/-! ### Effects: across lanes -/

/-- The example under R176: eight lanes hold 3, 1, 4, 1, 5, 9, 2, 6, with segment heads at lanes 0, 3 and 6. -/
theorem test_redx : lanesOut (.redx (w1 10 8 120) (xa 0 120 2)) 10 = [8, 8, 8, 15, 15, 15, 8, 8] := by decide +kernel
theorem test_scanx : lanesOut (.scanx (w1 11 8 120) (xa 0 120 2)) 11 = [3, 4, 8, 1, 6, 15, 2, 8] ∧
    lanesOut (.scanx (w1 12 8 120) (xa 8 120 2)) 12 = [0, 3, 4, 0, 1, 6, 0, 2] := by decide +kernel
/-- R169: up by 3, lanes 0 to 2 keep their own; XOR by 1. -/
theorem test_shfl : lanesOut (.shfl (w1 10 8 9) (xa 1)) 10 = [3, 1, 4, 3, 1, 4, 1, 5] := by decide +kernel
/-- R170: every lane reads register 1 of the window in lane 4 (index 32 + 4 in v13). -/
theorem test_xgath : lanesOut (.xgath (w1 10 8 13) (xa 2)) 10 = [3, 3, 3, 3, 3, 3, 3, 3] := by decide +kernel
/-- R171: the ballot of p2. -/
theorem test_vote : lanesOut (.vote (w1 10 120 120) (xa 2 120 2)) 10 = [73, 73, 73, 73, 73, 73, 73, 73] := by decide +kernel
/-- R172: lanes 1 and 3 hold the same value. -/
theorem test_match : lanesOut (.matchLanes (w1 10 8 120) (xa 0)) 10 = [1, 10, 4, 10, 16, 32, 64, 128] := by decide +kernel
/-- R173: rank and total of p2. -/
theorem test_compact : lanesOut (.compact (w1 10 120 120) (xa 0 120 2)) 10 = [0, 1, 1, 1, 2, 2, 2, 3] ∧
    lanesOut (.compact (w1 10 120 120) (xa 0 120 2)) 11 = [3, 3, 3, 3, 3, 3, 3, 3] := by decide +kernel

/-! ### Effects: control, traps and operations issued -/

/-- R156: a branch by 0x40 from the header at 0x10000, a call that writes the fall-through address, and a return. -/
theorem test_branches : target (.bra (w1 120 120 120) 0x40) [] = some 0x10040 ∧ target (.brx (w1 120 2 120)) [(2, 0x500), (3, 1)] = some 0x100000500 ∧
    target (.call (w1 4 120 120) 0xFFFFFFC0) [] = some 0xFFC0 ∧ target (.ret (w1 120 2 120)) [(2, 0x500)] = some 0x500 := by decide +kernel
/-- The run of 24 words at 0x10000 ends at 0x10064. -/
theorem test_call_link : out2 (.callx (w1 4 2 120)) [(2, 0x500)] 4 = (0x10064, 0) := by decide +kernel
theorem test_exit : ((next (.exit (w1 120 120 120)) (prodAt [])).threads.get 0).map (·.exiting) = some true := by decide +kernel
theorem test_sleept : ((next (.sleept (w1 120 2 120)) (prodAt [(2, 0x500)])).threads.get 0).map (·.wake) = some 0x500 := by decide +kernel
/-- R165: TRAP takes trap 0x17 with `IMM` in `DETAIL` and asks for a mailbox post. -/
theorem test_trap : ((next (.trap (w1 120 2 120) (xz 0 9)) (prodAt [])).threads.get 0).map (fun t => (t.st, t.susp.map (·.code))) =
    some (.susp, some 0x17) := by decide +kernel
/-- R62 item 4: SHFL with a function of 9 traps 0x02; R100: a pending source traps 0x04. -/
theorem test_illegal : ((next (.shfl (w1 4 2 3) (xa 9)) (prodAt [])).threads.get 0).bind (fun t => t.susp.map (·.code)) = some 0x02 := by
  decide +kernel
/-- Long-latency instructions raise their slot and mark their destination pending (R99, R100). -/
theorem test_issue_counts : slotAfter (.fdiv (w1 4 2 3) (xs 0)) [] = 1 ∧ slotAfter (.sfu (w1 4 2 120) (xs 0)) [] = 1 ∧ slotAfter (.fsqrt (w1 4 2 120) (xs 0)) [] = 1 ∧
    slotAfter (.ld (w1 4 2 120) (xm 2)) [] = 1 ∧ slotAfter (.st (w1 120 2 3) (xm 2)) [] = 1 ∧ slotAfter (.lds (w1 4 2 120) (xm 2)) [] = 1 ∧
    slotAfter (.sts (w1 120 2 3) (xm 2)) [] = 1 ∧ slotAfter (.atom (w1 4 2 6) (xt 0 1)) [] = 1 ∧ slotAfter (.cas (w1 4 2 6) (xt 0 1 7)) [] = 1 ∧
    slotAfter (.red (w1 120 2 6) (xt 0 1)) [] = 1 ∧ slotAfter (.fence (w1 120 120 120) (xm 0 0 0 2)) [] = 1 := by decide +kernel
theorem test_pending : ((next (.fdiv (w1 4 2 3) (xs 0)) (prodAt [])).threads.get 0).map (fun t => (t.v.getD 4 {}).pend) = some 1 := by decide +kernel

/-! ### Effects: events -/

/-- The table of R401: a push at 1,720 ns with a lease to 3,776 serves a read at 1,800; its lease runs at 3,775 and it is counted unused at 3,776. -/
theorem test_lease_expire :
    let at0 := fun (now : Nat) => ({ prodAt [] with
      mod := { modul with now := now }
      mem := { rdc := [(64, { data := zeros 64, exp := leaseEnd 1720 2048, granted := 1720, pushed := some 2 })] }
      recs := [(2, { st := .playing, played := true })] } : State)
    leaseEnd 1720 2048 = 3776 ∧ ((at0 1800).mem.rdc.map (fun e => e.2.leased (at0 1800).mod)) = [true] ∧
      ((next (.leaseExpire 1 64) (at0 1720)).recs.getD 2 {}).unused = 0 ∧ ((next (.leaseExpire 1 64) (at0 3775)).recs.getD 2 {}).unused = 0 ∧
      ((next (.leaseExpire 1 64) (at0 3776)).recs.getD 2 {}).unused = 1 := by decide +kernel
/-- R160: after ARRIVE.prod of an id a WAIT.team of that id waits, where the team's phase is not above the token. -/
theorem test_wait_other_scope :
    let s : State := { next (.barArrive (w1 120 120 120) (xz 5 1)) (prodAt []) with issues := [(0, run 0)] }
    ((s.threads.getD 0 default).toks.get 1) = some 0 ∧ ((next (.barWait (w1 120 120 120) (xz 2 1)) s).threads.getD 0 default).bar.isSome = true := by
  decide +kernel
/-- The example of R232: with `FWIN` 2,048 a store issued at 1588 time 10,500 is visible by 14,336. -/
theorem test_window_end : windowEnd { modul with fwin := 2048 } 10500 2 = 14336 := by decide +kernel
/-- R362: a resume at twice the bytes of a round trip of 100 ns; with one of 200 ns the lane of 64 KiB cannot hold as much. -/
theorem test_resume_flit :
    let vl := fun (rtt : Nat) => (((next (.resumeFlitSend 0 0) { prodAt [] with
      mod := { modul with links := List.replicate 18 { st := .active, rtt := rtt, vls := [{ pauseSent := true, free := 0 }, {}, {}] } } }).mod.links.getD 0 {}).vls.getD 0 {})
    ((vl 100).pauseSent, (vl 100).free) = (false, 42400) ∧ (vl 200).pauseSent = true := by decide +kernel

end Sys2Proof.Tests
end

section
/-! SUPPORT. Integer instructions of R103 to R105: the form of their words, what `exec2` and `exec3` do for an issue group, and each function
of the model as an operation on bit vectors. -/

namespace Sys2Proof.Machine

open Sys2Proof.Spec

/-! ### The form of an instruction's words (R32, R33) -/

/-- An instruction with an `Info` is one word of its opcode, and a second one where it has an extension. -/
theorem hasForm_of_info {i : Instr} {f : Info} (hi : i.info = some f) (hop : f.op < 128) :
    HasForm i f.w ((encExt f.ext).toList.length + 1) f.op f.nd f.na f.nb f.nc := by
  have he : encode i = encW1 f.op f.w :: (encExt f.ext).toList := by simp [encode, hi]
  refine ⟨by rw [he]; rfl, ⟨encW1 f.op f.w, by rw [he]; rfl, ?_⟩, f, hi, rfl, rfl, rfl, rfl, rfl⟩
  exact Sys2Proof.Laws.Layout.opOf_encW1 _ _ hop

/-- A one-word instruction (R103, R104). -/
theorem hasForm_n {i : Instr} {op : Nat} {w : W1} {enc : Bool} {nd na nb : Nat} (hi : i.info = some (Info.n op w enc nd na nb))
    (hop : op < 128) : HasForm i w 1 op nd na nb 0 :=
  hasForm_of_info hi hop

/-- An EXT-A instruction (R35, R105). -/
theorem hasForm_a {i : Instr} {op : Nat} {w : W1} {x : ExtA} {enc : Bool} {nd na nb nc : Nat} {feat : Option Nat}
    (hi : i.info = some (Info.a op w x enc nd na nb nc feat)) (hop : op < 128) : HasForm i w 2 op nd na nb nc :=
  hasForm_of_info hi hop

/-! ### Lanes that write one value -/

/-- An instruction each of whose lanes writes the value and poison it reads off its own thread writes them, and nothing else. -/
theorem laneOp_resWrite {i : Instr} {d n : Nat} {val : Env → Thread → Nat} {pois : Env → Thread → Pois}
    (hexec : ∀ s, exec i s = .next (execLanes i s (fun s e t => resWrite s e t d n (val e t) (pois e t)))) :
    LaneOp i always (fun _ e t => wrN t d (val e t) (pois e t) n) := by
  refine laneOp_of (fun _ s e t => resWrite s e t d n (val e t) (pois e t)) hexec ?_
  intro s f pl t th _ _ _
  simp [resWrite, State.putThread, State.setThread]

/-- Two operands and a result of `n` registers each. -/
theorem laneOp_exec2 {i : Instr} {w : W1} {n : Nat} {F : Nat → Nat → Nat} (hexec : ∀ s, exec i s = .next (exec2 i w n F s)) :
    LaneOp i always (fun _ e t => wrN t w.d.toNat (F (rdN e t w.a.toNat n).1 (rdN e t w.b.toNat n).1)
      ((rdN e t w.a.toNat n).2.or (rdN e t w.b.toNat n).2) n) :=
  laneOp_resWrite hexec

/-- Three operands. -/
theorem laneOp_exec3 {i : Instr} {w : W1} {c : BitVec 7} {na nc nd : Nat} {F : Nat → Nat → Nat → Nat}
    (hexec : ∀ s, exec i s = .next (exec3 i w c na nc nd F s)) :
    LaneOp i always (fun _ e t =>
      wrN t w.d.toNat (F (rdN e t w.a.toNat na).1 (rdN e t w.b.toNat na).1 (rdN e t c.toNat nc).1)
        (((rdN e t w.a.toNat na).2.or (rdN e t w.b.toNat na).2).or (rdN e t c.toNat nc).2) nd) :=
  laneOp_resWrite hexec

/-- A two-operand instruction whose number function is `f` on words computes `f` (R103). -/
theorem laneOp_bin {i : Instr} {w : W1} {F : Nat → Nat → Nat} {f : Word → Word → Word} (hexec : ∀ s, exec i s = .next (exec2 i w 1 F s))
    (hF : ∀ a b : Word, F a.toNat b.toNat = (f a b).toNat) : LaneOp i always (bin w f) := by
  have h := laneOp_exec2 hexec
  simp only [rdN1_eq, hF] at h
  exact h

/-- The same on pairs (R104). -/
theorem laneOp_binD {i : Instr} {w : W1} {F : Nat → Nat → Nat} {f : DWord → DWord → DWord} (hexec : ∀ s, exec i s = .next (exec2 i w 2 F s))
    (hF : ∀ a b : DWord, F a.toNat b.toNat = (f a b).toNat) : LaneOp i always (binD w f) := by
  have h := laneOp_exec2 hexec
  simp only [rdN2_eq, hF] at h
  exact h

/-- The same with three words (R105, R111, R112). -/
theorem laneOp_ter {i : Instr} {w : W1} {c : BitVec 7} {F : Nat → Nat → Nat → Nat} {f : Word → Word → Word → Word}
    (hexec : ∀ s, exec i s = .next (exec3 i w c 1 1 1 F s)) (hF : ∀ a b c : Word, F a.toNat b.toNat c.toNat = (f a b c).toNat) :
    LaneOp i always (ter w c f) := by
  have h := laneOp_exec3 hexec
  simp only [rdN1_eq, hF] at h
  exact h

/-- The poison of a pair is that of its two registers; the first poisoned one names the tag (R41, R339). -/
theorem srcDP_eq_or (e : Env) (t : Thread) (c : BitVec 7) (heven : c.toNat % 2 = 0) (hlt : c.toNat < 120) :
    srcDP e t c = (rd e t c.toNat).2.or (rd e t (c.toNat + 1)).2 := by
  have h0 : c.toNat ≠ 120 := by omega
  have h1 : c.toNat ≠ 119 := by omega
  simp [srcDP, rdN, h0, h1]

/-! ### The functions on bit vectors -/

/-- An integer modulo 2^n is the n-bit pattern of that integer. -/
theorem wrapInt_eq_ofInt (n : Nat) (z : Int) : wrapInt n z = (BitVec.ofInt n z).toNat := by
  rw [wrapInt, BitVec.toNat_ofInt]

theorem aluIadd_toNat (a b : Word) : aluIadd a.toNat b.toNat = (a + b).toNat := (BitVec.toNat_add a b).symm
theorem aluIsub_toNat (a b : Word) : aluIsub a.toNat b.toNat = (a - b).toNat := by
  rw [BitVec.toNat_sub', aluIsub, Nat.add_sub_assoc b.isLt.le]
theorem aluImul_toNat (a b : Word) : aluImul a.toNat b.toNat = (a * b).toNat := (BitVec.toNat_mul a b).symm

/-- Bits 63 to 32 of a 64-bit value. -/
theorem toNat_highWord (x : DWord) : ((x >>> 32).setWidth 32).toNat = x.toNat / 2 ^ 32 := by
  have := x.isLt
  rw [BitVec.toNat_setWidth, BitVec.toNat_ushiftRight, Nat.shiftRight_eq_div_pow]
  omega

theorem aluImulh_toNat (a b : Word) : aluImulh a.toNat b.toNat = (mulHigh a b).toNat := by
  rw [mulHigh, toNat_highWord, aluImulh, toSigned_toNat a (by decide), toSigned_toNat b (by decide), wrapInt_eq_ofInt, BitVec.ofInt_mul]
  rfl

/-- The product of two words does not overflow 64 bits. -/
theorem aluImulhu_toNat (a b : Word) : aluImulhu a.toNat b.toNat = (mulHighU a b).toNat := by
  have hab : a.toNat * b.toNat < 2 ^ 64 := by simpa using Nat.mul_lt_mul'' a.isLt b.isLt
  rw [mulHighU, toNat_highWord, aluImulhu, BitVec.toNat_mul, BitVec.toNat_setWidth_of_le (by decide), BitVec.toNat_setWidth_of_le (by decide),
    Nat.mod_eq_of_lt hab]

theorem toSigned_le_iff_sle (a b : Word) : toSigned 32 a.toNat ≤ toSigned 32 b.toNat ↔ a.sle b = true := by
  rw [toSigned_toNat a (by decide), toSigned_toNat b (by decide), BitVec.sle_iff_toInt_le]

theorem aluImin_toNat (a b : Word) : aluImin a.toNat b.toNat = (if a.sle b then a else b).toNat := by
  simp only [aluImin, toSigned_le_iff_sle, apply_ite BitVec.toNat]
theorem aluImax_toNat (a b : Word) : aluImax a.toNat b.toNat = (if a.sle b then b else a).toNat := by
  simp only [aluImax, toSigned_le_iff_sle, apply_ite BitVec.toNat]
theorem aluIminu_toNat (a b : Word) : aluIminu a.toNat b.toNat = (if a ≤ b then a else b).toNat := by
  rw [aluIminu, Nat.min_def, apply_ite BitVec.toNat]
  rfl
theorem aluImaxu_toNat (a b : Word) : aluImaxu a.toNat b.toNat = (if a ≤ b then b else a).toNat := by
  rw [aluImaxu, Nat.max_def, apply_ite BitVec.toNat]
  rfl

theorem aluAnd_toNat (a b : Word) : aluAnd a.toNat b.toNat = (a &&& b).toNat := (BitVec.toNat_and a b).symm
theorem aluOr_toNat (a b : Word) : aluOr a.toNat b.toNat = (a ||| b).toNat := (BitVec.toNat_or a b).symm
theorem aluXor_toNat (a b : Word) : aluXor a.toNat b.toNat = (a ^^^ b).toNat := (BitVec.toNat_xor a b).symm

theorem aluShl_toNat (a b : Word) : aluShl a.toNat b.toNat = (a <<< b.toNat).toNat := by
  unfold aluShl
  split
  · next h => rw [BitVec.shiftLeft_eq_zero h]; rfl
  · rw [BitVec.toNat_shiftLeft, Nat.shiftLeft_eq]
theorem aluShr_toNat (a b : Word) : aluShr a.toNat b.toNat = (a >>> b.toNat).toNat := by
  unfold aluShr
  split
  · next h => rw [BitVec.ushiftRight_eq_zero h]; rfl
  · rw [BitVec.toNat_ushiftRight, Nat.shiftRight_eq_div_pow]

/-- A count of 32 or more leaves only the sign, as a count of 32 does. -/
theorem toInt_shiftRight_min (a : Word) (n : Nat) : a.toInt >>> min n 32 = a.toInt >>> n := by
  rcases le_total n 32 with h | h
  · rw [min_eq_left h]
  · obtain ⟨k, rfl⟩ := Nat.exists_eq_add_of_le h
    have hsat : a.toInt >>> (32 : Nat) = 0 ∨ a.toInt >>> (32 : Nat) = -1 := by
      have := BitVec.le_toInt a
      have := BitVec.toInt_lt (x := a)
      rw [Int.shiftRight_eq_div_pow]
      omega
    rw [min_eq_right h, Int.shiftRight_add]
    rcases hsat with h0 | h0
    · simp [h0]
    · rw [h0, show (-1 : Int) = Int.negSucc 0 from rfl, Int.negSucc_shiftRight, Nat.zero_shiftRight]

theorem aluSar_toNat (a b : Word) : aluSar a.toNat b.toNat = (a.sshiftRight b.toNat).toNat := by
  rw [aluSar, toSigned_toNat a (by decide), ← Int.shiftRight_eq_div_pow, toInt_shiftRight_min, wrapInt_eq_ofInt]
  rfl

theorem aluIadd64_toNat (a b : DWord) : aluIadd64 a.toNat b.toNat = (a + b).toNat := (BitVec.toNat_add a b).symm
theorem aluIsub64_toNat (a b : DWord) : aluIsub64 a.toNat b.toNat = (a - b).toNat := by
  rw [BitVec.toNat_sub', aluIsub64, Nat.add_sub_assoc b.isLt.le]

/-- An operand, negated modulo 2^32 where its mark is set (R105). -/
theorem negated_toNat (neg : Bool) (a : Word) : (if neg then (2 ^ 32 - a.toNat) % 2 ^ 32 else a.toNat) = (if neg then -a else a).toNat := by
  rw [apply_ite BitVec.toNat, BitVec.toNat_neg]

theorem aluImad_toNat (na nc : Bool) (a b c : Word) :
    aluImad na nc a.toNat b.toNat c.toNat = ((if na then -a else a) * b + (if nc then -c else c)).toNat := by
  rw [BitVec.toNat_add, BitVec.toNat_mul, ← negated_toNat, ← negated_toNat, Nat.mod_add_mod]
  rfl

/-! ### The statements of R103 to R105 -/

/-- Settles O7: each instruction has the two-operand shape of R103, and on each lane its number function is the one of the table. -/
theorem integerTwoOperand : Obligations.IntegerTwoOperand := by
  intro w
  refine ⟨?_, laneOp_bin (fun _ => rfl) aluIadd_toNat, laneOp_bin (fun _ => rfl) aluIsub_toNat, laneOp_bin (fun _ => rfl) aluImul_toNat,
    laneOp_bin (fun _ => rfl) aluImulh_toNat, laneOp_bin (fun _ => rfl) aluImulhu_toNat, laneOp_bin (fun _ => rfl) aluImin_toNat,
    laneOp_bin (fun _ => rfl) aluImax_toNat, laneOp_bin (fun _ => rfl) aluIminu_toNat, laneOp_bin (fun _ => rfl) aluImaxu_toNat,
    laneOp_bin (fun _ => rfl) aluAnd_toNat, laneOp_bin (fun _ => rfl) aluOr_toNat, laneOp_bin (fun _ => rfl) aluXor_toNat,
    laneOp_bin (fun _ => rfl) aluShl_toNat, laneOp_bin (fun _ => rfl) aluShr_toNat, laneOp_bin (fun _ => rfl) aluSar_toNat⟩
  simp only [List.forall_mem_cons, List.not_mem_nil, false_imp_iff, implies_true, and_true]
  refine ⟨?_, ?_, ?_, ?_, ?_, ?_, ?_, ?_, ?_, ?_, ?_, ?_, ?_, ?_, ?_⟩
  all_goals exact hasForm_n rfl (by decide)

/-- Settles O8: both are the pair shape of R104, and on each lane they add and subtract modulo 2^64. -/
theorem pairSums : Obligations.PairSums := fun w =>
  ⟨hasForm_n rfl (by decide), hasForm_n rfl (by decide),
    laneOp_binD (fun _ => rfl) aluIadd64_toNat, laneOp_binD (fun _ => rfl) aluIsub64_toNat, srcDP_eq_or⟩

/-- Settles O9: IMAD is the EXT-A shape of R105, legal only with `FN` 0, and on each lane it multiplies and adds modulo 2^32. -/
theorem multiplyAdd : Obligations.MultiplyAdd := by
  intro w x
  refine ⟨hasForm_a rfl (by decide), ?_, laneOp_ter (fun _ => rfl) (aluImad_toNat x.na x.nc)⟩
  rintro _ ⟨⟩ henc
  simp only [Info.a, Bool.and_eq_true, beq_iff_eq] at henc
  obtain ⟨⟨⟨_, hfn⟩, _⟩, _⟩ := henc
  exact hfn

end Sys2Proof.Machine
end
